-- ==== Sys2Proof/Word.lean ====
section
/-! DEFINITION. Words of the Tilgal: the widths the manual uses, and the plainest arithmetic on them.
Bit 0 is the least significant bit, and x[hi:lo] takes bits hi down to lo (R3). -/
namespace Sys2Proof

/-- A 64-bit slot (R38, R39). -/
abbrev Word := BitVec 64

/-- A 16-bit halfword of a VF value (R59). -/
abbrev Half := BitVec 16

/-- A 32-bit instruction word (R27). -/
abbrev Code := BitVec 32

/-- A 6-bit register specifier (R38). -/
abbrev Spec := BitVec 6

/-- A die id, 8 y + x (R13). -/
abbrev DieId := BitVec 6

/-- A core number within its die (R20). -/
abbrev CoreId := BitVec 7

/-- A logical cluster number within its die (R20). -/
abbrev ClusterId := BitVec 5

/-- An edge-site number (R15). -/
abbrev SiteId := BitVec 5

/-- The two's-complement value of the low `n` bits of a slot (R78). -/
def Word.low (n : Nat) (x : Word) : BitVec n := x.setWidth n

end Sys2Proof
end

