-- ==== Sys2Proof/Config.lean ====
section
/-! DEFINITION. What one implementation fixes and the manual leaves open. The free values have no body:
nothing can evaluate them, so a claim that holds is true whatever they are (notes/assumptions/4.md). -/
namespace Sys2Proof.Config

/-- The random bytes of the die managers: the challenge of R310, R311 and the salt of a signature (R304,
R307). The argument is the model's own counter of random bytes drawn. -/
opaque randomByte : Nat → BitVec 8

/-- The measured one-way time in ticks of the link from one die to the next (R371, R372). -/
opaque linkTime : Nat → Nat → Nat

/-- Which of the copies that fill an L1 or a remote-data cache makes room for another (R178), by the model's own counter of free values. -/
opaque victim : Nat → Nat

/-- The self-test field of a compute die's HELLO, whose eight bits R359 does not lay out: from the built clusters, slices and loops that failed. -/
opaque selfTestField : List Nat → List Nat → List Nat → BitVec 8

/-- The module ids that a port learns at its training (R362), by the model's own counter of free values. -/
opaque portModules : Nat → BitVec 64

end Sys2Proof.Config
end

