-- ==== Sys2Proof/Syntax.lean ====
section
/-! DEFINITION. The instructions and events of opcode_table.json, one constructor for each row. An instruction word's
fields are held exactly as R42 to R46 and the own layouts lay them out; bits C and B stand beside it in
SlotWord. An event row has no encoding; its parameters name the agent it happens at. -/
namespace Sys2Proof

/-- A Hinge message (R351) less its class and opcode, which its constructor of Instr gives. Slot 1 and up are in
`slots`, each a little-endian 128-bit value (R347). -/
structure Msg where
  /-- follow: the count of slots that the header announces -/
  follow : BitVec 3 := 0
  /-- scope code of the access -/
  scope : BitVec 3 := 0
  /-- destination die -/
  dst : DieId := 0
  /-- originating die -/
  src : DieId := 0
  /-- 0 for a compute-die agent, 0x20 + s for site s -/
  site : BitVec 6 := 0
  /-- epoch, or the lease expiry less a in a DATA message -/
  epoch : BitVec 16 := 0
  /-- transaction number of the originating agent -/
  txn : BitVec 16 := 0
  /-- payload, by opcode -/
  payload : Word := 0
  /-- the slots that follow the header slot -/
  slots : List (BitVec 128) := []
  deriving DecidableEq, Repr, Inhabited

/-- The unit in which an error turned out lasting (R343). -/
inductive FailedUnit where
  /-- a row of an SRAM array, or of the die's HBM4 stack: the number of the row -/
  | row (n : Nat)
  /-- a logical L2 slice with no spare row left, or its logic -/
  | slice (i : BitVec 5)
  /-- a logical cluster: core arrays with no spare row left, or core or cluster logic -/
  | cluster (i : ClusterId)
  /-- a logical loop -/
  | loop (i : BitVec 4)
  deriving DecidableEq, Repr, Inhabited

/-- A stored granule (R340): where a storage error lies. -/
inductive Place where
  /-- the 8-byte granule of the physical address space (HBM, second tier, or its copy in L2) -/
  | mem (granule : Nat)
  /-- the 8-byte granule of a core's stash -/
  | stash (die : DieId) (core : CoreId) (granule : Nat)
  /-- the named slot of a thread in register storage -/
  | slot (th : Nat) (j : Nat)
  /-- the result-queue slot of a thread at a ring position, in register storage -/
  | ring (th : Nat) (r : Nat)
  /-- a granule of a line of the HBM stack whose bad symbols cannot be located: the line -/
  | line (l : Nat)
  /-- the granule, 0 to 7, of a copy of a line in a core's L1 -/
  | l1 (die : DieId) (core : CoreId) (l g : Nat)
  /-- the granule, 0 to 7, of a dirty line in a cluster buffer -/
  | buffer (die : DieId) (cl : ClusterId) (l g : Nat)
  /-- the directory state of a line, its sidecar included -/
  | directory (l : Nat)
  /-- the fault-buffer entries of a thread on its core -/
  | faults (th : Nat)
  deriving DecidableEq, Repr, Inhabited

/-- One constructor per row of opcode_table.json. -/
inductive Instr where
  /-- NOP (R46). Does nothing and takes one issue slot. -/
  | nop
  /-- POOL (R53). Skips the rest of its packet and the given number of literal packets. -/
  | pool (count : BitVec 20)
  /-- EXIT (R266). Ends the thread at retirement, clearing its mask bits and discarding outstanding results. -/
  | exit
  /-- RET (R265). Pops the return address from the thread-private call stack and resumes there, or raises PROTECTION at call depth 0. -/
  | ret
  /-- YIELD (R267). Ends the run and makes the thread younger than every thread ready at issue. -/
  | yield
  /-- RFT (R268). Returns from a trap handler by resuming at trappc and clearing trapcause. -/
  | rft
  /-- RFT_SKIP (R268). Returns from a trap handler at the word after the trapping chain. -/
  | rftSkip
  /-- BRKPT (R269). Raises the user-recoverable TRAP cause with the code and breakpoint mark in trap info. -/
  | brkpt (code : BitVec 20)
  /-- LAST (R41). Marks up to three named slots dead when its chain retires. -/
  | last (x y z : Spec)
  /-- ADD (R87). Integer addition, wrapping, in 64 or 32 bits. -/
  | add (d a b : Spec) (w : Bool)
  /-- SUB (R87). Integer subtraction, wrapping. -/
  | sub (d a b : Spec) (w : Bool)
  /-- MUL (R87). Low W bits of the integer product. -/
  | mul (d a b : Spec) (w : Bool)
  /-- MULH (R87). High W bits of the signed product. -/
  | mulh (d a b : Spec) (w : Bool)
  /-- MULHN (R87). High W bits of the unsigned product. -/
  | mulhn (d a b : Spec) (w : Bool)
  /-- DIV (R88). Signed quotient truncated towards zero, with defined edge cases. -/
  | div (d a b : Spec) (w : Bool)
  /-- DIVN (R88). Unsigned quotient, all-ones on division by zero. -/
  | divn (d a b : Spec) (w : Bool)
  /-- REM (R88). Signed remainder with the sign of a. -/
  | rem (d a b : Spec) (w : Bool)
  /-- REMN (R88). Unsigned remainder. -/
  | remn (d a b : Spec) (w : Bool)
  /-- MIN (R87). Signed minimum. -/
  | min (d a b : Spec) (w : Bool)
  /-- MAX (R87). Signed maximum. -/
  | max (d a b : Spec) (w : Bool)
  /-- MINN (R87). Unsigned minimum. -/
  | minn (d a b : Spec) (w : Bool)
  /-- MAXN (R87). Unsigned maximum. -/
  | maxn (d a b : Spec) (w : Bool)
  /-- AND (R87). Bitwise AND. -/
  | and (d a b : Spec) (w : Bool)
  /-- OR (R87). Bitwise OR. -/
  | or (d a b : Spec) (w : Bool)
  /-- XOR (R87). Bitwise exclusive OR. -/
  | xor (d a b : Spec) (w : Bool)
  /-- ANDN (R87). a AND NOT b. -/
  | andn (d a b : Spec) (w : Bool)
  /-- SHL (R87). Shift left by the low bits of b. -/
  | shl (d a b : Spec) (w : Bool)
  /-- SHR (R87). Logical shift right. -/
  | shr (d a b : Spec) (w : Bool)
  /-- SAR (R87). Arithmetic shift right. -/
  | sar (d a b : Spec) (w : Bool)
  /-- ROT (R87). Rotate right. -/
  | rot (d a b : Spec) (w : Bool)
  /-- CLZ (R87). Count of leading zeros within W bits. -/
  | clz (d a : Spec) (w : Bool)
  /-- POPC (R87). Count of ones. -/
  | popc (d a : Spec) (w : Bool)
  /-- BREV (R87). Bit reversal within W bits. -/
  | brev (d a : Spec) (w : Bool)
  /-- ABS (R87). Signed absolute value, wrapping. -/
  | abs (d a : Spec) (w : Bool)
  /-- NEG (R87). Integer negation, wrapping. -/
  | neg (d a : Spec) (w : Bool)
  /-- SEXT (R87). Sign-extends a[31:0] to 64 bits. -/
  | sext (d a : Spec)
  /-- ZEXT (R87). Zero-extends a[31:0] to 64 bits. -/
  | zext (d a : Spec)
  /-- MOV (R87). Copies a. -/
  | mov (d a : Spec) (w : Bool)
  /-- ADDI (R89). Adds a sign-extended 12-bit immediate. -/
  | addi (d a : Spec) (i : BitVec 12)
  /-- ANDI (R90). ANDs a zero-extended 10-bit immediate. -/
  | andi (d a : Spec) (i : BitVec 10)
  /-- ORI (R90). ORs a zero-extended 10-bit immediate. -/
  | ori (d a : Spec) (i : BitVec 10)
  /-- XORI (R90). XORs a zero-extended 10-bit immediate. -/
  | xori (d a : Spec) (i : BitVec 10)
  /-- ANDNI (R90). a AND NOT a zero-extended immediate. -/
  | andni (d a : Spec) (i : BitVec 10)
  /-- SHLI (R91). Shift left by an immediate amount. -/
  | shli (d a : Spec) (w : Bool) (s : Spec)
  /-- SHRI (R91). Logical shift right by an immediate. -/
  | shri (d a : Spec) (w : Bool) (s : Spec)
  /-- SARI (R91). Arithmetic shift right by an immediate. -/
  | sari (d a : Spec) (w : Bool) (s : Spec)
  /-- ROTI (R91). Rotate right by an immediate. -/
  | roti (d a : Spec) (w : Bool) (s : Spec)
  /-- ICMP (R92). Compares two registers and sets or combines a predicate. -/
  | icmp (cond p : BitVec 3) (a b : Spec) (comb : BitVec 3) (w : Bool)
  /-- ICMPI (R92). Compares a register with a 9-bit signed immediate and sets or combines a predicate. -/
  | icmpi (cond p : BitVec 3) (a immHi : Spec) (comb immLo : BitVec 3)
  /-- SEL (R93). Selects a or b by a predicate. -/
  | sel (d a b : Spec) (k : BitVec 3)
  /-- BFX (R93). Extracts a bit field, zero- or sign-extended. -/
  | bfx (d a b : Spec) (sx : Bool)
  /-- BFI (R93). Inserts a bit field into the old value of a named slot. -/
  | bfi (d a b : Spec)
  /-- PMOV (R93). Copies the predicates into a register. -/
  | pmov (d : Spec)
  /-- SETP (R93). Sets predicates p1 to p7 from a register. -/
  | setp (a : Spec)
  /-- BPERM (R93). Permutes bytes of a by nibble selectors in b. -/
  | bperm (d a b : Spec)
  /-- LDLIT (R94). Loads eight code bytes at a word offset from its packet through instruction translation. -/
  | ldlit (d : Spec) (off : BitVec 18)
  /-- ADDR (R96). Computes a plus b shifted left by a scale. -/
  | addr (d a b : Spec) (scale : BitVec 3)
  /-- SPR_GET (R97). Reads a special register. -/
  | sprGet (x : Spec) (num : BitVec 12)
  /-- SPR_SET (R97). Writes a special register, effective at the run boundary. -/
  | sprSet (x : Spec) (num : BitVec 12)
  /-- SPR_SWAP (R97). Returns a special register's old value and writes a new one at the boundary. -/
  | sprSwap (x : Spec) (num : BitVec 12)
  /-- REDO (R220). Sends a VF contribution under an ordinal, applied at the home in ascending ordinal order. -/
  | redo (a base b : Spec) (scope : BitVec 3)
  /-- FADD (R99). VF addition rounded once, evaluating PX. -/
  | fadd (d a b : Spec) (rnd : BitVec 2) (cls : BitVec 4)
  /-- FSUB (R99). VF subtraction rounded once, evaluating PX. -/
  | fsub (d a b : Spec) (rnd : BitVec 2) (cls : BitVec 4)
  /-- FMUL (R99). VF multiplication rounded once. -/
  | fmul (d a b : Spec) (rnd : BitVec 2) (cls : BitVec 4)
  /-- FMIN (R101). Chooses the lesser VF operand. -/
  | fmin (d a b : Spec) (cls : BitVec 4)
  /-- FMAX (R101). Chooses the greater VF operand. -/
  | fmax (d a b : Spec) (cls : BitVec 4)
  /-- FMINM (R101). Chooses the operand of lesser magnitude. -/
  | fminm (d a b : Spec) (cls : BitVec 4)
  /-- FMAXM (R101). Chooses the operand of greater magnitude. -/
  | fmaxm (d a b : Spec) (cls : BitVec 4)
  /-- FFMA (R99). Fused a times b plus c at prc class and mode. -/
  | ffma (d a b e : Spec)
  /-- FFMS (R99). Fused a times b minus c. -/
  | ffms (d a b e : Spec)
  /-- FNMA (R99). Fused minus a times b plus c. -/
  | fnma (d a b e : Spec)
  /-- FABS (R104). VF absolute value rounded to the result class. -/
  | fabs (d a : Spec) (rnd : BitVec 2) (cls : BitVec 4)
  /-- FNEG (R104). VF negation rounded to the result class. -/
  | fneg (d a : Spec) (rnd : BitVec 2) (cls : BitVec 4)
  /-- FRND (R104). Rounds a VF value to an integer value. -/
  | frnd (d a : Spec) (rnd : BitVec 2) (cls : BitVec 4)
  /-- GETE (R104). Returns the binary exponent of a VF value as an integer. -/
  | gete (d a : Spec)
  /-- GETM (R104). Returns the significand of a VF value in [1, 2). -/
  | getm (d a : Spec) (rnd : BitVec 2) (cls : BitVec 4)
  /-- FCLASS (R105). Classifies a VF value into a one-hot integer with its class. -/
  | fclass (d a : Spec)
  /-- RECLASS (R104). Rounds a VF value to another class. -/
  | reclass (d a : Spec) (rnd : BitVec 2) (cls : BitVec 4)
  /-- FCMP (R106). Compares two VF values exactly and sets or combines a predicate. -/
  | fcmp (cond p : BitVec 3) (a b : Spec) (comb : BitVec 3) (sig : Bool)
  /-- TWOSUM (R107). Produces the rounded sum and its exact error. -/
  | twosum (d a b : Spec) (cls : BitVec 4)
  /-- TWOPROD (R107). Produces the rounded product and its exact error. -/
  | twoprod (d a b : Spec) (cls : BitVec 4)
  /-- CVTIN (R109). Converts an IEEE or integer value into VF. -/
  | cvtin (d a : Spec) (ty : BitVec 4) (rnd : BitVec 2) (cls : BitVec 4)
  /-- CVTOUT (R109). Converts a VF value to an IEEE or integer type. -/
  | cvtout (d a : Spec) (ty : BitVec 4) (rnd : BitVec 2)
  /-- FSCL (R103). Scales a VF value by a power of two. -/
  | fscl (d a b : Spec) (rnd : BitVec 2) (cls : BitVec 4)
  /-- RCP (R111). Correctly rounded reciprocal. -/
  | rcp (d a : Spec) (rnd : BitVec 2) (cls : BitVec 4)
  /-- RSQ (R111). Correctly rounded reciprocal square root. -/
  | rsq (d a : Spec) (rnd : BitVec 2) (cls : BitVec 4)
  /-- SQRT (R111). Correctly rounded square root. -/
  | sqrt (d a : Spec) (rnd : BitVec 2) (cls : BitVec 4)
  /-- EXP2 (R111). Correctly rounded power of two. -/
  | exp2 (d a : Spec) (rnd : BitVec 2) (cls : BitVec 4)
  /-- LOG2 (R111). Correctly rounded base-2 logarithm. -/
  | log2 (d a : Spec) (rnd : BitVec 2) (cls : BitVec 4)
  /-- SIN (R112). Correctly rounded sine, with RANGE for large arguments. -/
  | sin (d a : Spec) (rnd : BitVec 2) (cls : BitVec 4)
  /-- COS (R112). Correctly rounded cosine, with RANGE for large arguments. -/
  | cos (d a : Spec) (rnd : BitVec 2) (cls : BitVec 4)
  /-- TANH (R111). Correctly rounded hyperbolic tangent. -/
  | tanh (d a : Spec) (rnd : BitVec 2) (cls : BitVec 4)
  /-- XPULL (R119). Collective read of a from the participant at a given virtual lane. -/
  | xpull (d a b : Spec) (k : BitVec 3)
  /-- XRANK (R119). Collective read of a from the participant at a rank offset. -/
  | xrank (d a b : Spec) (k : BitVec 3)
  /-- XSEGB (R119). Collective broadcast from the lowest participant of an aligned segment. -/
  | xsegb (d a b : Spec) (k : BitVec 3)
  /-- XREV (R119). Collective read from the mirrored lane of an aligned segment. -/
  | xrev (d a b : Spec) (k : BitVec 3)
  /-- XCOUNT (R119). Counts participants at which a predicate holds, and the participants. -/
  | xcount (d : Spec) (neg : Bool) (j k : BitVec 3)
  /-- XFIRST (R119). Returns the lowest participant lane at which a predicate holds. -/
  | xfirst (d : Spec) (neg : Bool) (j k : BitVec 3)
  /-- XMASK (R119). Returns the lane set of participants at which a predicate holds. -/
  | xmask (d : Spec) (neg : Bool) (j k : BitVec 3)
  /-- GBCAST (R119). Broadcasts a from the lowest participant. -/
  | gbcast (d a : Spec) (k : BitVec 3)
  /-- GRED (R121). Collective reduction over the participants by the fixed tree. -/
  | gred (d a : Spec) (op : BitVec 4) (k : BitVec 3)
  /-- GSCAN (R121). Collective inclusive or exclusive scan by the fixed tree. -/
  | gscan (d a : Spec) (op : BitVec 4) (excl : Bool) (k : BitVec 3)
  /-- PACK6 (R114). Converts a VF value to a narrow element code with a block's tag and scale. -/
  | pack6 (d a b : Spec)
  /-- UNPK6 (R115). Converts a narrow operand slot to a VF value. -/
  | unpk6 (d a : Spec) (cls : BitVec 4)
  /-- XPR (R117). Expression triple: evaluates up to seven stack operators over four inputs and pushes one result. -/
  | xpr (in0 in1 in2 in3 : Spec)
  /-- CMMA (R157). Collective 8 by 8 by 8 VF multiply-add over the group. -/
  | cmma (d a b : Spec) (k : BitVec 3)
  /-- LD (R214). Loads a value of the given size from global, stash or private space. -/
  | ld (d base : Spec) (space : BitVec 2) (size : BitVec 3) (reuse : BitVec 2) (off : BitVec 5)
  /-- ST (R214). Stores the low bytes or VF form of a register. -/
  | st (src base : Spec) (space : BitVec 2) (size : BitVec 3) (reuse : BitVec 2) (off : BitVec 5)
  /-- LDA (R215). Load followed by an acquire at the given scope, optionally a peek. -/
  | lda (d base : Spec) (space : BitVec 2) (size : BitVec 3) (reuse : BitVec 2) (peek : Bool) (scope : BitVec 3)
  /-- STRL (R215). Release at the given scope followed by a store. -/
  | strl (src base : Spec) (space : BitVec 2) (size : BitVec 3) (reuse : BitVec 2) (scope : BitVec 3)
  /-- PREF (R217). Brings a line into L2 or starts a stash fill, never trapping. -/
  | pref (base : Spec) (space reuse : BitVec 2) (off : BitVec 5)
  /-- PREF_L1 (R217). Prefetch into L2 and the issuing core's L1. -/
  | prefL1 (base : Spec) (space reuse : BitVec 2) (off : BitVec 5)
  /-- PREF_HOME (R217). Sets a home-die hint for the next global load of the run. -/
  | prefHome (die : Spec)
  /-- WMAP (R224). Maps a stash window from a four-slot descriptor. -/
  | wmap (d a : Spec)
  /-- WUNMAP (R224). Writes back, releases and unmaps a window. -/
  | wunmap (d a : Spec)
  /-- WFLUSH (R224). Writes back a window's written words, keeping ownership. -/
  | wflush (d a : Spec)
  /-- WDROP (R224). Releases ownership and presence without writing back. -/
  | wdrop (d a : Spec)
  /-- WQUERY (R223). Returns the window query word. -/
  | wquery (d a : Spec)
  /-- ATOM (R218). 64-bit atomic read-modify-write returning the old value. -/
  | atom (d base b : Spec) (scope op : BitVec 3)
  /-- RED (R219). Unordered reduction applied indivisibly at the perform point. -/
  | red (a base : Spec) (scope op : BitVec 3) (w : Bool)
  /-- FENCE_REL (R221). Release fence at a scope. -/
  | fenceRel (scope : BitVec 3)
  /-- FENCE_ACQ (R221). Acquire fence at a scope. -/
  | fenceAcq (scope : BitVec 3)
  /-- FENCE_FULL (R221). Full fence at a scope. -/
  | fenceFull (scope : BitVec 3)
  /-- CPYA (R230). Posts an asynchronous two-dimensional copy and returns a ticket. -/
  | cpya (a t : Spec) (sspace dspace : BitVec 2)
  /-- GATH (R232). Posts an asynchronous indexed gather and returns a ticket. -/
  | gath (a t : Spec) (mode : BitVec 2) (i64 istash dstash : Bool)
  /-- SCAT (R232). Posts an asynchronous indexed scatter and returns a ticket. -/
  | scat (a t : Spec) (mode : BitVec 2) (i64 istash dstash : Bool)
  /-- SCAT_REDUCE (R232). Posts an asynchronous scatter-reduce applied in ascending position. -/
  | scatReduce (a t : Spec) (mode : BitVec 2) (i64 istash dstash : Bool) (op scope : BitVec 3)
  /-- DRAIN (R233). Waits until one ticket is done. -/
  | drain (d a : Spec)
  /-- DRAIN_ALL (R233). Waits until every async ticket of the thread is done. -/
  | drainAll (d : Spec)
  /-- DRAIN_PASS (R233). Waits until every pass ticket of the team is done. -/
  | drainPass (d : Spec)
  /-- ATOMW (R218). 32-bit atomic read-modify-write returning the old value. -/
  | atomw (d base b : Spec) (scope op : BitVec 3)
  /-- ATOMC (R218). Atomic compare-and-swap with the new value from q0. -/
  | atomc (d base b : Spec) (scope : BitVec 3) (w : Bool)
  /-- BRA (R261). Conditional packet-relative branch, optionally checked uniform. -/
  | bra (neg : Bool) (p : BitVec 3) (u : Bool) (off : BitVec 19)
  /-- CALL (R263). Conditional call pushing the return address on the thread-private stack. -/
  | call (neg : Bool) (p : BitVec 3) (u : Bool) (off : BitVec 19)
  /-- JMPR (R264). Conditional jump to a register target. -/
  | jmpr (neg : Bool) (p : BitVec 3) (u : Bool) (a : Spec)
  /-- CALLR (R264). Conditional call to a register target. -/
  | callr (neg : Bool) (p : BitVec 3) (u : Bool) (a : Spec)
  /-- LOOP (R271). Sets a loop counter and record for a body of packets, or skips it on a zero count. -/
  | loop (i : BitVec 2) (n : Spec) (len : BitVec 12)
  /-- JOIN (R273). Sets the issuer's bit in a group mask. -/
  | join (k : BitVec 4)
  /-- LEAVE (R273). Clears the issuer's bit in a group mask. -/
  | leave (k : BitVec 4)
  /-- WAITM (R274). Clears the issuer's bit and waits until the mask empties, then re-arms it. -/
  | waitm (k j : BitVec 4)
  /-- MGET (R273). Reads a group mask. -/
  | mget (d : Spec) (k : BitVec 4)
  /-- MSET (R273). Writes a group mask. -/
  | mset (a : Spec) (k : BitVec 4)
  /-- MSAVE (R273). Copies one group mask to another. -/
  | msave (k j : BitVec 4)
  /-- MRST (R273). Resets a group mask to m0. -/
  | mrst (k : BitVec 4)
  /-- WAITC (R278). Waits on up to four memory, stash, ticket, latch or mask conditions with a time-out. -/
  | waitc (d a : Spec) (n : BitVec 2) (all t : Bool)
  /-- LATCH_ARRIVE (R285). Releases at module scope and counts an arrival on a latch number without waiting. -/
  | latchArrive (d : Spec) (num : BitVec 4) (count : BitVec 12)
  /-- LATCH_SYNC (R285). Arrives on a latch number and waits for the phase release. -/
  | latchSync (d : Spec) (num : BitVec 4) (count : BitVec 12)
  /-- LATCH_WAIT (R285). Waits for the release of the current latch phase. -/
  | latchWait (d : Spec) (num : BitVec 4)
  /-- LATCH_X (R285). Raises the core's input for the phase and excuses the core from later phases. -/
  | latchX (d : Spec) (num : BitVec 4)
  /-- TBAR_ARRIVE (R281). Releases at team scope and counts an arrival at a team barrier. -/
  | tbarArrive (d : Spec) (num : BitVec 4) (count : BitVec 11)
  /-- TBAR_SYNC (R281). Arrives at a team barrier and waits for the phase to complete. -/
  | tbarSync (d : Spec) (num : BitVec 4) (count : BitVec 11)
  /-- TBAR_WAIT (R281). Waits for the current phase of a team barrier. -/
  | tbarWait (d : Spec) (num : BitVec 4)
  /-- CBAR_ARRIVE (R282). Drains shadow stores, releases at cluster scope and counts an arrival. -/
  | cbarArrive (d : Spec) (num : BitVec 3) (count : BitVec 12)
  /-- CBAR_SYNC (R282). Arrives at a cluster barrier and waits for the phase. -/
  | cbarSync (d : Spec) (num : BitVec 3) (count : BitVec 12)
  /-- CBAR_WAIT (R281). Waits for the current phase of a cluster barrier. -/
  | cbarWait (d : Spec) (num : BitVec 3)
  /-- LAUNCH (R288). Releases at module scope and submits a launch packet to the die's dispatcher. -/
  | launch (d a : Spec)
  /-- MPASS_DENSE (R151). Posts a DENSE chain pass to the matrix engine. -/
  | mpassDense (d s : Spec)
  /-- MPASS_REDUCE (R151). Posts a REDUCE pass contributing an ordered partial. -/
  | mpassReduce (d s : Spec)
  /-- MPASS_BATCH (R151). Posts a block-diagonal BATCH chain pass. -/
  | mpassBatch (d s : Spec)
  /-- MPASS_MVEC (R151). Posts a matrix-vector MVEC chain pass. -/
  | mpassMvec (d s : Spec)
  /-- ACCINIT (R153). Posts an accumulator initialisation that enters a tile into the ACC state. -/
  | accinit (d a : Spec) (keep : Bool) (kind : BitVec 2)
  /-- MCANCEL (R154). Cancels a pass ticket or an ACC tile and returns its query word. -/
  | mcancel (d a : Spec) (tile : Bool)
  /-- MQUERY (R155). Returns the status of a pass ticket or a tile. -/
  | mquery (d a : Spec) (tile : Bool)
  /-- FDIV (R102). VF division rounded once. -/
  | fdiv (d a b : Spec) (rnd : BitVec 2) (cls : BitVec 4)
  /-- FMAN (R116). Exact narrow product plus a VF value, rounded once. -/
  | fman (d a b e : Spec)
  /-- TRAP (R299). Raises the user-recoverable TRAP cause with a code. -/
  | trap (x : BitVec 8)
  /-- SVC (R299). Raises the SVC system cause with a service number and argument. -/
  | svc (a : Spec) (x : BitVec 8)
  /-- SAVEQ (R328). Stores the sixteen result-queue entries to memory. -/
  | saveq (a : Spec)
  /-- RSTQ (R329). Reloads the result queue from memory at the run boundary. -/
  | rstq (a : Spec)
  /-- GETS (R300). Reads a system register at supervisor level. -/
  | gets (d : Spec) (x : BitVec 8)
  /-- SETS (R300). Writes a system register at supervisor level. -/
  | sets (a : Spec) (x : BitVec 8)
  /-- TLBI_PAGE (R301). Invalidates translations of one page of an ASID module-wide and writes back its window lines. -/
  | tlbiPage (d a : Spec)
  /-- TLBI_ASID (R301). Invalidates every translation of an ASID and unmaps its windows. -/
  | tlbiAsid (d a : Spec)
  /-- TLBI_ALL (R301). Invalidates every translation of every ASID. -/
  | tlbiAll (d a : Spec)
  /-- INVL (R302). Empties every instruction-fetch and loop buffer of the module. -/
  | invl
  /-- WBL (R303). Writes every dirty byte of a range to its backing memory. -/
  | wbl (d a : Spec)
  /-- WIPE (R303). Writes zeros over a range at its homes. -/
  | wipe (d a : Spec)
  /-- RESERVED_OPCODE (R52). A thread issues a word of major opcode 45 or 63, such as the urkas guard word, and raises ILLEGAL. -/
  | reservedOpcode (w : Code)
  /-- WAITC_POLL (R278). Every 256 ticks an unwatchable memory condition is read again at its home. -/
  | waitcPoll (th c : Nat)
  /-- WAITC_TIMEOUT (R278). When the time-out passes, WAITC completes or raises TIMEOUT. -/
  | waitcTimeout (th : Nat)
  /-- LATCH_RELEASE (R283). When a segment's AND becomes true the phase rises and the release reaches every core within its band. -/
  | latchRelease (num : BitVec 4) (die : DieId)
  /-- RUN_FORCED_END (R32). When the run counter reaches 24 the run ends by force. -/
  | runForcedEnd (th : Nat)
  /-- LONG_RESULT_RETURN (R34). A long result returns, and a thread waiting at its boundary becomes ready once all have returned. -/
  | longResultReturn (th : Nat)
  /-- FORM_GANG (R240). When a gang entry is free and a thread is ready, the picker forms a gang. -/
  | formGang (die : DieId) (core : CoreId)
  /-- PARK_RESUME (R11). When a park condition holds, the thread resumes or replays its faulting instruction. -/
  | parkResume (th : Nat)
  /-- THREAD_FAULT_RECORD (R319). Once any pending wait completes, a thread-fault record is posted to the context fault ring. -/
  | threadFaultRecord (th : Nat)
  /-- LEASE_EXPIRY (R191). A lease record or copy reaches its expiry and is dropped, clearing read-only window presence. -/
  | leaseExpiry (die : DieId)
  /-- CLUSTER_BUFFER_WRITEBACK (R179). A dirty cluster-buffer line is written back on eviction or 2,048 ticks after turning dirty. -/
  | clusterBufferWriteback (die : DieId) (cl : ClusterId) (line : Nat)
  /-- STASH_FILL_COMPLETE (R171). All words of a stash line fill arrive, the presence bit is set and parked accesses proceed. -/
  | stashFillComplete (die : DieId) (core : CoreId) (line : Nat)
  /-- ACCINIT_APPLY (R135). Home slices recall owners, zero the tile and set sidecars, or report BUSY or FULL. -/
  | accinitApply (die : DieId) (cl : ClusterId) (key : Nat)
  /-- MATRIX_GRANT (R124). When an interleave slot is free the arbiter grants the ready entry of highest priority and age. -/
  | matrixGrant (die : DieId) (cl : ClusterId)
  /-- PASS_PRIORITY_AGING (R124). An entry ready for 65,536 cycles without a grant takes effective priority 7. -/
  | passPriorityAging (die : DieId) (cl : ClusterId) (key : Nat)
  /-- K_STEP (R132). A granted pass applies one k step, updating k-progress at block ends or stopping at a block boundary. -/
  | kStep (die : DieId) (cl : ClusterId) (key : Nat)
  /-- PARTIAL_RESEND (R144). At least 64 cycles after a NACK, the partial or REDO is resent. -/
  | partialResend (key : Nat)
  /-- PASS_PREEMPT_STOP (R148). A granted pass still running 8 µs after a pre-emption request stops at its next block boundary. -/
  | passPreemptStop (die : DieId) (cl : ClusterId) (key : Nat)
  /-- ASYNC_OP_COMPLETE (R227). An asynchronous operation ends, frees its entry and writes its status word. -/
  | asyncOpComplete (die : DieId) (core : CoreId) (key : Nat)
  /-- KNOCKER_WRITE (R294). A watched knocker write makes the dispatcher take pending packets or stop the queue. -/
  | knockerWrite (die : DieId) (q : BitVec 6)
  /-- COHORT_PLACE (R250). The dispatcher places a waiting cohort when every team fits and starts its threads. -/
  | cohortPlace (die : DieId)
  /-- DISPATCHER_PREEMPT (R256). A cohort that cannot be placed causes pre-emption of eligible resident cohorts. -/
  | dispatcherPreempt (die : DieId)
  /-- IDLE_STEAL (R253). An idle die steals half of a victim's undispatched cohorts. -/
  | idleSteal (die : DieId) (grid : Nat)
  /-- COHORT_SAVED (R331). Once all threads stop and saves complete, the image is written and the cohort becomes waiting. -/
  | cohortSaved (grid cohort : Nat)
  /-- COHORT_RESTORE (R338). The dispatcher restores a saved cohort onto cores and resumes its threads. -/
  | cohortRestore (grid cohort : Nat)
  /-- GRID_END (R237). When all cohorts end and tickets are done, the grid releases at system scope and writes its completion word. -/
  | gridEnd (grid : Nat)
  /-- FAULT_REPORT_REOFFER (R325). Every 10 µs held reports are offered again to a full fault ring. -/
  | faultReportReoffer (die : DieId)
  /-- LASTING_ERROR (R343). An error that fails its retry starts self-repair of the row, slice, cluster or loop. -/
  | lastingError (die : DieId) (unit : FailedUnit)
  /-- CLOCK_ADJUST (R369). The die manager sets the core clock to keep average power within POWERCAP. -/
  | clockAdjust (die : DieId) (steps : BitVec 5)
  /-- MODULE_RESET (R309). Reset wipes storage, runs discovery and checks the firmware before cores run. -/
  | moduleReset
  /-- ELECT_QUIET (R370). After 20 µs without a lower ELECT the anchor is chosen. -/
  | electQuiet
  /-- HELLO_TIMEOUT (R359). An edge die not answering HELLO within 1 ms is recorded empty. -/
  | helloTimeout (site : SiteId)
  /-- IMGREQ_TIMEOUT (R312). An unanswered IMGREQ is resent after 1 ms, and after three tries the module enters recovery. -/
  | imgreqTimeout
  /-- EDGE_REQUEST_TIMEOUT (R361). A memory-die request unanswered in 20 µs is resent once, then fails with DATALOSS. -/
  | edgeRequestTimeout (site : SiteId) (txn : BitVec 16)
  /-- MCAST_TIMEOUT (R363). A system-scope access unanswered within 1 ms raises MCAST. -/
  | mcastTimeout (th : Nat)
  /-- UCIE_MODULE_ERROR (R357). A UCIe module with uncleared errors is retrained, then dropped, possibly killing a link or die. -/
  | ucieModuleError (die : DieId) (dir : BitVec 2) (m : BitVec 2)
  /-- SITE_POWER_CUT (R358). A site drawing over 25 W averaged over 1 ms is cut and marked failed. -/
  | sitePowerCut (site : SiteId)
  /-- RD (R352). Hinge line read with a lease. -/
  | rd (m : Msg)
  /-- RDN (R352). Hinge line read without a lease. -/
  | rdn (m : Msg)
  /-- RDO (R352). Hinge window fill claiming masked words. -/
  | rdo (m : Msg)
  /-- WR (R352). Hinge full-line write. -/
  | wr (m : Msg)
  /-- WRM (R352). Hinge masked write. -/
  | wrm (m : Msg)
  /-- ATM (R352). Hinge atomic request. -/
  | atm (m : Msg)
  /-- WATCH (R352). Registers a watch on a word at its home. -/
  | watch (m : Msg)
  /-- UNWATCH (R352). Drops a watch. -/
  | unwatch (m : Msg)
  /-- WB (R352). Window write-back of masked words. -/
  | wb (m : Msg)
  /-- PROBE (R352). Home asks an owning die for owned words. -/
  | probe (m : Msg)
  /-- RECALL (R172). Home recalls a stash line, which writes back and releases ownership. -/
  | recall (m : Msg)
  /-- ACK (R194). Acknowledges an applied write with home time and residual wait, fixing its visibility time. -/
  | ack (m : Msg)
  /-- NACK (R144). Reorder buffer full; the request is to be resent. -/
  | nack (m : Msg)
  /-- REMAP (R184). Request unapplied; the requester updates its epoch and resends. -/
  | remap (m : Msg)
  /-- DONE (R352). UNWATCH or RECALL complete. -/
  | done (m : Msg)
  /-- ERR (R352). A request failed with PROTECTION, DATALOSS or ORDER, reported by the requester. -/
  | err (m : Msg)
  /-- DATA (R352). Line data with lease expiry and stamp. -/
  | data (m : Msg)
  /-- PDATA (R352). Probe answer carrying owned words. -/
  | pdata (m : Msg)
  /-- REDU (R352). Remote unordered reduction applied at the home. -/
  | redu (m : Msg)
  /-- REDW (R220). Remote ordered contribution applied, held or refused at the home. -/
  | redw (m : Msg)
  /-- PART (R142). Matrix partial applied in ordinal order, held or NACKed at the tile line's home. -/
  | part (m : Msg)
  /-- HELLO (R359). Link partner identification with type and credits. -/
  | hello (m : Msg)
  /-- TIMEX (R371). Time exchange for measuring counter offsets. -/
  | timex (m : Msg)
  /-- ELECT (R370). Flooded best host site for anchor election. -/
  | elect (m : Msg)
  /-- ASSIGN (R370). Assigns grid coordinates breadth-first from the anchor. -/
  | assign (m : Msg)
  /-- EPOCH (R184). Broadcasts a new slice-map epoch. -/
  | epoch (m : Msg)
  /-- WATCHV (R278). Watch notice delivering a watched word's new value to the waiting core. -/
  | watchv (m : Msg)
  /-- STEAL (R254). Steal request or answer carrying a grid id and a cohort range. -/
  | steal (m : Msg)
  /-- IMG (R305). Firmware image chunk or signed command forwarded to a die. -/
  | img (m : Msg)
  /-- HINGE_WIPE (R361). Wipe request to a memory site. -/
  | hingeWipe (m : Msg)
  /-- WIPED (R361). A memory site reports its wipe done and populated size. -/
  | wiped (m : Msg)
  /-- IMGREQ (R312). Anchor asks the host die for 64 image bytes at an offset. -/
  | imgreq (m : Msg)
  /-- REPLAY_RETRY (R163). Replay command RETRY: waiting accesses translate again. -/
  | replayRetry (die : DieId) (tag : BitVec 32)
  /-- REPLAY_FAIL (R163). Replay command FAIL: waiting accesses raise TRANSLATION. -/
  | replayFail (die : DieId) (tag : BitVec 32)
  /-- THREADCMD_RETRY (R320). Thread command RETRY reissues the trapping chain. -/
  | threadcmdRetry (die : DieId) (tag : BitVec 32)
  /-- THREADCMD_SKIP (R320). Thread command SKIP resumes after the trapping chain. -/
  | threadcmdSkip (die : DieId) (tag : BitVec 32)
  /-- THREADCMD_UPCALL (R320). Thread command UPCALL enters trapentry with the recorded cause. -/
  | threadcmdUpcall (die : DieId) (tag : BitVec 32)
  /-- THREADCMD_ABORT (R321). Thread command ABORT ends the thread's grid. -/
  | threadcmdAbort (die : DieId) (tag : BitVec 32)
  /-- QSLOT_MAP (R293). Maps a queue descriptor to a queue slot or refuses it. -/
  | qslotMap (die : DieId) (q : BitVec 6) (desc : Word)
  /-- QSLOT_UNMAP (R296). Requests unmapping of a queue slot. -/
  | qslotUnmap (die : DieId) (q : BitVec 6)
  /-- QSLOT_UNMAP_COMPLETE (R296). After dispatch of taken packets ends, the unmap completes and the watch is dropped. -/
  | qslotUnmapComplete (die : DieId) (q : BitVec 6)
  /-- PREEMPT_CORE (R367). Pre-empts the cohort on one core. -/
  | preemptCore (die : DieId) (core : CoreId)
  /-- PREEMPT_DIE (R367). Pre-empts every cohort on the die. -/
  | preemptDie (die : DieId)
  /-- PREEMPT_ASID_DIE (R367). Pre-empts every cohort of an ASID on the die. -/
  | preemptAsidDie (die : DieId) (asid : BitVec 16)
  /-- PREEMPT_ASID_MODULE (R367). Pre-empts every cohort of an ASID on the module. -/
  | preemptAsidModule (die : DieId) (asid : BitVec 16)
  /-- QUANTUM_WRITE (R365). Sets the dispatcher quantum, ignoring out-of-range values. -/
  | quantumWrite (die : DieId) (v : Word)
  /-- RDCSIZE_WRITE (R365). Sets the remote-data cache size before the first grid. -/
  | rdcsizeWrite (die : DieId) (v : Word)
  /-- POWERCAP_WRITE (R365). Sets the die power cap within 100 to 330 W. -/
  | powercapWrite (die : DieId) (v : Word)
  /-- MODID_WRITE (R365). Passes the module id to the anchor, which sets it on every die. -/
  | modidWrite (die : DieId) (v : Word)
  /-- ACCAREA_WRITE (R365). Sets the accumulator eviction area size before the first grid. -/
  | accareaWrite (die : DieId) (v : Word)
  /-- LSEG_WRITE (R368). Sets a die's latch segment membership unless the number is owned. -/
  | lsegWrite (die : DieId) (l : BitVec 4) (v : Word)
  /-- LEXC_WRITE (R365). Sets latch excuse bits unless the number is owned. -/
  | lexcWrite (die : DieId) (l : BitVec 4) (high : Bool) (v : Word)
  /-- CHALLENGE (R310). Mailbox command returning 64 random challenge bytes. -/
  | challenge (die : DieId) (block : Word)
  /-- QUOTE (R307). Mailbox command returning a signed quote over a nonce. -/
  | quote (die : DieId) (block : Word)
  /-- CERT (R310). Mailbox command returning a die's certificate. -/
  | cert (die : DieId) (block : Word)
  /-- COMMAND (R311). Mailbox command checking and applying a signed command to the named dies. -/
  | command (die : DieId) (block : Word)
  /-- REGISTER_WRITE (R364). Write to a register without behaviour of its own. -/
  | registerWrite (die : DieId) (off : BitVec 16) (v : Word)
  /-- DROPPED_MESSAGE (R352). A Hinge message with an undefined opcode or a wrong follow count arrives, is dropped and is logged by the die manager. -/
  | droppedMessage (die : DieId) (cls : BitVec 3) (op : BitVec 5) (follow : BitVec 3)
  /-- MALFORMED_REQUEST (R310). A mailbox request with cmd 0 or 5 to 255 is refused with result 3 in MGMTST. -/
  | malformedRequest (die : DieId) (block : Word)
  /-- FLIT_CREDITS (R348). A flit arrives whose header returns credits per class, letting a blocked sender send again. -/
  | flitCredits (die : DieId) (dir : BitVec 2) (credits : BitVec 48)
  /-- LINK_ERROR_RETRY (R341). A flit fails its CRC, the UCIe adapter retries it, and the die manager counts and logs the transient error. -/
  | linkErrorRetry (die : DieId) (dir : BitVec 2)
  /-- STORAGE_ERROR (R341). The stored bits of a granule are corrupted, so that a later read finds a correctable or uncorrectable error. -/
  | storageError (place : Place) (soft : Bool)
  /-- HBM_WIPE_COMPLETE (R309). About 25 ms after reset the zeroing of the HBM stacks ends, and cores may be released once discovery and the image checks are done. -/
  | hbmWipeComplete
  /-- SLICE_RETIREMENT_COMPLETE (R184). When every line of a retiring slice has moved, the old slice is retired, recorded and marked in the topology table. -/
  | sliceRetirementComplete (die : DieId) (slice : BitVec 5)
  /-- PORT_LIVE_CHANGE (R362). A scale-up port of a port die becomes live or dead, changing PORTST and the modules that system-scope traffic can reach. -/
  | portLiveChange (site : SiteId) (live : BitVec 4)
  deriving DecidableEq, Repr, Inhabited

/-- An instruction word as it stands in a packet (R27): bits C and B, and the instruction. -/
structure SlotWord where
  /-- C: the word issues together with the next word of the same packet -/
  chain : Bool
  /-- B: the run ends after this word -/
  bound : Bool
  /-- op and bits 23:0 -/
  instr : Instr
  deriving DecidableEq, Repr, Inhabited

end Sys2Proof
end

