-- ==== Sys2Proof/WellFormed.lean ====
section
/-! DEFINITION. Which instructions are well formed: every check that R52 answers with ILLEGAL at decode and that the
fields alone decide (destination specifiers, class codes, selectors, reserved values), and the duties of bits C and B. -/
namespace Sys2Proof

/-- A destination specifier is 0 (push) or 16 to 63 (named slot); 1 to 15 are ILLEGAL (R38). -/
abbrev destOk (d : Spec) : Prop := d = 0 ∨ 16 ≤ d.toNat

/-- A specifier that must name a slot n0 to n47 (R93 BFI, R151, R157, R222, R225, R276). -/
abbrev namedOk (d : Spec) : Prop := 16 ≤ d.toNat

/-- A LAST mark is 0 (none) or names a slot (R41). -/
abbrev markOk (d : Spec) : Prop := d = 0 ∨ 16 ≤ d.toNat

/-- cls is 0000 or 1000 to 1111 (R43). -/
abbrev clsOk (c : BitVec 4) : Prop := c = 0 ∨ 8 ≤ c.toNat

/-- With width 32 a shift amount of 32 or more is ILLEGAL (R91). -/
abbrev amountOk (w : Bool) (s : Spec) : Prop := w = true → s.toNat < 32

/-- A compare writes p1 to p7, with combine code 000 to 010 (R92). -/
abbrev predOk (p comb : BitVec 3) : Prop := p ≠ 0 ∧ comb.toNat ≤ 2

/-- The assigned special registers (R98). -/
abbrev sprReadable (n : BitVec 12) : Prop :=
  n.toNat ∈ [0x000, 0x001, 0x002, 0x003, 0x004, 0x008, 0x009, 0x00A, 0x00C, 0x00D, 0x00E, 0x010, 0x011, 0x012, 0x013,
    0x018, 0x019, 0x020, 0x021, 0x022, 0x023, 0x030, 0x031, 0x032, 0x033, 0x040, 0x041]

/-- The writable special registers (R97, R98): prc, lc0 to lc2, savebase. -/
abbrev sprWritable (n : BitVec 12) : Prop := n.toNat ∈ [0x020, 0x021, 0x022, 0x023, 0x041]

/-- REDO's scope is DIE, MOD or SYS (R220). -/
abbrev wideScopeOk (s : BitVec 3) : Prop := 4 ≤ s.toNat ∧ s.toNat ≤ 6

/-- Scope code 7 is reserved (R185). -/
abbrev scopeOk (s : BitVec 3) : Prop := s ≠ 7

/-- CVT's types: 0011 and 1100 to 1111 are ILLEGAL (R108). -/
abbrev cvtTypeOk (t : BitVec 4) : Prop := t ≠ 3 ∧ t.toNat ≤ 11

/-- M-format space 11 is ILLEGAL (R44). -/
abbrev spaceOk (s : BitVec 2) : Prop := s ≠ 3

/-- A store takes size codes 000 to 100 (R214, R215). -/
abbrev storeSizeOk (z : BitVec 3) : Prop := z.toNat ≤ 4

/-- The width bit of RED is zero for the floating operations 001 to 011 (R219). -/
abbrev redWidthOk (op : BitVec 3) (w : Bool) : Prop := w = true → ¬ (1 ≤ op.toNat ∧ op.toNat ≤ 3)

/-- CPYA's spaces are 00 global and 01 stash (R230). -/
abbrev copySpaceOk (s : BitVec 2) : Prop := s.toNat ≤ 1

/-- Mask codes 12 to 15 are ILLEGAL (R273). -/
abbrev maskOk (k : BitVec 4) : Prop := k.toNat ≤ 11

/-- A MASK form that writes m0 is ILLEGAL (R273). -/
abbrev maskWriteOk (k : BitVec 4) : Prop := 1 ≤ k.toNat ∧ k.toNat ≤ 11

/-- The assigned system registers (R300). -/
abbrev getsOk (x : BitVec 8) : Prop := x.toNat ∈ [0, 1, 2, 3, 4, 8]

/-- The one writable system register, cd (R300). -/
abbrev setsOk (x : BitVec 8) : Prop := x = 8

/-- Major opcodes 45 and 63 (R45, R52). -/
abbrev reservedOp (w : Code) : Prop := (w.extractLsb' 24 6).toNat = 45 ∨ (w.extractLsb' 24 6).toNat = 63

/-- The checks of one instruction's own fields. Of an event, the range of its parameters. -/
def Instr.wf : Instr → Bool
  | .nop => true
  | .pool _ => true
  | .exit => true
  | .ret => true
  | .yield => true
  | .rft => true
  | .rftSkip => true
  | .brkpt _ => true
  | .last x y z => decide (markOk x ∧ markOk y ∧ markOk z)
  | .add d _ _ _ => decide (destOk d)
  | .sub d _ _ _ => decide (destOk d)
  | .mul d _ _ _ => decide (destOk d)
  | .mulh d _ _ _ => decide (destOk d)
  | .mulhn d _ _ _ => decide (destOk d)
  | .div d _ _ _ => decide (destOk d)
  | .divn d _ _ _ => decide (destOk d)
  | .rem d _ _ _ => decide (destOk d)
  | .remn d _ _ _ => decide (destOk d)
  | .min d _ _ _ => decide (destOk d)
  | .max d _ _ _ => decide (destOk d)
  | .minn d _ _ _ => decide (destOk d)
  | .maxn d _ _ _ => decide (destOk d)
  | .and d _ _ _ => decide (destOk d)
  | .or d _ _ _ => decide (destOk d)
  | .xor d _ _ _ => decide (destOk d)
  | .andn d _ _ _ => decide (destOk d)
  | .shl d _ _ _ => decide (destOk d)
  | .shr d _ _ _ => decide (destOk d)
  | .sar d _ _ _ => decide (destOk d)
  | .rot d _ _ _ => decide (destOk d)
  | .clz d _ _ => decide (destOk d)
  | .popc d _ _ => decide (destOk d)
  | .brev d _ _ => decide (destOk d)
  | .abs d _ _ => decide (destOk d)
  | .neg d _ _ => decide (destOk d)
  | .sext d _ => decide (destOk d)
  | .zext d _ => decide (destOk d)
  | .mov d _ _ => decide (destOk d)
  | .addi d _ _ => decide (destOk d)
  | .andi d _ _ => decide (destOk d)
  | .ori d _ _ => decide (destOk d)
  | .xori d _ _ => decide (destOk d)
  | .andni d _ _ => decide (destOk d)
  | .shli d _ w s => decide (destOk d ∧ amountOk w s)
  | .shri d _ w s => decide (destOk d ∧ amountOk w s)
  | .sari d _ w s => decide (destOk d ∧ amountOk w s)
  | .roti d _ w s => decide (destOk d ∧ amountOk w s)
  | .icmp _ p _ _ comb _ => decide (predOk p comb)
  | .icmpi _ p _ _ comb _ => decide (predOk p comb)
  | .sel d _ _ _ => decide (destOk d)
  | .bfx d _ _ _ => decide (destOk d)
  | .bfi d _ _ => decide (namedOk d)
  | .pmov d => decide (destOk d)
  | .setp _ => true
  | .bperm d _ _ => decide (destOk d)
  | .ldlit d _ => decide (destOk d)
  | .addr d _ _ _ => decide (destOk d)
  | .sprGet x num => decide (destOk x ∧ sprReadable num)
  | .sprSet _ num => decide (sprWritable num)
  | .sprSwap x num => decide (destOk x ∧ sprWritable num)
  | .redo _ _ _ scope => decide (wideScopeOk scope)
  | .fadd d _ _ _ cls => decide (destOk d ∧ clsOk cls)
  | .fsub d _ _ _ cls => decide (destOk d ∧ clsOk cls)
  | .fmul d _ _ _ cls => decide (destOk d ∧ clsOk cls)
  | .fmin d _ _ cls => decide (destOk d ∧ clsOk cls)
  | .fmax d _ _ cls => decide (destOk d ∧ clsOk cls)
  | .fminm d _ _ cls => decide (destOk d ∧ clsOk cls)
  | .fmaxm d _ _ cls => decide (destOk d ∧ clsOk cls)
  | .ffma d _ _ _ => decide (destOk d)
  | .ffms d _ _ _ => decide (destOk d)
  | .fnma d _ _ _ => decide (destOk d)
  | .fabs d _ _ cls => decide (destOk d ∧ clsOk cls)
  | .fneg d _ _ cls => decide (destOk d ∧ clsOk cls)
  | .frnd d _ _ cls => decide (destOk d ∧ clsOk cls)
  | .gete d _ => decide (destOk d)
  | .getm d _ _ cls => decide (destOk d ∧ clsOk cls)
  | .fclass d _ => decide (destOk d)
  | .reclass d _ _ cls => decide (destOk d ∧ clsOk cls)
  | .fcmp _ p _ _ comb _ => decide (predOk p comb)
  | .twosum d _ _ cls => decide (destOk d ∧ clsOk cls)
  | .twoprod d _ _ cls => decide (destOk d ∧ clsOk cls)
  | .cvtin d _ ty _ cls => decide (destOk d ∧ clsOk cls ∧ cvtTypeOk ty)
  | .cvtout d _ ty _ => decide (destOk d ∧ cvtTypeOk ty)
  | .fscl d _ _ _ cls => decide (destOk d ∧ clsOk cls)
  | .rcp d _ _ cls => decide (destOk d ∧ clsOk cls)
  | .rsq d _ _ cls => decide (destOk d ∧ clsOk cls)
  | .sqrt d _ _ cls => decide (destOk d ∧ clsOk cls)
  | .exp2 d _ _ cls => decide (destOk d ∧ clsOk cls)
  | .log2 d _ _ cls => decide (destOk d ∧ clsOk cls)
  | .sin d _ _ cls => decide (destOk d ∧ clsOk cls)
  | .cos d _ _ cls => decide (destOk d ∧ clsOk cls)
  | .tanh d _ _ cls => decide (destOk d ∧ clsOk cls)
  | .xpull d _ _ _ => decide (destOk d)
  | .xrank d _ _ _ => decide (destOk d)
  | .xsegb d _ _ _ => decide (destOk d)
  | .xrev d _ _ _ => decide (destOk d)
  | .xcount d _ _ _ => decide (destOk d)
  | .xfirst d _ _ _ => decide (destOk d)
  | .xmask d _ _ _ => decide (destOk d)
  | .gbcast d _ _ => decide (destOk d)
  | .gred d _ op _ => decide (destOk d ∧ op.toNat ≤ 10)
  | .gscan d _ op _ _ => decide (destOk d ∧ op.toNat ≤ 10)
  | .pack6 d _ _ => decide (destOk d)
  | .unpk6 d _ cls => decide (destOk d ∧ clsOk cls)
  | .xpr _ _ _ _ => true
  | .cmma d _ _ _ => decide (namedOk d)
  | .ld d _ space _ _ _ => decide (destOk d ∧ spaceOk space)
  | .st _ _ space size _ _ => decide (spaceOk space ∧ storeSizeOk size)
  | .lda d _ space _ _ _ scope => decide (destOk d ∧ spaceOk space ∧ scopeOk scope)
  | .strl _ _ space size _ scope => decide (spaceOk space ∧ storeSizeOk size ∧ scopeOk scope)
  | .pref _ space _ _ => decide (spaceOk space)
  | .prefL1 _ space _ _ => decide (spaceOk space)
  | .prefHome _ => true
  | .wmap d a => decide (destOk d ∧ namedOk a)
  | .wunmap d _ => decide (destOk d)
  | .wflush d _ => decide (destOk d)
  | .wdrop d _ => decide (destOk d)
  | .wquery d _ => decide (destOk d)
  | .atom d _ _ scope _ => decide (destOk d ∧ scopeOk scope)
  | .red _ _ scope op w => decide (scopeOk scope ∧ redWidthOk op w)
  | .fenceRel scope => decide (scopeOk scope)
  | .fenceAcq scope => decide (scopeOk scope)
  | .fenceFull scope => decide (scopeOk scope)
  | .cpya a t sspace dspace => decide (namedOk a ∧ destOk t ∧ copySpaceOk sspace ∧ copySpaceOk dspace)
  | .gath a t mode _ _ _ => decide (namedOk a ∧ destOk t ∧ mode.toNat ≤ 2)
  | .scat a t mode _ _ _ => decide (namedOk a ∧ destOk t ∧ mode.toNat ≤ 2)
  | .scatReduce a t mode _ _ _ _ scope => decide (scopeOk scope ∧ namedOk a ∧ destOk t ∧ mode.toNat ≤ 2)
  | .drain d _ => decide (destOk d)
  | .drainAll d => decide (destOk d)
  | .drainPass d => decide (destOk d)
  | .atomw d _ _ scope _ => decide (destOk d ∧ scopeOk scope)
  | .atomc d _ _ scope _ => decide (destOk d ∧ scopeOk scope)
  | .bra _ _ _ _ => true
  | .call _ _ _ _ => true
  | .jmpr _ _ _ _ => true
  | .callr _ _ _ _ => true
  | .loop i _ len => decide (i.toNat ≤ 2 ∧ len.toNat ≠ 0)
  | .join k => decide (maskWriteOk k)
  | .leave k => decide (maskWriteOk k)
  | .waitm k j => decide (maskWriteOk k ∧ maskOk j)
  | .mget d k => decide (destOk d ∧ maskOk k)
  | .mset _ k => decide (maskWriteOk k)
  | .msave k j => decide (maskOk k ∧ maskWriteOk j)
  | .mrst k => decide (maskWriteOk k)
  | .waitc d a _ _ _ => decide (destOk d ∧ namedOk a)
  | .latchArrive d _ count => decide (destOk d ∧ count.toNat ≠ 0)
  | .latchSync d _ count => decide (destOk d ∧ count.toNat ≠ 0)
  | .latchWait d _ => decide (destOk d)
  | .latchX d _ => decide (destOk d)
  | .tbarArrive d _ count => decide (destOk d ∧ count.toNat ≠ 0)
  | .tbarSync d _ count => decide (destOk d ∧ count.toNat ≠ 0)
  | .tbarWait d _ => decide (destOk d)
  | .cbarArrive d _ count => decide (destOk d ∧ count.toNat ≠ 0)
  | .cbarSync d _ count => decide (destOk d ∧ count.toNat ≠ 0)
  | .cbarWait d _ => decide (destOk d)
  | .launch d _ => decide (destOk d)
  | .mpassDense d s => decide (destOk d ∧ namedOk s)
  | .mpassReduce d s => decide (destOk d ∧ namedOk s)
  | .mpassBatch d s => decide (destOk d ∧ namedOk s)
  | .mpassMvec d s => decide (destOk d ∧ namedOk s)
  | .accinit d a _ _ => decide (destOk d ∧ namedOk a)
  | .mcancel d _ _ => decide (destOk d)
  | .mquery d _ _ => decide (destOk d)
  | .fdiv d _ _ _ cls => decide (destOk d ∧ clsOk cls)
  | .fman d _ _ _ => decide (destOk d)
  | .trap _ => true
  | .svc _ _ => true
  | .saveq _ => true
  | .rstq _ => true
  | .gets d x => decide (destOk d ∧ getsOk x)
  | .sets _ x => decide (setsOk x)
  | .tlbiPage _ _ => true
  | .tlbiAsid _ _ => true
  | .tlbiAll _ _ => true
  | .invl => true
  | .wbl _ _ => true
  | .wipe _ _ => true
  | .reservedOpcode w => decide (reservedOp w)
  | .waitcPoll _ _ => true
  | .waitcTimeout _ => true
  | .latchRelease _ _ => true
  | .runForcedEnd _ => true
  | .longResultReturn _ => true
  | .formGang _ _ => true
  | .parkResume _ => true
  | .threadFaultRecord _ => true
  | .leaseExpiry _ => true
  | .clusterBufferWriteback _ _ _ => true
  | .stashFillComplete _ _ _ => true
  | .accinitApply _ _ _ => true
  | .matrixGrant _ _ => true
  | .passPriorityAging _ _ _ => true
  | .kStep _ _ _ => true
  | .partialResend _ => true
  | .passPreemptStop _ _ _ => true
  | .asyncOpComplete _ _ _ => true
  | .knockerWrite _ _ => true
  | .cohortPlace _ => true
  | .dispatcherPreempt _ => true
  | .idleSteal _ _ => true
  | .cohortSaved _ _ => true
  | .cohortRestore _ _ => true
  | .gridEnd _ => true
  | .faultReportReoffer _ => true
  | .lastingError _ _ => true
  | .clockAdjust _ steps => decide (10 ≤ steps.toNat ∧ steps.toNat ≤ 27)
  | .moduleReset => true
  | .electQuiet => true
  | .helloTimeout _ => true
  | .imgreqTimeout => true
  | .edgeRequestTimeout _ _ => true
  | .mcastTimeout _ => true
  | .ucieModuleError _ _ _ => true
  | .sitePowerCut _ => true
  | .rd _ => true
  | .rdn _ => true
  | .rdo _ => true
  | .wr _ => true
  | .wrm _ => true
  | .atm _ => true
  | .watch _ => true
  | .unwatch _ => true
  | .wb _ => true
  | .probe _ => true
  | .recall _ => true
  | .ack _ => true
  | .nack _ => true
  | .remap _ => true
  | .done _ => true
  | .err _ => true
  | .data _ => true
  | .pdata _ => true
  | .redu _ => true
  | .redw _ => true
  | .part _ => true
  | .hello _ => true
  | .timex _ => true
  | .elect _ => true
  | .assign _ => true
  | .epoch _ => true
  | .watchv _ => true
  | .steal _ => true
  | .img _ => true
  | .hingeWipe _ => true
  | .wiped _ => true
  | .imgreq _ => true
  | .replayRetry _ _ => true
  | .replayFail _ _ => true
  | .threadcmdRetry _ _ => true
  | .threadcmdSkip _ _ => true
  | .threadcmdUpcall _ _ => true
  | .threadcmdAbort _ _ => true
  | .qslotMap _ _ _ => true
  | .qslotUnmap _ _ => true
  | .qslotUnmapComplete _ _ => true
  | .preemptCore _ _ => true
  | .preemptDie _ => true
  | .preemptAsidDie _ _ => true
  | .preemptAsidModule _ _ => true
  | .quantumWrite _ _ => true
  | .rdcsizeWrite _ _ => true
  | .powercapWrite _ _ => true
  | .modidWrite _ _ => true
  | .accareaWrite _ _ => true
  | .lsegWrite _ _ _ => true
  | .lexcWrite _ _ _ _ => true
  | .challenge _ _ => true
  | .quote _ _ => true
  | .cert _ _ => true
  | .command _ _ => true
  | .registerWrite _ _ _ => true
  | .droppedMessage _ _ _ _ => true
  | .malformedRequest _ _ => true
  | .flitCredits _ _ _ => true
  | .linkErrorRetry _ _ => true
  | .storageError _ _ => true
  | .hbmWipeComplete => true
  | .sliceRetirementComplete _ _ => true
  | .portLiveChange _ _ => true

/-- The words of R33 and RSTQ (R327) carry B. -/
def Instr.mustBound : Instr → Bool
  | .exit => true
  | .ret => true
  | .yield => true
  | .rft => true
  | .rftSkip => true
  | .bra _ _ _ _ => true
  | .call _ _ _ _ => true
  | .jmpr _ _ _ _ => true
  | .callr _ _ _ _ => true
  | .waitc _ _ _ _ _ => true
  | .rstq _ => true
  | _ => false

/-- The event rows: they have no encoding and no thread issues them. -/
def Instr.isEvent : Instr → Bool
  | .nop => false
  | .pool _ => false
  | .exit => false
  | .ret => false
  | .yield => false
  | .rft => false
  | .rftSkip => false
  | .brkpt _ => false
  | .last _ _ _ => false
  | .add _ _ _ _ => false
  | .sub _ _ _ _ => false
  | .mul _ _ _ _ => false
  | .mulh _ _ _ _ => false
  | .mulhn _ _ _ _ => false
  | .div _ _ _ _ => false
  | .divn _ _ _ _ => false
  | .rem _ _ _ _ => false
  | .remn _ _ _ _ => false
  | .min _ _ _ _ => false
  | .max _ _ _ _ => false
  | .minn _ _ _ _ => false
  | .maxn _ _ _ _ => false
  | .and _ _ _ _ => false
  | .or _ _ _ _ => false
  | .xor _ _ _ _ => false
  | .andn _ _ _ _ => false
  | .shl _ _ _ _ => false
  | .shr _ _ _ _ => false
  | .sar _ _ _ _ => false
  | .rot _ _ _ _ => false
  | .clz _ _ _ => false
  | .popc _ _ _ => false
  | .brev _ _ _ => false
  | .abs _ _ _ => false
  | .neg _ _ _ => false
  | .sext _ _ => false
  | .zext _ _ => false
  | .mov _ _ _ => false
  | .addi _ _ _ => false
  | .andi _ _ _ => false
  | .ori _ _ _ => false
  | .xori _ _ _ => false
  | .andni _ _ _ => false
  | .shli _ _ _ _ => false
  | .shri _ _ _ _ => false
  | .sari _ _ _ _ => false
  | .roti _ _ _ _ => false
  | .icmp _ _ _ _ _ _ => false
  | .icmpi _ _ _ _ _ _ => false
  | .sel _ _ _ _ => false
  | .bfx _ _ _ _ => false
  | .bfi _ _ _ => false
  | .pmov _ => false
  | .setp _ => false
  | .bperm _ _ _ => false
  | .ldlit _ _ => false
  | .addr _ _ _ _ => false
  | .sprGet _ _ => false
  | .sprSet _ _ => false
  | .sprSwap _ _ => false
  | .redo _ _ _ _ => false
  | .fadd _ _ _ _ _ => false
  | .fsub _ _ _ _ _ => false
  | .fmul _ _ _ _ _ => false
  | .fmin _ _ _ _ => false
  | .fmax _ _ _ _ => false
  | .fminm _ _ _ _ => false
  | .fmaxm _ _ _ _ => false
  | .ffma _ _ _ _ => false
  | .ffms _ _ _ _ => false
  | .fnma _ _ _ _ => false
  | .fabs _ _ _ _ => false
  | .fneg _ _ _ _ => false
  | .frnd _ _ _ _ => false
  | .gete _ _ => false
  | .getm _ _ _ _ => false
  | .fclass _ _ => false
  | .reclass _ _ _ _ => false
  | .fcmp _ _ _ _ _ _ => false
  | .twosum _ _ _ _ => false
  | .twoprod _ _ _ _ => false
  | .cvtin _ _ _ _ _ => false
  | .cvtout _ _ _ _ => false
  | .fscl _ _ _ _ _ => false
  | .rcp _ _ _ _ => false
  | .rsq _ _ _ _ => false
  | .sqrt _ _ _ _ => false
  | .exp2 _ _ _ _ => false
  | .log2 _ _ _ _ => false
  | .sin _ _ _ _ => false
  | .cos _ _ _ _ => false
  | .tanh _ _ _ _ => false
  | .xpull _ _ _ _ => false
  | .xrank _ _ _ _ => false
  | .xsegb _ _ _ _ => false
  | .xrev _ _ _ _ => false
  | .xcount _ _ _ _ => false
  | .xfirst _ _ _ _ => false
  | .xmask _ _ _ _ => false
  | .gbcast _ _ _ => false
  | .gred _ _ _ _ => false
  | .gscan _ _ _ _ _ => false
  | .pack6 _ _ _ => false
  | .unpk6 _ _ _ => false
  | .xpr _ _ _ _ => false
  | .cmma _ _ _ _ => false
  | .ld _ _ _ _ _ _ => false
  | .st _ _ _ _ _ _ => false
  | .lda _ _ _ _ _ _ _ => false
  | .strl _ _ _ _ _ _ => false
  | .pref _ _ _ _ => false
  | .prefL1 _ _ _ _ => false
  | .prefHome _ => false
  | .wmap _ _ => false
  | .wunmap _ _ => false
  | .wflush _ _ => false
  | .wdrop _ _ => false
  | .wquery _ _ => false
  | .atom _ _ _ _ _ => false
  | .red _ _ _ _ _ => false
  | .fenceRel _ => false
  | .fenceAcq _ => false
  | .fenceFull _ => false
  | .cpya _ _ _ _ => false
  | .gath _ _ _ _ _ _ => false
  | .scat _ _ _ _ _ _ => false
  | .scatReduce _ _ _ _ _ _ _ _ => false
  | .drain _ _ => false
  | .drainAll _ => false
  | .drainPass _ => false
  | .atomw _ _ _ _ _ => false
  | .atomc _ _ _ _ _ => false
  | .bra _ _ _ _ => false
  | .call _ _ _ _ => false
  | .jmpr _ _ _ _ => false
  | .callr _ _ _ _ => false
  | .loop _ _ _ => false
  | .join _ => false
  | .leave _ => false
  | .waitm _ _ => false
  | .mget _ _ => false
  | .mset _ _ => false
  | .msave _ _ => false
  | .mrst _ => false
  | .waitc _ _ _ _ _ => false
  | .latchArrive _ _ _ => false
  | .latchSync _ _ _ => false
  | .latchWait _ _ => false
  | .latchX _ _ => false
  | .tbarArrive _ _ _ => false
  | .tbarSync _ _ _ => false
  | .tbarWait _ _ => false
  | .cbarArrive _ _ _ => false
  | .cbarSync _ _ _ => false
  | .cbarWait _ _ => false
  | .launch _ _ => false
  | .mpassDense _ _ => false
  | .mpassReduce _ _ => false
  | .mpassBatch _ _ => false
  | .mpassMvec _ _ => false
  | .accinit _ _ _ _ => false
  | .mcancel _ _ _ => false
  | .mquery _ _ _ => false
  | .fdiv _ _ _ _ _ => false
  | .fman _ _ _ _ => false
  | .trap _ => false
  | .svc _ _ => false
  | .saveq _ => false
  | .rstq _ => false
  | .gets _ _ => false
  | .sets _ _ => false
  | .tlbiPage _ _ => false
  | .tlbiAsid _ _ => false
  | .tlbiAll _ _ => false
  | .invl => false
  | .wbl _ _ => false
  | .wipe _ _ => false
  | .reservedOpcode _ => false
  | .waitcPoll _ _ => true
  | .waitcTimeout _ => true
  | .latchRelease _ _ => true
  | .runForcedEnd _ => true
  | .longResultReturn _ => true
  | .formGang _ _ => true
  | .parkResume _ => true
  | .threadFaultRecord _ => true
  | .leaseExpiry _ => true
  | .clusterBufferWriteback _ _ _ => true
  | .stashFillComplete _ _ _ => true
  | .accinitApply _ _ _ => true
  | .matrixGrant _ _ => true
  | .passPriorityAging _ _ _ => true
  | .kStep _ _ _ => true
  | .partialResend _ => true
  | .passPreemptStop _ _ _ => true
  | .asyncOpComplete _ _ _ => true
  | .knockerWrite _ _ => true
  | .cohortPlace _ => true
  | .dispatcherPreempt _ => true
  | .idleSteal _ _ => true
  | .cohortSaved _ _ => true
  | .cohortRestore _ _ => true
  | .gridEnd _ => true
  | .faultReportReoffer _ => true
  | .lastingError _ _ => true
  | .clockAdjust _ _ => true
  | .moduleReset => true
  | .electQuiet => true
  | .helloTimeout _ => true
  | .imgreqTimeout => true
  | .edgeRequestTimeout _ _ => true
  | .mcastTimeout _ => true
  | .ucieModuleError _ _ _ => true
  | .sitePowerCut _ => true
  | .rd _ => true
  | .rdn _ => true
  | .rdo _ => true
  | .wr _ => true
  | .wrm _ => true
  | .atm _ => true
  | .watch _ => true
  | .unwatch _ => true
  | .wb _ => true
  | .probe _ => true
  | .recall _ => true
  | .ack _ => true
  | .nack _ => true
  | .remap _ => true
  | .done _ => true
  | .err _ => true
  | .data _ => true
  | .pdata _ => true
  | .redu _ => true
  | .redw _ => true
  | .part _ => true
  | .hello _ => true
  | .timex _ => true
  | .elect _ => true
  | .assign _ => true
  | .epoch _ => true
  | .watchv _ => true
  | .steal _ => true
  | .img _ => true
  | .hingeWipe _ => true
  | .wiped _ => true
  | .imgreq _ => true
  | .replayRetry _ _ => true
  | .replayFail _ _ => true
  | .threadcmdRetry _ _ => true
  | .threadcmdSkip _ _ => true
  | .threadcmdUpcall _ _ => true
  | .threadcmdAbort _ _ => true
  | .qslotMap _ _ _ => true
  | .qslotUnmap _ _ => true
  | .qslotUnmapComplete _ _ => true
  | .preemptCore _ _ => true
  | .preemptDie _ => true
  | .preemptAsidDie _ _ => true
  | .preemptAsidModule _ _ => true
  | .quantumWrite _ _ => true
  | .rdcsizeWrite _ _ => true
  | .powercapWrite _ _ => true
  | .modidWrite _ _ => true
  | .accareaWrite _ _ => true
  | .lsegWrite _ _ _ => true
  | .lexcWrite _ _ _ _ => true
  | .challenge _ _ => true
  | .quote _ _ => true
  | .cert _ _ => true
  | .command _ _ => true
  | .registerWrite _ _ _ => true
  | .droppedMessage _ _ _ _ => true
  | .malformedRequest _ _ => true
  | .flitCredits _ _ _ => true
  | .linkErrorRetry _ _ => true
  | .storageError _ _ => true
  | .hbmWipeComplete => true
  | .sliceRetirementComplete _ _ => true
  | .portLiveChange _ _ => true

/-- The duties of bits C and B on one word: R33, R41 (LAST), R49 (XPR), R53 (POOL), R270 (LOOP). -/
def SlotWord.flagsOk (sw : SlotWord) : Bool :=
  match sw.instr with
  | .last _ _ _ => sw.chain && !sw.bound
  | .xpr _ _ _ _ => sw.chain && !sw.bound
  | .pool _ => !sw.chain
  | .loop _ _ _ => !sw.chain
  | i => !i.mustBound || sw.bound

/-- A word of a packet is well formed: its fields and its flags are. -/
def SlotWord.wf (sw : SlotWord) : Bool := sw.instr.wf && sw.flagsOk

end Sys2Proof
end

