-- ==== Sys2Proof/Decode.lean ====
section
/-! DEFINITION. The decoder of instruction words, total on any 32 bits, and the encoder, both written from the layouts of
R42 to R47 and the own layouts. A word that decodes to nothing is a word whose fate is ILLEGAL (R52). -/
namespace Sys2Proof

/-- Bits 23:18, 17:12, 11:6 and 5:0 of a word's format fields (R42). -/
abbrev fD (b : BitVec 24) : Spec := b.extractLsb' 18 6
abbrev fA (b : BitVec 24) : Spec := b.extractLsb' 12 6
abbrev fB (b : BitVec 24) : Spec := b.extractLsb' 6 6
abbrev fE (b : BitVec 24) : Spec := b.extractLsb' 0 6

/-- `n` bits from bit `lo` up. -/
abbrev fN (b : BitVec 24) (lo n : Nat) : BitVec n := b.extractLsb' lo n

/-- One bit. -/
abbrev f1 (b : BitVec 24) (i : Nat) : Bool := b.getLsbD i

/-- An instruction whose reserved field must be zero (R52). -/
def zeroed {n : Nat} (field : BitVec n) (i : Instr) : Option Instr := if field = 0 then some i else none

/-- CTL, opcode 0 (R46): bits 23:20 select the operation. -/
def decodeCtl (b : BitVec 24) : Option Instr :=
  match (fN b 20 4).toNat with
  | 0 => zeroed (fN b 0 20) .nop
  | 1 => some (.pool (fN b 0 20))
  | 2 => zeroed (fN b 0 20) .exit
  | 3 => zeroed (fN b 0 20) .ret
  | 4 => zeroed (fN b 0 20) .yield
  | 5 => zeroed (fN b 1 19) (if f1 b 0 then .rftSkip else .rft)
  | 6 => some (.brkpt (fN b 0 20))
  | 7 => zeroed (fN b 18 2) (.last (fA b) (fB b) (fE b))
  | _ => none

/-- IALU, opcode 1 (R47): fn5 is the width, fn4:0 the operation; the unary operations need b = 0. -/
def decodeIalu (b : BitVec 24) : Option Instr :=
  match (fN b 0 5).toNat with
  | 0 => some (.add (fD b) (fA b) (fB b) (f1 b 5))
  | 1 => some (.sub (fD b) (fA b) (fB b) (f1 b 5))
  | 2 => some (.mul (fD b) (fA b) (fB b) (f1 b 5))
  | 3 => some (.mulh (fD b) (fA b) (fB b) (f1 b 5))
  | 4 => some (.mulhn (fD b) (fA b) (fB b) (f1 b 5))
  | 5 => some (.div (fD b) (fA b) (fB b) (f1 b 5))
  | 6 => some (.divn (fD b) (fA b) (fB b) (f1 b 5))
  | 7 => some (.rem (fD b) (fA b) (fB b) (f1 b 5))
  | 8 => some (.remn (fD b) (fA b) (fB b) (f1 b 5))
  | 9 => some (.min (fD b) (fA b) (fB b) (f1 b 5))
  | 10 => some (.max (fD b) (fA b) (fB b) (f1 b 5))
  | 11 => some (.minn (fD b) (fA b) (fB b) (f1 b 5))
  | 12 => some (.maxn (fD b) (fA b) (fB b) (f1 b 5))
  | 13 => some (.and (fD b) (fA b) (fB b) (f1 b 5))
  | 14 => some (.or (fD b) (fA b) (fB b) (f1 b 5))
  | 15 => some (.xor (fD b) (fA b) (fB b) (f1 b 5))
  | 16 => some (.andn (fD b) (fA b) (fB b) (f1 b 5))
  | 17 => some (.shl (fD b) (fA b) (fB b) (f1 b 5))
  | 18 => some (.shr (fD b) (fA b) (fB b) (f1 b 5))
  | 19 => some (.sar (fD b) (fA b) (fB b) (f1 b 5))
  | 20 => some (.rot (fD b) (fA b) (fB b) (f1 b 5))
  | 21 => zeroed (fB b) (.clz (fD b) (fA b) (f1 b 5))
  | 22 => zeroed (fB b) (.popc (fD b) (fA b) (f1 b 5))
  | 23 => zeroed (fB b) (.brev (fD b) (fA b) (f1 b 5))
  | 24 => zeroed (fB b) (.abs (fD b) (fA b) (f1 b 5))
  | 25 => zeroed (fB b) (.neg (fD b) (fA b) (f1 b 5))
  | 26 => if f1 b 5 then zeroed (fB b) (.sext (fD b) (fA b)) else none
  | 27 => if f1 b 5 then zeroed (fB b) (.zext (fD b) (fA b)) else none
  | 28 => zeroed (fB b) (.mov (fD b) (fA b) (f1 b 5))
  | _ => none

/-- LOGI, opcode 3 (R90). -/
def decodeLogi (b : BitVec 24) : Option Instr :=
  match (fN b 10 2).toNat with
  | 0 => some (.andi (fD b) (fA b) (fN b 0 10))
  | 1 => some (.ori (fD b) (fA b) (fN b 0 10))
  | 2 => some (.xori (fD b) (fA b) (fN b 0 10))
  | _ => some (.andni (fD b) (fA b) (fN b 0 10))

/-- SHI, opcode 4 (R91). -/
def decodeShi (b : BitVec 24) : Option Instr :=
  match (fN b 9 3).toNat with
  | 0 => zeroed (fN b 6 2) (.shli (fD b) (fA b) (f1 b 8) (fE b))
  | 1 => zeroed (fN b 6 2) (.shri (fD b) (fA b) (f1 b 8) (fE b))
  | 2 => zeroed (fN b 6 2) (.sari (fD b) (fA b) (f1 b 8) (fE b))
  | 3 => zeroed (fN b 6 2) (.roti (fD b) (fA b) (f1 b 8) (fE b))
  | _ => none

/-- BITS, opcode 7 (R93): the selector is in 5:3, x in 2:0. -/
def decodeBits (b : BitVec 24) : Option Instr :=
  match (fN b 3 3).toNat with
  | 0 => some (.sel (fD b) (fA b) (fB b) (fN b 0 3))
  | 1 => zeroed (fN b 1 2) (.bfx (fD b) (fA b) (fB b) (f1 b 0))
  | 2 => zeroed (fN b 0 3) (.bfi (fD b) (fA b) (fB b))
  | 3 => if fA b = 0 ∧ fB b = 0 then zeroed (fN b 0 3) (.pmov (fD b)) else none
  | 4 => if fD b = 0 ∧ fB b = 0 then zeroed (fN b 0 3) (.setp (fA b)) else none
  | 5 => zeroed (fN b 0 3) (.bperm (fD b) (fA b) (fB b))
  | _ => none

/-- SPR, opcode 10 (R97). -/
def decodeSpr (b : BitVec 24) : Option Instr :=
  match (fN b 16 2).toNat with
  | 0 => zeroed (fN b 12 4) (.sprGet (fD b) (fN b 0 12))
  | 1 => zeroed (fN b 12 4) (.sprSet (fD b) (fN b 0 12))
  | 2 => zeroed (fN b 12 4) (.sprSwap (fD b) (fN b 0 12))
  | _ => none

/-- FMM, opcode 15 (R101): rnd selects the operation. -/
def decodeFmm (b : BitVec 24) : Option Instr :=
  match (fN b 4 2).toNat with
  | 0 => some (.fmin (fD b) (fA b) (fB b) (fN b 0 4))
  | 1 => some (.fmax (fD b) (fA b) (fB b) (fN b 0 4))
  | 2 => some (.fminm (fD b) (fA b) (fB b) (fN b 0 4))
  | _ => some (.fmaxm (fD b) (fA b) (fB b) (fN b 0 4))

/-- FUN, opcode 19 (R104): the sub-operation is in 11:6; GETE and FCLASS need rnd and cls zero. -/
def decodeFun (b : BitVec 24) : Option Instr :=
  match (fB b).toNat with
  | 0 => some (.fabs (fD b) (fA b) (fN b 4 2) (fN b 0 4))
  | 1 => some (.fneg (fD b) (fA b) (fN b 4 2) (fN b 0 4))
  | 2 => some (.frnd (fD b) (fA b) (fN b 4 2) (fN b 0 4))
  | 3 => zeroed (fE b) (.gete (fD b) (fA b))
  | 4 => some (.getm (fD b) (fA b) (fN b 4 2) (fN b 0 4))
  | 5 => zeroed (fE b) (.fclass (fD b) (fA b))
  | 6 => some (.reclass (fD b) (fA b) (fN b 4 2) (fN b 0 4))
  | _ => none

/-- FTWO, opcode 21 (R107): bit 5 selects, bit 4 is zero. -/
def decodeFtwo (b : BitVec 24) : Option Instr :=
  zeroed (fN b 4 1) (if f1 b 5 then .twoprod (fD b) (fA b) (fB b) (fN b 0 4) else .twosum (fD b) (fA b) (fB b) (fN b 0 4))

/-- CVT, opcode 22 (R108): bit 7 is the direction; CVTOUT needs cls zero. -/
def decodeCvt (b : BitVec 24) : Option Instr :=
  if f1 b 6 then none
  else if f1 b 7 then zeroed (fN b 0 4) (.cvtout (fD b) (fA b) (fN b 8 4) (fN b 4 2))
  else some (.cvtin (fD b) (fA b) (fN b 8 4) (fN b 4 2) (fN b 0 4))

/-- SFU, opcode 24 (R110): the function is in 11:9, bits 8:6 are zero. -/
def decodeSfu (b : BitVec 24) : Option Instr :=
  zeroed (fN b 6 3)
    (match (fN b 9 3).toNat with
    | 0 => .rcp (fD b) (fA b) (fN b 4 2) (fN b 0 4)
    | 1 => .rsq (fD b) (fA b) (fN b 4 2) (fN b 0 4)
    | 2 => .sqrt (fD b) (fA b) (fN b 4 2) (fN b 0 4)
    | 3 => .exp2 (fD b) (fA b) (fN b 4 2) (fN b 0 4)
    | 4 => .log2 (fD b) (fA b) (fN b 4 2) (fN b 0 4)
    | 5 => .sin (fD b) (fA b) (fN b 4 2) (fN b 0 4)
    | 6 => .cos (fD b) (fA b) (fN b 4 2) (fN b 0 4)
    | _ => .tanh (fD b) (fA b) (fN b 4 2) (fN b 0 4))

/-- XLANE, opcode 25 (R119): the operation is in 5:3, k in 2:0; the predicate forms hold negate and j in the a field. -/
def decodeXlane (b : BitVec 24) : Option Instr :=
  match (fN b 3 3).toNat with
  | 0 => some (.xpull (fD b) (fA b) (fB b) (fN b 0 3))
  | 1 => some (.xrank (fD b) (fA b) (fB b) (fN b 0 3))
  | 2 => some (.xsegb (fD b) (fA b) (fB b) (fN b 0 3))
  | 3 => some (.xrev (fD b) (fA b) (fB b) (fN b 0 3))
  | 4 => if fN b 16 2 = 0 then zeroed (fB b) (.xcount (fD b) (f1 b 15) (fN b 12 3) (fN b 0 3)) else none
  | 5 => if fN b 16 2 = 0 then zeroed (fB b) (.xfirst (fD b) (f1 b 15) (fN b 12 3) (fN b 0 3)) else none
  | 6 => if fN b 16 2 = 0 then zeroed (fB b) (.xmask (fD b) (f1 b 15) (fN b 12 3) (fN b 0 3)) else none
  | _ => zeroed (fB b) (.gbcast (fD b) (fA b) (fN b 0 3))

/-- GRED, opcode 26, and GSCAN, opcode 27 (R120). -/
def decodeGred (b : BitVec 24) : Option Instr :=
  if fN b 6 2 = 0 then zeroed (fN b 0 3) (.gred (fD b) (fA b) (fN b 8 4) (fN b 3 3)) else none

def decodeGscan (b : BitVec 24) : Option Instr :=
  if f1 b 6 then none else zeroed (fN b 0 3) (.gscan (fD b) (fA b) (fN b 8 4) (f1 b 7) (fN b 3 3))

/-- NARROW, opcode 28 (R114): the operation is in 5:4. -/
def decodeNarrow (b : BitVec 24) : Option Instr :=
  match (fN b 4 2).toNat with
  | 0 => zeroed (fN b 0 4) (.pack6 (fD b) (fA b) (fB b))
  | 1 => zeroed (fB b) (.unpk6 (fD b) (fA b) (fN b 0 4))
  | _ => none

/-- LDA, opcode 34, and STRL, opcode 35 (R215): off5 holds peek and the scope. -/
def decodeLda (b : BitVec 24) : Option Instr :=
  zeroed (fN b 4 1) (.lda (fD b) (fA b) (fN b 10 2) (fN b 7 3) (fN b 5 2) (f1 b 3) (fN b 0 3))

def decodeStrl (b : BitVec 24) : Option Instr :=
  zeroed (fN b 3 2) (.strl (fD b) (fA b) (fN b 10 2) (fN b 7 3) (fN b 5 2) (fN b 0 3))

/-- PREF, opcode 36 (R217): the size field selects the operation. -/
def decodePref (b : BitVec 24) : Option Instr :=
  match (fN b 7 3).toNat with
  | 0 => zeroed (fD b) (.pref (fA b) (fN b 10 2) (fN b 5 2) (fN b 0 5))
  | 1 => zeroed (fD b) (.prefL1 (fA b) (fN b 10 2) (fN b 5 2) (fN b 0 5))
  | 2 => if fN b 10 8 = 0 then zeroed (fN b 0 7) (.prefHome (fD b)) else none
  | _ => none

/-- WIN, opcode 37 (R222): the operation is in 11:9. -/
def decodeWin (b : BitVec 24) : Option Instr :=
  match (fN b 9 3).toNat with
  | 0 => zeroed (fN b 0 9) (.wmap (fD b) (fA b))
  | 1 => zeroed (fN b 0 9) (.wunmap (fD b) (fA b))
  | 2 => zeroed (fN b 0 9) (.wflush (fD b) (fA b))
  | 3 => zeroed (fN b 0 9) (.wdrop (fD b) (fA b))
  | 4 => zeroed (fN b 0 9) (.wquery (fD b) (fA b))
  | _ => none

/-- FENCE, opcode 40 (R221): the kind is in 1:0, the scope in 5:3. -/
def decodeFence (b : BitVec 24) : Option Instr :=
  if fN b 6 18 = 0 ∧ fN b 2 1 = 0 then
    match (fN b 0 2).toNat with
    | 1 => some (.fenceRel (fN b 3 3))
    | 2 => some (.fenceAcq (fN b 3 3))
    | 3 => some (.fenceFull (fN b 3 3))
    | _ => none
  else none

/-- CPYA, GATH and SCAT, opcodes 41 to 43 (R225, R230, R231). -/
def decodeCpya (b : BitVec 24) : Option Instr :=
  zeroed (fN b 0 8) (.cpya (fD b) (fA b) (fN b 10 2) (fN b 8 2))

def decodeGath (b : BitVec 24) : Option Instr :=
  zeroed (fN b 0 7) (.gath (fD b) (fA b) (fN b 10 2) (f1 b 9) (f1 b 8) (f1 b 7))

def decodeScat (b : BitVec 24) : Option Instr :=
  if f1 b 3 then
    some (.scatReduce (fD b) (fA b) (fN b 10 2) (f1 b 9) (f1 b 8) (f1 b 7) (fN b 4 3) (fN b 0 3))
  else zeroed (fN b 0 7) (.scat (fD b) (fA b) (fN b 10 2) (f1 b 9) (f1 b 8) (f1 b 7))

/-- DRAIN, opcode 44 (R233): the mode is in 11:10. -/
def decodeDrain (b : BitVec 24) : Option Instr :=
  match (fN b 10 2).toNat with
  | 0 => zeroed (fN b 0 10) (.drain (fD b) (fA b))
  | 1 => if fA b = 0 then zeroed (fN b 0 10) (.drainAll (fD b)) else none
  | 2 => if fA b = 0 then zeroed (fN b 0 10) (.drainPass (fD b)) else none
  | _ => none

/-- JMPR and CALLR, opcode 50 (R264): bit 18 selects. -/
def decodeJmpr (b : BitVec 24) : Option Instr :=
  zeroed (fN b 0 12)
    (if f1 b 18 then .callr (f1 b 23) (fN b 20 3) (f1 b 19) (fA b) else .jmpr (f1 b 23) (fN b 20 3) (f1 b 19) (fA b))

/-- MASK, opcode 52 (R273): the form is in 11:8, k in 7:4, j in 3:0. -/
def decodeMask (b : BitVec 24) : Option Instr :=
  match (fN b 8 4).toNat with
  | 0 => if fN b 12 12 = 0 then zeroed (fN b 0 4) (.join (fN b 4 4)) else none
  | 1 => if fN b 12 12 = 0 then zeroed (fN b 0 4) (.leave (fN b 4 4)) else none
  | 2 => zeroed (fN b 12 12) (.waitm (fN b 4 4) (fN b 0 4))
  | 3 => if fA b = 0 then zeroed (fN b 0 4) (.mget (fD b) (fN b 4 4)) else none
  | 4 => if fD b = 0 then zeroed (fN b 0 4) (.mset (fA b) (fN b 4 4)) else none
  | 5 => zeroed (fN b 12 12) (.msave (fN b 4 4) (fN b 0 4))
  | 6 => if fN b 12 12 = 0 then zeroed (fN b 0 4) (.mrst (fN b 4 4)) else none
  | _ => none

/-- LATCH, opcode 54 (R284): the operation is in 17:16; WAIT and X take a count of 0. -/
def decodeLatch (b : BitVec 24) : Option Instr :=
  match (fN b 16 2).toNat with
  | 0 => some (.latchArrive (fD b) (fN b 12 4) (fN b 0 12))
  | 1 => some (.latchSync (fD b) (fN b 12 4) (fN b 0 12))
  | 2 => zeroed (fN b 0 12) (.latchWait (fD b) (fN b 12 4))
  | _ => zeroed (fN b 0 12) (.latchX (fD b) (fN b 12 4))

/-- TBAR, opcode 55 (R280): bit 11 is zero. -/
def decodeTbar (b : BitVec 24) : Option Instr :=
  if f1 b 11 then none
  else
    match (fN b 16 2).toNat with
    | 0 => some (.tbarArrive (fD b) (fN b 12 4) (fN b 0 11))
    | 1 => some (.tbarSync (fD b) (fN b 12 4) (fN b 0 11))
    | 2 => zeroed (fN b 0 11) (.tbarWait (fD b) (fN b 12 4))
    | _ => none

/-- CBAR, opcode 56 (R280): bit 15 is zero. -/
def decodeCbar (b : BitVec 24) : Option Instr :=
  if f1 b 15 then none
  else
    match (fN b 16 2).toNat with
    | 0 => some (.cbarArrive (fD b) (fN b 12 3) (fN b 0 12))
    | 1 => some (.cbarSync (fD b) (fN b 12 3) (fN b 0 12))
    | 2 => zeroed (fN b 0 12) (.cbarWait (fD b) (fN b 12 3))
    | _ => none

/-- MPASS, opcode 58 (R151): the kind is in 11:10. -/
def decodeMpass (b : BitVec 24) : Option Instr :=
  zeroed (fN b 0 10)
    (match (fN b 10 2).toNat with
    | 0 => .mpassDense (fD b) (fA b)
    | 1 => .mpassReduce (fD b) (fA b)
    | 2 => .mpassBatch (fD b) (fA b)
    | _ => .mpassMvec (fD b) (fA b))

/-- MCTL, opcode 59 (R152): the operation is in 11:10. -/
def decodeMctl (b : BitVec 24) : Option Instr :=
  if f1 b 9 then none
  else
    match (fN b 10 2).toNat with
    | 0 => zeroed (fE b) (.accinit (fD b) (fA b) (f1 b 8) (fN b 6 2))
    | 1 => zeroed (fN b 0 8) (.mcancel (fD b) (fA b) (f1 b 8))
    | 2 => zeroed (fN b 0 8) (.mquery (fD b) (fA b) (f1 b 8))
    | _ => none

/-- SYS, opcode 62 (R298): the form is in 11:8, the immediate in 7:0. -/
def decodeSys (b : BitVec 24) : Option Instr :=
  match (fN b 8 4).toNat with
  | 0 => zeroed (fN b 12 12) (.trap (fN b 0 8))
  | 1 => zeroed (fD b) (.svc (fA b) (fN b 0 8))
  | 2 => if fD b = 0 then zeroed (fN b 0 8) (.saveq (fA b)) else none
  | 3 => if fD b = 0 then zeroed (fN b 0 8) (.rstq (fA b)) else none
  | 4 => zeroed (fA b) (.gets (fD b) (fN b 0 8))
  | 5 => zeroed (fD b) (.sets (fA b) (fN b 0 8))
  | 6 =>
    match (fN b 0 8).toNat with
    | 0 => some (.tlbiPage (fD b) (fA b))
    | 1 => some (.tlbiAsid (fD b) (fA b))
    | 2 => some (.tlbiAll (fD b) (fA b))
    | _ => none
  | 7 => if fN b 12 12 = 0 then zeroed (fN b 0 8) .invl else none
  | 8 => zeroed (fN b 0 8) (.wbl (fD b) (fA b))
  | 9 => zeroed (fN b 0 8) (.wipe (fD b) (fA b))
  | _ => none

/-- The layout of bits 23:0 by major opcode (R45). The checks on field values are Instr.wf's. -/
def decodeBody (op : Nat) (b : BitVec 24) (w : Code) : Option Instr :=
  match op with
  | 0 => decodeCtl b
  | 1 => decodeIalu b
  | 2 => some (.addi (fD b) (fA b) (fN b 0 12))
  | 3 => decodeLogi b
  | 4 => decodeShi b
  | 5 => zeroed (fN b 0 2) (.icmp (fN b 21 3) (fN b 18 3) (fA b) (fB b) (fN b 3 3) (f1 b 2))
  | 6 => some (.icmpi (fN b 21 3) (fN b 18 3) (fA b) (fB b) (fN b 3 3) (fN b 0 3))
  | 7 => decodeBits b
  | 8 => some (.ldlit (fD b) (fN b 0 18))
  | 9 => zeroed (fN b 0 3) (.addr (fD b) (fA b) (fB b) (fN b 3 3))
  | 10 => decodeSpr b
  | 11 => zeroed (fN b 0 3) (.redo (fD b) (fA b) (fB b) (fN b 3 3))
  | 12 => some (.fadd (fD b) (fA b) (fB b) (fN b 4 2) (fN b 0 4))
  | 13 => some (.fsub (fD b) (fA b) (fB b) (fN b 4 2) (fN b 0 4))
  | 14 => some (.fmul (fD b) (fA b) (fB b) (fN b 4 2) (fN b 0 4))
  | 15 => decodeFmm b
  | 16 => some (.ffma (fD b) (fA b) (fB b) (fE b))
  | 17 => some (.ffms (fD b) (fA b) (fB b) (fE b))
  | 18 => some (.fnma (fD b) (fA b) (fB b) (fE b))
  | 19 => decodeFun b
  | 20 => zeroed (fN b 0 2) (.fcmp (fN b 21 3) (fN b 18 3) (fA b) (fB b) (fN b 3 3) (f1 b 2))
  | 21 => decodeFtwo b
  | 22 => decodeCvt b
  | 23 => some (.fscl (fD b) (fA b) (fB b) (fN b 4 2) (fN b 0 4))
  | 24 => decodeSfu b
  | 25 => decodeXlane b
  | 26 => decodeGred b
  | 27 => decodeGscan b
  | 28 => decodeNarrow b
  | 29 => some (.xpr (fD b) (fA b) (fB b) (fE b))
  | 31 => zeroed (fN b 0 3) (.cmma (fD b) (fA b) (fB b) (fN b 3 3))
  | 32 => some (.ld (fD b) (fA b) (fN b 10 2) (fN b 7 3) (fN b 5 2) (fN b 0 5))
  | 33 => some (.st (fD b) (fA b) (fN b 10 2) (fN b 7 3) (fN b 5 2) (fN b 0 5))
  | 34 => decodeLda b
  | 35 => decodeStrl b
  | 36 => decodePref b
  | 37 => decodeWin b
  | 38 => some (.atom (fD b) (fA b) (fB b) (fN b 3 3) (fN b 0 3))
  | 39 => zeroed (fN b 0 5) (.red (fD b) (fA b) (fN b 9 3) (fN b 6 3) (f1 b 5))
  | 40 => decodeFence b
  | 41 => decodeCpya b
  | 42 => decodeGath b
  | 43 => decodeScat b
  | 44 => decodeDrain b
  | 45 => some (.reservedOpcode w)
  | 46 => some (.atomw (fD b) (fA b) (fB b) (fN b 3 3) (fN b 0 3))
  | 47 => zeroed (fN b 0 2) (.atomc (fD b) (fA b) (fB b) (fN b 3 3) (f1 b 2))
  | 48 => some (.bra (f1 b 23) (fN b 20 3) (f1 b 19) (fN b 0 19))
  | 49 => some (.call (f1 b 23) (fN b 20 3) (f1 b 19) (fN b 0 19))
  | 50 => decodeJmpr b
  | 51 => zeroed (fN b 18 4) (.loop (fN b 22 2) (fA b) (fN b 0 12))
  | 52 => decodeMask b
  | 53 => zeroed (fN b 0 8) (.waitc (fD b) (fA b) (fN b 10 2) (f1 b 9) (f1 b 8))
  | 54 => decodeLatch b
  | 55 => decodeTbar b
  | 56 => decodeCbar b
  | 57 => zeroed (fN b 0 12) (.launch (fD b) (fA b))
  | 58 => decodeMpass b
  | 59 => decodeMctl b
  | 60 => some (.fdiv (fD b) (fA b) (fB b) (fN b 4 2) (fN b 0 4))
  | 61 => some (.fman (fD b) (fA b) (fB b) (fE b))
  | 62 => decodeSys b
  | 63 => some (.reservedOpcode w)
  | _ => none

/-- The decoder of one word (R27, R52): `none` where the word's own bits make it ILLEGAL. XPRC words (opcode 30) are
tokens of the triple that XPR opens (R49) and decode to nothing by themselves. -/
def decodeWord (w : Code) : Option SlotWord :=
  match decodeBody (w.extractLsb' 24 6).toNat (w.extractLsb' 0 24) w with
  | none => none
  | some i =>
    let sw : SlotWord := ⟨w.getLsbD 31, w.getLsbD 30, i⟩
    if sw.wf then some sw else none

/-- The instruction of the first word of `w`. An instruction of the table is one 32-bit word; the words that an
expression triple adds (R49) are read from the packet when it issues. -/
def decodeTableWord (nbits w : Nat) : Option Instr :=
  if nbits = 0 then none else (decodeWord (BitVec.ofNat 32 w)).map SlotWord.instr

/-! ### The encoder -/

/-- One bit. -/
abbrev e1 (x : Bool) : BitVec 1 := BitVec.ofBool x

/-- Opcode and bits 23:0 of an instruction word; `none` for an event. -/
def encodeBody : Instr → Option (BitVec 6 × BitVec 24)
  | .nop => some (0#6, 0#24)
  | .pool count => some (0#6, 1#4 ++ count)
  | .exit => some (0#6, 2097152#24)
  | .ret => some (0#6, 3145728#24)
  | .yield => some (0#6, 4194304#24)
  | .rft => some (0#6, 5242880#24)
  | .rftSkip => some (0#6, 5242881#24)
  | .brkpt code => some (0#6, 6#4 ++ code)
  | .last x y z => some (0#6, 28#6 ++ x ++ y ++ z)
  | .add d a b w => some (1#6, d ++ a ++ b ++ e1 w ++ 0#5)
  | .sub d a b w => some (1#6, d ++ a ++ b ++ e1 w ++ 1#5)
  | .mul d a b w => some (1#6, d ++ a ++ b ++ e1 w ++ 2#5)
  | .mulh d a b w => some (1#6, d ++ a ++ b ++ e1 w ++ 3#5)
  | .mulhn d a b w => some (1#6, d ++ a ++ b ++ e1 w ++ 4#5)
  | .div d a b w => some (1#6, d ++ a ++ b ++ e1 w ++ 5#5)
  | .divn d a b w => some (1#6, d ++ a ++ b ++ e1 w ++ 6#5)
  | .rem d a b w => some (1#6, d ++ a ++ b ++ e1 w ++ 7#5)
  | .remn d a b w => some (1#6, d ++ a ++ b ++ e1 w ++ 8#5)
  | .min d a b w => some (1#6, d ++ a ++ b ++ e1 w ++ 9#5)
  | .max d a b w => some (1#6, d ++ a ++ b ++ e1 w ++ 10#5)
  | .minn d a b w => some (1#6, d ++ a ++ b ++ e1 w ++ 11#5)
  | .maxn d a b w => some (1#6, d ++ a ++ b ++ e1 w ++ 12#5)
  | .and d a b w => some (1#6, d ++ a ++ b ++ e1 w ++ 13#5)
  | .or d a b w => some (1#6, d ++ a ++ b ++ e1 w ++ 14#5)
  | .xor d a b w => some (1#6, d ++ a ++ b ++ e1 w ++ 15#5)
  | .andn d a b w => some (1#6, d ++ a ++ b ++ e1 w ++ 16#5)
  | .shl d a b w => some (1#6, d ++ a ++ b ++ e1 w ++ 17#5)
  | .shr d a b w => some (1#6, d ++ a ++ b ++ e1 w ++ 18#5)
  | .sar d a b w => some (1#6, d ++ a ++ b ++ e1 w ++ 19#5)
  | .rot d a b w => some (1#6, d ++ a ++ b ++ e1 w ++ 20#5)
  | .clz d a w => some (1#6, d ++ a ++ 0#6 ++ e1 w ++ 21#5)
  | .popc d a w => some (1#6, d ++ a ++ 0#6 ++ e1 w ++ 22#5)
  | .brev d a w => some (1#6, d ++ a ++ 0#6 ++ e1 w ++ 23#5)
  | .abs d a w => some (1#6, d ++ a ++ 0#6 ++ e1 w ++ 24#5)
  | .neg d a w => some (1#6, d ++ a ++ 0#6 ++ e1 w ++ 25#5)
  | .sext d a => some (1#6, d ++ a ++ 58#12)
  | .zext d a => some (1#6, d ++ a ++ 59#12)
  | .mov d a w => some (1#6, d ++ a ++ 0#6 ++ e1 w ++ 28#5)
  | .addi d a i => some (2#6, d ++ a ++ i)
  | .andi d a i => some (3#6, d ++ a ++ 0#2 ++ i)
  | .ori d a i => some (3#6, d ++ a ++ 1#2 ++ i)
  | .xori d a i => some (3#6, d ++ a ++ 2#2 ++ i)
  | .andni d a i => some (3#6, d ++ a ++ 3#2 ++ i)
  | .shli d a w s => some (4#6, d ++ a ++ 0#3 ++ e1 w ++ 0#2 ++ s)
  | .shri d a w s => some (4#6, d ++ a ++ 1#3 ++ e1 w ++ 0#2 ++ s)
  | .sari d a w s => some (4#6, d ++ a ++ 2#3 ++ e1 w ++ 0#2 ++ s)
  | .roti d a w s => some (4#6, d ++ a ++ 3#3 ++ e1 w ++ 0#2 ++ s)
  | .icmp cond p a b comb w => some (5#6, cond ++ p ++ a ++ b ++ comb ++ e1 w ++ 0#2)
  | .icmpi cond p a immHi comb immLo => some (6#6, cond ++ p ++ a ++ immHi ++ comb ++ immLo)
  | .sel d a b k => some (7#6, d ++ a ++ b ++ 0#3 ++ k)
  | .bfx d a b sx => some (7#6, d ++ a ++ b ++ 4#5 ++ e1 sx)
  | .bfi d a b => some (7#6, d ++ a ++ b ++ 16#6)
  | .pmov d => some (7#6, d ++ 24#18)
  | .setp a => some (7#6, 0#6 ++ a ++ 32#12)
  | .bperm d a b => some (7#6, d ++ a ++ b ++ 40#6)
  | .ldlit d off => some (8#6, d ++ off)
  | .addr d a b scale => some (9#6, d ++ a ++ b ++ scale ++ 0#3)
  | .sprGet x num => some (10#6, x ++ 0#6 ++ num)
  | .sprSet x num => some (10#6, x ++ 16#6 ++ num)
  | .sprSwap x num => some (10#6, x ++ 32#6 ++ num)
  | .redo a base b scope => some (11#6, a ++ base ++ b ++ scope ++ 0#3)
  | .fadd d a b rnd cls => some (12#6, d ++ a ++ b ++ rnd ++ cls)
  | .fsub d a b rnd cls => some (13#6, d ++ a ++ b ++ rnd ++ cls)
  | .fmul d a b rnd cls => some (14#6, d ++ a ++ b ++ rnd ++ cls)
  | .fmin d a b cls => some (15#6, d ++ a ++ b ++ 0#2 ++ cls)
  | .fmax d a b cls => some (15#6, d ++ a ++ b ++ 1#2 ++ cls)
  | .fminm d a b cls => some (15#6, d ++ a ++ b ++ 2#2 ++ cls)
  | .fmaxm d a b cls => some (15#6, d ++ a ++ b ++ 3#2 ++ cls)
  | .ffma d a b e => some (16#6, d ++ a ++ b ++ e)
  | .ffms d a b e => some (17#6, d ++ a ++ b ++ e)
  | .fnma d a b e => some (18#6, d ++ a ++ b ++ e)
  | .fabs d a rnd cls => some (19#6, d ++ a ++ 0#6 ++ rnd ++ cls)
  | .fneg d a rnd cls => some (19#6, d ++ a ++ 1#6 ++ rnd ++ cls)
  | .frnd d a rnd cls => some (19#6, d ++ a ++ 2#6 ++ rnd ++ cls)
  | .gete d a => some (19#6, d ++ a ++ 192#12)
  | .getm d a rnd cls => some (19#6, d ++ a ++ 4#6 ++ rnd ++ cls)
  | .fclass d a => some (19#6, d ++ a ++ 320#12)
  | .reclass d a rnd cls => some (19#6, d ++ a ++ 6#6 ++ rnd ++ cls)
  | .fcmp cond p a b comb sig => some (20#6, cond ++ p ++ a ++ b ++ comb ++ e1 sig ++ 0#2)
  | .twosum d a b cls => some (21#6, d ++ a ++ b ++ 0#2 ++ cls)
  | .twoprod d a b cls => some (21#6, d ++ a ++ b ++ 2#2 ++ cls)
  | .cvtin d a ty rnd cls => some (22#6, d ++ a ++ ty ++ 0#2 ++ rnd ++ cls)
  | .cvtout d a ty rnd => some (22#6, d ++ a ++ ty ++ 2#2 ++ rnd ++ 0#4)
  | .fscl d a b rnd cls => some (23#6, d ++ a ++ b ++ rnd ++ cls)
  | .rcp d a rnd cls => some (24#6, d ++ a ++ 0#6 ++ rnd ++ cls)
  | .rsq d a rnd cls => some (24#6, d ++ a ++ 8#6 ++ rnd ++ cls)
  | .sqrt d a rnd cls => some (24#6, d ++ a ++ 16#6 ++ rnd ++ cls)
  | .exp2 d a rnd cls => some (24#6, d ++ a ++ 24#6 ++ rnd ++ cls)
  | .log2 d a rnd cls => some (24#6, d ++ a ++ 32#6 ++ rnd ++ cls)
  | .sin d a rnd cls => some (24#6, d ++ a ++ 40#6 ++ rnd ++ cls)
  | .cos d a rnd cls => some (24#6, d ++ a ++ 48#6 ++ rnd ++ cls)
  | .tanh d a rnd cls => some (24#6, d ++ a ++ 56#6 ++ rnd ++ cls)
  | .xpull d a b k => some (25#6, d ++ a ++ b ++ 0#3 ++ k)
  | .xrank d a b k => some (25#6, d ++ a ++ b ++ 1#3 ++ k)
  | .xsegb d a b k => some (25#6, d ++ a ++ b ++ 2#3 ++ k)
  | .xrev d a b k => some (25#6, d ++ a ++ b ++ 3#3 ++ k)
  | .xcount d neg j k => some (25#6, d ++ 0#2 ++ e1 neg ++ j ++ 4#9 ++ k)
  | .xfirst d neg j k => some (25#6, d ++ 0#2 ++ e1 neg ++ j ++ 5#9 ++ k)
  | .xmask d neg j k => some (25#6, d ++ 0#2 ++ e1 neg ++ j ++ 6#9 ++ k)
  | .gbcast d a k => some (25#6, d ++ a ++ 7#9 ++ k)
  | .gred d a op k => some (26#6, d ++ a ++ op ++ 0#2 ++ k ++ 0#3)
  | .gscan d a op excl k => some (27#6, d ++ a ++ op ++ e1 excl ++ 0#1 ++ k ++ 0#3)
  | .pack6 d a b => some (28#6, d ++ a ++ b ++ 0#6)
  | .unpk6 d a cls => some (28#6, d ++ a ++ 1#8 ++ cls)
  | .xpr in0 in1 in2 in3 => some (29#6, in0 ++ in1 ++ in2 ++ in3)
  | .cmma d a b k => some (31#6, d ++ a ++ b ++ k ++ 0#3)
  | .ld d base space size reuse off => some (32#6, d ++ base ++ space ++ size ++ reuse ++ off)
  | .st src base space size reuse off => some (33#6, src ++ base ++ space ++ size ++ reuse ++ off)
  | .lda d base space size reuse peek scope => some (34#6, d ++ base ++ space ++ size ++ reuse ++ 0#1 ++ e1 peek ++ scope)
  | .strl src base space size reuse scope => some (35#6, src ++ base ++ space ++ size ++ reuse ++ 0#2 ++ scope)
  | .pref base space reuse off => some (36#6, 0#6 ++ base ++ space ++ 0#3 ++ reuse ++ off)
  | .prefL1 base space reuse off => some (36#6, 0#6 ++ base ++ space ++ 1#3 ++ reuse ++ off)
  | .prefHome die => some (36#6, die ++ 256#18)
  | .wmap d a => some (37#6, d ++ a ++ 0#12)
  | .wunmap d a => some (37#6, d ++ a ++ 512#12)
  | .wflush d a => some (37#6, d ++ a ++ 1024#12)
  | .wdrop d a => some (37#6, d ++ a ++ 1536#12)
  | .wquery d a => some (37#6, d ++ a ++ 2048#12)
  | .atom d base b scope op => some (38#6, d ++ base ++ b ++ scope ++ op)
  | .red a base scope op w => some (39#6, a ++ base ++ scope ++ op ++ e1 w ++ 0#5)
  | .fenceRel scope => some (40#6, 0#18 ++ scope ++ 1#3)
  | .fenceAcq scope => some (40#6, 0#18 ++ scope ++ 2#3)
  | .fenceFull scope => some (40#6, 0#18 ++ scope ++ 3#3)
  | .cpya a t sspace dspace => some (41#6, a ++ t ++ sspace ++ dspace ++ 0#8)
  | .gath a t mode i64 istash dstash => some (42#6, a ++ t ++ mode ++ e1 i64 ++ e1 istash ++ e1 dstash ++ 0#7)
  | .scat a t mode i64 istash dstash => some (43#6, a ++ t ++ mode ++ e1 i64 ++ e1 istash ++ e1 dstash ++ 0#7)
  | .scatReduce a t mode i64 istash dstash op scope => some (43#6, a ++ t ++ mode ++ e1 i64 ++ e1 istash ++ e1 dstash ++ op ++ 1#1 ++ scope)
  | .drain d a => some (44#6, d ++ a ++ 0#12)
  | .drainAll d => some (44#6, d ++ 1024#18)
  | .drainPass d => some (44#6, d ++ 2048#18)
  | .atomw d base b scope op => some (46#6, d ++ base ++ b ++ scope ++ op)
  | .atomc d base b scope w => some (47#6, d ++ base ++ b ++ scope ++ e1 w ++ 0#2)
  | .bra neg p u off => some (48#6, e1 neg ++ p ++ e1 u ++ off)
  | .call neg p u off => some (49#6, e1 neg ++ p ++ e1 u ++ off)
  | .jmpr neg p u a => some (50#6, e1 neg ++ p ++ e1 u ++ 0#1 ++ a ++ 0#12)
  | .callr neg p u a => some (50#6, e1 neg ++ p ++ e1 u ++ 1#1 ++ a ++ 0#12)
  | .loop i n len => some (51#6, i ++ 0#4 ++ n ++ len)
  | .join k => some (52#6, 0#16 ++ k ++ 0#4)
  | .leave k => some (52#6, 1#16 ++ k ++ 0#4)
  | .waitm k j => some (52#6, 2#16 ++ k ++ j)
  | .mget d k => some (52#6, d ++ 3#10 ++ k ++ 0#4)
  | .mset a k => some (52#6, 0#6 ++ a ++ 4#4 ++ k ++ 0#4)
  | .msave k j => some (52#6, 5#16 ++ k ++ j)
  | .mrst k => some (52#6, 6#16 ++ k ++ 0#4)
  | .waitc d a n all t => some (53#6, d ++ a ++ n ++ e1 all ++ e1 t ++ 0#8)
  | .latchArrive d num count => some (54#6, d ++ 0#2 ++ num ++ count)
  | .latchSync d num count => some (54#6, d ++ 1#2 ++ num ++ count)
  | .latchWait d num => some (54#6, d ++ 2#2 ++ num ++ 0#12)
  | .latchX d num => some (54#6, d ++ 3#2 ++ num ++ 0#12)
  | .tbarArrive d num count => some (55#6, d ++ 0#2 ++ num ++ 0#1 ++ count)
  | .tbarSync d num count => some (55#6, d ++ 1#2 ++ num ++ 0#1 ++ count)
  | .tbarWait d num => some (55#6, d ++ 2#2 ++ num ++ 0#12)
  | .cbarArrive d num count => some (56#6, d ++ 0#3 ++ num ++ count)
  | .cbarSync d num count => some (56#6, d ++ 2#3 ++ num ++ count)
  | .cbarWait d num => some (56#6, d ++ 4#3 ++ num ++ 0#12)
  | .launch d a => some (57#6, d ++ a ++ 0#12)
  | .mpassDense d s => some (58#6, d ++ s ++ 0#12)
  | .mpassReduce d s => some (58#6, d ++ s ++ 1024#12)
  | .mpassBatch d s => some (58#6, d ++ s ++ 2048#12)
  | .mpassMvec d s => some (58#6, d ++ s ++ 3072#12)
  | .accinit d a keep kind => some (59#6, d ++ a ++ 0#3 ++ e1 keep ++ kind ++ 0#6)
  | .mcancel d a tile => some (59#6, d ++ a ++ 2#3 ++ e1 tile ++ 0#8)
  | .mquery d a tile => some (59#6, d ++ a ++ 4#3 ++ e1 tile ++ 0#8)
  | .fdiv d a b rnd cls => some (60#6, d ++ a ++ b ++ rnd ++ cls)
  | .fman d a b e => some (61#6, d ++ a ++ b ++ e)
  | .trap x => some (62#6, 0#16 ++ x)
  | .svc a x => some (62#6, 0#6 ++ a ++ 1#4 ++ x)
  | .saveq a => some (62#6, 0#6 ++ a ++ 512#12)
  | .rstq a => some (62#6, 0#6 ++ a ++ 768#12)
  | .gets d x => some (62#6, d ++ 4#10 ++ x)
  | .sets a x => some (62#6, 0#6 ++ a ++ 5#4 ++ x)
  | .tlbiPage d a => some (62#6, d ++ a ++ 1536#12)
  | .tlbiAsid d a => some (62#6, d ++ a ++ 1537#12)
  | .tlbiAll d a => some (62#6, d ++ a ++ 1538#12)
  | .invl => some (62#6, 1792#24)
  | .wbl d a => some (62#6, d ++ a ++ 2048#12)
  | .wipe d a => some (62#6, d ++ a ++ 2304#12)
  | .reservedOpcode w => some (w.extractLsb' 24 6, w.extractLsb' 0 24)
  | .waitcPoll _ _ => none
  | .waitcTimeout _ => none
  | .latchRelease _ _ => none
  | .runForcedEnd _ => none
  | .longResultReturn _ => none
  | .formGang _ _ => none
  | .parkResume _ => none
  | .threadFaultRecord _ => none
  | .leaseExpiry _ => none
  | .clusterBufferWriteback _ _ _ => none
  | .stashFillComplete _ _ _ => none
  | .accinitApply _ _ _ => none
  | .matrixGrant _ _ => none
  | .passPriorityAging _ _ _ => none
  | .kStep _ _ _ => none
  | .partialResend _ => none
  | .passPreemptStop _ _ _ => none
  | .asyncOpComplete _ _ _ => none
  | .knockerWrite _ _ => none
  | .cohortPlace _ => none
  | .dispatcherPreempt _ => none
  | .idleSteal _ _ => none
  | .cohortSaved _ _ => none
  | .cohortRestore _ _ => none
  | .gridEnd _ => none
  | .faultReportReoffer _ => none
  | .lastingError _ _ => none
  | .clockAdjust _ _ => none
  | .moduleReset => none
  | .electQuiet => none
  | .helloTimeout _ => none
  | .imgreqTimeout => none
  | .edgeRequestTimeout _ _ => none
  | .mcastTimeout _ => none
  | .ucieModuleError _ _ _ => none
  | .sitePowerCut _ => none
  | .rd _ => none
  | .rdn _ => none
  | .rdo _ => none
  | .wr _ => none
  | .wrm _ => none
  | .atm _ => none
  | .watch _ => none
  | .unwatch _ => none
  | .wb _ => none
  | .probe _ => none
  | .recall _ => none
  | .ack _ => none
  | .nack _ => none
  | .remap _ => none
  | .done _ => none
  | .err _ => none
  | .data _ => none
  | .pdata _ => none
  | .redu _ => none
  | .redw _ => none
  | .part _ => none
  | .hello _ => none
  | .timex _ => none
  | .elect _ => none
  | .assign _ => none
  | .epoch _ => none
  | .watchv _ => none
  | .steal _ => none
  | .img _ => none
  | .hingeWipe _ => none
  | .wiped _ => none
  | .imgreq _ => none
  | .replayRetry _ _ => none
  | .replayFail _ _ => none
  | .threadcmdRetry _ _ => none
  | .threadcmdSkip _ _ => none
  | .threadcmdUpcall _ _ => none
  | .threadcmdAbort _ _ => none
  | .qslotMap _ _ _ => none
  | .qslotUnmap _ _ => none
  | .qslotUnmapComplete _ _ => none
  | .preemptCore _ _ => none
  | .preemptDie _ => none
  | .preemptAsidDie _ _ => none
  | .preemptAsidModule _ _ => none
  | .quantumWrite _ _ => none
  | .rdcsizeWrite _ _ => none
  | .powercapWrite _ _ => none
  | .modidWrite _ _ => none
  | .accareaWrite _ _ => none
  | .lsegWrite _ _ _ => none
  | .lexcWrite _ _ _ _ => none
  | .challenge _ _ => none
  | .quote _ _ => none
  | .cert _ _ => none
  | .command _ _ => none
  | .registerWrite _ _ _ => none
  | .droppedMessage _ _ _ _ => none
  | .malformedRequest _ _ => none
  | .flitCredits _ _ _ => none
  | .linkErrorRetry _ _ => none
  | .storageError _ _ => none
  | .hbmWipeComplete => none
  | .sliceRetirementComplete _ _ => none
  | .portLiveChange _ _ => none

/-- The word of an instruction with its bits C and B (R27). -/
def encodeWord (sw : SlotWord) : Option Code :=
  (encodeBody sw.instr).map fun p => e1 sw.chain ++ e1 sw.bound ++ p.1 ++ p.2

/-- The opcode table's name for it. -/
def encode (sw : SlotWord) : Option Code := encodeWord sw

end Sys2Proof
end

