-- ==== Sys2Proof/Machine/Vf.lean ====
section
/-! DEFINITION. VF values, exact numbers, rounding and flags: R8, R9, R59 to R68, R73. Arithmetic is exact on
integers, and every operation rounds once at its end. -/
namespace Sys2Proof.Machine

/-! ### Flags -/

/-- The arithmetic flags of R72, in its order from bit 0. -/
structure Flags where
  inv : Bool := false
  div0 : Bool := false
  ovf : Bool := false
  unf : Bool := false
  inx : Bool := false
  px : Bool := false
  range : Bool := false
  deriving DecidableEq, Repr, Inhabited

/-- The union of two sets of flags. -/
def Flags.or (f g : Flags) : Flags :=
  ⟨f.inv || g.inv, f.div0 || g.div0, f.ovf || g.ovf, f.unf || g.unf, f.inx || g.inx, f.px || g.px, f.range || g.range⟩

/-- No flag. -/
def Flags.none : Flags := {}

/-- Bits 6:0 of the trap info (R72). -/
def Flags.bits (f : Flags) : Nat :=
  f.inv.toNat + 2 * f.div0.toNat + 4 * f.ovf.toNat + 8 * f.unf.toNat + 16 * f.inx.toNat + 32 * f.px.toNat
    + 64 * f.range.toNat

/-- INV, OVF, UNF, INX in bits 3:0, as sidecars and status words hold them (R136, R155, R220, R227). -/
def Flags.nibble (f : Flags) : Nat := 8 * f.inv.toNat + 4 * f.ovf.toNat + 2 * f.unf.toNat + f.inx.toNat

/-! ### Rounding modes -/

/-- The rounding modes of R68. -/
inductive Rnd where
  | rne | rz | ru | rd | ro | rna
  deriving DecidableEq, Repr, Inhabited

/-- prc.rm (R68); the reserved codes 110 and 111 round as RNE. -/
def Rnd.ofPrc (rm : Nat) : Rnd :=
  match rm with
  | 1 => .rz | 2 => .ru | 3 => .rd | 4 => .ro | 5 => .rna | _ => .rne

/-! ### Exact numbers -/

/-- A value before rounding: `fin s m e` is (−1)^s · m · 2^e, with a signed zero when m = 0. A NaN keeps its
sign, whether it is signalling, and its fraction with the fraction's width (R60, R63). -/
inductive Num where
  | fin (neg : Bool) (m : Nat) (e : Int)
  | inf (neg : Bool)
  | nan (neg : Bool) (sig : Bool) (frac : Nat) (bits : Nat)
  deriving DecidableEq, Repr, Inhabited

namespace Num

/-- Zero with a sign. -/
abbrev zero (neg : Bool) : Num := .fin neg 0 0

/-- An integer, exactly. -/
def ofInt (i : Int) : Num := .fin (decide (i < 0)) i.natAbs 0

def isNan : Num → Bool
  | .nan .. => true
  | _ => false

def isSnan : Num → Bool
  | .nan _ sig _ _ => sig
  | _ => false

def isQnan : Num → Bool
  | .nan _ sig _ _ => !sig
  | _ => false

def isInf : Num → Bool
  | .inf _ => true
  | _ => false

/-- A finite zero of either sign. -/
def isZero : Num → Bool
  | .fin _ m _ => m == 0
  | _ => false

/-- The sign bit. -/
def neg : Num → Bool
  | .fin n _ _ => n
  | .inf n => n
  | .nan n _ _ _ => n

/-- The same value with its sign inverted. -/
def negate : Num → Num
  | .fin n m e => .fin (!n) m e
  | .inf n => .inf (!n)
  | .nan n s f b => .nan (!n) s f b

/-- The same value with its sign cleared. -/
def abs : Num → Num
  | .fin _ m e => .fin false m e
  | .inf _ => .inf false
  | .nan _ s f b => .nan false s f b

/-- floor(log2 |x|) of a finite nonzero x. -/
def log2 : Num → Int
  | .fin _ m e => (m.log2 : Int) + e
  | _ => 0

/-- The signed integer s with x = s · 2^q, for q at most x's exponent. -/
def scaled (neg : Bool) (m : Nat) (e q : Int) : Int :=
  let k : Int := (m <<< (e - q).toNat : Nat)
  if neg then -k else k

/-- The exact sum of two finite values (R64): a zero sum is −0 under RD and +0 otherwise, but zeros that carry one sign
keep it. -/
def addFin (rd : Bool) (n₁ : Bool) (m₁ : Nat) (e₁ : Int) (n₂ : Bool) (m₂ : Nat) (e₂ : Int) : Num :=
  if m₁ = 0 ∧ m₂ = 0 then .zero (if n₁ = n₂ then n₁ else rd)
  else if m₁ = 0 then .fin n₂ m₂ e₂
  else if m₂ = 0 then .fin n₁ m₁ e₁
  else
    let q := min e₁ e₂
    let s := scaled n₁ m₁ e₁ q + scaled n₂ m₂ e₂ q
    if s = 0 then .zero rd else .fin (decide (s < 0)) s.natAbs q

/-- −1, 0 or 1 as the first finite or infinite value is below, equal to or above the second; −0 equals +0. -/
def cmp : Num → Num → Int
  | .inf a, .inf b => if a = b then 0 else if a then -1 else 1
  | .inf a, _ => if a then -1 else 1
  | _, .inf b => if b then 1 else -1
  | .fin n₁ m₁ e₁, .fin n₂ m₂ e₂ =>
    let q := min e₁ e₂
    let d := scaled n₁ m₁ e₁ q - scaled n₂ m₂ e₂ q
    if d < 0 then -1 else if d = 0 then 0 else 1
  | _, _ => 0

end Num

/-- ExactProduct (R9): the product and whether FPINV is raised. -/
def exactProduct (a b : Num) : Num × Bool :=
  match a, b with
  | .nan .., _ => (a, a.isSnan || b.isSnan)
  | _, .nan .. => (b, a.isSnan || b.isSnan)
  | .inf n, y => if y.isZero then (.nan false false 0 0, true) else (.inf (n != y.neg), false)
  | x, .inf n => if x.isZero then (.nan false false 0 0, true) else (.inf (x.neg != n), false)
  | .fin n₁ m₁ e₁, .fin n₂ m₂ e₂ => (.fin (n₁ != n₂) (m₁ * m₂) (e₁ + e₂), false)

/-- A NaN made from non-NaN operands (R63), marked by a zero-width fraction: it becomes the default quiet NaN of the
result class. -/
abbrev madeNan : Num := .nan false false 0 0

/-- The exact sum of two values that are not NaN; opposite infinities are invalid (R65). -/
def exactSum (rd : Bool) (a b : Num) : Num × Bool :=
  match a, b with
  | .inf x, .inf y => if x = y then (.inf x, false) else (madeNan, true)
  | .inf x, _ => (.inf x, false)
  | _, .inf y => (.inf y, false)
  | .fin n₁ m₁ e₁, .fin n₂ m₂ e₂ => (Num.addFin rd n₁ m₁ e₁ n₂ m₂ e₂, false)
  | x, _ => (x, false)

/-! ### VF values -/

/-- The precision p of class c (R59). -/
abbrev precOf (c : Nat) : Nat := 16 * c + 17

/-- The fraction bits of class c (R59). -/
abbrev fracBits (c : Nat) : Nat := 16 * c + 16

/-- The slots of class c (R62). -/
abbrev slotsOf (c : Nat) : Nat := (c + 5) / 4

/-- The bytes of class c in memory (R59). -/
abbrev bytesOf (c : Nat) : Nat := 2 * c + 4

/-- A VF value (R59): sign, class 0 to 7, exponent field 0 to 4095, and the fraction integer of 16(c + 1) bits. -/
structure Vf where
  neg : Bool
  cls : Nat
  exp : Nat
  frac : Nat
  deriving DecidableEq, Repr, Inhabited

namespace Vf

/-- The header halfword (R59). -/
def header (v : Vf) : Nat := v.neg.toNat * 32768 + v.cls * 4096 + v.exp

/-- Halfword k of the value: the header, then the fraction, most significant first (R59). -/
def half (v : Vf) (k : Nat) : Nat :=
  if k = 0 then v.header else (v.frac >>> (16 * (v.cls + 1 - k))) % 65536

/-- The value from its header and fraction integer. -/
def ofHeader (h f : Nat) : Vf :=
  { neg := decide (h / 32768 % 2 = 1), cls := h / 4096 % 8, exp := h % 4096, frac := f }

/-- VFValue (R60). -/
def num (v : Vf) : Num :=
  let p := precOf v.cls
  if v.exp = 4095 then
    if v.frac = 0 then .inf v.neg
    else .nan v.neg (decide (v.frac < 2 ^ (p - 2))) v.frac (fracBits v.cls)
  else if v.exp = 0 then .fin v.neg v.frac (-2046 - ((p : Int) - 1))
  else .fin v.neg (2 ^ (p - 1) + v.frac) ((v.exp : Int) - 2047 - ((p : Int) - 1))

/-- A subnormal value: E = 0 and a nonzero fraction. -/
def isSub (v : Vf) : Bool := v.exp == 0 && v.frac != 0

/-- The value as a source under prc.FTZ (R67): a subnormal reads as zero of its own sign. -/
def src (ftz : Bool) (v : Vf) : Num := if ftz && v.isSub then .zero v.neg else v.num

/-- The default quiet NaN of class c (R63). -/
def defaultNan (c : Nat) : Vf := ⟨false, c, 4095, 2 ^ (fracBits c - 1)⟩

/-- Infinity at class c. -/
def infinity (c : Nat) (neg : Bool) : Vf := ⟨neg, c, 4095, 0⟩

/-- Zero at class c. -/
def zero (c : Nat) (neg : Bool) : Vf := ⟨neg, c, 0, 0⟩

end Vf

/-- A fraction of `b` bits cut or zero-filled on the right to `t` bits. -/
def fitFrac (f b t : Nat) : Nat := if b ≤ t then f <<< (t - b) else f >>> (b - t)

/-- A NaN delivered at class c (R63): quiet, its sign kept, its fraction cut or zero-filled on the right. -/
def quietNan (c : Nat) (neg : Bool) (f b : Nat) : Vf :=
  if b = 0 then Vf.defaultNan c
  else ⟨neg, c, 4095, (fitFrac f b (fracBits c)) ||| 2 ^ (fracBits c - 1)⟩

/-- A NaN delivered at class c with its quiet bit as it stands (R104 FABS, FNEG). A cut that would leave no fraction
sets the top bit, as the cut of R63 does (DEDUCED, notes/assumptions/7.md). -/
def keptNan (c : Nat) (neg : Bool) (f b : Nat) : Vf :=
  let g := fitFrac f b (fracBits c)
  ⟨neg, c, 4095, if g = 0 then 2 ^ (fracBits c - 1) else g⟩

/-! ### RoundTo -/

/-- One rounding step (R8): whether the kept integer `n` takes one more, given the discarded part `r` of `2^s`. -/
def roundsUp (md : Rnd) (neg : Bool) (n r s : Nat) : Bool :=
  if r = 0 then false
  else
    match md with
    | .rne => decide (2 * r > 2 ^ s) || (decide (2 * r = 2 ^ s) && decide (n % 2 = 1))
    | .rna => decide (2 * r ≥ 2 ^ s)
    | .rz => false
    | .ru => !neg
    | .rd => neg
    | .ro => decide (n % 2 = 0)

/-- The kept integer and whether anything was discarded, when m · 2^e is measured in units of 2^q. -/
def roundUnits (md : Rnd) (neg : Bool) (m : Nat) (e q : Int) : Nat × Bool :=
  if q ≤ e then (m <<< (e - q).toNat, false)
  else
    let s := (q - e).toNat
    let n := m >>> s
    let r := m % 2 ^ s
    (if roundsUp md neg n r s then n + 1 else n, decide (r ≠ 0))

/-- A binary format for RoundTo: precision, least normal exponent, greatest exponent (R8, R81). -/
structure Fmt where
  p : Nat
  emin : Int
  emax : Int
  deriving DecidableEq, Repr, Inhabited

/-- VF class c (R8). -/
def vfFmt (c : Nat) : Fmt := ⟨precOf c, -2046, 2047⟩

/-- What RoundTo gives for a finite nonzero value: a kept integer with the exponent of its unit, or an infinity. -/
inductive Rounded where
  | val (neg : Bool) (n : Nat) (q : Int)
  | inf (neg : Bool)
  deriving DecidableEq, Repr, Inhabited

/-- RoundTo (R8) on a finite nonzero value. -/
def roundFin (fm : Fmt) (md : Rnd) (ftz : Bool) (neg : Bool) (m : Nat) (e : Int) : Rounded × Flags :=
  let l : Int := (m.log2 : Int) + e
  let q : Int := max l fm.emin - fm.p + 1
  let (n, inx) := roundUnits md neg m e q
  if n ≠ 0 ∧ fm.emax + 1 ≤ (n.log2 : Int) + q then
    let toInf :=
      match md with
      | .rne => true
      | .rna => true
      | .ru => !neg
      | .rd => neg
      | _ => false
    (if toInf then .inf neg else .val neg (2 ^ fm.p - 1) (fm.emax - fm.p + 1), { ovf := true, inx := true })
  else
    let tiny := decide (l < fm.emin)
    if ftz && decide (n ≠ 0) && decide ((n.log2 : Int) + q < fm.emin) then
      (.val neg 0 q, { unf := true, inx := true })
    else (.val neg n q, { inx := inx, unf := tiny && inx })

/-- The one encoding at class c of a rounded value (R60). -/
def Rounded.toVf (c : Nat) : Rounded → Vf
  | .inf neg => Vf.infinity c neg
  | .val neg n q =>
    let p := precOf c
    if n = 0 then Vf.zero c neg
    else if n < 2 ^ (p - 1) then ⟨neg, c, 0, n⟩
    else if n < 2 ^ p then ⟨neg, c, (q + p - 1 + 2047).toNat, n - 2 ^ (p - 1)⟩
    else ⟨neg, c, (q + p + 2047).toNat, n / 2 - 2 ^ (p - 1)⟩

/-- RoundTo(x, c, m) (R8), with the FTZ bit given. -/
def roundTo (c : Nat) (md : Rnd) (ftz : Bool) : Num → Vf × Flags
  | .nan neg _ f b => (quietNan c neg f b, {})
  | .inf neg => (Vf.infinity c neg, {})
  | .fin neg m e =>
    if m = 0 then (Vf.zero c neg, {})
    else
      let (r, f) := roundFin (vfFmt c) md ftz neg m e
      (r.toVf c, f)

/-! ### The operations -/

/-- The flag of a signalling NaN among the operands (R63). -/
def snanFlag (xs : List Num) : Flags := { inv := xs.any Num.isSnan }

/-- The first NaN operand in operand order (R63). -/
def firstNan (xs : List Num) : Option Num := xs.find? Num.isNan

/-- The exact result of an operation with the flags raised before rounding, and the addends that R73 looks at (empty where the instruction
evaluates no PX). -/
structure Exact where
  x : Num
  flags : Flags := {}
  addends : List Num := []
  deriving DecidableEq, Repr, Inhabited

/-- a + b (R99 FADD); FSUB passes b with its sign inverted. -/
def exactAdd (rd : Bool) (a b : Num) : Exact :=
  match firstNan [a, b] with
  | some n => { x := n, flags := snanFlag [a, b], addends := [a, b] }
  | none =>
    let (s, iv) := exactSum rd a b
    { x := s, flags := { inv := iv }, addends := [a, b] }

/-- a · b (R99 FMUL). -/
def exactMul (a b : Num) : Exact :=
  let (x, iv) := exactProduct a b
  { x := x, flags := { inv := iv } }

/-- ±(a · b) + c (R99 FFMA, FFMS, FNMA): NaN operands in the order a, b, c; zero times infinity raises FPINV even where c is
a quiet NaN, whose NaN is then the result. -/
def exactFma (rd : Bool) (a b c : Num) (negProd : Bool) : Exact :=
  let (p₀, iv) := exactProduct a b
  let p := if negProd && !p₀.isNan then p₀.negate else p₀
  match firstNan [a, b, c] with
  | some n => { x := n, flags := { inv := iv || c.isSnan }, addends := [p, c] }
  | none =>
    if iv then { x := madeNan, flags := { inv := true }, addends := [p, c] }
    else
      let (s, iv₂) := exactSum rd p c
      { x := s, flags := { inv := iv₂ }, addends := [p, c] }

/-- The significant bits a quotient or a root is computed to before one sticky bit: more than twice the widest precision
plus two, so that one rounding of the value with its sticky bit is one rounding of the exact value. -/
abbrev guardBits : Nat := 300

/-- a / b with a sticky bit in the last place (R102). -/
def exactDiv (a b : Num) : Exact :=
  match firstNan [a, b] with
  | some n => { x := n, flags := snanFlag [a, b] }
  | none =>
    match a, b with
    | .inf _, .inf _ => { x := madeNan, flags := { inv := true } }
    | .inf n, y => { x := .inf (n != y.neg) }
    | x, .inf n => { x := .zero (x.neg != n) }
    | .fin n₁ m₁ e₁, .fin n₂ m₂ e₂ =>
      if m₂ = 0 then
        if m₁ = 0 then { x := madeNan, flags := { inv := true } }
        else { x := .inf (n₁ != n₂), flags := { div0 := true } }
      else if m₁ = 0 then { x := .zero (n₁ != n₂) }
      else
        let k := guardBits + m₂.log2
        let num := m₁ <<< k
        let q := num / m₂
        let s := if num % m₂ = 0 then 0 else 1
        { x := .fin (n₁ != n₂) (2 * q + s) (e₁ - e₂ - k - 1) }
    | x, _ => { x := x }

/-- PXHolds (R73): the retained bits when the condition is evaluated, and whether it holds. -/
def pxHolds (floor : Nat) (addends : List Num) (x : Num) (c : Nat) : Option (Int × Bool) :=
  if floor = 0 ∨ addends = [] then none
  else if addends.any (fun a => a.isNan || a.isInf) then none
  else
    let nz := addends.filter (fun a => !a.isZero)
    match nz with
    | [] => none
    | a :: rest =>
      let ebig := rest.foldl (fun m b => max m b.log2) a.log2
      let kept : Int := if x.isZero then 0 else (precOf c : Int) - (ebig - x.log2)
      some (kept, decide (kept < floor))

/-- What a VF operation delivers: the value, all flags raised, and kept of R72 when the PX condition was evaluated. -/
structure VfOut where
  val : Vf
  flags : Flags
  kept : Nat := 0
  deriving DecidableEq, Repr, Inhabited

/-- kept clamped to 0 to 255 (R72). -/
def keptField : Option (Int × Bool) → Nat
  | none => 0
  | some (k, _) => (min (max k 0) 255).toNat

/-- Round an exact result once, and evaluate PX on its addends (VFCompute, R99). -/
def finishVf (c : Nat) (md : Rnd) (ftz : Bool) (floor : Nat) (ex : Exact) : VfOut :=
  let (v, f) := roundTo c md ftz ex.x
  let px := pxHolds floor ex.addends ex.x c
  let f' := (f.or ex.flags).or { px := (px.map Prod.snd).getD false }
  { val := v, flags := f', kept := keptField px }

/-- The order of FMIN and FMAX: −0 is less than +0 (R101). -/
def minOrder (a b : Num) : Int :=
  let c := Num.cmp a b
  if c = 0 ∧ a.isZero ∧ b.isZero then
    if a.neg = b.neg then 0 else if a.neg then -1 else 1
  else c

/-- FMIN, FMAX, FMINM, FMAXM (R101): `greater` and `magnitude` select. -/
def chooseMinMax (greater magnitude : Bool) (a b : Num) : Num × Flags :=
  if a.isSnan || b.isSnan || (a.isNan && b.isNan) then
    ((firstNan [a, b]).getD madeNan, snanFlag [a, b])
  else if a.isNan then (b, {})
  else if b.isNan then (a, {})
  else
    let byMag := if magnitude then Num.cmp a.abs b.abs else 0
    let o := if byMag ≠ 0 then byMag else minOrder a b
    (if greater then (if o < 0 then b else a) else (if o > 0 then b else a), {})

/-- The integer nearest to m · 2^e under a mode, with a unit in the last place of 1 (R83); RO makes an even truncation odd. -/
def toIntegral (md : Rnd) (neg : Bool) (m : Nat) (e : Int) : Nat × Bool := roundUnits md neg m e 0

/-- ToInteger (R83). -/
def toInteger (lo hi : Int) (md : Rnd) : Num → Int × Flags
  | .nan .. => (0, { inv := true })
  | .inf neg => (if neg then lo else hi, { inv := true })
  | .fin neg m e =>
    -- a magnitude of 2^64 or more lies beyond every range
    if m ≠ 0 ∧ 64 ≤ (m.log2 : Int) + e then (if neg then lo else hi, { inv := true })
    else
      let (k, inx) := toIntegral md neg m e
      let n : Int := if neg then -(k : Int) else k
      if n > hi then (hi, { inv := true })
      else if n < lo then (lo, { inv := true })
      else (n, { inx := inx })

/-! ### IEEE formats -/

/-- binary16, binary32, binary64 (R81): format, width and fraction bits. -/
def ieeeFmt : Nat → Fmt × Nat × Nat
  | 0 => (⟨11, -14, 15⟩, 16, 10)
  | 1 => (⟨24, -126, 127⟩, 32, 23)
  | _ => (⟨53, -1022, 1023⟩, 64, 52)

/-- The value of an IEEE encoding (R79, R80). -/
def ieeeNum (t : Nat) (x : Nat) : Num :=
  let (fm, w, fb) := ieeeFmt t
  let neg := decide (x / 2 ^ (w - 1) % 2 = 1)
  let eb := w - 1 - fb
  let e := x / 2 ^ fb % 2 ^ eb
  let f := x % 2 ^ fb
  if e = 2 ^ eb - 1 then
    if f = 0 then .inf neg else .nan neg (decide (f < 2 ^ (fb - 1))) f fb
  else if e = 0 then .fin neg f (fm.emin - fb)
  else .fin neg (2 ^ fb + f) ((e : Int) - (2 ^ (eb - 1) - 1 : Nat) - fb)

/-- A value rounded into an IEEE format (R81); FTZ does not apply. -/
def toIeee (t : Nat) (md : Rnd) : Num → Nat × Flags
  | .nan neg _ f b =>
    let (_, w, fb) := ieeeFmt t
    let expAll := (2 ^ (w - 1 - fb) - 1) * 2 ^ fb
    -- the quiet bit set, and the fraction below the top bit cut or zero-filled on the right
    let low := fitFrac (f % 2 ^ (b - 1)) (b - 1) (fb - 1)
    (neg.toNat * 2 ^ (w - 1) + expAll + 2 ^ (fb - 1) + low % 2 ^ (fb - 1), {})
  | .inf neg =>
    let (_, w, fb) := ieeeFmt t
    (neg.toNat * 2 ^ (w - 1) + (2 ^ (w - 1 - fb) - 1) * 2 ^ fb, {})
  | .fin neg m e =>
    let (fm, w, fb) := ieeeFmt t
    let sgn := neg.toNat * 2 ^ (w - 1)
    if m = 0 then (sgn, {})
    else
      match roundFin fm md false neg m e with
      | (.inf _, fl) => (sgn + (2 ^ (w - 1 - fb) - 1) * 2 ^ fb, fl)
      | (.val _ n q, fl) =>
        if n < 2 ^ (fm.p - 1) then (sgn + n, fl)
        else
          let (n', q') := if n < 2 ^ fm.p then (n, q) else (n / 2, q + 1)
          let ef := (q' + fm.p - 1 + fm.emax).toNat
          (sgn + ef * 2 ^ fb + (n' - 2 ^ fb), fl)

end Sys2Proof.Machine
end

