-- ==== Sys2Proof/Machine/State.lean ====
section
/-! DEFINITION. The state of the module as plain data, the reasons a step can stop, and the state after reset.
INVENTORY.md, '## State', names the rule of spec/ behind every field. -/
namespace Sys2Proof.Machine

/-- A finite map: pairs with rising keys. -/
abbrev AMap (β : Type) := List (Nat × β)

/-! ### Threads -/

/-- Where a result of an issue slot goes. -/
inductive Target where
  /-- named slot n_j -/
  | named (j : Nat)
  /-- the queue slot at ring position r, reserved by a push (R39) -/
  | ring (r : Nat)
  /-- predicate p_k -/
  | pred (k : Nat)
  /-- loop counter lc_i -/
  | lc (i : Nat)
  /-- a whole write of prc (R70) -/
  | prc
  /-- flags raised by a retired instruction, in the order of R72 (R70) -/
  | sticky
  /-- savebase, 0x041 -/
  | savebase
  /-- call depth by SETS (R300) -/
  | cd
  /-- trapcause cleared by RFT (R268) -/
  | trapcause
  /-- last-read mark of n_j (R41) -/
  | dead (j : Nat)
  /-- the place, in program order, of a collective's results, which come when it completes (R118); it writes nothing -/
  | place
  deriving DecidableEq, Repr, Inhabited

/-- One result of the run under way (R35, R36): the issue slot that produced it, its distance (none for long), its target and its value. -/
structure Prod where
  slot : Nat
  dist : Option Nat
  tgt : Target
  val : Word
  deriving DecidableEq, Repr, Inhabited

/-- A LOOP record (R271): start of the body, address of its last word, and the order of setting (0 when cleared). -/
structure LoopRec where
  start : Word := 0
  last : Word := 0
  order : Nat := 0
  deriving DecidableEq, Repr, Inhabited

/-- Why a thread is parked by R11. -/
inductive Park where
  /-- a replayable translation fault, with the tag of its record (R163) -/
  | replay (tag : Nat)
  /-- all 64 fault-buffer entries in use (R163) -/
  | faultBufferFull
  /-- an absent stash line whose fill is under way: line number (R171) -/
  | stashLine (line : Nat)
  /-- a window operation waits for the accesses issued before it (R224): address space and id -/
  | window (asid id : Nat)
  /-- a line in the ACC state: physical line address (R137) -/
  | accLine (line : Nat)
  /-- a full reservation table, or eight entries of the team (R151) -/
  | reservation
  /-- a full footprint table (R208) -/
  | footprint
  /-- an access that conflicts with an asynchronous operation (R208) -/
  | conflict (op : Nat)
  /-- the next phase's held count is full (R285) -/
  | latchHeld (num : Nat)
  /-- sixteen launched packets wait on the die (R288) -/
  | launchFull
  /-- the wait of a release, an acquire or a fence, until the die's counter reaches t (R197, R198) -/
  | until (t : Nat)
  /-- a request to an edge die or another module is outstanding: its transaction (R361, R363, R364) -/
  | answer (txn : Nat)
  /-- a REDO that the home refused for want of a reorder entry: key of the resend (R144) -/
  | resend (key : Nat)
  /-- a chain whose floating collective waits for its participants, while another of its words acts on memory or masks (R31, R118) -/
  | collective
  deriving DecidableEq, Repr, Inhabited

/-- One wait begun in a run, which holds the thread at the boundary (R315, R332). -/
inductive Wait where
  | tbar (num : Nat) (phase : BitVec 16)
  | cbar (num : Nat) (phase : BitVec 16)
  | latch (num : Nat) (phase : BitVec 16)
  /-- WAITM mk, mj; `order` ranks the waiters of mk (R275) -/
  | mask (k j : Nat) (order : Nat)
  /-- arrived at the group's open collective (R118) -/
  | collective
  /-- TLBI, INVL, WBL and WIPE wait for nothing more in this model; kept for a time t (R301, R303) -/
  | time (t : Nat)
  /-- TLBI: the granted passes that may still use an old translation, by the key of their entries, and the address space whose windows are to end (R301) -/
  | tlbi (passes : List Nat) (asid : Option Nat)
  /-- DRAIN: tickets still to be done, as (kind, tid, seq), and where its result goes (R233); with the chain that holds it, its slot in the run, and the
  queue's head and the loop records before it, where an abandoned one issues again (R332) -/
  | drain (tickets : List (Nat × Nat × Nat)) (tgt : Target) (pc : Word) (slot head : Nat) (loops : Vector LoopRec 3)
  deriving DecidableEq, Repr, Inhabited

/-- What a thread is doing (R239, R319, R331). -/
inductive Status where
  | ready
  /-- at its boundary, for long results to return (R34) -/
  | longs
  /-- at its boundary, for the waits of the run -/
  | waiting
  /-- in WAITC, from its boundary (R278) -/
  | waitc
  | parked (why : Park)
  /-- a system cause: the record is not posted yet, or is posted under a tag (R319) -/
  | awaiting (tag : Option Nat)
  /-- stopped by pre-emption, as it stood (R331) -/
  | ended
  deriving DecidableEq, Repr, Inhabited

/-- One condition of a WAITC (R277), with the value last seen. -/
structure Cond where
  /-- kind 1 to 5 -/
  kind : Nat
  /-- compare op, coded as ICMP's cond -/
  op : Nat
  /-- width 32 -/
  w32 : Bool
  acq : Bool
  /-- memory: the virtual address; else the operand slot -/
  operand : Word
  value : Word
  /-- memory: the physical address of the word -/
  pa : Nat := 0
  /-- memory: the value read or delivered last -/
  seen : Word := 0
  /-- memory: the stamp of that value, in local ticks -/
  stamp : Nat := 0
  /-- memory: the cluster-buffer sequence of that value -/
  seq : Nat := 0
  /-- memory: a watch is held at the home; otherwise the core polls (R278) -/
  watched : Bool := false
  /-- memory: values that the watch has delivered and that the combination has still to be evaluated over, in order, each with its stamp (R278, step 4) -/
  news : List (Word × Nat) := []
  deriving DecidableEq, Repr, Inhabited

/-- A WAITC under way (R276 to R278). -/
structure WaitC where
  /-- targets of d's value -/
  tgt : Target
  /-- the issue slot, for the order of the run's results -/
  slot : Nat
  conds : List Cond
  all : Bool
  trap : Bool
  /-- the die's counter at time-out; none waits without limit -/
  deadline : Option Nat
  /-- address of the WAITC word and its index in the chain -/
  pc : Word
  idx : Nat
  /-- address of the chain's first word, and the queue's head and the loop records before the chain, where an abandoned WAITC issues again (R279) -/
  chain : Word
  head : Nat
  loops : Vector LoopRec 3
  deriving DecidableEq, Repr, Inhabited

/-- An answer that came back from an edge die or another module, for the access that parked on it. -/
structure Answer where
  pa : Nat
  data : List (BitVec 8)
  /-- ERR's cause, where the request failed -/
  err : Option Nat
  /-- the stamp of DATA, in local ticks (R195) -/
  stamp : Nat := 0
  deriving DecidableEq, Repr, Inhabited

/-- The fetch of RFT.skip that faulted (R268): the RFT.skip's chain, and trapcause, trapaddr and trapinfo as it found them. -/
structure SkipFetch where
  pc : Word
  cause : Word
  addr : Word
  info : Word
  deriving DecidableEq, Repr, Inhabited

/-- What a completed collective gave a thread whose chain had parked on it (R31, R118): its trap and trap info, or the slots and flags of its result. -/
structure CollDone where
  trap : Option (Nat × Word) := none
  vals : List Word := []
  flags : Word := 0
  deriving DecidableEq, Repr, Inhabited

/-- A thread: a lane of a group, or a conductor (R24, R234). -/
structure Thread where
  grid : Nat
  team : Nat
  /-- grp × 64 + lane; 1,024 for the conductor (R98) -/
  tid : Nat
  die : Nat
  core : Nat
  /-- the chain's first word -/
  pc : Word := 0
  /-- the queue ring: qj is the slot at ring position base + j (R39) -/
  q : Vector Word 16 := Vector.replicate 16 0
  /-- ring position of age 0, as every push so far has moved it -/
  head : Nat := 0
  /-- ring position of age 0 before the chain that is issuing (R30) -/
  base : Nat := 0
  n : Vector Word 48 := Vector.replicate 48 0
  /-- slots of its register storage with bad check bits, queue places by ring position (R342), and those whose next read finds a correctable or transient
  error (R341) -/
  badN : BitVec 48 := 0
  badQ : BitVec 16 := 0
  softN : BitVec 48 := 0
  softQ : BitVec 16 := 0
  dead : BitVec 48 := 0
  preds : BitVec 8 := 1
  lc : Vector Word 3 := Vector.replicate 3 0
  loops : Vector LoopRec 3 := Vector.replicate 3 {}
  prc : Word := 0
  trapcause : Word := 0
  trappc : Word := 0
  trapaddr : Word := 0
  trapinfo : Word := 0
  /-- the trap registers stand for the fetch of an RFT.skip, which is still to be made (R268) -/
  skip : Option SkipFetch := none
  /-- F, the first-run flag (R315) -/
  first : Bool := false
  cd : Word := 0
  aseq : BitVec 32 := 0
  savebase : Word := 0
  /-- instructions of the run so far (R32) -/
  runCount : Nat := 0
  /-- issue slots of the run so far -/
  slot : Nat := 0
  /-- results of the run, youngest first -/
  run : List Prod := []
  /-- RSTQ's sixteen slots, written last at the boundary (R329) -/
  rstq : Option (Vector Word 16) := none
  /-- O, M, H, Q of R195 -/
  obs : Nat := 0
  mark : Nat := 0
  hor : Nat := 0
  own : Nat := 0
  /-- PREF.home's die (R217) -/
  hint : Option (BitVec 6) := none
  /-- time until which the thread's next access waits, and whether a generation bump is then owed (R198) -/
  acq : Option (Nat × Bool) := none
  waits : List Wait := []
  waitc : Option WaitC := none
  status : Status := .ready
  /-- address of the next run, fixed by a transfer of the slot just retired -/
  next : Option Word := none
  /-- the record of a system cause marks it upgraded or nested (R323) -/
  upgraded : Bool := false
  nested : Bool := false
  /-- the cycle at which it last became ready (R239) -/
  age : Nat := 0
  /-- after a YIELD: the age that it takes at the least when it is ready again (R267); 0 for none -/
  yielded : Nat := 0
  /-- the masks that its run has written, each as the thread still sees it: without its own writes of the run (R37, R243) -/
  views : AMap Word := []
  /-- the stash lines on which its chain has parked and which its next issue accesses -/
  lineWait : List Nat := []
  /-- bytes of the range of its WBL or WIPE that are done (R303) -/
  rangeDone : Nat := 0
  /-- the outcome of the collective on which its chain had parked, until the chain has issued again -/
  collDone : Option CollDone := none
  /-- a store, atomic or reduction whose translation failed, until its chain has issued again: its place in the chain, and the source slots that its fault-buffer
  entry captured, q0 to q15 and n0 to n47 (R163, R320); and those of the word that is executing -/
  captured : Option (Nat × List Word) := none
  entry : Option (List Word) := none
  deriving DecidableEq, Repr, Inhabited

/-- An arrived participant of an open collective: its lane, the operand slots it brought, its prc, the targets of its result and
its issue slot. -/
structure Arrival where
  lane : Nat
  a : List Word := []
  b : List Word := []
  c : List Word := []
  prc : Word
  pred : Bool := false
  tgt : List Target := []
  slot : Nat
  deriving DecidableEq, Repr, Inhabited

/-- An open collective of a group (R118): the first word of the chain that holds it, and its index there. -/
structure Collective where
  instr : Instr
  pc : Word
  idx : Nat
  /-- mk as read when the first participant arrived -/
  mask : Word
  /-- index of mk -/
  k : Nat
  arrived : List Arrival
  deriving DecidableEq, Repr, Inhabited

/-- One mask step that writes (R273): the tid of the thread that issued it, the mask, the bits that it clears and the bits that it sets. -/
structure MaskWrite where
  tid : Nat
  k : Nat
  clr : Word
  set : Word
  deriving DecidableEq, Repr, Inhabited

/-- A group of 64 threads (R238, R243). -/
structure Group where
  m : Vector Word 12 := Vector.replicate 12 (BitVec.allOnes 64)
  remap : List (BitVec 6) := (List.range 64).map (BitVec.ofNat 6)
  opens : List Collective := []
  /-- mask steps that wait for the open collective to complete, in their order (R118) -/
  held : List MaskWrite := []
  deriving DecidableEq, Repr, Inhabited

/-- A barrier (R281). -/
structure Barrier where
  phase : BitVec 16 := 0
  expect : Nat := 0
  count : Nat := 0
  deriving DecidableEq, Repr, Inhabited

structure Team where
  grid : Nat
  team : Nat
  die : Nat
  core : Nat
  /-- its team slot on the core (R240) -/
  slot : Nat := 0
  bars : List Barrier := List.replicate 16 {}
  /-- posting sequence (R149) -/
  seq : BitVec 16 := 0
  deriving DecidableEq, Repr, Inhabited

/-- Where a cohort that has been placed stands (R249 to R257, R331). A cohort that has not is a number in a die's range (R252). -/
inductive CohortStatus where
  /-- saved, and waiting for its restore (R331) -/
  | waiting
  | resident
  /-- pre-emption requested at a time (R331) -/
  | stopping (since : Nat)
  | ended
  deriving DecidableEq, Repr, Inhabited

/-- What the model keeps of a saved thread beside its record, which has no field for it: the results of a run that waits for a collective, with
ring positions counted from the queue's head, the waits beyond the one that the record names, the DRAINs of a run that went on after them with their targets
and tickets, the order of a WAITM, two marks of the trap registers, the progress of a WBL or WIPE, and the outcome of a collective (notes/assumptions/14.md). -/
structure Kept where
  run : List Prod := []
  rstq : Option (Vector Word 16) := none
  waits : List Wait := []
  drains : List (Target × List (Nat × Nat × Nat)) := []
  order : Nat := 0
  nested : Bool := false
  skip : Option SkipFetch := none
  rangeDone : Nat := 0
  collDone : Option CollDone := none
  deriving DecidableEq, Repr, Inhabited

/-- An operation of the copy unit (R208, R225 to R232). -/
structure AsyncOp where
  key : Nat
  grid : Nat
  team : Nat
  tid : Nat
  seq : BitVec 32
  /-- 1 CPYA, 2 GATH, 3 SCAT (R227) -/
  kind : Nat
  desc : Vector Word 6
  control : BitVec 12
  progress : Nat := 0
  /-- some index so far was filled or skipped, and the flags of the applications so far (R227) -/
  oor : Bool := false
  flags : Flags := {}
  /-- tag of the replayable record it waits on, and the address that faulted -/
  tag : Option Nat := none
  va : Word := 0
  /-- the time by which its writes so far are visible (R209, R227) -/
  vis : Nat := 0
  /-- its last pass ended in a wait: on a line in the ACC state, a fill, or an answer -/
  waits : Bool := false
  /-- it has ended with this status and report, and its status word is still to be written (R227, R228) -/
  done : Option (Nat × Option (Nat × Word)) := none
  deriving DecidableEq, Repr, Inhabited

/-- A status of R150 that an entry holds. -/
inductive EntryStatus where
  | wait
  | run
  /-- stopped, with the tag of the replayable record if one is outstanding -/
  | fault (tag : Option Nat)
  deriving DecidableEq, Repr, Inhabited

/-- An entry of the reservation table (R122, R123, R151, R153). -/
structure Entry where
  key : Nat
  grid : Nat
  team : Nat
  seq : BitVec 16
  /-- 0 to 3 as MPASS kind; 15 for ACCINIT -/
  kind : Nat
  /-- the kind of ACCINIT's tile -/
  tile : Nat := 0
  keep : Bool := false
  desc : Vector Word 6
  status : EntryStatus := .wait
  /-- the address that faulted -/
  va : Word := 0
  /-- ready since this count of the die's clock, in tenths of a cycle (R124) -/
  since : Option Nat := none
  /-- effective priority 7 after 65,536 cycles (R124) -/
  aged : Bool := false
  /-- local step -/
  step : Nat := 0
  /-- the tile's k-progress as this pass last set it (R155) -/
  prog : Nat := 0
  /-- the partial of a REDUCE pass, row-major -/
  part : List Vf := []
  /-- tile lines whose home has not yet taken the partial -/
  unsent : List Nat := []
  /-- tile lines whose home holds the partial in its reorder buffer -/
  held : List Nat := []
  sent : Bool := false
  flags : Flags := {}
  /-- time until which the release of its posting waits (R128), and at which the writes of an ACCINIT are visible (R135) -/
  rel : Nat := 0
  doneAt : Option Nat := none
  /-- physical line of each tile line, as translated at the grant (R145) -/
  lines : AMap Nat := []
  /-- operand lines as read at their read points, by virtual line (R128) -/
  fetched : AMap (List (BitVec 8)) := []
  /-- stop at the next block boundary: cancelled or pre-empted -/
  stop : Bool := false
  /-- MCANCEL frees the entry at the stop -/
  cancelled : Bool := false
  deriving DecidableEq, Repr, Inhabited

structure Cohort where
  grid : Nat
  cohort : Nat
  status : CohortStatus := .resident
  /-- module time at which it last began to wait, and of its last placement (R255, R256) -/
  since : Nat := 0
  placed : Nat := 0
  /-- the die that owns it (R252, R253) -/
  owner : Nat := 0
  /-- physical base and size of its save area (R336) -/
  area : Option (Nat × Nat) := none
  /-- each of its teams with the core it is on, or was on when it was saved (R256) -/
  cores : List (Nat × Nat) := []
  /-- while it is saved: the address of its image, that of each thread's record, and what the image does not hold (notes/assumptions/14.md) -/
  image : Nat := 0
  recs : AMap Nat := []
  kept : AMap Kept := []
  groups : AMap Group := []
  entries : List Entry := []
  ops : List AsyncOp := []
  windows : Nat := 0
  deriving DecidableEq, Repr, Inhabited

/-- A grid (R246, R254). -/
structure Grid where
  /-- slots 0 to 15 of the launch packet, after the limits of R295 -/
  packet : Vector Word 16
  asid : BitVec 16
  root : Nat
  super : Bool
  /-- context fault ring, physical -/
  cring : Nat
  /-- queue fault ring, virtual, in the space of the queue of the outermost grid -/
  qring : Nat
  /-- physical address of that queue's descriptor -/
  desc : Nat := 0
  /-- die and slot of the queue, for a packet from a queue -/
  queue : Option (Nat × Nat) := none
  /-- thread that launched it -/
  parent : Option Nat := none
  /-- order of taking; the order of the packet before it in its queue, where that one was live then; whether a later packet of the queue has been taken (R251) -/
  taken : Nat := 0
  prev : Option Nat := none
  followed : Bool := false
  /-- undispatched cohorts of each die (R252, R253) -/
  ranges : AMap (List (Nat × Nat)) := []
  /-- ranges under way from a victim to a thief, by the thief: first, and one past the last (R254) -/
  moving : List (Nat × Nat × Nat) := []
  started : Bool := false
  /-- module time of its start -/
  begun : Nat := 0
  aborted : Bool := false
  /-- module time until which the writes of its ended threads and operations become visible, and, once the release of its end is under way,
  the time at which that ends (R237) -/
  vis : Nat := 0
  release : Option Nat := none
  deriving DecidableEq, Repr, Inhabited

/-! ### The core -/

/-- A stash line of 32 bytes (R161, R171, R203). -/
structure StashLine where
  present : Bool := false
  /-- words written since the fill, and those that each grid's threads and operations wrote (R173, R237) -/
  written : BitVec 8 := 0
  grids : AMap (BitVec 8) := []
  /-- claim time, in local ticks -/
  claim : Nat := 0
  /-- expiry of a read-only window's lease -/
  expiry : Option Nat := none
  /-- a fill is under way, started by a thread -/
  filling : Option Nat := none
  /-- an asynchronous copy writes the line: its key (R171) -/
  copying : Option Nat := none
  /-- bytes of a shadow bank that a peer wrote, and the threads that wrote them (R174, R195, R204) -/
  shadow : BitVec 32 := 0
  who : List Nat := []
  /-- physical addresses of the global words that the line holds, in stash order, as its fill translated them -/
  pas : List (Option Nat) := []
  /-- log2 of the size of each word's page, as its fill translated it (R301) -/
  sizes : List Nat := []
  /-- the threads that the fill of a read-only line still serves, where some word came by a probe (R171) -/
  serve : List Nat := []
  deriving DecidableEq, Repr, Inhabited

/-- A mapped window (R168, R169). -/
structure Window where
  d0 : Word
  d1 : Word
  d2 : Word
  asid : BitVec 16
  /-- root table and level of the address space that mapped it -/
  root : Nat
  super : Bool
  /-- the mapping team: grid and linear number -/
  grid : Nat
  team : Nat
  /-- time of the last touch, and the teams that have touched it since it was mapped, as grid and number (R176) -/
  touched : Nat := 0
  teams : List (Nat × Nat) := []
  /-- its life ends as soon as the accesses to it that were issued before have been performed (R176) -/
  ending : Bool := false
  deriving DecidableEq, Repr, Inhabited

/-- A copy in L1 (R178, R192). -/
structure L1Copy where
  bytes : List (BitVec 8)
  /-- local expiry; none for a copy filled from the remote-data cache, which a generation bump ends -/
  expiry : Option Nat
  gen : BitVec 32
  stamp : Nat
  /-- its 8-byte granules with bad check bits (R340) -/
  bad : List Nat := []
  deriving DecidableEq, Repr, Inhabited

/-- A fault-buffer entry (R163): the thread, the index of the faulting word in its chain, the access code, the virtual address and the captured
data. -/
structure FaultEntry where
  th : Nat
  word : Nat
  access : Nat
  va : Word
  data : List (BitVec 8)
  tag : Nat
  /-- the entry has bad check bits (R340) -/
  bad : Bool := false
  deriving DecidableEq, Repr, Inhabited

/-- A translation-buffer entry (R162, R291). -/
structure Tlb where
  asid : BitVec 16
  /-- page number and log2 of the page size -/
  page : Nat
  bits : Nat
  pte : Word
  deriving DecidableEq, Repr, Inhabited

/-- The latch state of a core for one number (R285). -/
structure LatchCore where
  raised : Bool := false
  expect : Nat := 0
  count : Nat := 0
  nexpect : Nat := 0
  ncount : Nat := 0
  /-- LATCH.x: excused from the next phase on -/
  leaving : Bool := false
  excuse : Bool := false
  deriving DecidableEq, Repr, Inhabited

/-- A gang entry (R240). `votes` holds what each member computes for a branch with U = 1 (R262); `pending` holds the members that have still to
issue the slot that the gang is issuing (R241). -/
structure Gang where
  members : List Nat
  pending : List Nat := []
  votes : List (Nat × Bool) := []
  deriving DecidableEq, Repr, Inhabited

structure Core where
  /-- carve-out code of R246: 0 to 3 for 32 to 256 KiB of L1 -/
  carve : BitVec 2 := 0
  /-- bytes of the stash that are not zero -/
  stash : List Host.Cell := []
  lines : AMap StashLine := []
  windows : List Window := []
  l1 : AMap L1Copy := []
  faults : List FaultEntry := []
  tlb : List Tlb := []
  /-- code held by the instruction-fetch and loop buffers: word address and word -/
  code : AMap Code := []
  ops : List AsyncOp := []
  gangs : AMap Gang := []
  latch : AMap LatchCore := []
  /-- cycle counter at module time 0, and the cycles the clock has added -/
  cycles : Nat := 0
  /-- granules of the stash with bad check bits, and those whose next read finds a correctable or transient error -/
  bad : List Nat := []
  soft : List Nat := []
  deriving DecidableEq, Repr, Inhabited

/-! ### The cluster -/

/-- A dirty line of the cluster buffer (R178, R179, R196, R323). -/
structure DirtyLine where
  /-- written bytes: offset in the line and byte, offsets rising -/
  bytes : List Host.Cell := []
  seq : Nat := 0
  since : Nat := 0
  /-- the store that last merged into it: virtual line, tid, core, grid and team -/
  va : Word := 0
  th : Nat := 0
  core : Nat := 0
  /-- the threads with a store in the line: the visibility time of its write-back raises H of each (R195) -/
  who : List Nat := []
  /-- its 8-byte granules with bad check bits (R340) -/
  bad : List Nat := []
  deriving DecidableEq, Repr, Inhabited

structure Cluster where
  buf : AMap DirtyLine := []
  /-- next sequence number; the issued mark is the last one given (R196) -/
  issued : Nat := 0
  horizon : Nat := 0
  table : List Entry := []
  bars : List Barrier := List.replicate 8 {}
  /-- grid and cohort that own the barriers (R250) -/
  owner : Option (Nat × Nat) := none
  deriving DecidableEq, Repr, Inhabited

/-! ### Homes -/

/-- A read-lease record (R180, R191): words lo to hi of the line. -/
structure Lease where
  lo : Nat
  hi : Nat
  expiry : Nat
  len : Nat
  written : Bool
  deriving DecidableEq, Repr, Inhabited

/-- An owner record (R180): the words, and the owning window's stash line. -/
structure Owner where
  mask : BitVec 16
  die : Nat
  core : Nat
  line : Nat
  deriving DecidableEq, Repr, Inhabited

/-- The identity of an accumulator tile (R136). -/
structure TileId where
  asid : BitVec 16
  cbase : Word
  cstride : BitVec 32
  cls : Nat
  kind : Nat
  rows : Nat
  vecs : Nat
  deriving DecidableEq, Repr, Inhabited

/-- The sidecar of a line in the ACC state (R136). -/
structure Sidecar where
  tile : TileId
  ordered : Bool
  progress : Nat
  expect : Nat
  flags : Flags
  status : Nat
  stword : Word
  grid : Nat
  team : Nat
  seq : BitVec 16
  /-- cluster of the ACCINIT, for a report (R323) -/
  cl : Nat := 0
  /-- physical line of the tile's first line, which holds element (0, 0) (R139) -/
  first : Nat := 0
  deriving DecidableEq, Repr, Inhabited

/-- The directory state of a line (R180). -/
structure DirLine where
  leases : List Lease := []
  owners : List Owner := []
  acc : Option Sidecar := none
  deriving DecidableEq, Repr, Inhabited

/-- A contribution held in a slice's reorder buffer (R144, R220). -/
inductive Held where
  /-- a partial: tile line, ordinal, its elements as (header offset in the line, value), and the entry it came from -/
  | part (line ord : Nat) (elems : List (Nat × Vf)) (entry : Nat)
  /-- a REDO: element, ordinal word, ordinal, value, issuing thread and virtual address -/
  | redo (e w ord : Nat) (v : Vf) (th : Nat) (va : Word)
  /-- a request to an edge die or another module, by its transaction -/
  | request (txn : Nat)
  deriving DecidableEq, Repr, Inhabited

/-- A watch at a home (R278): the word, its width and the waiting thread with its condition. -/
structure Watch where
  pa : Nat
  th : Nat
  cond : Nat
  /-- a watch of an agent beyond a link: its die, site and transaction -/
  src : Nat := 0
  site : Nat := 0
  txn : Nat := 0
  remote : Bool := false
  /-- the watch of such an agent is on 32 bits -/
  w32 : Bool := false
  /-- the watch of a dispatcher on a knocker: its die and queue slot (R294) -/
  queue : Option (Nat × Nat) := none
  deriving DecidableEq, Repr, Inhabited

/-- A copy in the remote-data cache (R181). -/
structure RdcCopy where
  bytes : List (BitVec 8)
  gen : BitVec 32
  stamp : Nat
  deriving DecidableEq, Repr, Inhabited

/-! ### The die -/

inductive DieLife where
  | dead | live | degraded
  deriving DecidableEq, Repr, Inhabited

/-- A replayable record (R163, R164). -/
structure Record where
  asid : BitVec 16
  level : Nat
  /-- fault region: va shifted down to the region of the level -/
  region : Nat
  access : Nat
  va : Word
  /-- saved threads that waited on it (R339) -/
  saved : List Nat := []
  deriving DecidableEq, Repr, Inhabited

/-- The state of a queue slot (R366). -/
inductive SlotState where
  | free | mapped | unmapping | refused
  deriving DecidableEq, Repr, Inhabited

structure QSlot where
  state : SlotState := .free
  /-- the register's desc field, as last written -/
  reg : Nat := 0
  /-- the descriptor's physical address and its slots as copied at the map -/
  desc : Nat := 0
  slots : Vector Word 8 := Vector.replicate 8 0
  /-- packets pending from rdidx on (R294) -/
  stopped : Bool := false
  /-- the watch on the knocker has seen a write that has not been acted upon -/
  knocked : Bool := false
  /-- the knocker's value that has been read, and the time that its acquire waits for, in ticks of the die -/
  due : Option (Word × Nat) := none
  deriving DecidableEq, Repr, Inhabited

/-- LSEG of one number (R368). -/
structure Seg where
  seg : BitVec 8 := 0
  root : BitVec 6 := 0
  member : Bool := false
  deriving DecidableEq, Repr, Inhabited

/-- What the die manager has logged (R164, R320, R341, R352, R367). -/
inductive LogEntry where
  | ignoredReplay (tag : Nat)
  | ignoredCommand (tag : Nat)
  | ignoredPreempt
  | ignoredMailbox
  /-- the check that the firmware image failed (R305) -/
  | imageCheck (n : Nat)
  | droppedMessage (cls op : Nat)
  | linkError (dir : Nat)
  | transient (granule : Nat)
  | lasting
  deriving DecidableEq, Repr, Inhabited

/-- A message in flight on Hinge (R351): class, opcode and the rest. -/
structure Packet where
  cls : BitVec 3
  op : BitVec 5
  msg : Msg
  deriving DecidableEq, Repr, Inhabited

/-- A link or edge interface: live UCIe modules, sequence, credits of each class that it may use, retries (R346 to R350, R357), the messages that wait for
credits (R349), and what the neighbour's HELLO said of it (R359): direction, life-cycle state, self-test results. -/
structure Link where
  modules : Nat := 4
  retrained : List Nat := []
  seq : BitVec 16 := 0
  credits : List Nat := List.replicate 6 32
  retries : Nat := 0
  queued : List Packet := []
  peer : Option (Nat × Nat × Nat) := none
  deriving DecidableEq, Repr, Inhabited

/-- A request that a destination has served (R353). -/
structure Served where
  src : Nat
  site : Nat
  txn : Nat
  time : Nat
  answer : List Packet
  deriving DecidableEq, Repr, Inhabited

structure Die where
  life : DieLife := .live
  /-- counter at module time 0 (R18) -/
  base : Nat := 0
  /-- off: how far its counter stands from the anchor's, as it was measured (R371, R372) -/
  off : Int := 0
  lcstate : BitVec 8 := 2
  serial : Word := 0
  gen : BitVec 32 := 0
  rdc : AMap RdcCopy := []
  /-- slice-map epoch, and what it last knew of the others' (R183) -/
  epoch : BitVec 16 := 0
  known : AMap (BitVec 16) := []
  /-- built resource of each logical one (R21) -/
  slices : List (Option Nat) := (List.range 32).map some
  clusters : List (Option Nat) := (List.range 32).map some
  loops : List (Option Nat) := (List.range 16).map some
  /-- retirement records (R21, R343): built numbers -/
  deadSlices : List Nat := []
  deadClusters : List Nat := []
  deadLoops : List Nat := []
  deadRows : List Nat := []
  /-- built numbers that failed self-test (R21) -/
  failSlices : List Nat := []
  failClusters : List Nat := []
  failLoops : List Nat := []
  /-- a slice retirement under way: logical slice, and the built slice it leaves (R184) -/
  retiring : Option (Nat × Nat) := none
  /-- logical clusters whose retirement waits for the cohorts on them to be saved (R344) -/
  leaving : List Nat := []
  tlb : List Tlb := []
  nextTag : Nat := 1
  records : AMap Record := []
  /-- thread-fault records outstanding: thread of each tag -/
  faults : AMap Nat := []
  /-- reports held for a full ring: ring address and the eight slots (R325) -/
  heldReports : List (Nat × Vector Word 8) := []
  reorder : List (Nat × Held) := []
  watches : List Watch := []
  quantum : Word := 2000000
  topova : Word := 0
  rdcsize : Word := 0
  powercap : Word := 310
  savepool : Word := 0
  savepoolsz : Word := 0
  modid : Word := 0
  accarea : Word := 256
  preemptDone : Nat := 0
  preemptBusy : List Nat := []
  mgmtDone : Nat := 0
  mgmtResult : BitVec 8 := 0
  /-- the management request that is being served (R310) -/
  mgmtBusy : Option Word := none
  qslots : AMap QSlot := []
  segs : AMap Seg := []
  phases : AMap (BitVec 16) := []
  /-- packets taken, modulo 2^26 (R254) -/
  taken : Nat := 0
  gridStarted : Bool := false
  /-- core clock in 100 MHz steps (R369), and what its changes add, in tenths of a cycle, to a count that had run at the present clock from time 0 -/
  clock : Nat := 27
  cycleOff : Int := 0
  links : AMap Link := []
  /-- fuses (R304 to R308) -/
  keyHash : BitVec 512 := 0
  testHash : BitVec 512 := 0
  minSvn : BitVec 32 := 0
  /-- the identity key: modulus and private exponent; erased in RETURNED -/
  idMod : Nat := 0
  idExp : Nat := 0
  cert : List (BitVec 8) := []
  /-- the firmware image on this die, once it has come whole: 0 where it passed every check, else the first that it failed (R305) -/
  imageCheck : Option Nat := none
  /-- requests served, with the time and the answer (R353) -/
  served : List Served := []
  /-- acknowledgements owed for contributions of other agents that the reorder buffers hold: address, ordinal, the agent's site field and the message
  (R142, R220) -/
  owed : List (Nat × Nat × Nat × Packet) := []
  /-- grids for which this die has asked for cohorts, and has no answer yet (R254) -/
  asking : List Nat := []
  log : List LogEntry := []
  /-- ELECT: the lowest host site learnt, and when (R370) -/
  best : Option Nat := none
  bestAt : Nat := 0
  /-- coordinates taken from ASSIGN, and its depth in the tree -/
  assigned : Option (BitVec 6) := none
  depth : Nat := 0
  /-- TIMEX exchange under way with a neighbour: ticks sent, and the differences measured (R371) -/
  timex : AMap (List Int) := []
  deriving DecidableEq, Repr, Inhabited

/-- An edge site (R15, R16, R358 to R362). -/
structure Site where
  /-- 0 empty, 1 port, 2 host, 3 memory, 4 host and memory, 15 failed -/
  type : Nat := 0
  serial : Word := 0
  populated : Nat := 0
  wiped : Bool := false
  portst : BitVec 4 := 0
  /-- module masks of the four ports -/
  portmods : List Word := List.replicate 4 0
  answered : Bool := false
  /-- credits of each class that the edge die's HELLO advertised, less those in use (R349, R359), and the messages to it that wait for one -/
  credits : List Nat := List.replicate 6 8
  queued : List Packet := []
  deriving DecidableEq, Repr, Inhabited

/-- A request to an edge die or another module that waits for its answer (R361, R363). -/
structure Pending where
  th : Nat
  pa : Nat
  since : Nat
  packet : Packet
  /-- site that it was sent to -/
  site : Nat
  resent : Bool := false
  /-- the virtual address -/
  va : Word := 0
  /-- the asynchronous operation that made it, by its key -/
  op : Option Nat := none
  /-- the answer, kept until the access completes -/
  reply : Option Answer := none
  deriving DecidableEq, Repr, Inhabited

/-- A signed command on its way to the dies that it names (R311): its request (block, argument, input, output, room), its bytes, the dies that have still to
check it, and whether every one so far has allowed it. -/
structure CmdRun where
  request : Nat × Word × Nat × Nat × Nat
  bytes : List (BitVec 8)
  left : List Nat
  ok : Bool
  deriving DecidableEq, Repr, Inhabited

/-- The stage of boot (R305, R309, R312, R370). -/
inductive Boot where
  /-- held in reset: discovery, the wipe and the image check are under way -/
  | starting
  | running
  | recovery
  deriving DecidableEq, Repr, Inhabited

/-! ### Turns -/

/-- Who acts at a turn. -/
inductive Act where
  /-- a thread issues its next slot, alone -/
  | issue (th : Nat)
  /-- a core's picker: the next member of the oldest gang issues its slot (R241) -/
  | pick (die core : Nat)
  /-- an event row of opcode_table.json happens -/
  | event (i : Instr)
  /-- a write that a thread's store sent reaches a die's register (R364) -/
  | regWrite (die off : Nat) (v : Word)
  /-- a die writes the slots of a team or grid record that it has claimed with type 0xFF (R326) -/
  | record (die pa : Nat) (slots : List Word)
  /-- a copy of a line leaves a core's L1, or a die's remote-data cache (R178) -/
  | evict (die core line : Nat)
  | evictRdc (die line : Nat)
  /-- the self-test of a die at reset has found built clusters, slices and loops to fail (R21) -/
  | selfTest (die : Nat) (clusters slices loops : List Nat)
  /-- a word that a window's write-back brought to an ACC line has been discarded: die, core, grid and team of the window, and the word's address (R137) -/
  | discard (die core grid team : Nat) (va : Word)
  /-- a die manager serves its mailbox's request (R310) -/
  | serve (die : Nat)
  deriving DecidableEq, Repr, Inhabited

/-- One entry of the agenda: the ticks that pass before it, and who acts. -/
structure Turn where
  dt : Nat
  act : Act
  deriving DecidableEq, Repr, Inhabited

/-! ### The module -/

structure State where
  /-- ticks of the panel reference since power on; every die's counter runs with it (R18) -/
  time : Nat
  /-- backing bytes of HBM and second-tier memory that are not zero, by physical address (R165, R309) -/
  mem : List Host.Cell
  /-- dirty bytes that home slices hold over their backing (R178, R303) -/
  l2 : AMap (BitVec 8)
  /-- 8-byte granules with bad check bits: address div 8 (R340, R342) -/
  bad : List Nat
  /-- granules whose next read finds a correctable or transient error (R341) -/
  soft : List Nat
  /-- directory state by line address div 64 (R180) -/
  dir : AMap DirLine
  threads : AMap Thread
  groups : AMap Group
  teams : AMap Team
  cohorts : AMap Cohort
  grids : AMap Grid
  /-- ended grids that the sidecar of a tile still names (R139) -/
  past : AMap Grid
  cores : AMap Core
  clusters : AMap Cluster
  dies : AMap Die
  sites : AMap Site
  /-- partials, REDOs and requests that a home refused: key, the requester's clock at the NACK in tenths of a cycle, and what to send again (R144) -/
  nacked : AMap (Nat × Held)
  wire : List Packet
  pending : AMap Pending
  boot : Boot
  anchor : Option Nat
  hbmWiped : Bool
  /-- bytes of the firmware image fetched so far, by chunk offset, and of each open request how often it was sent again and when it was sent last, in module
  time (R312) -/
  image : AMap (List (BitVec 8))
  imgTries : AMap (Nat × Nat)
  /-- next offset to ask for, and whether the header has been read -/
  imgNext : Nat
  imgLen : Option Nat
  running : Option (List (BitVec 8))
  challenge : Option (List (BitVec 8))
  /-- a signed command on its way to the dies that it names (R311) -/
  cmdRun : Option CmdRun
  /-- die pairs with a route, by 64 s + d: hops, detour, latency (R354, R372) -/
  pairs : AMap (Nat × Bool × Nat)
  /-- physical address of the topology table and its generation -/
  topo : Nat
  topoGen : Nat
  /-- the anchor's time from which the table that it has written is visible, while the even generation that follows is still to be stored (R373) -/
  topoDue : Option Nat
  /-- detour routes by 64 s + d: the directions from the source on, 0 to 3 for N, E, S, W (R354) -/
  routes : AMap (List Nat)
  agenda : List Turn
  /-- the running thread -/
  cur : Nat
  /-- index within its chain of the word that is executing -/
  word : Nat
  /-- the running thread left its slot: it trapped or parked -/
  left : Bool
  /-- the releases of the chain that issues were made before its words (R30, R31) -/
  released : Bool
  /-- the model's own counter of free values drawn (notes/assumptions/4.md) -/
  freeCtr : Nat
  /-- the model's own counter of unique keys -/
  fresh : Nat
  deriving DecidableEq, Repr, Inhabited

/-- Why a step stops with a fault. -/
inductive Fault where
  /-- raised by the meaning of an instruction word when the running thread does not exist or has ended: no agent issues the
  word. Safe: the machine stops where no hardware agent could act. -/
  | noThread
  deriving DecidableEq, Repr, Inhabited

/-- Why an instruction has no meaning. -/
inductive Refusal where
  /-- raised by exec for an instruction that the model does not give a meaning. Safe: nothing is claimed of it. -/
  | notModelled (mnemonic : String)
  deriving DecidableEq, Repr, Inhabited

/-- The module right after reset (R309): storage zero, no context, discovery about to start, no core running. -/
def State.reset : State where
  time := 0
  mem := []
  l2 := []
  bad := []
  soft := []
  dir := []
  threads := []
  groups := []
  teams := []
  cohorts := []
  grids := []
  past := []
  cores := []
  clusters := []
  dies := []
  sites := []
  nacked := []
  wire := []
  pending := []
  boot := .starting
  anchor := none
  hbmWiped := false
  image := []
  imgTries := []
  imgNext := 0
  imgLen := none
  running := none
  challenge := none
  cmdRun := none
  pairs := []
  topo := 0
  topoGen := 0
  topoDue := none
  routes := []
  agenda := []
  cur := 0
  word := 0
  left := false
  released := false
  freeCtr := 0
  fresh := 1

end Sys2Proof.Machine
end

