-- ==== Sys2Proof/Machine/Ops.lean ====
section
/-! DEFINITION. The named operations over registers, maps and bytes; the run and its boundary (R32 to R37); taking an
exception (R12, R315, R319) and returning from one (R268, R317). -/
namespace Sys2Proof.Machine

/-! ### Finite maps and bytes -/

/-- The value at key k. -/
def AMap.get? {β : Type} : AMap β → Nat → Option β
  | [], _ => none
  | (j, v) :: m, k => if j = k then some v else if k < j then none else AMap.get? m k

/-- The map with v at key k. -/
def AMap.put {β : Type} : AMap β → Nat → β → AMap β
  | [], k, v => [(k, v)]
  | (j, w) :: m, k, v =>
    if j = k then (k, v) :: m else if k < j then (k, v) :: (j, w) :: m else (j, w) :: AMap.put m k v

/-- The map without key k. -/
def AMap.del {β : Type} : AMap β → Nat → AMap β
  | [], _ => []
  | (j, w) :: m, k => if j = k then m else if k < j then (j, w) :: m else (j, w) :: AMap.del m k

/-- Put or remove. -/
def AMap.set {β : Type} (m : AMap β) (k : Nat) : Option β → AMap β
  | some v => AMap.put m k v
  | none => AMap.del m k

/-- What an unlisted byte of backing memory or of a stash reads as: the reset wipe's zero (R309; log entry 8). -/
abbrev emptyByte : BitVec 8 := 0

/-- One byte of a memory. -/
def readCell (m : List Host.Cell) (a : Nat) : BitVec 8 := (AMap.get? m a).getD emptyByte

/-- Write one byte, keeping the canonical form: writing what an unlisted address reads as removes the entry. -/
def writeCell (m : List Host.Cell) (a : Nat) (b : BitVec 8) : List Host.Cell :=
  if b = emptyByte then AMap.del m a else AMap.put m a b

/-- The canonical form: addresses strictly rising. -/
def risesFrom {β : Type} : Nat → List (Nat × β) → Bool
  | _, [] => true
  | lo, (a, _) :: m => decide (lo ≤ a) && risesFrom (a + 1) m

/-- The canonical form of a memory: addresses strictly rising, no entry equal to what an unlisted address reads as. -/
def Memory.wf (m : List Host.Cell) : Bool := risesFrom 0 m && m.all (fun c => decide (c.2 ≠ emptyByte))

/-- The bytes at a, a + 1, ... -/
def readCells (m : List Host.Cell) (a n : Nat) : List (BitVec 8) := (List.range n).map fun i => readCell m (a + i)

/-- Write bytes at a, a + 1, ... -/
def writeCells (m : List Host.Cell) (a : Nat) : List (BitVec 8) → List Host.Cell
  | [] => m
  | b :: bs => writeCells (writeCell m a b) (a + 1) bs

/-- Little-endian bytes to a number (R3). -/
def ofBytes : List (BitVec 8) → Nat
  | [] => 0
  | b :: bs => b.toNat + 256 * ofBytes bs

/-- The n low bytes of a number, little-endian (R3). -/
def toBytes : Nat → Nat → List (BitVec 8)
  | 0, _ => []
  | n + 1, x => BitVec.ofNat 8 x :: toBytes n (x / 256)

/-- Update the element at index i of a list. -/
def listSet {β : Type} : List β → Nat → β → List β
  | [], _, _ => []
  | _ :: xs, 0, v => v :: xs
  | x :: xs, i + 1, v => x :: listSet xs i v

/-- A word as a Nat, and back. -/
abbrev w64 (n : Nat) : Word := BitVec.ofNat 64 n

/-- Field x[hi:lo] of width n (R3). -/
abbrev bits (x : Word) (lo n : Nat) : Nat := (x.toNat >>> lo) % 2 ^ n

/-- One bit of a word. -/
abbrev bitAt (x : Word) (i : Nat) : Bool := x.getLsbD i

/-- Element i of a vector, or the default. -/
def vget {β : Type} [Inhabited β] {k : Nat} (v : Vector β k) (i : Nat) : β := v.toArray.toList.getD i default

/-- Vector with element i replaced. -/
def vset {β : Type} {k : Nat} (v : Vector β k) (i : Nat) (x : β) : Vector β k := v.setIfInBounds i x

/-- The sign-extended value of the low n bits. -/
abbrev sx (n : Nat) (x : Nat) : Word := (BitVec.ofNat n x).signExtend 64

/-! ### Keys -/

/-- Key of a team: its grid and linear number. -/
abbrev teamKey (grid team : Nat) : Nat := grid * 2 ^ 64 + team
/-- Key of a thread. -/
abbrev thKey (grid team tid : Nat) : Nat := teamKey grid team * 2048 + tid
/-- Key of a group. -/
abbrev grpKey (grid team g : Nat) : Nat := teamKey grid team * 16 + g
/-- Key of a cohort. -/
abbrev cohortKey (grid c : Nat) : Nat := grid * 2 ^ 64 + c
/-- Key of a core of a die. -/
abbrev coreKey (die core : Nat) : Nat := 128 * die + core
/-- Key of a cluster of a die. -/
abbrev clusterKey (die cl : Nat) : Nat := 32 * die + cl

/-- The group of a tid, and its virtual lane (R98). -/
abbrev Thread.grp (t : Thread) : Nat := t.tid / 64
abbrev Thread.lane (t : Thread) : Nat := if t.tid = 1024 then 0 else t.tid % 64
abbrev Thread.isCond (t : Thread) : Bool := t.tid == 1024
abbrev Thread.cluster (t : Thread) : Nat := t.core / 4
abbrev Thread.key (t : Thread) : Nat := thKey t.grid t.team t.tid

/-! ### Reading and updating the parts of the state -/

namespace State

abbrev th? (s : State) (u : Nat) : Option Thread := AMap.get? s.threads u
abbrev setTh (s : State) (u : Nat) (t : Thread) : State := { s with threads := AMap.put s.threads u t }

/-- Change a thread, if it exists. -/
def modTh (s : State) (u : Nat) (f : Thread → Thread) : State :=
  match s.th? u with
  | some t => s.setTh u (f t)
  | none => s

abbrev core (s : State) (k : Nat) : Core := (AMap.get? s.cores k).getD {}
abbrev setCore (s : State) (k : Nat) (c : Core) : State := { s with cores := AMap.put s.cores k c }
abbrev modCore (s : State) (k : Nat) (f : Core → Core) : State := s.setCore k (f (s.core k))
abbrev cluster (s : State) (k : Nat) : Cluster := (AMap.get? s.clusters k).getD {}
abbrev setCluster (s : State) (k : Nat) (c : Cluster) : State := { s with clusters := AMap.put s.clusters k c }
abbrev modCluster (s : State) (k : Nat) (f : Cluster → Cluster) : State := s.setCluster k (f (s.cluster k))
abbrev die (s : State) (d : Nat) : Die := (AMap.get? s.dies d).getD {}
abbrev setDie (s : State) (d : Nat) (x : Die) : State := { s with dies := AMap.put s.dies d x }
abbrev modDie (s : State) (d : Nat) (f : Die → Die) : State := s.setDie d (f (s.die d))
abbrev site (s : State) (i : Nat) : Site := (AMap.get? s.sites i).getD {}
abbrev setSite (s : State) (i : Nat) (x : Site) : State := { s with sites := AMap.put s.sites i x }
abbrev group (s : State) (k : Nat) : Group := (AMap.get? s.groups k).getD {}
abbrev setGroup (s : State) (k : Nat) (g : Group) : State := { s with groups := AMap.put s.groups k g }
abbrev team? (s : State) (k : Nat) : Option Team := AMap.get? s.teams k
abbrev setTeam (s : State) (k : Nat) (t : Team) : State := { s with teams := AMap.put s.teams k t }
abbrev grid? (s : State) (g : Nat) : Option Grid := AMap.get? s.grids g
abbrev setGrid (s : State) (g : Nat) (x : Grid) : State := { s with grids := AMap.put s.grids g x }
abbrev cohort? (s : State) (k : Nat) : Option Cohort := AMap.get? s.cohorts k
abbrev setCohort (s : State) (k : Nat) (x : Cohort) : State := { s with cohorts := AMap.put s.cohorts k x }
abbrev dirLine (s : State) (l : Nat) : DirLine := (AMap.get? s.dir l).getD {}

/-- Directory state of a line; a line without any is unlisted. -/
def setDir (s : State) (l : Nat) (d : DirLine) : State :=
  { s with dir := if d = {} then AMap.del s.dir l else AMap.put s.dir l d }

/-- The counter of die d, in its ticks (R18). -/
abbrev now (s : State) (d : Nat) : Nat := s.time + (s.die d).base

/-- The count of a die's core clock, in tenths of a cycle (R4, R369): a tick is `clock` of them. -/
abbrev tenths (s : State) (d : Nat) : Nat := ((s.die d).cycleOff + (s.time * (s.die d).clock : Nat)).toNat

/-- The description of a grid, also of one that has ended and that a tile's sidecar names (R139). -/
abbrev gridInfo? (s : State) (g : Nat) : Option Grid := (s.grid? g).or (AMap.get? s.past g)

/-- Conv of R194: t in ticks of die h, in ticks of die d, through the offsets of the topology table. -/
def conv (s : State) (t h d : Nat) : Nat :=
  if h = d then t else (t - (s.die h).off + (s.die d).off + 4).toNat

/-- A key that nothing else of the state bears. -/
abbrev freshen (s : State) : State := { s with fresh := s.fresh + 1 }

/-! ### The links (R349, R354) -/

/-- The direction of a message's first hop, 0 to 3 for N, E, S, W: the detour's, else along x and then along y (R354); none from a die to itself or to the edge dies
that abut it. -/
def firstHop (s : State) (src dst : Nat) : Option Nat :=
  match AMap.get? s.routes (64 * src + dst) with
  | some (dir :: _) => some dir
  | _ =>
    if src % 8 < dst % 8 then some 1
    else if dst % 8 < src % 8 then some 3
    else if src / 8 < dst / 8 then some 2
    else if dst / 8 < src / 8 then some 0
    else none

end State

/-- A link or an edge interface takes a message where its class has credits for all its slots and no earlier message of the class waits (R349, R353): the
credits that are left. -/
def takeCredits (queued : List Packet) (credits : List Nat) (p : Packet) : Option (List Nat) :=
  let n := p.msg.slots.length + 1
  let c := p.cls.toNat
  if (queued.any fun q => q.cls == p.cls) || decide (credits.getD c 0 < n) then none
  else some (listSet credits c (credits.getD c 0 - n))

/-- The messages that wait for credits go out as far as those reach, each class in its order (R349, R353): what still waits, the credits left, and what goes. -/
def releaseCredits (queued : List Packet) (credits : List Nat) : List Packet × List Nat × List Packet :=
  queued.foldl (fun (acc : List Packet × List Nat × List Packet) p =>
    match takeCredits acc.1 acc.2.1 p with
    | some c => (acc.1, c, acc.2.2 ++ [p])
    | none => (acc.1 ++ [p], acc.2.1, acc.2.2)) ([], credits, [])

namespace State

/-- One message goes out. A compute die's spends the credits of its first link; where they do not suffice, it waits there (R349; notes/assumptions/16.md). -/
def sendOne (s : State) (p : Packet) : State :=
  let out (s : State) : State := { s with wire := s.wire ++ [p] }
  let d := p.msg.src.toNat
  match (if p.msg.site = 0 then s.firstHop d p.msg.dst.toNat else none) with
  | none => out s
  | some dir =>
    let l := (AMap.get? (s.die d).links dir).getD {}
    let put (l : Link) (s : State) : State := s.modDie d fun x => { x with links := AMap.put x.links dir l }
    match takeCredits l.queued l.credits p with
    | some c => out (put { l with credits := c } s)
    | none => put { l with queued := l.queued ++ [p] } s

/-- Messages go out, in order. -/
def send (s : State) (ps : List Packet) : State := ps.foldl sendOne s

/-- One message goes out to an edge die. It spends the credits that the site's HELLO advertised before those of its first link; where they do not suffice, it waits for
them (R349; notes/assumptions/16.md). -/
def toSite (s : State) (i : Nat) (p : Packet) : State :=
  let x := s.site i
  match takeCredits x.queued x.credits p with
  | some c => (s.setSite i { x with credits := c }).sendOne p
  | none => s.setSite i { x with queued := x.queued ++ [p] }

/-- One message of a home goes to an agent: to an edge die where its site field names one (R351). -/
def toAgent (s : State) (site : Nat) (p : Packet) : State := if 32 ≤ site then s.toSite (site - 32) p else s.sendOne p

/-- Writes of a grid made from a die are visible by a time of its counter (R237). -/
def noteVis (s : State) (g d t : Nat) : State :=
  match s.grid? g with
  | some x => s.setGrid g { x with vis := max x.vis (t - (s.die d).base) }
  | none => s

/-- Bring a list of agents' turns before the rest of the agenda. -/
abbrev first (s : State) (ts : List Turn) : State := { s with agenda := ts ++ s.agenda }

end State

/-! ### Launch-packet fields (R246) -/

namespace Grid
abbrev slot (g : Grid) (i : Nat) : Word := vget g.packet i
abbrev entry (g : Grid) : Word := g.slot 0
abbrev trapentry (g : Grid) : Word := g.slot 1
abbrev gridrec (g : Grid) : Word := g.slot 2
abbrev teamrec (g : Grid) : Word := g.slot 3
abbrev args (g : Grid) : Word := g.slot 4
abbrev nteamz (g : Grid) : Nat := bits (g.slot 5) 48 16 + 1
abbrev nteamy (g : Grid) : Nat := bits (g.slot 5) 32 16 + 1
abbrev nteamx (g : Grid) : Nat := bits (g.slot 5) 0 31 + 1
abbrev ngrp (g : Grid) : Nat := bits (g.slot 6) 52 4 + 1
abbrev nprod (g : Grid) : Nat := bits (g.slot 6) 47 5
abbrev hasCond (g : Grid) : Bool := bitAt (g.slot 6) 46
/-- Named lengths of the conductor, producer and consumer roles. -/
abbrev lenCode (g : Grid) (role : Nat) : Nat := bits (g.slot 6) (43 - 3 * role) 3
abbrev carve (g : Grid) : BitVec 2 := BitVec.ofNat 2 (bits (g.slot 6) 34 2)
abbrev prio (g : Grid) : Nat := bits (g.slot 6) 31 3
abbrev cbar (g : Grid) : Bool := bitAt (g.slot 6) 30
abbrev spread (g : Grid) : Bool := bitAt (g.slot 6) 29
abbrev cohortSize (g : Grid) : Nat := bits (g.slot 6) 0 16 + 1
abbrev dmask (g : Grid) : Word := g.slot 7
abbrev pbase (g : Grid) : Nat := (g.slot 8).toNat
abbrev psize (g : Grid) : Nat := bits (g.slot 9) 0 32
abbrev cword (g : Grid) : Word := g.slot 10
abbrev after (g : Grid) : Bool := bitAt (g.slot 11) 16
abbrev latchmask (g : Grid) : Nat := bits (g.slot 11) 0 16
/-- Every cohort has been placed at least once, or the grid has been aborted (R251, R296, R321). -/
abbrev dispatched (g : Grid) : Bool := g.aborted || (g.started && g.ranges.all (·.2.isEmpty) && g.moving.isEmpty)
/-- Number of teams. -/
abbrev teams (g : Grid) : Nat := g.nteamx * g.nteamy * g.nteamz
/-- Number of cohorts (R247). -/
abbrev cohorts (g : Grid) : Nat := (g.teams + g.cohortSize - 1) / g.cohortSize
/-- Threads per team (R247). -/
abbrev threads (g : Grid) : Nat := 64 * g.ngrp + g.hasCond.toNat
/-- Role of a tid: 0 conductor, 1 producer, 2 consumer (R98, R234). -/
abbrev role (g : Grid) (tid : Nat) : Nat := if tid = 1024 then 0 else if tid / 64 < g.nprod then 1 else 2
/-- Named length of a tid's role (R235). -/
abbrev len (g : Grid) (tid : Nat) : Nat := 8 * (g.lenCode (g.role tid) + 1)
end Grid

/-- The grid of a thread; a thread always has one. -/
abbrev State.gridOf (s : State) (t : Thread) : Grid :=
  (s.grid? t.grid).getD
    { packet := Vector.replicate 16 0, asid := 0, root := 0, super := false, cring := 0, qring := 0 }

/-! ### Meanings of words -/

/-- How a word leaves its slot: by a trap (R12), on the state before the slot, or by a park (R11). -/
inductive Stop where
  | trap (cause : Nat) (addr info : Word)
  | park (why : Park) (s : State)
  /-- DATALOSS on a granule with bad check bits (R341, R342): trap addr, trap info, and the die and the granule, whose row self-repair takes up -/
  | lost (addr info : Word) (die granule : Nat)
  /-- the trap of an RFT.skip's fetch, which stands for the packet at trappc (R268) -/
  | skip (cause : Nat) (addr info : Word)
  /-- such a fetch met a granule with bad check bits: the trap is DATALOSS -/
  | skipLost (addr info : Word) (die granule : Nat)
  deriving DecidableEq, Repr, Inhabited

/-- The body of a word's meaning. -/
abbrev M := StateT State (Except Stop)

/-- Trap(cause, addr, info) of R12. -/
def trap {α : Type} (cause : Nat) (addr : Word := 0) (info : Word := 0) : M α := throw (.trap cause addr info)

/-- Park of R11, in the state reached. -/
def park {α : Type} (why : Park) : M α := fun s => .error (.park why s)

/-- A thread that stands for none; only a fault step meets it. -/
abbrev noThread : Thread := { grid := 0, team := 0, tid := 0, die := 0, core := 0 }

/-- The running thread. -/
def cur : M Thread := fun s => .ok ((s.th? s.cur).getD noThread, s)

/-- Change the running thread. -/
def modCur (f : Thread → Thread) : M Unit := fun s => .ok ((), s.modTh s.cur f)

/-- Cause codes (R313). -/
abbrev cILLEGAL : Nat := 0x01
abbrev cUNIFORM : Nat := 0x02
abbrev cROLE : Nat := 0x03
abbrev cWINDOW : Nat := 0x04
abbrev cPRIV : Nat := 0x05
abbrev cPX : Nat := 0x08
abbrev cFPINV : Nat := 0x09
abbrev cDIV0 : Nat := 0x0A
abbrev cOVF : Nat := 0x0B
abbrev cUNF : Nat := 0x0C
abbrev cINX : Nat := 0x0D
abbrev cRANGE : Nat := 0x0E
abbrev cTRANSLATION : Nat := 0x10
abbrev cPROTECTION : Nat := 0x11
abbrev cALIGN : Nat := 0x12
abbrev cDATALOSS : Nat := 0x13
abbrev cOOR : Nat := 0x14
abbrev cDESC : Nat := 0x15
abbrev cCOLLECTIVE : Nat := 0x18
abbrev cTIMEOUT : Nat := 0x19
abbrev cMCAST : Nat := 0x1A
abbrev cTRAP : Nat := 0x20
abbrev cSVC : Nat := 0x21
abbrev cASYNC : Nat := 0x30

/-- The user-recoverable causes (R12, R313). -/
def isUserCause (c : Nat) : Bool :=
  c = 0x02 || (0x08 ≤ c && c ≤ 0x0E) || c = 0x14 || c = 0x18 || c = 0x19 || c = 0x20

/-! ### The run -/

/-- A result that the running slot sees: its distance has passed (R35). -/
def Thread.sees (t : Thread) (p : Prod) : Bool :=
  match p.dist with
  | some d => decide (p.slot + d ≤ t.slot)
  | none => false

/-- The youngest earlier result for a target whose distance has passed (R36). -/
def Thread.result? (t : Thread) (g : Target) : Option Word :=
  (t.run.find? fun p => decide (p.tgt = g) && t.sees p).map (·.val)

/-- A result of the run is written to n_j after a mark of it took effect (R36, R41): at its distance, or at the boundary where it has not passed by then. -/
def Prod.writtenAfter (p : Prod) (j slot : Nat) : Bool :=
  decide (p.tgt = .named j) && (match p.dist with | some d => decide (slot < p.slot + d) | none => true)

/-- n_j reads as zero (R41): a mark is in effect, and no write to the slot that the running slot sees came after it. -/
def Thread.marked (t : Thread) (j : Nat) : Bool :=
  let seen := t.run.filter t.sees
  (t.dead.getLsbD j && !(seen.any fun p => decide (p.tgt = .named j)))
    || seen.any fun m => decide (m.tgt = .dead j) && !(seen.any fun p => p.writtenAfter j m.slot)

/-- One named slot as a source (R36, R41): the youngest result whose distance has passed, else the file; a marked slot reads as zero. A word that is performed from
its fault-buffer entry takes what that captured (R163, R320). -/
def Thread.namedVal (t : Thread) (j : Nat) : Word :=
  match t.entry with
  | some vs => vs.getD (16 + j) 0
  | none => if t.marked j then 0 else (t.result? (.named j)).getD (vget t.n j)

/-- One queue entry as a source: the ring as it stood before the chain (R30, R39). -/
def Thread.queueVal (t : Thread) (j : Nat) : Word :=
  match t.entry with
  | some vs => vs.getD j 0
  | none =>
    let r := (t.base + j) % 16
    (t.result? (.ring r)).getD (vget t.q r)

/-- The source slots that a fault-buffer entry captures for a word of the thread's chain: q0 to q15, then n0 to n47 (R163). -/
def Thread.sources (t : Thread) (word : Nat) : List Word :=
  match t.captured with
  | some (w, vs) => if w = word then vs else (List.range 16).map t.queueVal ++ (List.range 48).map t.namedVal
  | none => (List.range 16).map t.queueVal ++ (List.range 48).map t.namedVal

/-- A predicate; p0 is constant 1 (R236). -/
def Thread.predVal (t : Thread) (k : Nat) : Bool :=
  if k = 0 then true else ((t.result? (.pred k)).map (bitAt · 0)).getD (t.preds.getLsbD k)

/-- A loop counter (R37). -/
def Thread.lcVal (t : Thread) (i : Nat) : Word := (t.result? (.lc i)).getD (vget t.lc i)

/-- Bits of prc that a write keeps (R5, R69). -/
def prcMask : Word := 0x0FFFFFFF

/-- Sticky bits of prc for the flags of R72 (R69). -/
def stickyBits (f : Word) : Word :=
  w64 ((if bitAt f 0 then 2 ^ 19 else 0) + (if bitAt f 1 then 2 ^ 20 else 0) + (if bitAt f 2 then 2 ^ 21 else 0)
    + (if bitAt f 3 then 2 ^ 22 else 0) + (if bitAt f 4 then 2 ^ 23 else 0) + (if bitAt f 5 then 2 ^ 24 else 0)
    + (if bitAt f 6 then 2 ^ 26 else 0))

/-- Write one result into the thread's files; a slot written whole takes fresh check bits (R342). -/
def Thread.commit (t : Thread) (g : Target) (v : Word) : Thread :=
  match g with
  | .named j => { t with n := vset t.n j v, dead := t.dead &&& ~~~(1#48 <<< j), badN := t.badN &&& ~~~(1#48 <<< j), softN := t.softN &&& ~~~(1#48 <<< j) }
  | .ring r => { t with q := vset t.q r v, badQ := t.badQ &&& ~~~(1#16 <<< r), softQ := t.softQ &&& ~~~(1#16 <<< r) }
  | .pred k =>
    { t with preds := if bitAt v 0 then t.preds ||| (1#8 <<< k) else t.preds &&& ~~~(1#8 <<< k) }
  | .lc i => { t with lc := vset t.lc i v }
  | .prc => { t with prc := v &&& prcMask }
  | .sticky => { t with prc := t.prc ||| stickyBits v }
  | .savebase => { t with savebase := v }
  | .cd => { t with cd := v }
  | .trapcause => { t with trapcause := v }
  | .dead j => { t with dead := t.dead ||| (1#48 <<< j) }
  | .place => t

/-- A last-read mark of the run that a later write to its slot has ended: a result whose distance had not passed when the mark took effect (R41). -/
def Thread.unmarked (t : Thread) (m : Prod) : Bool :=
  match m.tgt with
  | .dead j => t.run.any fun p => p.writtenAfter j m.slot
  | _ => false

/-- The results of the run, written in program order (R34, R36, R70), then RSTQ's queue (R329). Every result of the run is written here, also a short one
whose distance has not passed (R35, R36, R332): whether R35's distance holds one back beyond the boundary the manual leaves open (notes/assumptions/20.md). -/
def Thread.land (t : Thread) : Thread :=
  let t' := (t.run.filter fun p => !t.unmarked p).foldr (fun p u => u.commit p.tgt p.val) t
  let t'' := { t' with run := [], rstq := none, slot := 0, runCount := 0, hint := none, base := t.head, views := [] }
  match t.rstq with
  | some v => { t'' with q := Vector.ofFn fun (i : Fin 16) => vget v ((i.val + 16 - t.head % 16) % 16), badQ := 0, softQ := 0 }
  | none => t''

/-- A wait that holds back a long result: a collective's (R118), and DRAIN's, which an abandoned DRAIN does not deliver (R332). -/
def Wait.isLong : Wait → Bool
  | .collective => true
  | .drain .. => true
  | _ => false

/-- A long result of the run has still to return (R34). -/
def Thread.hasLong (t : Thread) : Bool :=
  t.run.any (fun p => decide (p.dist = none) && decide (p.tgt ≠ .sticky)) || t.rstq.isSome
    || t.waitc.isSome || t.waits.any Wait.isLong

/-- Record a result of the running slot. -/
def Thread.produce (t : Thread) (dist : Option Nat) (g : Target) (v : Word) : Thread :=
  { t with run := { slot := t.slot, dist := dist, tgt := g, val := v } :: t.run }

/-- The thread becomes ready: its age is the time (R239), after a YIELD newer than that of every thread that was ready then (R267). -/
def Thread.wake (t : Thread) (now : Nat) : Thread := { t with status := .ready, age := max now t.yielded, yielded := 0 }

/-- After the results of a run have been written: F ends (R316), and the other waits of the run go on. -/
def Thread.settle (t : Thread) (now : Nat) : Thread :=
  let t := { t with first := false }
  if t.waits ≠ [] then { t with status := .waiting } else t.wake now

/-- The boundary that ends a run (R32, R34): with long results outstanding the thread waits for them; else the results are
written at once. -/
def Thread.endRun (t : Thread) (now : Nat) : Thread :=
  if t.hasLong then { t with status := .longs } else t.land.settle now

/-- The long results have returned (R34). A thread in an open collective, in a DRAIN or in a WAITC is still waiting for that result. -/
def Thread.longsReturn (t : Thread) (now : Nat) : Thread :=
  if t.waits.any Wait.isLong then t
  else if t.waitc.isSome then { t with status := .waitc }
  else t.land.settle now

/-- A WAITC completes with a value for its destination (R278). -/
def Thread.waitcDone (t : Thread) (w : WaitC) (v : Word) (now : Nat) : Thread :=
  { t with waitc := none, run := { slot := w.slot, dist := none, tgt := w.tgt, val := v } :: t.run }.land.settle now

/-- A ring position after the `k` places from head h on have moved by e, and a target there. -/
def ringMove (h k : Nat) (e : Int) (p : Nat) : Nat := if (p + 16 - h % 16) % 16 < k then (((p : Int) + e) % 16).toNat else p
def Target.ringMove (h k : Nat) (e : Int) : Target → Target
  | .ring p => .ring (Machine.ringMove h k e p)
  | g => g

/-- A mask of ring positions, each bit where its position has moved from, among k positions of a queue (R39). -/
def ringBits (h k : Nat) (place : Nat → Nat) (m : BitVec 16) : BitVec 16 :=
  BitVec.ofNat 16 (((List.range 16).map fun i =>
    let from_ := match (List.range k).find? fun j => place ((h + j) % 16) == i with | some j => (h + j) % 16 | none => i
    if m.getLsbD from_ then 2 ^ i else 0).sum)

/-- The queue with e ring places fewer (a negative e: more) from ring position r on, where a push reserved more or fewer than its result takes: the
entries younger than r move, with the results of the run for them (R39). -/
def Thread.respace (t : Thread) (r : Nat) (e : Int) : Thread :=
  let k := (r + 16 - t.head % 16) % 16
  let place := ringMove t.head (k + 1) e
  { t with
    q := Vector.ofFn fun (i : Fin 16) =>
      match (List.range k).find? fun j => place ((t.head + j) % 16) == i.val with
      | some j => vget t.q ((t.head + j) % 16)
      | none => vget t.q i.val
    badQ := ringBits t.head k place t.badQ, softQ := ringBits t.head k place t.softQ
    run := t.run.map fun p => { p with tgt := p.tgt.ringMove t.head k e }
    waits := t.waits.map fun w => match w with | .drain ts g pc slot h ls => .drain ts (g.ringMove t.head k e) pc slot (place h) ls | w => w
    waitc := t.waitc.map fun w => { w with tgt := w.tgt.ringMove t.head k e, head := place w.head }
    head := place t.head, base := place t.base }

/-- The queue without the place that a push reserved and never filled (R39). -/
abbrev Thread.unpush (t : Thread) (r : Nat) : Thread := t.respace r 1

/-- Mask mk as the thread sees it (R37, R243): without its own writes of the run, given the mask as it stands. -/
def Thread.seesMask (t : Thread) (k : Nat) (v : Word) : Word := (AMap.get? t.views k).getD v

/-! ### Taking an exception -/

/-- Trap registers of R12 and R313, with the index of the word in its chain (R314). -/
def Thread.setTrap (t : Thread) (cause : Nat) (pc addr info : Word) : Thread :=
  { t with trapcause := w64 cause, trappc := pc, trapaddr := addr, trapinfo := info, skip := none }

/-- R315, R316, R319: the retired slots of the run are written and the run ends; a user cause with a nonzero trapentry and
F clear enters the handler; every other cause awaits system software. Either is a boundary (R32), at which a handler's first run is over and F falls. -/
def Thread.takeTrap (t : Thread) (g : Grid) (now cause : Nat) (pc addr info : Word) : Thread :=
  let t := { t with head := t.base }
  let t1 := { t.land with lineWait := [], rangeDone := 0, collDone := none, captured := none, entry := none, next := none, waitc := none }.setTrap cause pc addr info
  let waits := t1.waits.filter fun w => match w with | .drain .. => false | _ => true
  if isUserCause cause && decide (g.trapentry ≠ 0) && !t.first then
    let t2 := { t1 with pc := g.trapentry, first := true, waits := waits, upgraded := false, nested := false }
    if waits = [] then t2.wake now else { t2 with status := .waiting }
  else
    { t1 with waits := waits, first := false, status := .awaiting none,
              upgraded := isUserCause cause && decide (g.trapentry = 0), nested := t.first }

/-- The answers that a thread's chain had are gone once it has completed or trapped. -/
def State.dropReplies (s : State) (u : Nat) : State :=
  if s.pending = [] then s
  else { s with pending := s.pending.filter fun p => !(p.2.th == u && p.2.op.isNone && p.2.reply.isSome) }

/-- Trap(cause, addr, info) for the running thread (R12). The pc saved is that of the chain's first word (R31), also where the word that traps is a LOOP or
a transferring word inside the chain, of which R33 and R28 name the word itself (notes/assumptions/20.md). -/
def State.trapCur (s : State) (cause : Nat) (addr info : Word) : State :=
  let s := { s with left := true }.dropReplies s.cur
  match s.th? s.cur with
  | none => s
  | some t =>
    s.setTh s.cur (t.takeTrap (s.gridOf t) s.time cause t.pc addr (info ||| w64 (s.word * 2 ^ 24)))

/-- A granule was still uncorrectable when it was read again (R341): the error is lasting, and the die manager starts self-repair on its row, which the
model names by the granule (notes/assumptions/22.md). -/
def State.lasting (s : State) (d granule : Nat) : State :=
  s.first [⟨0, .event (.lastingError (BitVec.ofNat 6 d) (.row granule))⟩]

/-- Park(cond) for the running thread (R11): its files stay intact and the chain issues again when the condition holds. -/
def State.parkCur (s : State) (why : Park) : State :=
  let s := { s with left := true }
  s.modTh s.cur fun t =>
    { t with head := t.base, status := .parked why, entry := none }

/-- Where RFT resumes: trappc (R268, R317); trapcause is cleared at its boundary. -/
def Thread.returnTrap (t : Thread) (dest : Word) : Thread :=
  { t.produce (some 1) .trapcause 0 with next := some dest, skip := none }

/-- The chain of an RFT.skip whose fetch trapped issues again, with the trap registers as it found them (R268). -/
def Thread.retrySkip (t : Thread) (k : SkipFetch) : Thread :=
  { t with trapaddr := k.addr, trapinfo := k.info, skip := none }

/-- The fetch of an RFT.skip faults (R268): the trap is that of the packet at trappc. -/
def State.trapSkip (s : State) (cause : Nat) (addr info : Word) : State :=
  match s.th? s.cur with
  | none => s
  | some t =>
    (s.trapCur cause addr info).modTh s.cur fun t' =>
      { t' with trappc := t.trappc, skip := some ⟨t.pc, t.trapcause, t.trapaddr, t.trapinfo⟩ }

/-! ### Decode-time causes -/

/-- Supervisor forms (R48, R97, R298). -/
def isPrivileged : Instr → Bool
  | .gets .. => true
  | .sets .. => true
  | .tlbiPage .. => true
  | .tlbiAsid .. => true
  | .tlbiAll .. => true
  | .invl => true
  | .wbl .. => true
  | .wipe .. => true
  | .sprGet _ n => n == 0x041
  | .sprSet _ n => n == 0x041
  | .sprSwap _ n => n == 0x041
  | _ => false

/-- MPASS and MCTL: only a conductor issues them (R48). -/
def needsCond : Instr → Bool
  | .mpassDense .. => true
  | .mpassReduce .. => true
  | .mpassBatch .. => true
  | .mpassMvec .. => true
  | .accinit .. => true
  | .mcancel .. => true
  | .mquery .. => true
  | _ => false

/-- XLANE, GRED, GSCAN, CMMA and MASK: a conductor does not issue them (R48). -/
def needsGroup : Instr → Bool
  | .xpull .. => true
  | .xrank .. => true
  | .xsegb .. => true
  | .xrev .. => true
  | .xcount .. => true
  | .xfirst .. => true
  | .xmask .. => true
  | .gbcast .. => true
  | .gred .. => true
  | .gscan .. => true
  | .cmma .. => true
  | .join _ => true
  | .leave _ => true
  | .waitm .. => true
  | .mget .. => true
  | .mset .. => true
  | .msave .. => true
  | .mrst _ => true
  | _ => false

/-- The named-slot ranges that a word's specifiers reach, as (specifier, slots): R38, R222, R225, R276, R151, R153. Inputs that
an expression triple does not push are not read (R51) and stand in its meaning. -/
def wordRegs : Instr → List (Spec × Nat)
  | .last x y z => [(x, 1), (y, 1), (z, 1)]
  | .add d a b _ => [(d, 1), (a, 1), (b, 1)]
  | .sub d a b _ => [(d, 1), (a, 1), (b, 1)]
  | .mul d a b _ => [(d, 1), (a, 1), (b, 1)]
  | .mulh d a b _ => [(d, 1), (a, 1), (b, 1)]
  | .mulhn d a b _ => [(d, 1), (a, 1), (b, 1)]
  | .div d a b _ => [(d, 1), (a, 1), (b, 1)]
  | .divn d a b _ => [(d, 1), (a, 1), (b, 1)]
  | .rem d a b _ => [(d, 1), (a, 1), (b, 1)]
  | .remn d a b _ => [(d, 1), (a, 1), (b, 1)]
  | .min d a b _ => [(d, 1), (a, 1), (b, 1)]
  | .max d a b _ => [(d, 1), (a, 1), (b, 1)]
  | .minn d a b _ => [(d, 1), (a, 1), (b, 1)]
  | .maxn d a b _ => [(d, 1), (a, 1), (b, 1)]
  | .and d a b _ => [(d, 1), (a, 1), (b, 1)]
  | .or d a b _ => [(d, 1), (a, 1), (b, 1)]
  | .xor d a b _ => [(d, 1), (a, 1), (b, 1)]
  | .andn d a b _ => [(d, 1), (a, 1), (b, 1)]
  | .shl d a b _ => [(d, 1), (a, 1), (b, 1)]
  | .shr d a b _ => [(d, 1), (a, 1), (b, 1)]
  | .sar d a b _ => [(d, 1), (a, 1), (b, 1)]
  | .rot d a b _ => [(d, 1), (a, 1), (b, 1)]
  | .clz d a _ => [(d, 1), (a, 1)]
  | .popc d a _ => [(d, 1), (a, 1)]
  | .brev d a _ => [(d, 1), (a, 1)]
  | .abs d a _ => [(d, 1), (a, 1)]
  | .neg d a _ => [(d, 1), (a, 1)]
  | .sext d a => [(d, 1), (a, 1)]
  | .zext d a => [(d, 1), (a, 1)]
  | .mov d a _ => [(d, 1), (a, 1)]
  | .addi d a _ => [(d, 1), (a, 1)]
  | .andi d a _ => [(d, 1), (a, 1)]
  | .ori d a _ => [(d, 1), (a, 1)]
  | .xori d a _ => [(d, 1), (a, 1)]
  | .andni d a _ => [(d, 1), (a, 1)]
  | .shli d a _ _ => [(d, 1), (a, 1)]
  | .shri d a _ _ => [(d, 1), (a, 1)]
  | .sari d a _ _ => [(d, 1), (a, 1)]
  | .roti d a _ _ => [(d, 1), (a, 1)]
  | .icmp _ _ a b _ _ => [(a, 1), (b, 1)]
  | .icmpi _ _ a _ _ _ => [(a, 1)]
  | .sel d a b _ => [(d, 1), (a, 1), (b, 1)]
  | .bfx d a b _ => [(d, 1), (a, 1), (b, 1)]
  | .bfi d a b => [(d, 1), (a, 1), (b, 1)]
  | .pmov d => [(d, 1)]
  | .setp a => [(a, 1)]
  | .bperm d a b => [(d, 1), (a, 1), (b, 1)]
  | .ldlit d _ => [(d, 1)]
  | .addr d a b _ => [(d, 1), (a, 1), (b, 1)]
  | .sprGet x _ => [(x, 1)]
  | .sprSet x _ => [(x, 1)]
  | .sprSwap x _ => [(x, 1)]
  | .redo a base b _ => [(a, 1), (base, 1), (b, 1)]
  | .fadd d a b _ _ => [(d, 1), (a, 1), (b, 1)]
  | .fsub d a b _ _ => [(d, 1), (a, 1), (b, 1)]
  | .fmul d a b _ _ => [(d, 1), (a, 1), (b, 1)]
  | .fmin d a b _ => [(d, 1), (a, 1), (b, 1)]
  | .fmax d a b _ => [(d, 1), (a, 1), (b, 1)]
  | .fminm d a b _ => [(d, 1), (a, 1), (b, 1)]
  | .fmaxm d a b _ => [(d, 1), (a, 1), (b, 1)]
  | .ffma d a b e => [(d, 1), (a, 1), (b, 1), (e, 1)]
  | .ffms d a b e => [(d, 1), (a, 1), (b, 1), (e, 1)]
  | .fnma d a b e => [(d, 1), (a, 1), (b, 1), (e, 1)]
  | .fabs d a _ _ => [(d, 1), (a, 1)]
  | .fneg d a _ _ => [(d, 1), (a, 1)]
  | .frnd d a _ _ => [(d, 1), (a, 1)]
  | .gete d a => [(d, 1), (a, 1)]
  | .getm d a _ _ => [(d, 1), (a, 1)]
  | .fclass d a => [(d, 1), (a, 1)]
  | .reclass d a _ _ => [(d, 1), (a, 1)]
  | .fcmp _ _ a b _ _ => [(a, 1), (b, 1)]
  | .twosum d a b _ => [(d, 1), (a, 1), (b, 1)]
  | .twoprod d a b _ => [(d, 1), (a, 1), (b, 1)]
  | .cvtin d a _ _ _ => [(d, 1), (a, 1)]
  | .cvtout d a _ _ => [(d, 1), (a, 1)]
  | .fscl d a b _ _ => [(d, 1), (a, 1), (b, 1)]
  | .rcp d a _ _ => [(d, 1), (a, 1)]
  | .rsq d a _ _ => [(d, 1), (a, 1)]
  | .sqrt d a _ _ => [(d, 1), (a, 1)]
  | .exp2 d a _ _ => [(d, 1), (a, 1)]
  | .log2 d a _ _ => [(d, 1), (a, 1)]
  | .sin d a _ _ => [(d, 1), (a, 1)]
  | .cos d a _ _ => [(d, 1), (a, 1)]
  | .tanh d a _ _ => [(d, 1), (a, 1)]
  | .xpull d a b _ => [(d, 1), (a, 1), (b, 1)]
  | .xrank d a b _ => [(d, 1), (a, 1), (b, 1)]
  | .xsegb d a b _ => [(d, 1), (a, 1), (b, 1)]
  | .xrev d a b _ => [(d, 1), (a, 1), (b, 1)]
  | .xcount d _ _ _ => [(d, 1)]
  | .xfirst d _ _ _ => [(d, 1)]
  | .xmask d _ _ _ => [(d, 1)]
  | .gbcast d a _ => [(d, 1), (a, 1)]
  | .gred d a _ _ => [(d, 1), (a, 1)]
  | .gscan d a _ _ _ => [(d, 1), (a, 1)]
  | .pack6 d a b => [(d, 1), (a, 1), (b, 1)]
  | .unpk6 d a _ => [(d, 1), (a, 1)]
  | .cmma d a b _ => [(d, 1), (a, 1), (b, 1)]
  | .ld d base _ _ _ _ => [(d, 1), (base, 1)]
  | .st src base _ _ _ _ => [(src, 1), (base, 1)]
  | .lda d base _ _ _ _ _ => [(d, 1), (base, 1)]
  | .strl src base _ _ _ _ => [(src, 1), (base, 1)]
  | .pref base _ _ _ => [(base, 1)]
  | .prefL1 base _ _ _ => [(base, 1)]
  | .wmap d a => [(d, 1), (a, 4)]
  | .wunmap d a => [(d, 1), (a, 1)]
  | .wflush d a => [(d, 1), (a, 1)]
  | .wdrop d a => [(d, 1), (a, 1)]
  | .wquery d a => [(d, 1), (a, 1)]
  | .atom d base b _ _ => [(d, 1), (base, 1), (b, 1)]
  | .red a base _ _ _ => [(a, 1), (base, 1)]
  | .cpya a t _ _ => [(a, 5), (t, 1)]
  | .gath a t _ _ _ _ => [(a, 6), (t, 1)]
  | .scat a t _ _ _ _ => [(a, 6), (t, 1)]
  | .scatReduce a t _ _ _ _ _ _ => [(a, 6), (t, 1)]
  | .drain d a => [(d, 1), (a, 1)]
  | .drainAll d => [(d, 1)]
  | .drainPass d => [(d, 1)]
  | .atomw d base b _ _ => [(d, 1), (base, 1), (b, 1)]
  | .atomc d base b _ _ => [(d, 1), (base, 1), (b, 1)]
  | .jmpr _ _ _ a => [(a, 1)]
  | .callr _ _ _ a => [(a, 1)]
  | .loop _ n _ => [(n, 1)]
  | .mget d _ => [(d, 1)]
  | .mset a _ => [(a, 1)]
  | .waitc d a n _ _ => [(d, 1), (a, 2 * n.toNat + 3)]
  | .latchArrive d _ _ => [(d, 1)]
  | .latchSync d _ _ => [(d, 1)]
  | .latchWait d _ => [(d, 1)]
  | .latchX d _ => [(d, 1)]
  | .tbarArrive d _ _ => [(d, 1)]
  | .tbarSync d _ _ => [(d, 1)]
  | .tbarWait d _ => [(d, 1)]
  | .cbarArrive d _ _ => [(d, 1)]
  | .cbarSync d _ _ => [(d, 1)]
  | .cbarWait d _ => [(d, 1)]
  | .launch d a => [(d, 1), (a, 1)]
  | .mpassDense d s => [(d, 1), (s, 6)]
  | .mpassReduce d s => [(d, 1), (s, 6)]
  | .mpassBatch d s => [(d, 1), (s, 6)]
  | .mpassMvec d s => [(d, 1), (s, 6)]
  | .accinit d a _ _ => [(d, 1), (a, 6)]
  | .mcancel d a _ => [(d, 1), (a, 1)]
  | .mquery d a _ => [(d, 1), (a, 1)]
  | .fdiv d a b _ _ => [(d, 1), (a, 1), (b, 1)]
  | .fman d a b e => [(d, 1), (a, 1), (b, 1), (e, 1)]
  | .svc a _ => [(a, 1)]
  | .saveq a => [(a, 1)]
  | .rstq a => [(a, 1)]
  | .gets d _ => [(d, 1)]
  | .sets a _ => [(a, 1)]
  | .tlbiPage d a => [(d, 1), (a, 1)]
  | .tlbiAsid d a => [(d, 1), (a, 1)]
  | .tlbiAll d a => [(d, 1), (a, 1)]
  | .wbl d a => [(d, 1), (a, 1)]
  | .wipe d a => [(d, 1), (a, 1)]
  | _ => []

/-- The trap info of WINDOW (R313): the offending specifier in bits 13:8, bit 0 for a queue overrun. -/
abbrev windowInfo (sp : Nat) (queue : Bool) : Word := w64 (sp * 256 + queue.toNat)

/-- The first specifier of a word, in the order of `wordRegs` (the destination first), that reaches a named slot at or beyond the role's named length
(R38). Where several do, the manual does not say which one trap info names (notes/assumptions/20.md). -/
def windowBad (len : Nat) : List (Spec × Nat) → Option Nat
  | [] => none
  | (sp, k) :: rest =>
    if 16 ≤ sp.toNat ∧ len < sp.toNat - 16 + k then some sp.toNat else windowBad len rest

/-- The decode-time causes in the order of R48 (ALIGN has none here): cause and trap info. -/
def decodeCause (g : Grid) (t : Thread) (i : Instr) : Option (Nat × Word) :=
  if !i.wf then some (cILLEGAL, 0)
  else if isPrivileged i && !g.super then some (cPRIV, 0)
  else if (needsCond i && !t.isCond) || (needsGroup i && t.isCond) then some (cROLE, 0)
  else (windowBad (g.len t.tid) (wordRegs i)).map fun sp => (cWINDOW, windowInfo sp false)

/-! ### Running a word -/

/-- What the body of a word leads to: the state after it, the trap taken on the state before the slot, or the park. -/
def settleWord (s : State) : Except Stop (Unit × State) → State
  | .ok (_, s') => s'
  | .error (.trap c a x) => s.trapCur c a x
  | .error (.park w s') => s'.parkCur w
  | .error (.lost a x d n) => (s.trapCur cDATALOSS a x).lasting d n
  | .error (.skip c a x) => s.trapSkip c a x
  | .error (.skipLost a x d n) => (s.trapSkip cDATALOSS a x).lasting d n

/-- The meaning of an instruction word: the running thread issues it (R31, R48). -/
def runWord (i : Instr) (body : M Unit) (s : State) : Host.Outcome State Fault Refusal :=
  match s.th? s.cur with
  | none => .fault .noThread
  | some t =>
    if t.status = .ended then .fault .noThread
    else
      match decodeCause (s.gridOf t) t i with
      | some (c, x) => .next (s.trapCur c 0 x)
      | none => .next (settleWord s (body s))

end Sys2Proof.Machine
end

