-- ==== Sys2Proof/Machine/Operands.lean ====
section
/-! DEFINITION. Operand forms: register specifiers, multi-slot VF operands, destinations and predicates (R36 to R41, R59 to R62). -/
namespace Sys2Proof.Machine

/-! ### Register and memory forms of VF values -/

/-- Slots as one number, the first slot in the most significant place. -/
def catSlots (ws : List Word) : Nat := ws.foldl (fun x w => x * 2 ^ 64 + w.toNat) 0

/-- The class in the header of a first slot (R62). -/
abbrev slotClass (w : Word) : Nat := bits w 60 3

/-- The VF value in register form whose slots these are (R62); padding is ignored. -/
def vfOfSlots (ws : List Word) : Vf :=
  let c := slotClass (ws.getD 0 0)
  let x := catSlots ws >>> (64 * ws.length - 16 * (c + 2))
  Vf.ofHeader (x >>> (16 * (c + 1)) % 65536) (x % 2 ^ (16 * (c + 1)))

/-- The slots of a number of k · 64 bits, most significant first. -/
def splitSlots (k x : Nat) : List Word := (List.range k).map fun i => w64 (x >>> (64 * (k - 1 - i)))

/-- Register form of a VF value, padding zero (R62). -/
def vfToSlots (v : Vf) : List Word :=
  let k := slotsOf v.cls
  splitSlots k ((v.header * 2 ^ (16 * (v.cls + 1)) + v.frac) <<< (64 * k - 16 * (v.cls + 2)))

/-- Memory form of a VF value (R59). -/
def vfToBytes (v : Vf) : List (BitVec 8) := (List.range (v.cls + 2)).flatMap fun k => toBytes 2 (v.half k)

/-- The class in a header's two bytes. -/
abbrev headerClass (h : Nat) : Nat := h / 4096 % 8

/-- The VF value whose memory form these bytes are (R59, R61). -/
def vfOfBytes (bs : List (BitVec 8)) : Vf :=
  let half (k : Nat) : Nat := ofBytes ((bs.drop (2 * k)).take 2)
  let c := headerClass (half 0)
  Vf.ofHeader (half 0) ((List.range (c + 1)).foldl (fun f k => f * 65536 + half (k + 1)) 0)

/-! ### Sources -/

/-- The named length of the running thread's role. -/
def namedLen : M Nat := fun s =>
  let t := (s.th? s.cur).getD noThread
  .ok ((s.gridOf t).len t.tid, s)

/-- A source specifier is read from register storage: no result of the run stands for it, a named slot is not marked (R36, R41), and the word is not performed from its
fault-buffer entry. -/
def Thread.fromStore (t : Thread) (sp : Nat) : Bool :=
  t.entry.isNone && if sp < 16 then (t.result? (.ring ((t.base + sp) % 16))).isNone
  else !t.marked (sp - 16) && (t.result? (.named (sp - 16))).isNone

/-- The storage of a specifier holds a granule with bad check bits (R342), or one whose next read finds an error that can be put right (R341). -/
def Thread.badAt (t : Thread) (sp : Nat) : Bool := if sp < 16 then t.badQ.getLsbD ((t.base + sp) % 16) else t.badN.getLsbD (sp - 16)
def Thread.softAt (t : Thread) (sp : Nat) : Bool := if sp < 16 then t.softQ.getLsbD ((t.base + sp) % 16) else t.softN.getLsbD (sp - 16)

/-- An error that can be put right goes as its slot is read, and is logged (R341). -/
def State.scrubSlot (s : State) (t : Thread) (sp : Nat) : State :=
  (s.modTh s.cur fun u =>
    if sp < 16 then { u with softQ := u.softQ &&& ~~~(1#16 <<< ((t.base + sp) % 16)) } else { u with softN := u.softN &&& ~~~(1#48 <<< (sp - 16)) }).modDie
    t.die fun x => { x with log := x.log ++ [.transient sp] }

/-- One slot, q0 to q15 or n0 to n47 (R38), as R36 returns it. A granule with bad check bits is DATALOSS (R342). -/
def readOp (sp : Spec) : M Word := fun s =>
  let t := (s.th? s.cur).getD noThread
  if 16 ≤ sp.toNat ∧ (s.gridOf t).len t.tid ≤ sp.toNat - 16 then .error (.trap cWINDOW 0 (windowInfo sp.toNat false))
  else if t.badAt sp.toNat && t.fromStore sp.toNat then
    .error (.lost 0 (w64 (16 + sp.toNat * 2 ^ 18)) t.die sp.toNat)
  else
    .ok (if sp.toNat < 16 then t.queueVal sp.toNat else t.namedVal (sp.toNat - 16),
         if t.softAt sp.toNat && t.fromStore sp.toNat then s.scrubSlot t sp.toNat else s)

/-- k consecutive slots from a specifier on (R40): past q15, or past the named length, WINDOW. -/
def readOps (sp : Spec) (k : Nat) : M (List Word) := do
  let len ← namedLen
  if sp.toNat < 16 then
    if 16 < sp.toNat + k then trap cWINDOW 0 (windowInfo sp.toNat true)
  else if len < sp.toNat - 16 + k then trap cWINDOW 0 (windowInfo sp.toNat false)
  (List.range k).mapM fun i => readOp (BitVec.ofNat 6 (sp.toNat + i))

/-- A VF source: its header sets how many slots are read (R40). -/
def readVf (sp : Spec) : M Vf := do
  let h ← readOp sp
  let ws ← readOps sp (slotsOf (slotClass h))
  return vfOfSlots ws

/-- A predicate as a source (R37). -/
def readPred (k : Nat) : M Bool := do return (← cur).predVal k

/-- prc as it stood at the start of the run (R37). -/
def readPrc : M Word := do return (← cur).prc

/-! ### Destinations -/

/-- The targets of k slots at a destination: a push reserves them and moves the ages at once (R39). -/
def reserve (d : Spec) (k : Nat) : M (List Target) := do
  if d.toNat < 16 then
    let t ← cur
    let h := (t.head + 32 - k) % 16
    modCur fun t => { t with head := h }
    return (List.range k).map fun i => .ring ((h + i) % 16)
  else
    let len ← namedLen
    if len < d.toNat - 16 + k then trap cWINDOW 0 (windowInfo d.toNat false)
    return (List.range k).map fun i => .named (d.toNat - 16 + i)

/-- Record the values of reserved targets. -/
def fill (dist : Option Nat) (gs : List Target) (vs : List Word) : M Unit :=
  modCur fun t => (gs.zip vs).foldl (fun t gv => t.produce dist gv.1 gv.2) t

/-- Write slots to a destination (R39). -/
def writeOps (dist : Option Nat) (d : Spec) (vs : List Word) : M Unit := do
  let gs ← reserve d vs.length
  fill dist gs vs

/-- Write one slot to a destination. -/
def writeOp (dist : Option Nat) (d : Spec) (v : Word) : M Unit := writeOps dist d [v]

/-- Write a predicate as a short result (R37). -/
def writePred (k : Nat) (v : Bool) : M Unit := modCur fun t => t.produce (some 3) (.pred k) (w64 v.toNat)

/-- Combine a condition's truth with the old predicate (R92): 0 SET, 1 AND, 2 OR. -/
def combinePred (comb : Nat) (old c : Bool) : Bool :=
  match comb with
  | 1 => old && c
  | 2 => old || c
  | _ => c

/-- A result that reaches beyond the named length is WINDOW, before anything else of the instruction (R38, R48). -/
def checkReach (d : Spec) (k : Nat) : M Unit := do
  let len ← namedLen
  if 16 ≤ d.toNat ∧ len < d.toNat - 16 + k then trap cWINDOW 0 (windowInfo d.toNat false)

end Sys2Proof.Machine
end

