-- ==== Sys2Proof/Machine/Flags.lean ====
section
/-! DEFINITION. Flags, their traps and their stickiness (R69 to R73), the class and mode of an operation (R43, R66, R68), and its issue
distance (R35). -/
namespace Sys2Proof.Machine

namespace Prc
abbrev wc (p : Word) : Nat := bits p 0 3
abbrev rm (p : Word) : Nat := bits p 3 3
abbrev floor (p : Word) : Nat := bits p 6 7
abbrev ftz (p : Word) : Bool := bitAt p 25
end Prc

/-- The first raised and enabled flag in the order of R71. -/
def trapCause (prc : Word) (f : Flags) : Option Nat :=
  if f.inv && bitAt prc 14 then some cFPINV
  else if f.div0 && bitAt prc 15 then some cDIV0
  else if f.range && bitAt prc 27 then some cRANGE
  else if f.ovf && bitAt prc 16 then some cOVF
  else if f.unf && bitAt prc 17 then some cUNF
  else if f.px && bitAt prc 13 then some cPX
  else if f.inx && bitAt prc 18 then some cINX
  else none

/-- Trap info of the arithmetic causes (R72), less the word index. -/
def arithInfo (f : Flags) (cls kept : Nat) : Word := w64 (f.bits + cls * 2 ^ 13 + kept * 2 ^ 16)

/-- An instruction's flags: trap by the enables (R71), else contribute to the sticky fields (R70). -/
def raise (f : Flags) (cls kept : Nat) : M Unit := do
  let prc ← readPrc
  match trapCause prc f with
  | some c => trap c 0 (arithInfo f cls kept)
  | none => if f = {} then pure () else modCur fun t => t.produce none .sticky (w64 f.bits)

/-- The class of a result: prc.wc where cls is 0000 (R43). -/
def resultClass (prc : Word) (cls : BitVec 4) : Nat := if cls = 0 then Prc.wc prc else cls.toNat - 8

/-- The rounding mode: prc.rm where rnd is 00 (R43, R68). -/
def roundMode (prc : Word) (rnd : BitVec 2) : Rnd :=
  match rnd.toNat with
  | 1 => .rne
  | 2 => .rz
  | 3 => .ro
  | _ => Rnd.ofPrc (Prc.rm prc)

/-- The distance of an F-pipe instruction by its largest class (R35). -/
def classDist (c : Nat) : Option Nat := if c ≤ 1 then some 3 else if c = 2 then some 5 else none

/-- The largest class among a result and its sources. -/
def maxClass (c : Nat) (srcs : List Vf) : Nat := srcs.foldl (fun m v => max m v.cls) c

/-- Deliver a VF result (VFCompute, R99): round once, evaluate PX, trap or contribute, write. -/
def deliver (d : Spec) (c : Nat) (md : Rnd) (dist : Option Nat) (ex : Exact) : M Unit := do
  let prc ← readPrc
  let o := finishVf c md (Prc.ftz prc) (Prc.floor prc) ex
  checkReach d (slotsOf c)
  raise o.flags c o.kept
  writeOps dist d (vfToSlots o.val)

/-- Deliver a value whose rounding is already done, with its flags. -/
def deliverVf (d : Spec) (dist : Option Nat) (v : Vf) (f : Flags) : M Unit := do
  checkReach d (slotsOf v.cls)
  raise f v.cls 0
  writeOps dist d (vfToSlots v)

/-- The union of the flags of several operations. -/
def orFlags (fs : List Flags) : Flags := fs.foldl Flags.or {}

/-- ICMP's conditions (R92), on operands of width w. -/
def icmpHolds {w : Nat} (cond : Nat) (a b : BitVec w) : Bool :=
  match cond with
  | 0 => a == b
  | 1 => a != b
  | 2 => a.slt b
  | 3 => a.sle b
  | 4 => b.slt a
  | 5 => b.sle a
  | 6 => a.ult b
  | _ => b.ule a

end Sys2Proof.Machine
end

