-- ==== Sys2Proof/Machine/Home.lean ====
section
/-! DEFINITION. Where every address lives (R165, R166, R362, R364), the home slice's copy and directory: leases, stamps, visibility
times, owner records and recalls, watches (R167, R172, R180, R191 to R195, R203, R278). -/
namespace Sys2Proof.Machine

/-! ### What a window's descriptor says -/

/-- A number rounded up to a multiple of k. -/
abbrev roundUp (x k : Nat) : Nat := (x + k - 1) / k * k

namespace Window
abbrev gbase (w : Window) : Word := w.d0
abbrev count (w : Window) : Nat := bits w.d1 40 24
abbrev flen (w : Window) : Nat := bits w.d1 32 8
abbrev foff (w : Window) : Nat := bits w.d1 16 16
abbrev stride (w : Window) : Nat := bits w.d1 0 16
abbrev id (w : Window) : Nat := bits w.d2 48 16
abbrev cbar (w : Window) : Nat := bits w.d2 35 3
abbrev ro (w : Window) : Bool := bitAt w.d2 34
abbrev persist (w : Window) : Bool := bitAt w.d2 33
abbrev shutter (w : Window) : Bool := bitAt w.d2 32
abbrev soff (w : Window) : Nat := bits w.d2 0 32
abbrev scratch (w : Window) : Bool := w.gbase == 0

/-- First word address of record r's span (R169). -/
abbrev first (w : Window) (r : Nat) : Nat := (w.gbase.toNat + w.foff + r * w.stride) / 4 * 4
/-- S of R169; 0 for a scratch window. -/
abbrev span (w : Window) : Nat :=
  if w.scratch then 0 else roundUp (w.gbase.toNat + w.foff + w.flen) 4 - w.first 0
/-- Bank of R169, or the bytes of a scratch window (R175). -/
abbrev bank (w : Window) : Nat := if w.scratch then 32 * w.count else roundUp (w.count * w.span) 32
/-- End of the stash range (R169). -/
abbrev stop (w : Window) : Nat := w.soff + (if w.shutter then 2 else 1) * w.bank
/-- The virtual address of the global word that a front-bank stash offset holds (R169). -/
def wordVa (w : Window) (off : Nat) : Option Word :=
  let rel := off - w.soff
  if w.scratch ∨ rel / w.span ≥ w.count then none else some (w64 (w.first (rel / w.span) + rel % w.span))
/-- The words that stash line `line` holds (R171). -/
def lineVas (w : Window) (line : Nat) : List (Option Word) := (List.range 8).map fun i => w.wordVa (32 * line + 4 * i)
/-- The window query word (R223). -/
def query (w : Window) : Word :=
  w64 (w.id * 2 ^ 48 + 2 ^ 47 + w.persist.toNat * 2 ^ 46 + w.shutter.toNat * 2 ^ 45 + w.ro.toNat * 2 ^ 44
    + w.cbar * 2 ^ 41 + w.scratch.toNat * 2 ^ 40 + w.span * 2 ^ 32 + w.soff)
/-- The stash lines of the front bank. -/
abbrev frontLines (w : Window) : List Nat := (List.range (w.bank / 32)).map (w.soff / 32 + ·)
/-- The stash lines of the shadow bank. -/
abbrev shadowLines (w : Window) : List Nat := if w.shutter then (List.range (w.bank / 32)).map ((w.soff + w.bank) / 32 + ·) else []

end Window

/-! ### The physical map -/

/-- The region of a physical address (R165, R362, R364). -/
inductive Region where
  | hbm (die off : Nat)
  | tier (site off : Nat)
  /-- HBM of a module by its id, at the given address within it -/
  | system (module pa : Nat)
  | dieReg (die off : Nat)
  | siteReg (site off : Nat)
  | absent
  deriving DecidableEq, Repr, Inhabited

/-- The die that edge site s abuts (R15). -/
def abutting (s : Nat) : Nat :=
  let j := s % 8
  if s < 8 then j else if s < 16 then 8 * j + 7 else if s < 24 then 56 + (7 - j) else 8 * (7 - j)

/-- The region that bits 51:48 and the layout below them select (R165). -/
def regionOf (pa : Nat) : Region :=
  match pa >>> 48 with
  | 0 => if pa < 2 ^ 42 then .hbm (pa >>> 36) (pa % 2 ^ 36) else .absent
  | 1 => if pa % 2 ^ 48 < 2 ^ 41 then .tier (2 * (pa >>> 37 % 16) + 1) (pa % 2 ^ 37) else .absent
  | 2 => .system (pa >>> 42 % 64) (pa % 2 ^ 42)
  | 3 =>
    let o := pa % 2 ^ 48
    if o < 64 * 65536 then .dieReg (o / 65536) (o % 65536)
    else if 2 ^ 24 ≤ o ∧ o < 2 ^ 24 + 32 * 65536 then .siteReg ((o - 2 ^ 24) / 65536) (o % 65536)
    else .absent
  | _ => .absent

/-- The populated bytes of a home stack (R166). -/
abbrev stackBytes : Nat := 64000000000

/-- The accumulator eviction area in bytes: ACCAREA rounded up to a whole 2 MiB (R365). -/
def State.accBytes (s : State) (d : Nat) : Nat := ((s.die d).accarea.toNat + 1) / 2 * 2 ^ 21

/-- The first offset of the reserved areas at the top of a home stack (R166). -/
def State.stackLimit (s : State) (d : Nat) : Nat := stackBytes - (s.die d).rdcsize.toNat * 2 ^ 30 - s.accBytes d

/-- The module's own id, when set (R365). -/
def State.moduleId (s : State) : Option Nat :=
  let m := (s.die (s.anchor.getD 0)).modid
  if bitAt m 8 then some (bits m 0 6) else none

/-- Whether a die answers: live or degraded. -/
abbrev State.alive (s : State) (d : Nat) : Bool := (s.die d).life != .dead

/-- What stands in the way of an access to a physical byte: PROTECTION for an unpopulated, reserved or absent range (R166), DATALOSS for a
dead die or failed site (R357, R358). -/
def State.paFault (s : State) (pa : Nat) : Option Nat :=
  match regionOf pa with
  | .hbm d off => if !s.alive d then some cDATALOSS else if off < s.stackLimit d then none else some cPROTECTION
  | .tier i off =>
    let x := s.site i
    if x.type = 15 ∨ !s.alive (abutting i) then some cDATALOSS
    else if (x.type = 3 ∨ x.type = 4) ∧ x.wiped ∧ off < x.populated then none
    else some cPROTECTION
  | .absent => some cPROTECTION
  | _ => none

/-- The home die of a cacheable address (R165). -/
def homeDie (pa : Nat) : Nat :=
  match regionOf pa with
  | .hbm d _ => d
  | .tier i _ => abutting i
  | _ => 0

/-- The logical slice of a line: the XOR of six 5-bit fields (R167). -/
def sliceOf (pa : Nat) : Nat :=
  ((pa >>> 31) % 32) ^^^ ((pa >>> 26) % 32) ^^^ ((pa >>> 21) % 32) ^^^ ((pa >>> 16) % 32) ^^^ ((pa >>> 11) % 32)
    ^^^ ((pa >>> 6) % 32)

namespace State

/-! ### The home copy -/

/-- The home copy of a byte: the slice's dirty byte, or its backing (R178). -/
def homeByte (s : State) (pa : Nat) : BitVec 8 := (AMap.get? s.l2 pa).getD (readCell s.mem pa)

/-- The home copies of n bytes. -/
def homeBytes (s : State) (pa n : Nat) : List (BitVec 8) := (List.range n).map fun i => s.homeByte (pa + i)

/-- The owner of a word of a line. -/
def ownerOf (s : State) (l word : Nat) : Option Owner := (s.dirLine l).owners.find? fun o => o.mask.getLsbD word

/-- Where in a stash line the word at a physical address stands. -/
def wordIndex (pas : List (Option Nat)) (pa : Nat) : Nat := pas.findIdx (fun p => decide (p = some pa))

/-- A stash line of a core. -/
abbrev stashLine (s : State) (k line : Nat) : StashLine := (AMap.get? (s.core k).lines line).getD {}

/-- Put or drop the record of a stash line. -/
def setLine (s : State) (k line : Nat) (x : StashLine) : State :=
  s.modCore k fun c => { c with lines := if x = {} then AMap.del c.lines line else AMap.put c.lines line x }

/-- A line in the ACC state (R136). -/
abbrev isAcc (s : State) (l : Nat) : Bool := (s.dirLine l).acc.isSome

/-- One byte as any agent reads it at its home: an owned word comes from the owning stash (R172). -/
def probeByte (s : State) (pa : Nat) : BitVec 8 :=
  match s.ownerOf (pa / 64) (pa % 64 / 4) with
  | some o =>
    let k := coreKey o.die o.core
    let x := s.stashLine k o.line
    readCell (s.core k).stash (32 * o.line + 4 * wordIndex x.pas (pa / 4 * 4) + pa % 4)
  | none => s.homeByte pa

/-- A little-endian number at its home, as a page walker or the dispatcher reads it (R162, R172). -/
def homeNat (s : State) (pa n : Nat) : Nat := ofBytes ((List.range n).map fun i => s.probeByte (pa + i))

/-- Bytes into the home copies, with no other effect. -/
def homePut (s : State) (pa : Nat) : List (BitVec 8) → State
  | [] => s
  | b :: bs => homePut { s with l2 := AMap.put s.l2 pa b } (pa + 1) bs

/-! ### Leases -/

/-- The words of line l that the n bytes at pa touch: lowest and highest index. -/
abbrev lineWords (pa n : Nat) : Nat × Nat := (pa % 64 / 4, (pa % 64 + n - 1) / 4)

/-- The lease records of a line that have not expired on its home's counter (R191). -/
def liveLeases (s : State) (l : Nat) : List Lease :=
  (s.dirLine l).leases.filter fun r => decide (s.now (homeDie (64 * l)) < r.expiry)

end State

/-- Two lease records merged (R180, R191). -/
def Lease.merge (a b : Lease) : Lease :=
  ⟨min a.lo b.lo, max a.hi b.hi, max a.expiry b.expiry, min a.len b.len, a.written || b.written⟩

/-- A record's span meets the words lo to hi. -/
abbrev Lease.meets (r : Lease) (lo hi : Nat) : Bool := decide (r.lo ≤ hi) && decide (lo ≤ r.hi)

/-- Records in ascending order of their first word. -/
def insertLease (r : Lease) : List Lease → List Lease
  | [] => [r]
  | x :: xs => if r.lo ≤ x.lo then r :: x :: xs else x :: insertLease r xs

/-- The extra words that each merge of adjacent records would cover. -/
def leaseGaps : List Lease → List Nat
  | a :: b :: rest => (b.lo - a.hi - 1) :: leaseGaps (b :: rest)
  | _ => []

/-- Merge the adjacent records at index i. -/
def mergeAt : Nat → List Lease → List Lease
  | 0, a :: b :: rest => a.merge b :: rest
  | i + 1, a :: rest => a :: mergeAt i rest
  | _, xs => xs

/-- Index of the least element, the first of equals. -/
def argMin : List Nat → Nat
  | [] => 0
  | x :: xs => if xs.all (fun y => decide (x ≤ y)) then 0 else 1 + argMin xs

/-- At most four lease records remain (R180). -/
def capLeases (rs : List Lease) : List Lease :=
  if 4 < rs.length then mergeAt (argMin (leaseGaps rs)) rs else rs

/-- A read's grant over words lo to hi at home time `now` (R180, R191): the granted expiry and the records after it. -/
def grantLease (rs : List Lease) (now lo hi : Nat) : Nat × List Lease :=
  let hit := rs.filter (·.meets lo hi)
  let rest := rs.filter (fun r => !r.meets lo hi)
  match hit with
  | [] => (now + 256, capLeases (insertLease ⟨lo, hi, now + 256, 256, false⟩ rest))
  | r :: more =>
    let m := (more.foldl Lease.merge r).merge ⟨lo, hi, 0, r.len, false⟩
    let len := if m.written then m.len else min 4096 (2 * m.len)
    (now + len, capLeases (insertLease { m with len := len, expiry := max m.expiry (now + len) } rest))

/-- A write to words lo to hi of live records (R191). -/
def markWritten (rs : List Lease) (lo hi : Nat) : List Lease :=
  rs.map fun r => if r.meets lo hi then { r with written := true, len := 64 } else r

/-- The largest of a list, 0 when empty. -/
abbrev maxOf (xs : List Nat) : Nat := xs.foldl max 0

namespace State

/-- E of R194: the largest live expiry over the words, in home ticks. -/
def spanExpiry (s : State) (l lo hi : Nat) : Nat :=
  maxOf (((s.liveLeases l).filter (·.meets lo hi)).map (·.expiry))

/-- The stamp of words read (R195), in home ticks; 0 without a written live record. -/
def spanStamp (s : State) (l lo hi : Nat) : Nat :=
  maxOf (((s.liveLeases l).filter (fun r => r.meets lo hi && r.written)).map (·.expiry))

/-- A home stamp in the reader's ticks. -/
def stampFor (s : State) (l st d : Nat) : Nat := if st = 0 then 0 else s.conv st (homeDie (64 * l)) d

end State

/-- Replace bytes from an offset on, within the length of the list. -/
def patch (xs : List (BitVec 8)) (off : Nat) (bs : List (BitVec 8)) : List (BitVec 8) :=
  (xs.take off ++ bs ++ xs.drop (off + bs.length)).take xs.length

/-- Replace bytes of a copy from an offset on, but for those that a cluster buffer holds written (R179, R202). -/
def patchClean (x : Option DirtyLine) (xs : List (BitVec 8)) (off : Nat) (bs : List (BitVec 8)) : List (BitVec 8) :=
  (List.range xs.length).map fun i =>
    if off ≤ i ∧ i < off + bs.length ∧ (x.bind fun y => AMap.get? y.bytes i).isNone then bs.getD (i - off) 0 else xs.getD i 0

/-- Maximal runs of consecutive bytes. -/
def byteRuns : List Host.Cell → List (Nat × List (BitVec 8))
  | [] => []
  | (a, b) :: rest =>
    match byteRuns rest with
    | (a', bs) :: more => if a' = a + 1 then (a, b :: bs) :: more else (a, [b]) :: (a', bs) :: more
    | [] => [(a, [b])]

namespace State

/-- The pieces of n bytes at pa, cut at line ends: address and length. -/
def linePieces : Nat → Nat → Nat → List (Nat × Nat)
  | 0, _, _ => []
  | f + 1, pa, n =>
    if n = 0 then []
    else
      let k := min n (64 - pa % 64)
      (pa, k) :: linePieces f (pa + k) (n - k)

/-! ### Copies of cores and dies -/

/-- A remote-data-cache copy that is valid (R181). -/
def rdcCopy (s : State) (d l : Nat) : Option RdcCopy :=
  (AMap.get? (s.die d).rdc l).bind fun c => if c.gen = (s.die d).gen then some c else none

/-- An L1 copy that is valid (R192). -/
def l1Copy (s : State) (k l : Nat) : Option L1Copy :=
  (AMap.get? (s.core k).l1 l).bind fun c =>
    match c.expiry with
    | some e => if s.now (k / 128) < e then some c else none
    | none => if c.gen = (s.die (k / 128)).gen then some c else none

/-- The dirty line of the cluster buffer of a core. -/
abbrev dirtyLine? (s : State) (k l : Nat) : Option DirtyLine := AMap.get? (s.cluster (k / 4)).buf l

/-- The words of a core's read-only window lines that stand for given bytes follow them, with their stamp (R188, R203). -/
def patchWindows (s : State) (k pa : Nat) (bs : List (BitVec 8)) (stamp : Nat) : State :=
  s.modCore k fun c => c.lines.foldl (fun c p =>
    if p.2.present && p.2.expiry.isSome then
      let hits : List Host.Cell := (List.range (4 * p.2.pas.length)).filterMap fun j => (p.2.pas.getD (j / 4) none).bind fun w =>
        if pa ≤ w + j % 4 ∧ w + j % 4 < pa + bs.length then some (32 * p.1 + j, bs.getD (w + j % 4 - pa) 0) else none
      if hits = [] then c
      else { c with stash := hits.foldl (fun m h => writeCell m h.1 h.2) c.stash, lines := AMap.put c.lines p.1 { p.2 with claim := max p.2.claim stamp } }
    else c) c

/-- The copies that a core and its die hold of bytes that an access of theirs returned from their home, a cluster buffer or a stash follow it, with its
stamp, so that no later read returns an older value (R188; notes/assumptions/22.md). -/
def refresh (s : State) (die core pa : Nat) (bs : List (BitVec 8)) (stamp : Nat) : State :=
  let l := pa / 64
  let k := coreKey die core
  let s1 := match s.rdcCopy die l with
    | some c => s.modDie die fun x =>
        { x with rdc := AMap.put x.rdc l { c with bytes := patchClean (s.dirtyLine? k l) c.bytes (pa % 64) bs, stamp := max c.stamp stamp } }
    | none => s
  (match AMap.get? (s1.core k).l1 l with
  | some c =>
    s1.modCore k fun x =>
      { x with l1 := AMap.put x.l1 l { c with bytes := patchClean (s1.dirtyLine? k l) c.bytes (pa % 64) bs, stamp := max c.stamp stamp } }
  | none => s1).patchWindows k pa bs stamp

/-! ### Watches -/

/-- Whether two byte ranges overlap. -/
abbrev overlaps (a n b m : Nat) : Bool := decide (a < b + m) && decide (b < a + n)

/-- A new value of a watched word comes to the waiting thread's condition, which its core evaluates in turn (R278). -/
def deliverWatch (s : State) (th c : Nat) (v : Word) (stamp : Nat) : State :=
  s.modTh th fun t =>
    { t with waitc := t.waitc.map fun w =>
        let x := w.conds.getD c default
        { w with conds := listSet w.conds c { x with news := x.news ++ [(v, stamp)] } } }

/-- A watch on a word is served with the word's new value. A watch of an agent beyond a link gets a WATCHV (R352); that of a dispatcher on a knocker
wakes it (R294). -/
def serveWatch (s : State) (h : Nat) (w : Watch) : State :=
  let v8 := w64 (s.homeNat (w.pa / 8 * 8) 8)
  let v4 := w64 (s.homeNat w.pa 4)
  if w.remote then
    s.toAgent w.site ⟨5, 5, { dst := BitVec.ofNat 6 w.src, src := BitVec.ofNat 6 h, site := 0, txn := BitVec.ofNat 16 w.txn, payload := if w.w32 then v4 else v8 }⟩
  else
    match w.queue with
    | some (d, i) =>
      s.modDie d fun x => { x with qslots := AMap.set x.qslots i ((AMap.get? x.qslots i).map fun q => { q with knocked := true }) }
    | none =>
      match s.th? w.th with
      | none => s
      | some t =>
        let stamp := s.stampFor (w.pa / 64) (s.spanStamp (w.pa / 64) (w.pa % 64 / 4) (w.pa % 64 / 4)) t.die
        let v := if (t.waitc.map fun x => (x.conds.getD w.cond default).w32).getD false then v4 else v8
        (s.deliverWatch w.th w.cond v stamp).refresh t.die t.core (w.pa / 8 * 8) (toBytes 8 v8.toNat) stamp

/-- Every watch on a word that the n bytes at pa touch is served (R278). -/
def notify (s : State) (pa n : Nat) : State :=
  let h := homeDie pa
  ((s.die h).watches.filter fun w => overlaps w.pa 8 pa n).foldl (fun s w => s.serveWatch h w) s

/-! ### Owner records and recalls -/

/-- A write by die d to a line homed elsewhere updates a valid copy of its remote-data cache in place, with the L1 copies that were filled from it
(R181, R199, R202). -/
def rdcUpdate (s : State) (d pa : Nat) (bs : List (BitVec 8)) : State :=
  if d = homeDie pa then s
  else
    let l := pa / 64
    let s1 := match AMap.get? (s.die d).rdc l with
      | some c => s.modDie d fun x => { x with rdc := AMap.put x.rdc l { c with bytes := patch c.bytes (pa % 64) bs } }
      | none => s
    { s1 with cores := s1.cores.map fun p =>
        if p.1 / 128 ≠ d then p
        else
          match AMap.get? p.2.l1 l with
          | some c =>
            if c.expiry.isNone then
              (p.1, { p.2 with l1 := AMap.put p.2.l1 l { c with bytes := patchClean (s1.dirtyLine? p.1 l) c.bytes (pa % 64) bs } })
            else p
          | none => p }

/-- Granules that a store covers whole take fresh check bits (R342). -/
def freshChecks (s : State) (pa n : Nat) : State :=
  if s.bad = [] then s else { s with bad := s.bad.filter fun g => !(decide (pa ≤ 8 * g) && decide (8 * g + 8 ≤ pa + n)) }

/-- The visibility time of a write by die d to n bytes of a line, applied now (R10, R194): in ticks of d. -/
def visTime (s : State) (d pa n : Nat) : Nat :=
  let h := homeDie pa
  let (lo, hi) := lineWords pa n
  let e := s.spanExpiry (pa / 64) lo hi
  let a := s.now h
  if d = h then max a e else max (s.now d) (s.conv a h d + (e - a))

/-- Apply bytes at the home, within one line, with their effects on leases, watches and the writer's remote copy (R193). The result is the
write's visibility time in ticks of the writing die (R10, R194). -/
def applyAtHome (s : State) (d pa : Nat) (bs : List (BitVec 8)) : State × Nat :=
  let l := pa / 64
  let (lo, hi) := lineWords pa bs.length
  let s1 := s.setDir l { s.dirLine l with leases := markWritten (s.liveLeases l) lo hi }
  let s2 := ((((s1.homePut pa bs).freshChecks pa bs.length).notify pa bs.length).rdcUpdate d pa bs)
  (s2, s.visTime d pa bs.length)

/-- Release every owner record that a core's stash line holds (R172, R180). -/
def releaseOwner (s : State) (die core line : Nat) (pas : List (Option Nat)) : State :=
  pas.foldl (fun s p =>
    match p with
    | some pa =>
      let x := s.dirLine (pa / 64)
      s.setDir (pa / 64) { x with owners := x.owners.filter fun o => !(o.die == die && o.core == core && o.line == line) }
    | none => s) s

/-- The window whose front bank holds a stash line of a core. -/
def lineWindow (s : State) (k line : Nat) : Option Window :=
  (s.core k).windows.find? fun w => decide (w.soff ≤ 32 * line) && decide (32 * line + 32 ≤ w.soff + w.bank)

/-- The words of a stash line that a mask covers and that were written since its fill: physical address and place in the line. -/
def writtenWords (s : State) (k line : Nat) (mask : BitVec 8) : List (Nat × Nat) :=
  let x := s.stashLine k line
  (List.range x.pas.length).filterMap fun i => (x.pas.getD i none).bind fun pa => if (x.written &&& mask).getLsbD i then some (pa, i) else none

/-- Write back the words of a stash line that a mask covers and that were written since its fill (R173): the largest visibility time. Bad check bits
go with their granule (R342). A word that reaches an ACC line is discarded there, and its report follows (R137; notes/assumptions/22.md). -/
def writeBackWords (s : State) (die core line : Nat) (mask : BitVec 8) : State × Nat :=
  let k := coreKey die core
  let ws := s.writtenWords k line mask
  let live := ws.filter fun p => !s.isAcc (p.1 / 64)
  let lost := (ws.filter fun p => s.isAcc (p.1 / 64)).head?
  let cells : List Host.Cell := live.foldl (fun m p =>
    (List.range 4).foldl (fun m j => AMap.put m (p.1 + j) (readCell (s.core k).stash (32 * line + 4 * p.2 + j))) m) []
  let pieces := (byteRuns cells).flatMap fun r => (linePieces 2 r.1 r.2.length).map fun q => (q.1, (r.2.drop (q.1 - r.1)).take q.2)
  let r := pieces.foldl (fun (acc : State × Nat) q =>
    let (s', v) := acc.1.applyAtHome die q.1 q.2
    (s', max acc.2 v)) (s, 0)
  let sick := (live.filter fun p => (s.core k).bad.contains ((32 * line + 4 * p.2) / 8)).map (·.1 / 8)
  let x := s.stashLine k line
  let s1 := r.1.setLine k line { x with written := x.written &&& ~~~mask, grids := x.grids.map fun p => (p.1, p.2 &&& ~~~mask) }
  let s2 := if sick = [] then s1 else { s1 with bad := s1.bad ++ sick.filter fun g => !s1.bad.contains g }
  (match lost with
    | some p => (s2.lineWindow k line).elim s2 fun w =>
        s2.first [⟨0, .discard die core w.grid w.team ((w.wordVa (32 * line + 4 * p.2)).getD 0)⟩]
    | none => s2, r.2)

/-- Write back all the words of a stash line that were written since its fill (R173). -/
abbrev writeBackLine (s : State) (die core line : Nat) : State × Nat := s.writeBackWords die core line 255

/-- A recall of a stash line (R172): written words go back, ownership of all its words ends, and its presence is cleared. -/
def recallLine (s : State) (die core line : Nat) : State :=
  let k := coreKey die core
  let x := s.stashLine k line
  let s1 := (s.writeBackLine die core line).1
  (s1.releaseOwner die core line x.pas).setLine k line { x with present := false, written := 0, grids := [], pas := [], sizes := [], claim := 0 }

/-- Recall whichever stash lines own words that the n bytes at pa touch (R172). -/
def recallSpan (s : State) (pa n : Nat) : State :=
  let l := pa / 64
  if (s.dirLine l).owners = [] then s
  else
    let (lo, hi) := lineWords pa n
    ((List.range (hi - lo + 1)).map (lo + ·)).foldl (fun s w =>
      match s.ownerOf l w with
      | some o => s.recallLine o.die o.core o.line
      | none => s) s

/-- A write that reaches its home from outside the owning window, within one line (R172, R193). -/
def homeWrite1 (s : State) (d pa : Nat) (bs : List (BitVec 8)) : State × Nat :=
  (s.recallSpan pa bs.length).applyAtHome d pa bs

/-- A write at its home or homes: the largest visibility time. -/
def homeWrite (s : State) (d pa : Nat) (bs : List (BitVec 8)) : State × Nat :=
  (linePieces (bs.length / 64 + 2) pa bs.length).foldl (fun acc p =>
    let (s', v) := acc.1.homeWrite1 d p.1 ((bs.drop (p.1 - pa)).take p.2)
    (s', max acc.2 v)) (s, 0)

/-- The acknowledgement owed for a held contribution goes out as it is applied (R142, R220), with the home's counter and the residual wait. -/
def payOwed (s : State) (h a ord vis : Nat) : State :=
  match (s.die h).owed.find? fun x => decide (x.1 = a) && decide (x.2.1 = ord) with
  | none => s
  | some (_, _, site, p) =>
    let now := s.now h
    let m : Msg := { p.msg with payload := BitVec.ofNat 64 now, slots := [BitVec.ofNat 128 (vis - now)] }
    let q : Packet := { p with msg := m }
    let s1 := s.modDie h fun x =>
      { x with owed := x.owed.filter fun y => !(decide (y.1 = a) && decide (y.2.1 = ord)),
               served := x.served.map fun y =>
                 if y.src = p.msg.dst.toNat ∧ y.site = site ∧ y.txn = p.msg.txn.toNat then { y with answer := [q] } else y }
    s1.toAgent site q

/-- Whether some word that n bytes at pa touch, within one line, is owned by a window. -/
def anyOwned (s : State) (pa n : Nat) : Bool :=
  let (lo, hi) := lineWords pa n
  (s.dirLine (pa / 64)).owners.any fun o => (List.range (hi - lo + 1)).any fun i => o.mask.getLsbD (lo + i)

/-- The stamp of bytes read at their home within one line, for a reader on die d: written leases, and claim times of owned words (R195, R203). -/
def readStamp (s : State) (d pa n : Nat) : Nat :=
  let l := pa / 64
  let (lo, hi) := lineWords pa n
  let own := maxOf ((List.range (hi - lo + 1)).map fun i =>
    match s.ownerOf l (lo + i) with
    | some o => s.conv (s.stashLine (coreKey o.die o.core) o.line).claim o.die d
    | none => 0)
  max own (s.stampFor l (s.spanStamp l lo hi) d)

/-- A read at the home by any agent: bytes, and the largest stamp over its lines. -/
def homeRead (s : State) (d pa n : Nat) : List (BitVec 8) × Nat :=
  ((List.range n).map (fun i => s.probeByte (pa + i)),
   maxOf ((linePieces (n / 64 + 2) pa n).map fun p => s.readStamp d p.1 p.2))

/-- The first ACC line that n bytes at pa touch. -/
def accLine? (s : State) (pa n : Nat) : Option Nat :=
  ((linePieces (n / 64 + 2) pa n).map (·.1 / 64)).find? s.isAcc

/-- The granule with bad check bits that the word at a physical address stands in, with its die: that of the stash which owns the word, else its home's
(R172, R342). -/
def badWord? (s : State) (pa : Nat) : Option (Nat × Nat) :=
  match s.ownerOf (pa / 64) (pa % 64 / 4) with
  | some o =>
    let k := coreKey o.die o.core
    let g := (32 * o.line + 4 * wordIndex (s.stashLine k o.line).pas (pa / 4 * 4)) / 8
    if (s.core k).bad.contains g then some (o.die, g) else none
  | none => if s.bad.contains (pa / 8) then some (homeDie pa, pa / 8) else none

/-- The granule with bad check bits that an access finds which first recalls the word at a physical address: its written stash copy goes home with its check
bits (R172, R342). -/
def badRecalled? (s : State) (pa : Nat) : Option (Nat × Nat) :=
  let wrote (a : Nat) : Bool := match s.ownerOf (a / 64) (a % 64 / 4) with
    | some o => let x := s.stashLine (coreKey o.die o.core) o.line; x.written.getLsbD (wordIndex x.pas (a / 4 * 4))
    | none => false
  let g := pa / 8
  let home := if s.bad.contains g && !(wrote (8 * g) && wrote (8 * g + 4)) then some (homeDie pa, g) else none
  if wrote pa then (s.badWord? pa).or home else home

/-- The first granule with bad check bits that a read of the bytes finds, with its die (R342). -/
def badGranule? (s : State) (pa n : Nat) : Option (Nat × Nat) :=
  if s.bad = [] ∧ (s.cores.all fun c => decide (c.2.bad = [])) = true then none
  else (List.range ((pa + n - 1) / 4 - pa / 4 + 1)).findSome? fun i => s.badWord? (4 * (pa / 4 + i))

/-- A read of the bytes finds a granule with bad check bits (R342). -/
def anyBad (s : State) (pa n : Nat) : Bool := (s.badGranule? pa n).isSome

/-- The first granule with bad check bits that a write of the bytes covers in part, with its die (R342). -/
def badPart? (s : State) (pa n : Nat) : Option (Nat × Nat) :=
  if s.bad = [] ∧ (s.cores.all fun c => decide (c.2.bad = [])) = true then none
  else
    ((List.range ((pa + n - 1) / 8 - pa / 8 + 1)).filter fun i => !(decide (pa ≤ 8 * (pa / 8 + i)) && decide (8 * (pa / 8 + i) + 8 ≤ pa + n))).findSome? fun i =>
      (s.badRecalled? (8 * (pa / 8 + i))).or (s.badRecalled? (8 * (pa / 8 + i) + 4))

/-- The granules of a core's stash with bad check bits that n bytes at an offset hold. -/
def badStash? (s : State) (k off n : Nat) : Option (Nat × Nat) :=
  ((s.core k).bad.find? fun g => overlaps (8 * g) 8 off n).map fun g => (k / 128, g)

/-- A correctable or transient error of the bytes of a stash is put right and logged as they are read (R341). -/
def scrubStash (s : State) (k off n : Nat) : State :=
  match (s.core k).soft.filter fun g => overlaps (8 * g) 8 off n with
  | [] => s
  | gs => (s.modCore k fun c => { c with soft := c.soft.filter fun g => !gs.contains g }).modDie (k / 128) fun x =>
      { x with log := x.log ++ gs.map LogEntry.transient }

/-- A correctable or transient error of the bytes is put right and logged as they are read (R341): of the home copies, and of the words that stashes own. -/
def scrub (s : State) (pa n : Nat) : State :=
  let s1 := match s.soft.filter fun g => overlaps (8 * g) 8 pa n with
    | [] => s
    | gs => { s with soft := s.soft.filter fun g => !gs.contains g }.modDie (homeDie pa) fun x => { x with log := x.log ++ gs.map LogEntry.transient }
  if (s1.dirLine (pa / 64)).owners = [] then s1
  else (List.range ((pa + n - 1) / 4 - pa / 4 + 1)).foldl (fun s i =>
    let w := 4 * (pa / 4 + i)
    match s.ownerOf (w / 64) (w % 64 / 4) with
    | some o => s.scrubStash (coreKey o.die o.core) (32 * o.line + 4 * wordIndex (s.stashLine (coreKey o.die o.core) o.line).pas w) 4
    | none => s) s1

end State

end Sys2Proof.Machine
end

