-- ==== Sys2Proof/Machine/Walk.lean ====
section
/-! DEFINITION. Translation (R159 to R163, R290 to R292): canonical addresses, the page walk, translation buffers, permissions; and the
reasons an access fails. -/
namespace Sys2Proof.Machine

/-- On whose behalf an access is made (R186): a thread, or what acts for one. -/
structure Agent where
  th : Nat
  grid : Nat
  team : Nat
  tid : Nat
  die : Nat
  core : Nat
  asid : BitVec 16
  root : Nat
  super : Bool
  /-- the asynchronous operation for which it acts, by its key -/
  op : Option Nat := none
  /-- a unit without a translation buffer of its own: a matrix engine, a home die's walker -/
  unit : Bool := false
  deriving DecidableEq, Repr, Inhabited

/-- Why an access does not complete. -/
inductive Fail where
  /-- no valid entry at a level, in the fill of a stash line or not (R163, R171) -/
  | replay (level : Nat) (va : Word) (fill : Option Nat)
  /-- PROTECTION, with the mark of a malformed entry (R292) -/
  | prot (va : Word) (malformed : Bool)
  | align (va : Word)
  /-- DATALOSS, with the die and the granule where bad check bits are the reason (R342) -/
  | loss (va : Word) (bad : Option (Nat × Nat))
  /-- parks at the home on an ACC line (R137) -/
  | acc (line : Nat)
  /-- parks on an absent stash line (R171) -/
  | stash (line : Nat)
  /-- waits for an asynchronous operation whose footprint it conflicts with (R208) -/
  | conflict (op : Nat)
  /-- waits for an answer from an edge die or another module -/
  | answer (txn : Nat)
  /-- a system-scope access that cannot be delivered (R363) -/
  | mcast (va : Word)
  /-- a write or reduction that another module has answered ERR with PROTECTION: its home has discarded it (R137) -/
  | refused (va : Word)
  deriving DecidableEq, Repr, Inhabited

/-- An access: it may fail, in the state it reached. -/
abbrev A := StateT State (Except (Fail × State))

/-- Fail in the state reached. -/
def failA {α : Type} (f : Fail) : A α := fun s => .error (f, s)

/-- Change the state, as a part of an access. -/
def modA (f : State → State) : A Unit := fun s => .ok ((), f s)

/-- The agent of a thread. -/
def State.agentOf (s : State) (t : Thread) : Agent :=
  let g := s.gridOf t
  { th := t.key, grid := t.grid, team := t.team, tid := t.tid, die := t.die, core := t.core, asid := g.asid, root := g.root, super := g.super }

/-- Canonical: bits 63:57 all equal bit 56 (R159). -/
def canonical (va : Word) : Bool := bits va 56 8 == 0 || bits va 56 8 == 255

/-- The kinds of permission (R211). -/
inductive Perm where
  | r | w | rw | x
  deriving DecidableEq, Repr, Inhabited

/-- The right that a leaf entry gives an agent (R291, R292). -/
def permits (super : Bool) (pte : Word) (p : Perm) : Bool :=
  (super || bitAt pte 6) &&
    match p with
    | .r => bitAt pte 3
    | .w => bitAt pte 4
    | .rw => bitAt pte 3 && bitAt pte 4
    | .x => bitAt pte 5

/-- Shift of the VA field of a level (R292). -/
abbrev levelShift (level : Nat) : Nat := match level with | 0 => 39 | 1 => 30 | 2 => 21 | _ => 16

/-- Number of bits of a level's VA field (R292). -/
abbrev levelBits (level : Nat) : Nat := match level with | 0 => 18 | 1 => 9 | 2 => 9 | _ => 5

/-- Malformed for its level (R292). -/
def malformed (pte : Word) (level : Nat) : Bool :=
  let addr := pte.toNat % 2 ^ 52 / 256 * 256
  let ptr := bitAt pte 1
  bits pte 53 11 ≠ 0 || bitAt pte 2
    || (level = 0 && !ptr) || (level = 3 && ptr)
    || (if ptr then (level ≤ 1 && addr % 4096 ≠ 0)
        else addr % 2 ^ levelShift level ≠ 0 || !(bitAt pte 3 || bitAt pte 4 || bitAt pte 5))

/-- What a walk finds: a leaf with the log2 of its page's size, an invalid entry, or a malformed one. -/
inductive Walked where
  | leaf (pte : Word) (size : Nat)
  | invalid (level : Nat)
  | malformed
  deriving DecidableEq, Repr, Inhabited

/-- The four-level walk from the table at `table`, with `fuel` levels to go (R292). -/
def walk (s : State) (va : Nat) : Nat → Nat → Walked
  | 0, _ => .malformed
  | fuel + 1, table =>
    let level := 3 - fuel
    let pte := w64 (s.homeNat (table + 8 * (va >>> levelShift level % 2 ^ levelBits level)) 8)
    if !bitAt pte 0 then .invalid level
    else if malformed pte level then .malformed
    else if bitAt pte 1 then walk s va fuel (pte.toNat % 2 ^ 52 / 256 * 256)
    else .leaf pte (levelShift level)

/-- A buffer's entry serves an address of an address space (R290, R291). -/
def Tlb.serves (e : Tlb) (asid : BitVec 16) (va : Nat) : Bool :=
  (e.asid == asid || bitAt e.pte 7) && decide (va >>> e.bits = e.page)

/-- The physical address of an address within a leaf's page. -/
def leafPa (pte : Word) (size va : Nat) : Nat := pte.toNat % 2 ^ 52 / 2 ^ size * 2 ^ size + va % 2 ^ size

/-- The entry for an address: the core's buffer, the die's buffer, then a walk whose leaf both buffers keep (R162). The core's buffer
holds the 64 latest. -/
def lookup (g : Agent) (va : Word) : A (Word × Nat) := fun s =>
  let v := va.toNat % 2 ^ 57
  let k := coreKey g.die g.core
  let keep (s : State) (e : Tlb) : State := if g.unit then s else s.modCore k fun c => { c with tlb := (e :: c.tlb).take 64 }
  match (if g.unit then none else (s.core k).tlb.find? (·.serves g.asid v)) with
  | some e => .ok ((e.pte, e.bits), s)
  | none =>
    match (s.die g.die).tlb.find? (·.serves g.asid v) with
    | some e => .ok ((e.pte, e.bits), keep s e)
    | none =>
      match walk s v 4 g.root with
      | .invalid l => .error (.replay l va none, s)
      | .malformed => .error (.prot va true, s)
      | .leaf pte size =>
        let e : Tlb := ⟨g.asid, v >>> size, size, pte⟩
        .ok ((pte, size), (keep s e).modDie g.die fun d =>
          { d with tlb := (e :: d.tlb).take 16384 })

namespace State

/-- An address that names the module's own id is served as the local address (R362). -/
def localPa (s : State) (pa : Nat) : Nat :=
  match regionOf pa with
  | .system md a => if s.moduleId = some md then a else pa
  | _ => pa

/-- The request of a site's home slices to its memory die that has no answer yet, which holds back every access to the site's range (R361). -/
def siteWait? (s : State) (pa : Nat) : Option Nat :=
  match regionOf pa with
  | .tier i _ => (s.pending.find? fun p => p.2.op == some 0 && p.2.site == i && p.2.reply.isNone && (match regionOf p.2.pa with | .tier .. => true | _ => false)).map (·.1)
  | _ => none

end State

/-- What stands in the way of an access to a physical byte: its range (R166), or the memory die behind it (R361). -/
def checkPa (va : Word) (pa : Nat) : A Unit := do
  let s ← get
  match s.paFault pa with
  | some c => failA (if c = cDATALOSS then .loss va none else .prot va false)
  | none =>
    match s.siteWait? pa with
    | some txn => failA (.answer txn)
    | none => return ()

/-- Steps 1, 4 and 5 of R211 for one byte: its physical address, the leaf entry and the log2 of the page's size. -/
def translateSized (g : Agent) (va : Word) (p : Perm) : A (Nat × Word × Nat) := do
  if !canonical va then failA (.prot va false)
  let (pte, size) ← lookup g va
  if !permits g.super pte p then failA (.prot va false)
  let pa := (← get).localPa (leafPa pte size (va.toNat % 2 ^ 57))
  checkPa va pa
  return (pa, pte, size)

/-- Steps 1, 4 and 5 of R211 for one byte: its physical address, and the leaf entry. -/
def translate (g : Agent) (va : Word) (p : Perm) : A (Nat × Word) := do
  let (pa, pte, _) ← translateSized g va p
  return (pa, pte)

/-- The first and the last byte of an access within one page: its range may end between them (R166). -/
def translatePiece (g : Agent) (va : Word) (n : Nat) (p : Perm) : A (Nat × Word) := do
  let (pa, pte) ← translate g va p
  checkPa va (pa + n - 1)
  return (pa, pte)

/-- The pieces of an access, and the leaf entry of each: it may cross a page, and both pages are translated before any byte is touched (R212). The first page passes
steps 4 and 5 of R211 before the second is looked at (notes/assumptions/22.md). -/
def translateSpan (g : Agent) (va : Word) (n : Nat) (p : Perm) : A (List (Nat × Nat) × List Word) := do
  let room := 65536 - va.toNat % 65536
  let (pa, pte) ← translatePiece g va (min n room) p
  if n ≤ room then return ([(pa, n)], [pte])
  else
    let (pb, pte') ← translatePiece g (va + w64 room) (n - room) p
    return ([(pa, room), (pb, n - room)], [pte, pte'])

/-- Run an access for its answer alone, as an agent that has no thread to stop: none where it fails. -/
def tryA {α : Type} (x : A α) (s : State) : Option (α × State) :=
  match x s with
  | .ok r => some r
  | .error _ => none

end Sys2Proof.Machine
end

