-- ==== Sys2Proof/Machine/Records.lean ====
section
/-! DEFINITION. Fault records: rings, team and grid records, the chain (R164, R323 to R326). -/
namespace Sys2Proof.Machine

/-- The tag of a die's next record: the next number that no outstanding record of the die bears (R164, R319). -/
def Die.freeTag (d : Die) : Nat :=
  (((List.range (d.records.length + d.faults.length + 1)).map fun i => (d.nextTag + i) % 2 ^ 32).find? fun n =>
    (AMap.get? d.records n).isNone && (AMap.get? d.faults n).isNone).getD d.nextTag

namespace State

/-- A 64-bit word written at its home by a die. -/
abbrev putWord (s : State) (d pa : Nat) (v : Word) : State := (s.homeWrite d pa (toBytes 8 v.toNat)).1

/-- Slots 1 to 7 of a record and then slot 0, each as a store at the home (R325, R326). -/
def putRecord (s : State) (d pa : Nat) (slots : List Word) : State :=
  let s1 := (List.range 7).foldl (fun s i => s.putWord d (pa + 8 * (i + 1)) (slots.getD (i + 1) 0)) s
  s1.putWord d pa (slots.getD 0 0)

/-- Whether a ring whose header is at a physical address has room (R325). -/
def ringRoom (s : State) (ring : Nat) : Bool :=
  let widx := s.homeNat ring 8
  let ridx := s.homeNat (ring + 8) 8
  decide ((widx + 2 ^ 64 - ridx) % 2 ^ 64 < 2 ^ s.homeNat (ring + 16) 1)

/-- Post a record into a ring that has room, whose records' home addresses `at` gives (R325). -/
def postAt (s : State) (d ring : Nat) (recAt : Nat → Nat) (slots : List Word) : State :=
  let widx := s.homeNat ring 8
  let i := widx % 2 ^ s.homeNat (ring + 16) 1
  (s.putWord d ring (w64 (widx + 1))).putRecord d (recAt i) slots

/-- Post to a context fault ring, by its physical base; a full ring's report is held, and beyond 64 asynchronous reports of the die the
ring's lost count rises (R325). -/
def postContext (s : State) (d ring : Nat) (slots : List Word) : State :=
  if s.ringRoom ring then s.postAt d ring (fun i => ring + 64 + 64 * i) slots
  else
    let asyncs := (s.die d).heldReports.filter fun r => bits (vget r.2 0) 56 8 == 3
    if bits (slots.getD 0 0) 56 8 = 3 ∧ 64 ≤ asyncs.length then s.putWord d (ring + 24) (w64 (s.homeNat (ring + 24) 8 + 1))
    else s.modDie d fun x => { x with heldReports := x.heldReports ++ [(ring, Vector.ofFn fun (i : Fin 8) => slots.getD i.val 0)] }

/-- The agent that acts in a grid's address space on a die, at the grid's level; also for a grid that has ended and that a tile still names (R139). -/
def gridAgent (s : State) (g d : Nat) : Agent :=
  match s.gridInfo? g with
  | some x => { th := 0, grid := g, team := 0, tid := 0, die := d, core := 0, asid := x.asid, root := x.root, super := x.super, unit := true }
  | none => { th := 0, grid := g, team := 0, tid := 0, die := d, core := 0, asid := 0, root := 0, super := false, unit := true }

/-- The physical address of a team or grid record that is usable and empty (R324). -/
def recordSpot (s : State) (a : Agent) (va : Word) : Option Nat :=
  if va = 0 then none
  else
    match tryA (translate a va .rw) s with
    | some ((pa, _), _) => if s.homeNat pa 8 = 0 then some pa else none
    | none => none

/-- The queue of a descriptor is mapped to some slot (R366). -/
def queueMapped (s : State) (desc : Nat) : Bool :=
  s.dies.any fun d => d.2.qslots.any fun q => q.2.desc == desc && (q.2.state == .mapped || q.2.state == .unmapping)

/-- The queue fault ring of a grid, if it is live: header address and record addresses (R324). -/
def queueRing (s : State) (a : Agent) (desc : Nat) (qring : Word) : Option (Nat × (Nat → Option Nat)) :=
  if qring = 0 || !s.queueMapped desc then none
  else
    match tryA (translate a qring .rw) s with
    | some ((pa, _), _) =>
      if s.ringRoom pa then
        some (pa, fun i => (tryA (translate a (qring + w64 (64 + 64 * i)) .rw) s).map fun r => r.1.1)
      else none
    | none => none

/-- A saved cohort of the grid holds the record of a thread for which f holds (R331). -/
def savedThread (s : State) (g : Nat) (f : Nat → Bool) : Bool := s.cohorts.any fun c => c.2.grid == g && c.2.recs.any fun r => f r.1

/-- Whether a thread of a grid has ended: it is neither resident nor saved. -/
def threadEnded (s : State) (u : Nat) : Bool := (s.th? u).isNone && !s.savedThread (u / 2048 / 2 ^ 64) (· == u)

/-- Whether every thread of a team has ended (R237). -/
def teamEnded (s : State) (g t : Nat) : Bool := (s.team? (teamKey g t)).isNone && !s.savedThread g fun u => u / 2048 == teamKey g t

/-- A team or grid record found empty is claimed: its slot 0 takes type 0xFF, and its slots are written by the die's next turn (R326). -/
def claimRecord (s : State) (d pa : Nat) (slots : List Word) : State :=
  (s.putWord d pa (w64 (255 * 2 ^ 56))).first [⟨0, .record d pa slots⟩]

/-- The first live record of the chain takes an asynchronous report (R324): team record, grid record, queue fault ring, context fault ring. -/
def postChain (s : State) (d g t : Nat) (slots : List Word) : State :=
  match s.gridInfo? g with
  | none => s
  | some x =>
    let a := s.gridAgent g d
    let teamSpot := if x.teamrec ≠ 0 ∧ !s.teamEnded g t then s.recordSpot a (x.teamrec + w64 (64 * t)) else none
    match teamSpot with
    | some pa => s.claimRecord d pa slots
    | none =>
      match s.recordSpot a x.gridrec with
      | some pa => s.claimRecord d pa slots
      | none =>
        match s.queueRing a x.desc (w64 x.qring) with
        | some (pa, recAt) =>
          let i := s.homeNat pa 8 % 2 ^ s.homeNat (pa + 16) 1
          match recAt i with
          | some pr => s.postAt d pa (fun _ => pr) slots
          | none => s.postContext d x.cring slots
        | none => s.postContext d x.cring slots

/-- The slots of a record of types 0x02 to 0x04 (R323). -/
def recordSlots (type cause : Nat) (asid : BitVec 16) (tag : Nat) (addr info pc : Word) (flags tid core die : Nat)
    (team cword : Word) (time : Nat) : List Word :=
  [w64 (type * 2 ^ 56 + cause * 2 ^ 48 + asid.toNat * 2 ^ 32 + tag), addr, info, pc,
   w64 (flags * 2 ^ 24 + tid * 2 ^ 13 + core * 2 ^ 6 + die), team, cword, w64 time]

/-- An asynchronous-fault record on the chain of a team (R323, R324). -/
def report (s : State) (d g t tid unit cause : Nat) (addr info pc : Word) : State :=
  match s.gridInfo? g with
  | none => s
  | some x =>
    s.postChain d g t
      (recordSlots 3 cause x.asid 0 addr info pc (s.threadEnded (thKey g t tid)).toNat tid unit d (w64 t) x.cword (s.now d))

/-- The fault region of a walk that failed at a level (R163). -/
abbrev faultRegion (va : Word) (level : Nat) : Nat := (va.toNat % 2 ^ 57) >>> levelShift level

/-- The replayable record for a failed walk: the one already posted for the address space and region, or a new one in the context fault ring
(R163, R164). The result is its tag. -/
def postReplay (s : State) (a : Agent) (va : Word) (level access : Nat) (engine : Bool) (seq : BitVec 16) : State × Nat :=
  let d := s.die a.die
  match d.records.find? fun r => r.2.asid == a.asid && r.2.level == level && r.2.region == faultRegion va level with
  | some (tag, _) => (s, tag)
  | none =>
    let tag := d.freeTag
    let unit := if engine then a.core / 4 else a.core
    let s1 := s.modDie a.die fun x =>
      { x with nextTag := (tag + 1) % 2 ^ 32, records := AMap.put x.records tag ⟨a.asid, level, faultRegion va level, access, va, []⟩ }
    let ring := ((s.gridInfo? a.grid).map (·.cring)).getD 0
    (s1.postContext a.die ring
      [w64 (2 ^ 56 + access * 2 ^ 52 + level * 2 ^ 48 + a.asid.toNat * 2 ^ 32 + tag), va,
       w64 ((if engine then seq.toNat * 2 ^ 16 + 2 ^ 13 else 0) + unit * 2 ^ 6 + a.die), w64 (s.now a.die)], tag)

end State

end Sys2Proof.Machine
end

