-- ==== Sys2Proof/Machine/Windows.lean ====
section
/-! DEFINITION. Stash windows (R161, R168 to R177, R203, R204): descriptors, spans, fills, stash accesses, write-back, swaps. -/
namespace Sys2Proof.Machine

/-! ### The cluster buffer -/

namespace State

/-- The visibility time of a write raises the write horizon of the thread that made it; where that thread has ended, its grid keeps the time (R195, R237). -/
def raiseHor (s : State) (d u vis : Nat) : State :=
  match s.th? u with
  | some t => s.setTh u { t with hor := max t.hor vis }
  | none => s.noteVis (u / 2048 / 2 ^ 64) d vis

/-- The visibility time of a cluster buffer's line raises the write horizon of every thread of the cluster whose marks cover its sequence: those that stored into it,
and those that read it (R195, R199; notes/assumptions/22.md). -/
def raiseMarked (s : State) (ck seq vis : Nat) : State :=
  { s with threads := s.threads.map fun p =>
      if clusterKey p.2.die p.2.cluster = ck ∧ seq ≤ max p.2.mark p.2.own ∧ p.2.hor < vis then (p.1, { p.2 with hor := vis }) else p }

/-- Write one dirty line of a cluster buffer back to its home (R179, R196): the largest visibility time, which raises the horizon of every thread with a
store in the line, or that has read it (R195, R199). Bytes that reach an ACC line are discarded, and reported for the store that last merged (R137, R323). -/
def flushLine (s : State) (ck line : Nat) : State × Nat :=
  let c := s.cluster ck
  match AMap.get? c.buf line with
  | none => (s, 0)
  | some x =>
    let d := ck / 32
    let s1 := s.setCluster ck { c with buf := AMap.del c.buf line }
    if s1.isAcc line then
      let o := (x.bytes.headD (0, 0)).1
      (s1.report d (x.th / 2048 / 2 ^ 64) (x.th / 2048 % 2 ^ 64) (x.th % 2048) x.core cPROTECTION (x.va + w64 o) 1 0, 0)
    else
      let r := (byteRuns x.bytes).foldl (fun (acc : State × Nat) p =>
        let (s', v) := acc.1.homeWrite1 d (64 * line + p.1) p.2
        (s', max acc.2 v)) (s1, 0)
      let s2 := r.1.modCluster ck fun c => { c with horizon := max c.horizon r.2 }
      let s3 := if x.bad = [] then s2 else { s2 with bad := s2.bad ++ x.bad.filter fun g => !s2.bad.contains g }
      ((x.who.foldl (fun s u => s.raiseHor d u r.2) s3).raiseMarked ck x.seq r.2, r.2)

/-- Write back a list of lines of a cluster buffer. -/
def flushLines (s : State) (ck : Nat) (lines : List Nat) : State × Nat :=
  lines.foldl (fun acc l =>
    let (s', v) := acc.1.flushLine ck l
    (s', max acc.2 v)) (s, 0)

/-- The dirty line with the lowest sequence. -/
def oldestLine (b : AMap DirtyLine) : Option Nat :=
  (b.foldl (fun (m : Option (Nat × Nat)) p =>
    match m with
    | some (_, q) => if p.2.seq < q then some (p.1, p.2.seq) else m
    | none => some (p.1, p.2.seq)) none).map (·.1)

/-- The lines that a full buffer evicts before a new line turns dirty (R178: 512 lines). -/
def evictFor (s : State) (ck line : Nat) : State :=
  let b := (s.cluster ck).buf
  if (AMap.get? b line).isSome ∨ b.length < 512 then s
  else
    match oldestLine b with
    | some l => (s.flushLine ck l).1
    | none => s

/-- The cluster's buffered bytes of the given words go to their homes first (R188). -/
def flushWords (s : State) (die core : Nat) (pas : List (Option Nat)) : State :=
  let ck := clusterKey die (core / 4)
  let ls := ((s.cluster ck).buf.filter fun p =>
    pas.any fun w => match w with
      | some pa => pa / 64 == p.1 && p.2.bytes.any fun b => decide (pa % 64 ≤ b.1) && decide (b.1 < pa % 64 + 4)
      | none => false).map (·.1)
  if ls = [] then s else (s.flushLines ck ls).1

end State

/-! ### Windows -/

/-- Bytes of L1 and of the stash under a carve-out code (R22). -/
abbrev l1Bytes (carve : BitVec 2) : Nat := 32768 <<< carve.toNat
abbrev stashBytes (carve : BitVec 2) : Nat := 524288 - l1Bytes carve

namespace Window

/-- The agent that acts for a window. -/
abbrev agent (w : Window) (die core : Nat) : Agent :=
  { th := thKey w.grid w.team 0, grid := w.grid, team := w.team, tid := 0, die := die, core := core, asid := w.asid, root := w.root,
    super := w.super }
end Window

namespace State

/-- The window of an address space whose front bank holds n bytes at a stash offset (R170). One whose life is to end serves only the accesses that were
issued before, which wait on it (R176). -/
def windowAt (s : State) (k : Nat) (asid : BitVec 16) (off n : Nat) (waits : Bool) : Option Window :=
  (s.core k).windows.find? fun w => w.asid == asid && decide (w.soff ≤ off) && decide (off + n ≤ w.soff + w.bank) && (!w.ending || waits)

/-- Change a window of a core, named by its address space and id. -/
def modWindow (s : State) (k : Nat) (asid : BitVec 16) (id : Nat) (f : Window → Window) : State :=
  s.modCore k fun c => { c with windows := c.windows.map fun w => if w.asid == asid && w.id == id then f w else w }

/-- A stash line's presence on a core now: a read-only line's ends with its lease (R171, R192). -/
def linePresent (s : State) (k line : Nat) : Bool :=
  let x := s.stashLine k line
  x.present && (match x.expiry with | some e => decide (s.now (k / 128) < e) | none => true)

/-- A stash line serves a thread's access: it is present, or the thread had parked on a fill of it that took some word by a probe (R171). -/
def lineServes (s : State) (k line th : Nat) : Bool := s.linePresent k line || (s.stashLine k line).serve.contains th

/-- A home expiry as a remote copy keeps it (R192): plain offsets, less 4 ticks and the pair's worst latency. -/
def copyExpiry (s : State) (e l d : Nat) : Nat :=
  let h := homeDie (64 * l)
  if h = d then e
  else
    let lat := ((AMap.get? s.pairs (64 * h + d)).map (·.2.2)).getD 0
    (e - (s.die h).off + (s.die d).off - 4 - lat).toNat

/-- Grant a lease over words lo to hi of a line to a copy on die d: the copy's expiry in ticks of d (R191, R192). -/
def grant (s : State) (d l lo hi : Nat) : State × Nat :=
  let h := homeDie (64 * l)
  let (e, rs) := grantLease (s.liveLeases l) (s.now h) lo hi
  (s.setDir l { s.dirLine l with leases := rs }, s.copyExpiry e l d)

/-- Claim one word for a stash line (R172, R180): another owner's line is recalled; a fifth record recalls the oldest of another line. -/
def claimWord (s : State) (die core line pa : Nat) : State :=
  let l := pa / 64
  let i := pa % 64 / 4
  let mine (o : Owner) : Bool := o.die == die && o.core == core && o.line == line
  let s1 :=
    match s.ownerOf l i with
    | some o => if mine o then s else s.recallLine o.die o.core o.line
    | none => s
  let os := (s1.dirLine l).owners
  if os.any mine then
    s1.setDir l { s1.dirLine l with owners := os.map fun o => if mine o then { o with mask := o.mask ||| (1#16 <<< i) } else o }
  else
    let s2 :=
      if os.length < 4 then s1
      else
        match os with
        | o :: _ => s1.recallLine o.die o.core o.line
        | [] => s1
    let x := s2.dirLine l
    s2.setDir l { x with owners := x.owners ++ [⟨1#16 <<< i, die, core, line⟩] }

/-- The claim time of words taken by a window (R203): the largest live expiry over them, in ticks of die d. -/
def claimTime (s : State) (d : Nat) (pas : List Nat) : Nat :=
  maxOf (pas.map fun pa =>
    let e := s.spanExpiry (pa / 64) (pa % 64 / 4) (pa % 64 / 4)
    if e = 0 then 0 else s.conv e (homeDie pa) d)

/-- The runs of words over which a read-only fill takes its leases, as line, first and last word (R171, R180, R191): one over the words of a home line that
the fill holds, cut only where a window owns a word between, for a probe grants none (notes/assumptions/22.md). -/
def leaseRuns (s : State) : List Nat → List (Nat × Nat × Nat)
  | [] => []
  | pa :: rest =>
    let l := pa / 64
    let w := pa % 64 / 4
    if (s.ownerOf l w).isSome then leaseRuns s rest
    else
      match leaseRuns s rest with
      | (l', lo, hi) :: more =>
        if l' = l ∧ w ≤ lo ∧ ((List.range (lo - w)).all fun i => (s.ownerOf l (w + i)).isNone) then (l, w, hi) :: more else (l, w, w) :: (l', lo, hi) :: more
      | [] => [(l, w, w)]

/-- The words of a fill arrive (R171, R172, R203): ownership is claimed, or a read lease taken, and presence is set. Where some word of a read-only line came by
a probe, the line serves the accesses that are parked on it, and no later one. An asynchronous copy into the line keeps it absent. None while some line
is in the ACC state. -/
def completeFill (s : State) (die core line : Nat) (ro : Bool) : Option State :=
  let k := coreKey die core
  let s := s.flushWords die core (s.stashLine k line).pas
  let x := s.stashLine k line
  let pas := x.pas.filterMap fun p => p
  if pas.any fun pa => s.isAcc (pa / 64) then none
  else
    let probed := ro && pas.any fun pa => (s.ownerOf (pa / 64) (pa % 64 / 4)).isSome
    let s1 := if ro then s else pas.foldl (fun s pa => s.claimWord die core line pa) s
    let words := (List.range x.pas.length).filterMap fun i => (x.pas.getD i none).map fun pa => (32 * line + 4 * i, pa)
    let claim := if ro then maxOf (pas.map fun pa => s1.readStamp die pa 4) else s1.claimTime die pas
    let r := if ro then
        (s.leaseRuns pas).foldl (fun (acc : State × Option Nat) q =>
          let (s', e) := acc.1.grant die q.1 q.2.1 q.2.2
          (s', some (min e (acc.2.getD e)))) (s1, none)
      else (s1, none)
    let sick := (words.filter fun w => if ro then s1.anyBad w.2 4 else s1.bad.contains (w.2 / 8)).map (·.1 / 8)
    -- a claim has recalled what others owned, so the home is current; a read-only line probes
    let byte (pa : Nat) : BitVec 8 := if ro then s1.probeByte pa else s1.homeByte pa
    let s2 := r.1.modCore k fun c =>
      { c with stash := words.foldl (fun m w => writeCells m w.1 ((List.range 4).map fun j => byte (w.2 + j))) c.stash,
               bad := (c.bad.filter fun g => g / 4 ≠ line) ++ sick.eraseDups }
    let here := if probed then (s.threads.filter fun p => coreKey p.2.die p.2.core == k && (p.2.status == .parked (.stashLine line) || p.2.lineWait.contains line)).map (·.1) else []
    some (s2.setLine k line { x with present := !probed && x.copying.isNone, written := 0, grids := [], claim := claim, expiry := r.2, filling := none, serve := here })

end State

/-- Begin the fill of a stash line (R171): every word is translated with the permissions that the window needs. The first fault is its starter's alone, and every
other access to the line waits for it. -/
def startFill (g : Agent) (w : Window) (line : Nat) : A Unit := do
  let k := coreKey g.die g.core
  modA fun s => s.setLine k line { s.stashLine k line with pas := [], sizes := [], present := false, written := 0, grids := [], serve := [], filling := some g.th }
  let pas ← (w.lineVas line).mapM fun va? => do
    match va? with
    | none => pure (none, 0)
    | some va => do
      let s ← get
      match translateSized g va (if w.ro then .r else .rw) s with
      | .ok ((pa, _, size), s') =>
        set s'
        match (if w.ro then s'.badGranule? pa 4 else s'.badRecalled? pa) with
        | some b => failA (.loss va (some b))
        | none => pure (some pa, size)
      | .error (.replay l v _, s') => fun _ => .error (.replay l v (some line), s')
      | .error e => fun _ => .error e
  modA fun s => s.setLine k line { s.stashLine k line with pas := pas.map (·.1), sizes := pas.map (·.2) }

/-- Words of a stash line are written by a grid. -/
def StashLine.mark (x : StashLine) (grid : Nat) (m : BitVec 8) : StashLine :=
  { x with written := x.written ||| m, grids := AMap.put x.grids grid ((AMap.get? x.grids grid).getD 0 ||| m) }

/-- The stash lines that n bytes at an offset touch. -/
abbrev touchedLines (off n : Nat) : List Nat := (List.range ((off + n - 1) / 32 - off / 32 + 1)).map (off / 32 + ·)

/-- A window is touched (R176): by an access of a thread or of an operation of the copy unit, also by one that then waits. -/
def State.touch (s : State) (k : Nat) (g : Agent) (w : Window) : State :=
  s.modWindow k g.asid w.id fun w =>
    { w with touched := s.time + 1, teams := if w.teams.contains (g.grid, g.team) then w.teams else w.teams ++ [(g.grid, g.team)] }

/-- An access of a thread waits on some stash line, so that it was issued before a window's end (R176). -/
def State.waitsOn (s : State) (g : Agent) : Bool := g.op.isSome || (((s.th? g.th).map (·.lineWait)).getD []) != []

/-- A stash-offset access (R170, R171): its window, with every line it touches present; an absent line's fill is started, and the access parks. -/
def stashReady (g : Agent) (off n : Nat) (store : Bool) : A Window := do
  let s ← get
  let k := coreKey g.die g.core
  match s.windowAt k g.asid off n (s.waitsOn g) with
  | none => failA (.prot (w64 off) false)
  | some w =>
    if store && w.ro then failA (.prot (w64 off) false)
    modA fun s => (touchedLines off n).foldl (fun s l => s.flushWords g.die g.core (s.stashLine k l).pas) (s.touch k g w)
    let s ← get
    match (touchedLines off n).find? fun l => !s.lineServes k l g.th with
    | none => return w
    | some line =>
      match (s.stashLine k line).copying with
      | some op => failA (.conflict op)
      | none =>
        let x := s.stashLine k line
        if x.filling.isNone || (x.filling == some g.th && x.pas == []) then startFill g w line
        failA (.stash line)

/-- The other copies that the core and its die hold of the global words at a stash offset follow the bytes that a load returns from it (R188). -/
def State.refreshWords (s : State) (die core off : Nat) (bs : List (BitVec 8)) : State :=
  (List.range ((off + bs.length - 1) / 4 - off / 4 + 1)).foldl (fun s i =>
    let a := 4 * (off / 4 + i)
    let x := s.stashLine (coreKey die core) (a / 32)
    match x.pas.getD (a % 32 / 4) none with
    | some pa =>
      let lo := max off a
      s.refresh die core (pa + (lo - a)) ((bs.drop (lo - off)).take (a + 4 - lo)) x.claim
    | none => s) s

/-- Bytes of a stash-offset load, with the claim time of its lines as the stamp (R203). -/
def stashLoad (g : Agent) (off n : Nat) : A (List (BitVec 8) × Nat) := do
  let _ ← stashReady g off n false
  let s ← get
  let k := coreKey g.die g.core
  if (s.badStash? k off n).isSome then failA (.loss (w64 off) (s.badStash? k off n))
  let bs := readCells (s.core k).stash off n
  modA fun s => (s.scrubStash k off n).refreshWords g.die g.core off bs
  return (bs, maxOf ((touchedLines off n).map fun l => (s.stashLine k l).claim))

namespace State

/-- Words written in a stash line by bytes of a grid at an offset. -/
def markStash (s : State) (k grid off n : Nat) : State :=
  (touchedLines off n).foldl (fun s line =>
    s.setLine k line ((s.stashLine k line).mark grid ((List.range 8).foldl (fun m i =>
      if overlaps (32 * line + 4 * i) 4 off n then m ||| (1#8 <<< i) else m) 0))) s

/-- Bytes into a stash, with no other effect. -/
abbrev stashPut (s : State) (k off : Nat) (bs : List (BitVec 8)) : State :=
  s.modCore k fun c => { c with stash := writeCells c.stash off bs,
                                bad := c.bad.filter fun q => !(decide (off ≤ 8 * q) && decide (8 * q + 8 ≤ off + bs.length)) }

end State

/-- The copies that the cluster and the die hold of the words that a stash store changes follow it (R188, R192, R202): the L1 copies of the cluster's cores go, as for a
store into their buffer, and a remote-data-cache copy and the core's own read-only window lines are updated (notes/assumptions/22.md). -/
def State.stashOwn (s : State) (die core off : Nat) (bs : List (BitVec 8)) : State :=
  let k := coreKey die core
  (List.range bs.length).foldl (fun s i =>
    match (s.stashLine k ((off + i) / 32)).pas.getD ((off + i) % 32 / 4) none with
    | some pa =>
      let a := pa + (off + i) % 4
      ((List.range 4).foldl (fun s j => s.modCore (coreKey die (core / 4 * 4 + j)) fun c => { c with l1 := AMap.del c.l1 (a / 64) }) s).rdcUpdate die a [bs.getD i 0] |>.patchWindows k a [bs.getD i 0] 0
    | none => s) s

/-- A stash-offset store: its visibility time is the later of now and the claim time (R203). -/
def stashStore (g : Agent) (off : Nat) (bs : List (BitVec 8)) : A Nat := do
  let _ ← stashReady g off bs.length true
  let s ← get
  let k := coreKey g.die g.core
  match (s.core k).bad.find? fun q => State.overlaps (8 * q) 8 off bs.length && !(decide (off ≤ 8 * q) && decide (8 * q + 8 ≤ off + bs.length)) with
  | some q => failA (.loss (w64 off) (some (g.die, q)))
  | none => pure ()
  let vis := max (s.now g.die) (maxOf ((touchedLines off bs.length).map fun l => (s.stashLine k l).claim))
  modA fun s => (((s.stashPut k off bs).markStash k g.grid off bs.length).stashOwn g.die g.core off bs).modCluster (clusterKey g.die (g.core / 4)) fun c =>
    { c with horizon := max c.horizon vis }
  return vis

namespace State

/-- Write back a window's written words (R173); a scratch window has no home (R175). -/
def flushWindow (s : State) (die core : Nat) (w : Window) : State × Nat :=
  if w.scratch then (s, 0)
  else w.frontLines.foldl (fun acc line =>
    let (s', v) := acc.1.writeBackLine die core line
    (s', max acc.2 v)) (s, 0)

/-- What a grid's release writes back of a window (R201, R203, R237): every written word where a team of the grid mapped it, otherwise the words that the
grid wrote. -/
def flushGrid (s : State) (die core grid : Nat) (w : Window) : State × Nat :=
  if w.scratch then (s, 0)
  else if w.grid = grid then s.flushWindow die core w
  else w.frontLines.foldl (fun acc line =>
    let (s', v) := acc.1.writeBackWords die core line ((AMap.get? (acc.1.stashLine (coreKey die core) line).grids grid).getD 0)
    (s', max acc.2 v)) (s, 0)

/-- Release a window's ownership and presence without writing back (R173, R224). -/
def dropLines (s : State) (die core : Nat) (w : Window) : State :=
  let k := coreKey die core
  w.frontLines.foldl (fun s line =>
    let x := s.stashLine k line
    (s.releaseOwner die core line x.pas).setLine k line 
      { x with present := false, written := 0, grids := [], pas := [], sizes := [], claim := 0, expiry := none, filling := none, serve := [] }) s

/-- The shadow bank's byte mask is cleared. -/
def clearShadow (s : State) (k : Nat) (w : Window) : State :=
  w.shadowLines.foldl (fun s line => s.setLine k line { s.stashLine k line with shadow := 0, who := [] }) s

/-- The end of a window's life (R176): written back, released, and its entry freed. -/
def unmapWindow (s : State) (die core : Nat) (w : Window) : State × Nat :=
  let k := coreKey die core
  let (s1, v) := s.flushWindow die core w
  let s2 := (s1.dropLines die core w).clearShadow k w
  (s2.modCore k fun c => { c with windows := c.windows.filter fun x => !(x.asid == w.asid && x.id == w.id) }, v)

/-- An absent line of a shutter window takes its words at the swap (R174): their ownership, with its claim time (R203), and nothing is read. A word of a line in the
ACC state is not claimed, and stands in the stash alone; one that does not translate, or lacks a permission, is present in the stash too, with no owner record and
nothing to write back (notes/assumptions/22.md). -/
def takeLine (s : State) (die core : Nat) (w : Window) (line : Nat) : State :=
  let k := coreKey die core
  if (s.stashLine k line).present then s
  else
    let words := (w.lineVas line).map fun va? => va?.bind fun va => (tryA (translateSized (w.agent die core) va .rw) s).map fun r => (r.1.1, r.1.2.2)
    let pas := words.map (·.map (·.1))
    let mine := (pas.filterMap id).filter fun pa => !s.isAcc (pa / 64)
    let s1 := mine.foldl (fun s pa => s.claimWord die core line pa) (s.flushWords die core (mine.map some))
    s1.setLine k line { s1.stashLine k line with pas := pas, sizes := words.map fun p => (p.map (·.2)).getD 0, claim := s1.claimTime die mine }

/-- What the swap makes visible of a line of the new front bank (R188, R202, R204): the copies of its words follow, and the stores that peers made into it are visible from
now or from its claim time on, which raises the write horizon of their threads and the cluster's. -/
def showLine (s : State) (die core : Nat) (w : Window) (line : Nat) : State :=
  let k := coreKey die core
  let below := s.stashLine k (line + w.bank / 32)
  let vis := max (s.now die) (s.stashLine k line).claim
  let s1 := s.stashOwn die core (32 * line) (readCells (s.core k).stash (32 * line) 32)
  if below.who = [] then s1
  else (below.who.foldl (fun s u => s.raiseHor die u vis) s1).modCluster (clusterKey die (core / 4)) fun c => { c with horizon := max c.horizon vis }

/-- The swap of a shutter window's banks at its barrier (R174): bytes and their bad check bits exchange, every line of the new front bank is present and written,
and the byte mask is cleared. -/
def swapWindow (s : State) (die core : Nat) (w : Window) : State :=
  let k := coreKey die core
  let c := s.core k
  let front := readCells c.stash w.soff w.bank
  let shadow := readCells c.stash (w.soff + w.bank) w.bank
  let turn (g : Nat) : Nat :=
    if 8 * g < w.soff ∨ w.soff + 2 * w.bank ≤ 8 * g then g
    else if 8 * g < w.soff + w.bank then g + w.bank / 8 else g - w.bank / 8
  let s1 := s.modCore k fun c =>
    { c with stash := writeCells (writeCells c.stash w.soff shadow) (w.soff + w.bank) front, bad := c.bad.map turn, soft := c.soft.map turn }
  let s2 := w.frontLines.foldl (fun s line =>
    let s' := s.takeLine die core w line
    let x := s'.stashLine k line
    let words := (List.range 8).foldl (fun m i => if (x.pas.getD i none).isSome then m ||| (1#8 <<< i) else m) 0#8
    let storers := (s'.stashLine k (line + w.bank / 32)).who
    s'.setLine k line { storers.foldl (fun x u => x.mark (u / 2048 / 2 ^ 64) words) x with present := true, filling := none, written := words }) s1
  (w.frontLines.foldl (fun s line => s.showLine die core w line) s2).clearShadow k w

end State

end Sys2Proof.Machine
end

