-- ==== Sys2Proof/Machine/Mem.lean ====
section
/-! DEFINITION. Accesses of cores to global memory through L1, the cluster buffer, the remote-data cache and the homes (R178, R179, R181,
R188, R192 to R196, R211, R212), the register space and system scope (R362 to R365), atomics and reductions at their perform points
(R205). -/
namespace Sys2Proof.Machine

/-! ### Stores into the cluster buffer -/

namespace State

/-- A copy of a line enters a core's L1; where it is full for its carve-out, some other copy leaves it (R22, R178). -/
def putL1 (s : State) (k l : Nat) (c : L1Copy) : State :=
  let x := s.core k
  if (AMap.get? x.l1 l).isSome ∨ x.l1.length < l1Bytes x.carve / 64 then s.setCore k { x with l1 := AMap.put x.l1 l c }
  else
    { s.setCore k { x with l1 := AMap.put (x.l1.eraseIdx (Config.victim s.freeCtr % x.l1.length)) l c } with freeCtr := s.freeCtr + 1 }

/-- A copy of a line enters a die's remote-data cache, for which another leaves it where it is full (R178, R181). -/
def putRdc (s : State) (d l : Nat) (c : RdcCopy) : State :=
  let x := s.die d
  if (AMap.get? x.rdc l).isSome ∨ x.rdc.length < x.rdcsize.toNat * 2 ^ 24 then s.setDie d { x with rdc := AMap.put x.rdc l c }
  else
    { s.setDie d { x with rdc := AMap.put (x.rdc.eraseIdx (Config.victim s.freeCtr % x.rdc.length)) l c } with freeCtr := s.freeCtr + 1 }

/-- Store bytes of one line into the cluster buffer (R179, R192, R195, R196): the line's sequence. The own core's valid L1 copy is updated, and so is a line of its
read-only windows (R188); the cluster's other cores drop their copies in L1. -/
def bufferStore (s : State) (th die core : Nat) (va : Word) (pa : Nat) (bs : List (BitVec 8)) : State × Nat :=
  let ck := clusterKey die (core / 4)
  let l := pa / 64
  let s := s.evictFor ck l
  let c := s.cluster ck
  let old : DirtyLine := (AMap.get? c.buf l).getD { seq := c.issued + 1, since := s.now die }
  let covered (g : Nat) : Bool := decide (pa ≤ 8 * g) && decide (8 * g + 8 ≤ pa + bs.length)
  let x : DirtyLine := { old with bytes := (List.range bs.length).foldl (fun m i => AMap.put m (pa % 64 + i) (bs.getD i 0)) old.bytes,
                                  va := va - w64 (va.toNat % 64), th := th, core := core,
                                  who := if old.who.contains th then old.who else old.who ++ [th],
                                  bad := old.bad.filter fun g => !covered g }
  let s1 := (s.setCluster ck { c with buf := AMap.put c.buf l x, issued := max c.issued x.seq }).patchWindows (coreKey die core) pa bs 0
  let s2 := (List.range 4).foldl (fun s i =>
    let k := coreKey die (core / 4 * 4 + i)
    match AMap.get? (s.core k).l1 l with
    | none => s
    | some cp =>
      s.modCore k fun c => { c with l1 := if core / 4 * 4 + i = core then
                                            AMap.put c.l1 l { cp with bytes := patch cp.bytes (pa % 64) bs, bad := cp.bad.filter fun g => !covered g }
                                          else AMap.del c.l1 l }) s1
  (s2, x.seq)

end State

/-! ### Loads -/

/-- How a load is made: the acquire scope (0 for a plain load), peek, L1 allocation by the reuse hint (R182), and whether the page is kept out of the
remote-data cache (R291). -/
structure LoadMode where
  scope : Nat := 0
  peek : Bool := false
  alloc : Bool := true
  nrd : Bool := false
  deriving DecidableEq, Repr, Inhabited

/-- What a load returns: bytes, stamp in local ticks, and cluster-buffer sequence (R195). -/
structure Loaded where
  bytes : List (BitVec 8)
  stamp : Nat
  seq : Nat
  deriving DecidableEq, Repr, Inhabited

namespace State

/-- A load of a core may be served by its die's remote-data cache, and its line may enter it (R181, R202, R291). -/
def rdcServes (s : State) (die l : Nat) (m : LoadMode) : Bool :=
  homeDie (64 * l) != die && !m.nrd && decide ((s.die die).rdcsize ≠ 0) && decide (m.scope < 5)

end State

/-- A line as a load of a core gets it from beyond its cluster: the bytes, the stamp, and, where the core's L1 may keep a copy, the copy's expiry (none: until a
generation bump). -/
structure Fetched where
  line : List (BitVec 8)
  stamp : Nat
  copy : Option (Option Nat)
  deriving DecidableEq, Repr, Inhabited

namespace State

/-- The home's answer to a load of n bytes (R179, R181, R191, R195, R203): a copy is handed out, with a lease or to the remote-data cache, unless some word of
the line is owned or the line is in the ACC state. -/
def fetchHome (s : State) (die pa n : Nat) (m : LoadMode) : State × Fetched :=
  let l := pa / 64
  let keep := !s.isAcc l && !s.anyOwned (64 * l) 64 && !s.anyBad (64 * l) 64
  let line := s.homeRead die (64 * l) 64
  if keep && s.rdcServes die l m then
    (s.putRdc die l ⟨line.1, (s.die die).gen, line.2⟩, ⟨line.1, line.2, some none⟩)
  else if keep && m.alloc && decide (m.scope < 3) then
    let (s', e) := s.grant die l 0 15
    (s', ⟨line.1, line.2, some (some e)⟩)
  else (s, ⟨line.1, if s.isAcc l then s.now die else (s.homeRead die pa n).2, none⟩)

end State

/-- Load n bytes within one line (R179, R188, R195): L1, then the cluster buffer, whose written bytes take precedence, then the remote-data cache, then the
home. The other copies of the core follow what is returned; the die's remote-data cache takes no byte from the cluster buffer before its write-back, for that is its
place in coherence order (notes/assumptions/22.md). A .peek load of a line in the ACC state takes the bytes as they stand at the home (R137). -/
def loadPiece (g : Agent) (va : Word) (pa n : Nat) (m : LoadMode) : A Loaded := do
  let s ← get
  let k := coreKey g.die g.core
  let l := pa / 64
  let peeks := m.peek && s.isAcc l
  let dirty := if peeks then none else s.dirtyLine? k l
  let written (i : Nat) : Option (BitVec 8) := dirty.bind fun x => AMap.get? x.bytes i
  let seq := if (List.range n).any fun j => (written (pa % 64 + j)).isSome then (dirty.map (·.seq)).getD 0 else 0
  let part (bs : List (BitVec 8)) : List (BitVec 8) := (bs.drop (pa % 64)).take n
  let sick (gs : List Nat) : Option (Nat × Nat) := (gs.find? fun q => State.overlaps (8 * q) 8 pa n).map fun q => (g.die, q)
  match (if m.scope < 3 ∧ !peeks then s.l1Copy k l else none) with
  | some c =>
    if (sick c.bad).isSome then failA (.loss va (sick c.bad))
    return ⟨part c.bytes, c.stamp, seq⟩
  | none =>
    let sickBuf := dirty.bind fun x => if seq = 0 then none else sick x.bad
    if sickBuf.isSome then failA (.loss va sickBuf)
    if (List.range n).all fun j => (written (pa % 64 + j)).isSome then do
      let bs := (List.range n).map fun j => (written (pa % 64 + j)).getD 0
      modA fun s => s.patchWindows k pa bs 0
      return ⟨bs, 0, seq⟩
    let merged (line : List (BitVec 8)) : List (BitVec 8) := (List.range 64).map fun i => (written i).getD (line.getD i 0)
    let keepL1 (s : State) (x : Fetched) : State :=
      match (if m.alloc ∧ m.scope < 3 then x.copy else none) with
      | some e => s.putL1 k l ⟨merged x.line, e, (s.die g.die).gen, x.stamp, []⟩
      | none => s
    match (if s.rdcServes g.die l m ∧ !peeks then s.rdcCopy g.die l else none) with
    | some c => do
      modA fun s => keepL1 (s.refresh g.die g.core pa (part (merged c.bytes)) c.stamp) ⟨c.bytes, c.stamp, some none⟩
      return ⟨part (merged c.bytes), c.stamp, seq⟩
    | none => do
      if s.isAcc l && !m.peek then failA (.acc l)
      if s.anyBad pa n then failA (.loss va (s.badGranule? pa n))
      let (s1, x) := (s.scrub pa n).fetchHome g.die pa n m
      set (keepL1 (s1.refresh g.die g.core pa (part (merged x.line)) x.stamp) x)
      return ⟨part (merged x.line), x.stamp, seq⟩

/-- Load pieces one after another. -/
def loadPieces (g : Agent) (va : Word) (m : LoadMode) : List (Nat × Nat) → A Loaded
  | [] => return ⟨[], 0, 0⟩
  | (pa, n) :: rest => do
    let x ← loadPiece g va pa n m
    let y ← loadPieces g (va + w64 n) m rest
    return ⟨x.bytes ++ y.bytes, max x.stamp y.stamp, max x.seq y.seq⟩

/-- Pieces of a translated span, cut at line ends. -/
def cutLines (ps : List (Nat × Nat)) : List (Nat × Nat) := ps.flatMap fun p => State.linePieces (p.2 / 64 + 2) p.1 p.2

/-! ### Footprints -/

/-- A declared footprint: stash or global space, first byte, one past the last, and whether it is written (R208). -/
structure Footprint where
  stash : Bool
  lo : Nat
  hi : Nat
  write : Bool
  deriving DecidableEq, Repr, Inhabited

namespace AsyncOp
abbrev slot (o : AsyncOp) (i : Nat) : Word := vget o.desc i
abbrev bit (o : AsyncOp) (i : Nat) : Bool := o.control.getLsbD i
/-- Element bytes, positions, table elements and index bytes of GATH and SCAT (R231). -/
abbrev esize (o : AsyncOp) : Nat := bits (o.slot 3) 32 8
abbrev count (o : AsyncOp) : Nat := bits (o.slot 3) 40 24
abbrev dim (o : AsyncOp) : Nat := bits (o.slot 3) 0 32
abbrev isize (o : AsyncOp) : Nat := if o.bit 9 then 8 else 4

/-- The footprints of an operation (R230, R231). -/
def footprints (o : AsyncOp) : List Footprint :=
  if o.kind = 1 then
    let rows := bits (o.slot 2) 48 16
    let len := bits (o.slot 2) 0 32
    [⟨o.bit 10, (o.slot 0).toNat, (o.slot 0).toNat + rows * bits (o.slot 3) 0 32 + len, false⟩,
     ⟨o.bit 8, (o.slot 1).toNat, (o.slot 1).toNat + rows * bits (o.slot 3) 32 32 + len, true⟩]
  else
    let idx : Footprint := ⟨o.bit 8, (o.slot 1).toNat, (o.slot 1).toNat + o.isize * o.count, false⟩
    let tab (w : Bool) : Footprint := ⟨false, (o.slot 0).toNat, (o.slot 0).toNat + o.dim * o.esize, w⟩
    let dat (w : Bool) : Footprint := ⟨o.bit 7, (o.slot 2).toNat, (o.slot 2).toNat + o.esize * o.count, w⟩
    if o.kind = 2 then [idx, tab false, dat true] else [idx, dat false, tab true]
end AsyncOp

namespace State

/-- The operation whose footprint an access of a core conflicts with (R208). -/
def conflictOp (s : State) (g : Agent) (stash : Bool) (lo n : Nat) (write : Bool) : Option Nat :=
  ((s.core (coreKey g.die g.core)).ops.find? fun o =>
    ((s.grid? o.grid).map (·.asid)) == some g.asid &&
      o.footprints.any fun f => f.stash == stash && decide (lo < f.hi) && decide (f.lo < lo + n) && (write || f.write)).map (·.key)

end State

/-- An operation of the copy unit that accesses a window's front bank (R176). -/
def State.windowOp (s : State) (k : Nat) (w : Window) : Option Nat :=
  ((s.core k).ops.find? fun o =>
    ((s.grid? o.grid).map (·.asid)) == some w.asid &&
      o.footprints.any fun f => f.stash && decide (w.soff < f.hi) && decide (f.lo < w.soff + w.bank)).map (·.key)

/-- Wait for an operation that this access conflicts with (R208). -/
def checkFootprint (g : Agent) (stash : Bool) (lo n : Nat) (write : Bool) : A Unit := do
  let s ← get
  match s.conflictOp g stash lo n write with
  | some op => failA (.conflict op)
  | none => return ()

/-! ### Register space and system scope -/

/-- Words of a die's register block (R365); write-only and unlisted offsets read as zero. -/
def State.dieRegister (s : State) (d off : Nat) : Word :=
  let x := s.die d
  if off = 0x0000 then w64 (d + bits x.modid 0 6 * 256)
  else if off = 0x0008 then x.serial
  else if off = 0x0020 then x.quantum
  else if off = 0x0030 then w64 (x.preemptDone * 2 + (if x.preemptBusy = [] then 0 else 1))
  else if off = 0x0038 then x.topova
  else if off = 0x0040 then x.rdcsize
  else if off = 0x0048 then x.powercap
  else if off = 0x0050 then w64 x.gen.toNat
  else if off = 0x0058 then w64 x.epoch.toNat
  else if off = 0x0060 then x.savepool
  else if off = 0x0068 then x.savepoolsz
  else if off = 0x0070 then x.modid
  else if off = 0x0078 then x.accarea
  else if off = 0x0088 then (if s.anchor = some d then w64 (x.mgmtDone * 2 ^ 16 + (if x.mgmtBusy.isSome then 2 ^ 8 else 0) + x.mgmtResult.toNat) else 6)
  else if 0x0100 ≤ off ∧ off < 0x0300 ∧ off % 8 = 0 then
    let q := (AMap.get? x.qslots ((off - 0x100) / 8)).getD {}
    let st := match q.state with | .free => 0 | .mapped => 1 | .unmapping => 2 | .refused => 3
    w64 (q.reg + 4 * st)
  else if 0x0400 ≤ off ∧ off < 0x0480 ∧ off % 8 = 0 then
    let g := (AMap.get? x.segs ((off - 0x400) / 8)).getD {}
    w64 (g.seg.toNat * 2 ^ 16 + g.root.toNat * 2 ^ 8 + g.member.toNat)
  else if 0x0480 ≤ off ∧ off < 0x0580 ∧ off % 8 = 0 then
    let l := (off - 0x480) / 16
    let base := if off % 16 = 0 then 0 else 64
    w64 ((List.range 64).foldl (fun m i =>
      if ((AMap.get? (s.core (coreKey d (base + i))).latch l).getD {}).excuse then m + 2 ^ i else m) 0)
  else 0

/-- Words of a port die's block (R365). -/
def State.siteRegister (s : State) (i off : Nat) : Word :=
  if off = 0 then w64 (s.site i).portst.toNat
  else if 8 ≤ off ∧ off < 40 ∧ off % 8 = 0 then (s.site i).portmods.getD (off / 8 - 1) 0
  else 0

namespace State

/-- The epoch of another die's map that a die last knew (R183); of its own, the present one. -/
def knownEpoch (s : State) (d h : Nat) : BitVec 16 := if d = h then (s.die d).epoch else (AMap.get? (s.die d).known h).getD 0

/-- Send a request that a thread waits for (R351, R361, R363, R364): its transaction number. It goes to an edge site, by the die that the site abuts, under the
epoch of that die's map that the sender last knew (R183). -/
def sendRequest (s : State) (g : Agent) (cls : BitVec 3) (op : BitVec 5) (scope pa site : Nat) (va : Word) (slots : List (BitVec 128)) :
    State × Nat :=
  let txn := s.fresh % 65536
  let m : Msg := { follow := BitVec.ofNat 3 slots.length, scope := BitVec.ofNat 3 scope, dst := BitVec.ofNat 6 (abutting site),
                   src := BitVec.ofNat 6 g.die, site := 0, epoch := s.knownEpoch g.die (abutting site), txn := BitVec.ofNat 16 txn, payload := w64 pa,
                   slots := slots }
  ({ s.toSite site (Packet.mk cls op m) with
            pending := AMap.put s.pending txn { th := g.th, pa := pa, since := s.now g.die, packet := Packet.mk cls op m, site := site, va := va, op := g.op },
            fresh := s.fresh + 1 }, txn)

/-- The nearest port die with a live port that reaches a module (R362): the least hops from die d, then the lower site, of those to which there is a route. -/
def portFor (s : State) (d module : Nat) : Option Nat :=
  let routed (i : Nat) : Bool := abutting i == d || (AMap.get? s.pairs (64 * d + abutting i)).isSome
  let ok := (List.range 16).map (2 * ·) |>.filter fun i =>
    let x := s.site i
    x.type = 1 && routed i && (List.range 4).any fun j => x.portst.getLsbD j && (x.portmods.getD j 0).getLsbD module
  let hops (i : Nat) : Nat := if abutting i = d then 0 else ((AMap.get? s.pairs (64 * d + abutting i)).map (·.1)).getD 0
  ok.foldl (fun m i => match m with | some j => if hops i < hops j then some i else m | none => some i) none

end State

/-- The data slots of a message: 16 bytes each (R351). -/
def dataSlots (bs : List (BitVec 8)) : List (BitVec 128) :=
  (List.range ((bs.length + 15) / 16)).map fun i => BitVec.ofNat 128 (ofBytes ((bs.drop (16 * i)).take 16))

/-- A request that writes its line: WR, WRM, RED or REDO. -/
abbrev writesLine (cls : BitVec 3) (op : BitVec 5) : Bool := cls == 4 || op == 3 || op == 4

/-- An access beyond the dies' memory: the request goes out once, and its answer completes the access (R361 to R363). ERR with PROTECTION for a write to another module
says that its home has discarded it (R137; notes/assumptions/16.md). -/
def remoteAccess (g : Agent) (va : Word) (scope pa site : Nat) (cls : BitVec 3) (op : BitVec 5) (slots : List (BitVec 128)) : A Answer := do
  let s ← get
  match (s.pending.find? fun p => p.2.th == g.th && p.2.op == g.op && p.2.pa == pa && p.2.packet.cls == cls && p.2.packet.op == op && p.2.reply.isSome).bind
      fun p => p.2.reply with
  | some a =>
    match a.err with
    | some c =>
      if c = cMCAST then failA (.mcast va)
      else if c = cDATALOSS then failA (.loss va none)
      else if c = cASYNC then do
        modA fun s => s.report g.die g.grid g.team g.tid g.core cASYNC va 5 0
        return { a with data := [] }
      else if writesLine cls op && (match regionOf pa with | .system .. => true | _ => false) then failA (.refused va)
      else failA (.prot va false)
    | none => return a
  | none => do
    let (s', txn) := s.sendRequest g cls op scope pa site va slots
    set s'
    failA (.answer txn)

/-- The port die for a module of a system-scope access, or MCAST (R363). -/
def systemPort (g : Agent) (va : Word) (module : Nat) : A Nat := do
  let s ← get
  match s.moduleId, s.portFor g.die module with
  | some _, some i => return i
  | _, _ => failA (.mcast va)

/-! ### The pieces of an access, whatever regions they lie in (R211, R212, R362, R364) -/

/-- One page's piece of an access: its offset in the access, its physical address and length, and its leaf entry. -/
structure Piece where
  off : Nat
  pa : Nat
  len : Nat
  pte : Word := 0
  deriving DecidableEq, Repr, Inhabited

/-- The pieces of translated pages. -/
def piecesOf (ps : List (Nat × Nat)) (ptes : List Word) : List Piece :=
  (List.range ps.length).map fun i =>
    { off := ((ps.take i).map (·.2)).sum, pa := (ps.getD i (0, 0)).1, len := (ps.getD i (0, 0)).2, pte := ptes.getD i 0 }

/-- The piece stands in the register space. -/
def Piece.reg (p : Piece) : Bool := match regionOf p.pa with | .dieReg .. => true | .siteReg .. => true | _ => false

/-- The piece stands in another module, by its id. -/
def Piece.module? (p : Piece) : Option Nat := match regionOf p.pa with | .system md _ => some md | _ => none

/-- The pieces of an access after the checks that come before any byte is touched (R212): the register space takes one aligned 8-byte access of a supervisor, and
nothing that crosses into it (R364). -/
def checkPieces (g : Agent) (va : Word) (ps : List Piece) : A (List Piece) :=
  match ps.find? fun p => p.reg && (decide (ps.length ≠ 1) || decide (p.len ≠ 8) || decide (p.pa % 8 ≠ 0) || !g.super) with
  | some p => failA (.prot (va + w64 p.off) false)
  | none => return ps

/-- The line pieces of a page's piece, with their offsets in the access. -/
def Piece.lines (p : Piece) : List Piece :=
  (State.linePieces (p.len / 64 + 2) p.pa p.len).map fun q => { p with off := p.off + (q.1 - p.pa), pa := q.1, len := q.2 }

/-- A load of a piece in another module (R361 to R363), with its offset. -/
def loadFar (g : Agent) (va : Word) (m : LoadMode) (md : Nat) (p : Piece) : A (Nat × Loaded) := do
  let i ← systemPort g va md
  let xs ← p.lines.mapM fun q => do
    let a ← remoteAccess g (va + w64 q.off) m.scope q.pa i 0 1 []
    return ((a.data.drop (q.pa % 64)).take q.len, a.stamp)
  return (p.off, ⟨xs.flatMap (·.1), maxOf (xs.map (·.2)), 0⟩)

/-- A load of a piece in this module's memory. -/
def loadNear (g : Agent) (va : Word) (m : LoadMode) (p : Piece) : A (Nat × Loaded) := do
  let x ← loadPieces g (va + w64 p.off) { m with nrd := m.nrd || bitAt p.pte 52 } (cutLines [(p.pa, p.len)])
  return (p.off, x)

/-- A load of a register (R365). -/
def loadReg (g : Agent) (va : Word) (p : Piece) : A Loaded := do
  let s ← get
  match regionOf p.pa with
  | .dieReg d off => if !s.alive d then failA (.loss va none) else return ⟨toBytes 8 (s.dieRegister d off).toNat, 0, 0⟩
  | .siteReg i off =>
    if i % 2 = 0 then return ⟨toBytes 8 (s.siteRegister i off).toNat, 0, 0⟩
    else do
      let a ← remoteAccess g va 0 p.pa i 0 1 []
      return ⟨(a.data.drop (p.pa % 64)).take 8, 0, 0⟩
  | _ => return ⟨[], 0, 0⟩

/-- A load of n bytes of global space at physical pieces, whatever region they lie in: what another module holds comes first, so that the rest is read
in one step with the completion. -/
def loadPhys (g : Agent) (va : Word) (m : LoadMode) (ps : List Piece) : A Loaded := do
  let qs ← checkPieces g va ps
  match qs.find? (·.reg) with
  | some p => loadReg g va p
  | none => do
    let far ← (qs.filterMap fun p => p.module?.map fun md => (md, p)).mapM fun x => loadFar g va m x.1 x.2
    let near ← (qs.filter fun p => p.module?.isNone).mapM fun p => loadNear g va m p
    let xs := far ++ near
    return ⟨qs.flatMap fun p => ((xs.find? fun x => x.1 == p.off).map (·.2.bytes)).getD [], maxOf (xs.map (·.2.stamp)), maxOf (xs.map (·.2.seq))⟩

/-- A load of n bytes of global space. -/
def loadGlobal (g : Agent) (va : Word) (n : Nat) (m : LoadMode) : A Loaded := do
  let (ps, ptes) ← translateSpan g va n .r
  checkFootprint g false va.toNat n false
  loadPhys g va m (piecesOf ps ptes)

/-! ### Stores -/

namespace State

/-- The shutter window of a peer core of the same cluster that owns the word at a physical address (R174): its core, and the byte's place in the shadow bank. -/
def shadowSpot (s : State) (die core pa : Nat) : Option (Nat × Nat) :=
  match s.ownerOf (pa / 64) (pa % 64 / 4) with
  | none => none
  | some o =>
    if o.die ≠ die ∨ o.core / 4 ≠ core / 4 ∨ o.core = core then none
    else
      let k := coreKey o.die o.core
      let off := 32 * o.line + 4 * wordIndex (s.stashLine k o.line).pas (pa / 4 * 4) + pa % 4
      match (s.core k).windows.find? fun w => w.shutter && decide (w.soff ≤ off) && decide (off < w.soff + w.bank) with
      | some w => some (k, off + w.bank)
      | none => none

end State

/-- A granule with bad check bits that a store covers in part, with its die: in the cluster buffer, in a peer's shadow bank, or at the home, as each byte's place is
(R174, R342). -/
def storeBad? (s : State) (g : Agent) (pa n : Nat) (spots : List (Option (Nat × Nat))) : Option (Nat × Nat) :=
  let covered (q : Nat) : Bool := decide (pa ≤ 8 * q) && decide (8 * q + 8 ≤ pa + n)
  let shadow := (spots.filterMap id).findSome? fun p =>
    if (s.core p.1).bad.contains (p.2 / 8) && !((List.range 8).all fun j => spots.contains (some (p.1, p.2 / 8 * 8 + j))) then some (p.1 / 128, p.2 / 8) else none
  let buffered := ((((s.dirtyLine? (coreKey g.die g.core) (pa / 64)).map (·.bad)).getD []).find? fun q => State.overlaps (8 * q) 8 pa n && !covered q).map
    fun q => (g.die, q)
  shadow.or (buffered.or (if spots.contains none then s.badPart? pa n else none))

/-- Store bytes within one line (R174, R179): the sequence of the buffer line, 0 where every byte went to a peer's shadow bank. A store that covers part of a
granule with bad check bits is not performed, and a granule that it covers whole takes fresh ones (R342). -/
def storePiece (g : Agent) (va : Word) (pa : Nat) (bs : List (BitVec 8)) : A Nat := do
  let s ← get
  let spots := (List.range bs.length).map fun i => s.shadowSpot g.die g.core (pa + i)
  match storeBad? s g pa bs.length spots with
  | some b => failA (.loss va (some b))
  | none => pure ()
  if spots.all (·.isNone) then
    let (s', q) := s.bufferStore g.th g.die g.core va pa bs
    set s'
    return q
  else
    let r := (List.range bs.length).foldl (fun (acc : State × Nat) i =>
      match spots.getD i none with
      | some (k, off) =>
        let x := acc.1.stashLine k (off / 32)
        ((acc.1.modCore k fun c => { c with stash := writeCell c.stash off (bs.getD i 0), bad := c.bad.filter (· ≠ off / 8) }).setLine k (off / 32)
          { x with shadow := x.shadow ||| (1#32 <<< (off % 32)), who := if x.who.contains g.th then x.who else x.who ++ [g.th] }, acc.2)
      | none =>
        let (s', q) := acc.1.bufferStore g.th g.die g.core (va + w64 i) (pa + i) [bs.getD i 0]
        (s', max acc.2 q)) (s, 0)
    set r.1
    return r.2

/-- Store pieces one after another. -/
def storePieces (g : Agent) (va : Word) (bs : List (BitVec 8)) : List (Nat × Nat) → A Nat
  | [] => return 0
  | (pa, n) :: rest => do
    let q ← storePiece g va pa (bs.take n)
    let q' ← storePieces g (va + w64 n) (bs.drop n) rest
    return max q q'

/-- The own mark and write horizon of the thread for which a store is made from a die (R195); where it has ended, its grid keeps the time (R237). -/
def noteStore (d th seq vis : Nat) : A Unit :=
  modA fun s =>
    match s.th? th with
    | some t => s.setTh th { t with own := max t.own seq, hor := max t.hor vis }
    | none => s.noteVis (th / 2048 / 2 ^ 64) d vis

/-- The observation horizon and cluster mark of the thread for which a value is returned (R195). -/
def noteLoad (th stamp seq : Nat) : A Unit :=
  modA fun s => s.modTh th fun t => { t with obs := max t.obs stamp, mark := max t.mark seq }

end Sys2Proof.Machine
end

