-- ==== Sys2Proof/Machine/Order.lean ====
section
/-! DEFINITION. What a thread's memory instruction does: addressing of the three spaces (R158 to R160, R211), loads and stores, release and
acquire (R197, R198, R201, R203), atomics at their perform points (R205). -/
namespace Sys2Proof.Machine

/-! ### From an access to the thread that makes it -/

/-- The state in which a thread's fault is posted (R163): a fault-buffer entry with the captured data, and the record of its region. With all 64
entries in use nothing is posted. -/
def faultPark (s : State) (g : Agent) (level access : Nat) (va : Word) (data : List (BitVec 8)) : Park × State :=
  let k := coreKey g.die g.core
  if 64 ≤ (s.core k).faults.length then (.faultBufferFull, s)
  else
    let (s1, tag) := s.postReplay g va level access false 0
    (.replay tag, s1.modCore k fun c => { c with faults := c.faults ++ [⟨g.th, s.word, access, va, data, tag, false⟩] })

/-- The running thread waits on a stash line: its access was issued before what ends the line's window later (R176, R224). -/
def State.waitLine (s : State) (line : Nat) : State := s.modTh s.cur fun t => { t with lineWait := t.lineWait.filter (· ≠ line) ++ [line] }

/-- An access made by the running thread: a failure becomes its trap (R211) or its park (R11, R163). -/
def access {α : Type} (code : Nat) (data : List (BitVec 8)) (x : Agent → A α) : M α := fun s =>
  let g := s.agentOf ((s.th? s.cur).getD noThread)
  match x g s with
  | .ok r => .ok r
  | .error (f, s') =>
    match f with
    | .replay l va fill =>
      let (why, s2) := faultPark s' g l (if fill.isSome then 4 else code) va data
      .error (.park why (match fill with | some line => s2.waitLine line | none => s2))
    | .prot va m => .error (.trap cPROTECTION va (w64 (code + if m then 256 else 0)))
    | .align va => .error (.trap cALIGN va (w64 code))
    | .loss va none => .error (.trap cDATALOSS va (w64 code))
    | .loss va (some (d, n)) => .error (.lost va (w64 code) d n)
    | .acc l => .error (.park (.accLine l) s')
    | .stash l => .error (.park (.stashLine l) (s'.waitLine l))
    | .conflict o => .error (.park (.conflict o) s')
    | .answer t => .error (.park (.answer t) s')
    | .mcast va => .error (.trap cMCAST va (w64 code))
    | .refused va => .error (.trap cPROTECTION va (w64 code))

/-! ### Addressing -/

/-- The three spaces of an M-format access (R158). -/
inductive Space where
  | glob | stash | priv
  deriving DecidableEq, Repr, Inhabited

/-- The space of the field's code (R44). -/
def Space.ofCode (c : BitVec 2) : Space := match c.toNat with | 0 => .glob | 1 => .stash | _ => .priv

/-- The private base of a thread (R247). -/
def privBase (g : Grid) (t : Thread) : Nat := g.pbase + g.psize * (g.threads * t.team + 64 * (if t.isCond then g.ngrp else t.grp))

/-- PrivAddr of R160. -/
def privAddr (g : Grid) (t : Thread) (a : Nat) : Word :=
  w64 (privBase g t + 8 * (if t.isCond then a / 8 else 64 * (a / 8) + t.lane) + a % 8)

/-- The pieces of a thread-private access (R160): offset and length, cut at multiples of 8. -/
def privPieces : Nat → Nat → Nat → List (Nat × Nat)
  | 0, _, _ => []
  | f + 1, a, n =>
    if n = 0 then []
    else
      let k := min n (8 - a % 8)
      (a, k) :: privPieces f (a + k) (n - k)

/-- Steps 1 and 2 of R211 on an address: canonical, and aligned. -/
def checkAddr (sp : Space) (a : Word) (align : Nat) : A Unit := do
  if sp = .glob ∧ !canonical a then failA (.prot a false)
  if a.toNat % align ≠ 0 then failA (.align a)

/-- Load n bytes at an address of a space, aligned as its form asks. A thread-private offset is held against its alignment and the private size before the interleaved
address is formed and held against R159 (R160; notes/assumptions/22.md). -/
def loadSpace (sp : Space) (a : Word) (n align : Nat) (m : LoadMode) (g : Agent) : A Loaded := do
  checkAddr sp a align
  match sp with
  | .glob => loadGlobal g a n m
  | .stash => do
    checkFootprint g true a.toNat n false
    let (bs, stamp) ← stashLoad g a.toNat n
    return ⟨bs, stamp, 0⟩
  | .priv => do
    let s ← get
    let t := (s.th? g.th).getD noThread
    let gr := s.gridOf t
    let ps := privPieces (n + 1) a.toNat n
    match ps.find? fun p => decide (gr.psize ≤ p.1) with
    | some p => failA (.prot (w64 p.1) false)
    | none =>
      -- both ends are translated before any piece is read (R212)
      for p in ps do
        let _ ← translateSpan g (privAddr gr t p.1) p.2 .r
      let xs ← ps.mapM fun p => loadGlobal g (privAddr gr t p.1) p.2 m
      return ⟨xs.flatMap (·.bytes), maxOf (xs.map (·.stamp)), maxOf (xs.map (·.seq))⟩

/-- A write to another module, and the address that its home has discarded it at, if it has (R137). -/
def refusedAt {α : Type} (x : A α) : A (Option Word) := fun s =>
  match x s with
  | .ok (_, s') => .ok (none, s')
  | .error (.refused va, s') => .ok (some va, s')
  | .error e => .error e

/-- A masked write of a piece in another module (R362, R363), line by line: the address of the first byte that its home has discarded. -/
def storeFar (g : Agent) (va : Word) (bs : List (BitVec 8)) (scope site : Nat) (p : Piece) : A (Option Word) := do
  let rs ← p.lines.mapM fun q =>
    refusedAt (remoteAccess g (va + w64 q.off) scope q.pa site 0 4
      (BitVec.ofNat 128 ((2 ^ q.len - 1) * 2 ^ (q.pa % 64)) :: dataSlots (patch (List.replicate 64 0) (q.pa % 64) ((bs.drop q.off).take q.len))))
  return rs.findSome? id

/-- A write that some home has discarded is reported once, at its first discarded byte (R137, R323). -/
def reportRefused (g : Agent) (rs : List (Option Word)) : A Unit :=
  match rs.findSome? id with
  | some va => modA fun s => s.report g.die g.grid g.team g.tid g.core cPROTECTION va 1 0
  | none => return ()

/-- A store to a register (R364, R365): at an open site, a WR. -/
def storeReg (g : Agent) (va : Word) (bs : List (BitVec 8)) (p : Piece) : A Unit := do
  let s ← get
  match regionOf p.pa with
  | .dieReg d off =>
    if !s.alive d then failA (.loss va none)
    else modA fun s => s.first [⟨0, .regWrite d off (w64 (ofBytes bs))⟩]
  | .siteReg i _ =>
    if i % 2 = 0 then return ()
    else
      let _ ← remoteAccess g va 0 p.pa i 0 3 (dataSlots (patch (List.replicate 64 0) (p.pa % 64) bs))
  | _ => return ()

/-- Store bytes of global space at physical pieces, whatever region they lie in. -/
def storePhys (g : Agent) (va : Word) (scope : Nat) (bs : List (BitVec 8)) (ps : List Piece) : A Unit := do
  let qs ← checkPieces g va ps
  match qs.find? (·.reg) with
  | some p => storeReg g va bs p
  | none => do
    let rs ← (qs.filterMap fun p => p.module?.map fun md => (md, p)).mapM fun x => do
      let i ← systemPort g va x.1
      storeFar g va bs scope i x.2
    for p in qs do
      if p.module?.isNone then
        let q ← storePieces g (va + w64 p.off) ((bs.drop p.off).take p.len) (cutLines [(p.pa, p.len)])
        noteStore g.die g.th q 0
    reportRefused g rs

/-- Store bytes in global space. -/
def storeGlobal (g : Agent) (va : Word) (bs : List (BitVec 8)) : A Unit := do
  let (ps, ptes) ← translateSpan g va bs.length .w
  checkFootprint g false va.toNat bs.length true
  storePhys g va 0 bs (piecesOf ps ptes)

/-- Store bytes at an address of a space. -/
def storeSpace (sp : Space) (a : Word) (bs : List (BitVec 8)) (align : Nat) (g : Agent) : A Unit := do
  checkAddr sp a align
  match sp with
  | .glob => storeGlobal g a bs
  | .stash => do
    checkFootprint g true a.toNat bs.length true
    let vis ← stashStore g a.toNat bs
    noteStore g.die g.th 0 vis
  | .priv => do
    let s ← get
    let t := (s.th? g.th).getD noThread
    let gr := s.gridOf t
    let ps := privPieces (bs.length + 1) a.toNat bs.length
    match ps.find? fun p => decide (gr.psize ≤ p.1) with
    | some p => failA (.prot (w64 p.1) false)
    | none =>
      for p in ps do
        let _ ← translateSpan g (privAddr gr t p.1) p.2 .w
      for p in ps do
        storeGlobal g (privAddr gr t p.1) ((bs.drop (p.1 - a.toNat)).take p.2)

/-! ### Release and acquire -/

namespace State

/-- The write-backs of a release at DIE scope or wider by a thread (R197, R203): covered cluster-buffer lines, and the words written through windows
that its team mapped. -/
def releaseWrites (s : State) (u : Nat) : State :=
  match s.th? u with
  | none => s
  | some t =>
    let ck := clusterKey t.die t.cluster
    let lines := ((s.cluster ck).buf.filter fun p => decide (p.2.seq ≤ max t.mark t.own)).map (·.1)
    let (s1, v) := s.flushLines ck lines
    let ws := (s1.core (coreKey t.die t.core)).windows.filter fun w => w.grid == t.grid && w.team == t.team
    let r := ws.foldl (fun (acc : State × Nat) w =>
      let (s', v) := acc.1.flushWindow t.die t.core w
      (s', max acc.2 v)) (s1, v)
    r.1.modTh u fun t => { t with hor := max t.hor r.2 }

/-- The time until which a release of a thread waits (R197). -/
def releaseTime (s : State) (u : Nat) : Nat := match s.th? u with | some t => max t.hor t.obs | none => 0

/-- A generation bump (R181); when the number wraps, every tag is cleared, and with it the L1 copies that were filled from the cache (R192). -/
def bumpGen (s : State) (d : Nat) : State :=
  let s1 := s.modDie d fun x => { x with gen := x.gen + 1, rdc := if x.gen + 1 = 0 then [] else x.rdc }
  if (s1.die d).gen ≠ 0 then s1
  else { s1 with cores := s1.cores.map fun p => (p.1, if p.1 / 128 = d then { p.2 with l1 := p.2.l1.filter fun c => c.2.expiry.isSome } else p.2) }

/-- Acquire(S, v) by a thread, up to its wait (R198): a stamp not yet reached holds the thread's next slot back. -/
def acquire (s : State) (u scope stamp : Nat) : State :=
  match s.th? u with
  | none => s
  | some t =>
    if scope = 0 then s
    else if scope ≤ 3 then
      let c := s.cluster (clusterKey t.die t.cluster)
      s.modTh u fun t => { t with mark := max t.mark c.issued, hor := max t.hor c.horizon }
    else if stamp ≤ s.now t.die then if 5 ≤ scope then s.bumpGen t.die else s
    else s.modTh u fun t =>
      { t with acq := some (match t.acq with
          | some (x, b) => (max x stamp, b || decide (5 ≤ scope))
          | none => (stamp, decide (5 ≤ scope))) }

end State

/-- Release(S) by the running thread (R197): it parks until the latest visibility time it covers has passed. A chain of several words has made it before
them. -/
def release (scope : Nat) : M Unit := fun s =>
  if s.released then .ok ((), s)
  else match (if scope = 0 then none else s.nacked.find? fun p => match p.2.2 with | .redo _ _ _ _ th _ => th == s.cur | _ => false) with
  | some p => .error (.park (.resend p.1) s)
  | none =>
  if scope ≤ 3 then .ok ((), s)
  else
    let s1 := s.releaseWrites s.cur
    let t := (s1.th? s.cur).getD noThread
    if s1.releaseTime s.cur ≤ s1.now t.die then .ok ((), s1)
    else .error (.park (.until (s1.releaseTime s.cur)) s1)

/-- Acquire(S, v) by the running thread. -/
def acquire (scope stamp : Nat) : M Unit := fun s => .ok ((), s.acquire s.cur scope stamp)

/-! ### Atomics and reductions -/

/-- Own L1 copy and read-only window lines kept no older than what an access at the home left there (R188). -/
def State.l1Update (s : State) (k pa : Nat) (bs : List (BitVec 8)) : State :=
  (match AMap.get? (s.core k).l1 (pa / 64) with
  | some x => s.modCore k fun c => { c with l1 := AMap.put c.l1 (pa / 64) { x with bytes := patch x.bytes (pa % 64) bs } }
  | none => s).patchWindows k pa bs 0

/-- Own buffered bytes of the lines that an access at the home touches are written back first, so that the thread's accesses keep its program order
(R188). -/
def State.ownFirst (s : State) (g : Agent) (ps : List (Nat × Nat)) : State :=
  ((s.flushLines (clusterKey g.die (g.core / 4)) (ps.map (·.1 / 64)))).1

/-- The words of the pieces that windows own are recalled before the update is performed (R172), and errors that can be put right go (R341). -/
def State.readyRmw (s : State) (ps : List (Nat × Nat)) : State := ps.foldl (fun s p => (s.scrub p.1 p.2).recallSpan p.1 p.2) s

/-- A read-modify-write of pieces of one element comes to their homes: a line in the ACC state stands in its way, or, once what windows own is recalled, a granule with
bad check bits (R137, R172, R342). -/
def checkRmw (va : Word) (ps : List (Nat × Nat)) : A Unit := do
  let s ← get
  match ps.find? fun p => s.isAcc (p.1 / 64) with
  | some p => failA (.acc (p.1 / 64))
  | none => do
    modA fun s => s.readyRmw ps
    let s ← get
    match ps.findSome? fun p => s.badGranule? p.1 p.2 with
    | some b => failA (.loss va (some b))
    | none => return ()

/-- A read-modify-write at the homes of pieces of one element, as one update (R193, R205, R219): the old bytes. None for the new bytes writes nothing. -/
def rmwHome (g : Agent) (va : Word) (ps : List (Nat × Nat)) (f : List (BitVec 8) → Option (List (BitVec 8))) : A (List (BitVec 8)) := do
  modA fun s => s.ownFirst g ps
  checkRmw va ps
  let s0 ← get
  let rs := ps.map fun p => s0.homeRead g.die p.1 p.2
  let old := rs.flatMap (·.1)
  let stamp := maxOf (rs.map (·.2))
  match f old with
  | none => do
    set ((ps.zip rs).foldl (fun s q => s.refresh g.die g.core q.1.1 q.2.1 q.2.2) s0)
    noteLoad g.th stamp 0
  | some new => do
    let r := ps.foldl (fun (acc : State × Nat × List (BitVec 8)) p =>
      let (s', v) := acc.1.applyAtHome g.die p.1 (acc.2.2.take p.2)
      (s'.l1Update (coreKey g.die g.core) p.1 (acc.2.2.take p.2), max acc.2.1 v, acc.2.2.drop p.2)) (s0, 0, new)
    set r.1
    noteLoad g.th stamp 0
    noteStore g.die g.th 0 r.2.1
  return old

/-- Bytes of an update at the cluster unit go into the cluster buffer, also those of a word that a peer's shutter window held (R174, R205): the largest
sequence. -/
def bufferPieces (g : Agent) (va : Word) (bs : List (BitVec 8)) : List (Nat × Nat) → State → State × Nat
  | [], s => (s, 0)
  | (pa, n) :: rest, s =>
    let (s1, q) := s.bufferStore g.th g.die g.core va pa (bs.take n)
    let (s2, q') := bufferPieces g (va + w64 n) (bs.drop n) rest s1
    (s2, max q q')

/-- A read-modify-write at the cluster unit, on the lines as the cluster buffer holds or fetches them (R205). -/
def rmwCluster (g : Agent) (va : Word) (ps : List (Nat × Nat)) (f : List (BitVec 8) → Option (List (BitVec 8))) : A (List (BitVec 8)) := do
  checkRmw va ps
  let x ← loadPieces g va { scope := 3, alloc := false, nrd := true } ps
  noteLoad g.th x.stamp x.seq
  match f x.bytes with
  | none => return x.bytes
  | some new => do
    let (s', q) := bufferPieces g va new ps (← get)
    set s'
    noteStore g.die g.th q 0
    return x.bytes

/-- The perform point of a scope (R205). `req` is the Hinge request that carries the operation to another module (R352). An element that lies in two modules
cannot be delivered (notes/assumptions/22.md). -/
def rmw (g : Agent) (scope : Nat) (va : Word) (n : Nat) (req : BitVec 3 × BitVec 5 × List (BitVec 128))
    (f : List (BitVec 8) → Option (List (BitVec 8))) : A (List (BitVec 8)) := do
  let (ps, ptes) ← translateSpan g va n .rw
  checkFootprint g false va.toNat n true
  let qs ← checkPieces g va (piecesOf ps ptes)
  if qs.any (·.reg) then failA (.prot va false)
  match qs.findSome? (·.module?) with
  | some md => do
    if qs.any fun p => p.module? != some md then failA (.mcast va)
    let i ← systemPort g va md
    let a ← remoteAccess g va scope (qs.headD default).pa i req.1 req.2.1 req.2.2
    noteLoad g.th a.stamp 0
    return (a.data.drop ((qs.headD default).pa % 64)).take n
  | none =>
    let cut := cutLines (qs.map fun p => (p.pa, p.len))
    if scope ≤ 3 then rmwCluster g va cut f else rmwHome g va cut f

end Sys2Proof.Machine
end

