-- ==== Sys2Proof/Machine/Issue.lean ====
section
/-! DEFINITION. Issue: fetching a packet (R28, R245), the legality of a chain (R29, R49, R270), the run's limit (R32), retirement and the
boundary (R33, R34, R260, R271), gangs (R240, R241), and what lets a parked or waiting thread go on. -/
namespace Sys2Proof.Machine

/-! ### Fetch -/

/-- Code bytes at a physical address, within one line: of this module's memory, or of another's through a port die (R362). The register space holds no code (R364). -/
def codePiece (g : Agent) (va : Word) (p : Nat × Nat) : A (List (BitVec 8)) := do
  let s ← get
  match regionOf p.1 with
  | .system md _ => do
    let x ← loadFar g va {} md { off := 0, pa := p.1, len := p.2 }
    return x.2.bytes
  | .hbm .. => near s
  | .tier .. => near s
  | _ => failA (.prot va false)
where
  near (s : State) : A (List (BitVec 8)) := do
    if s.anyBad p.1 p.2 then failA (.loss va (s.badGranule? p.1 p.2))
    if s.isAcc (p.1 / 64) then failA (.acc (p.1 / 64))
    modA fun s => s.scrub p.1 p.2
    return (s.homeRead g.die p.1 p.2).1

/-- One code word by its virtual address (R28, R245): from the core's fetch buffer, which does not snoop stores, else from memory. -/
def fetchWord (g : Agent) (va : Word) : A Code := do
  let (pa, _) ← translate g va .x
  let s ← get
  let k := coreKey g.die g.core
  match AMap.get? (s.core k).code pa with
  | some w => return w
  | none => do
    let w : Code := BitVec.ofNat 32 (ofBytes (← codePiece g va (pa, 4)))
    modA fun s => s.modCore k fun c => { c with code := AMap.put c.code pa w }
    return w

/-- The packet address of a word address (R28). -/
abbrev packetOf (pc : Word) : Word := pc - w64 (pc.toNat % 12)

/-- The place of a word in its packet. -/
abbrev wordIdx (pc : Word) : Nat := pc.toNat % 12 / 4

/-- The three words of the packet that holds pc; a fault on any page of it stops the slot (R28). Access code 3. -/
def fetchPacket (pc : Word) : M (List Code) := access 3 [] fun g => do
  let p := packetOf pc
  let a ← fetchWord g p
  let b ← fetchWord g (p + 4)
  let c ← fetchWord g (p + 8)
  return [a, b, c]

/-- Eight code bytes at an address, through instruction translation (R94). -/
def fetchBytes (va : Word) (n : Nat) : M (List (BitVec 8)) := access 0 [] fun g => do
  let (ps, _) ← translateSpan g va n .x
  let xs ← (cutLines ps).mapM (codePiece g va)
  return xs.flatMap id

/-! ### Chains -/

/-- The pipes of R45. -/
inductive Pipe where
  | i | f | s | m
  deriving DecidableEq, Repr, Inhabited

/-- The pipe of an instruction (R45); LAST occupies none (R41). -/
def pipeOf : Instr → Option Pipe
  | .nop => some .i
  | .pool .. => some .i
  | .exit => some .i
  | .ret => some .i
  | .yield => some .i
  | .rft => some .i
  | .rftSkip => some .i
  | .brkpt .. => some .i
  | .add .. => some .i
  | .sub .. => some .i
  | .mul .. => some .i
  | .mulh .. => some .i
  | .mulhn .. => some .i
  | .div .. => some .i
  | .divn .. => some .i
  | .rem .. => some .i
  | .remn .. => some .i
  | .min .. => some .i
  | .max .. => some .i
  | .minn .. => some .i
  | .maxn .. => some .i
  | .and .. => some .i
  | .or .. => some .i
  | .xor .. => some .i
  | .andn .. => some .i
  | .shl .. => some .i
  | .shr .. => some .i
  | .sar .. => some .i
  | .rot .. => some .i
  | .clz .. => some .i
  | .popc .. => some .i
  | .brev .. => some .i
  | .abs .. => some .i
  | .neg .. => some .i
  | .sext .. => some .i
  | .zext .. => some .i
  | .mov .. => some .i
  | .addi .. => some .i
  | .andi .. => some .i
  | .ori .. => some .i
  | .xori .. => some .i
  | .andni .. => some .i
  | .shli .. => some .i
  | .shri .. => some .i
  | .sari .. => some .i
  | .roti .. => some .i
  | .icmp .. => some .i
  | .icmpi .. => some .i
  | .sel .. => some .i
  | .bfx .. => some .i
  | .bfi .. => some .i
  | .pmov .. => some .i
  | .setp .. => some .i
  | .bperm .. => some .i
  | .ldlit .. => some .i
  | .addr .. => some .i
  | .sprGet .. => some .i
  | .sprSet .. => some .i
  | .sprSwap .. => some .i
  | .bra .. => some .i
  | .call .. => some .i
  | .jmpr .. => some .i
  | .callr .. => some .i
  | .loop .. => some .i
  | .join .. => some .i
  | .leave .. => some .i
  | .waitm .. => some .i
  | .mget .. => some .i
  | .mset .. => some .i
  | .msave .. => some .i
  | .mrst .. => some .i
  | .fadd .. => some .f
  | .fsub .. => some .f
  | .fmul .. => some .f
  | .fmin .. => some .f
  | .fmax .. => some .f
  | .fminm .. => some .f
  | .fmaxm .. => some .f
  | .ffma .. => some .f
  | .ffms .. => some .f
  | .fnma .. => some .f
  | .fabs .. => some .f
  | .fneg .. => some .f
  | .frnd .. => some .f
  | .gete .. => some .f
  | .getm .. => some .f
  | .fclass .. => some .f
  | .reclass .. => some .f
  | .fcmp .. => some .f
  | .twosum .. => some .f
  | .twoprod .. => some .f
  | .cvtin .. => some .f
  | .cvtout .. => some .f
  | .fscl .. => some .f
  | .xpr .. => some .f
  | .fdiv .. => some .f
  | .fman .. => some .f
  | .rcp .. => some .s
  | .rsq .. => some .s
  | .sqrt .. => some .s
  | .exp2 .. => some .s
  | .log2 .. => some .s
  | .sin .. => some .s
  | .cos .. => some .s
  | .tanh .. => some .s
  | .xpull .. => some .s
  | .xrank .. => some .s
  | .xsegb .. => some .s
  | .xrev .. => some .s
  | .xcount .. => some .s
  | .xfirst .. => some .s
  | .xmask .. => some .s
  | .gbcast .. => some .s
  | .gred .. => some .s
  | .gscan .. => some .s
  | .pack6 .. => some .s
  | .unpk6 .. => some .s
  | .cmma .. => some .s
  | .latchArrive .. => some .s
  | .latchSync .. => some .s
  | .latchWait .. => some .s
  | .latchX .. => some .s
  | .tbarArrive .. => some .s
  | .tbarSync .. => some .s
  | .tbarWait .. => some .s
  | .cbarArrive .. => some .s
  | .cbarSync .. => some .s
  | .cbarWait .. => some .s
  | .redo .. => some .m
  | .ld .. => some .m
  | .st .. => some .m
  | .lda .. => some .m
  | .strl .. => some .m
  | .pref .. => some .m
  | .prefL1 .. => some .m
  | .prefHome .. => some .m
  | .wmap .. => some .m
  | .wunmap .. => some .m
  | .wflush .. => some .m
  | .wdrop .. => some .m
  | .wquery .. => some .m
  | .atom .. => some .m
  | .red .. => some .m
  | .fenceRel .. => some .m
  | .fenceAcq .. => some .m
  | .fenceFull .. => some .m
  | .cpya .. => some .m
  | .gath .. => some .m
  | .scat .. => some .m
  | .scatReduce .. => some .m
  | .drain .. => some .m
  | .drainAll .. => some .m
  | .drainPass .. => some .m
  | .atomw .. => some .m
  | .atomc .. => some .m
  | .waitc .. => some .m
  | .launch .. => some .m
  | .mpassDense .. => some .m
  | .mpassReduce .. => some .m
  | .mpassBatch .. => some .m
  | .mpassMvec .. => some .m
  | .accinit .. => some .m
  | .mcancel .. => some .m
  | .mquery .. => some .m
  | .trap .. => some .m
  | .svc .. => some .m
  | .saveq .. => some .m
  | .rstq .. => some .m
  | .gets .. => some .m
  | .sets .. => some .m
  | .tlbiPage .. => some .m
  | .tlbiAsid .. => some .m
  | .tlbiAll .. => some .m
  | .invl => some .m
  | .wbl .. => some .m
  | .wipe .. => some .m
  | _ => none

/-- The named slots that a word writes, as (specifier, slots), with the class of prc.wc for a word without one; the length of a loaded VF value and of
a collective's is not known at decode, and its first slot stands for it (notes/assumptions/12.md). -/
def wordDest (wc : Nat) : Instr → Option (Spec × Nat)
  | .add d _ _ _ => some (d, 1)
  | .sub d _ _ _ => some (d, 1)
  | .mul d _ _ _ => some (d, 1)
  | .mulh d _ _ _ => some (d, 1)
  | .mulhn d _ _ _ => some (d, 1)
  | .div d _ _ _ => some (d, 1)
  | .divn d _ _ _ => some (d, 1)
  | .rem d _ _ _ => some (d, 1)
  | .remn d _ _ _ => some (d, 1)
  | .min d _ _ _ => some (d, 1)
  | .max d _ _ _ => some (d, 1)
  | .minn d _ _ _ => some (d, 1)
  | .maxn d _ _ _ => some (d, 1)
  | .and d _ _ _ => some (d, 1)
  | .or d _ _ _ => some (d, 1)
  | .xor d _ _ _ => some (d, 1)
  | .andn d _ _ _ => some (d, 1)
  | .shl d _ _ _ => some (d, 1)
  | .shr d _ _ _ => some (d, 1)
  | .sar d _ _ _ => some (d, 1)
  | .rot d _ _ _ => some (d, 1)
  | .clz d _ _ => some (d, 1)
  | .popc d _ _ => some (d, 1)
  | .brev d _ _ => some (d, 1)
  | .abs d _ _ => some (d, 1)
  | .neg d _ _ => some (d, 1)
  | .sext d _ => some (d, 1)
  | .zext d _ => some (d, 1)
  | .mov d _ _ => some (d, 1)
  | .addi d _ _ => some (d, 1)
  | .andi d _ _ => some (d, 1)
  | .ori d _ _ => some (d, 1)
  | .xori d _ _ => some (d, 1)
  | .andni d _ _ => some (d, 1)
  | .shli d _ _ _ => some (d, 1)
  | .shri d _ _ _ => some (d, 1)
  | .sari d _ _ _ => some (d, 1)
  | .roti d _ _ _ => some (d, 1)
  | .sel d _ _ _ => some (d, 1)
  | .bfx d _ _ _ => some (d, 1)
  | .bfi d _ _ => some (d, 1)
  | .pmov d => some (d, 1)
  | .bperm d _ _ => some (d, 1)
  | .ldlit d _ => some (d, 1)
  | .addr d _ _ _ => some (d, 1)
  | .sprGet x _ => some (x, 1)
  | .sprSwap x _ => some (x, 1)
  | .fadd d _ _ _ cls => some (d, slotsOf (if cls = 0 then wc else cls.toNat - 8))
  | .fsub d _ _ _ cls => some (d, slotsOf (if cls = 0 then wc else cls.toNat - 8))
  | .fmul d _ _ _ cls => some (d, slotsOf (if cls = 0 then wc else cls.toNat - 8))
  | .fmin d _ _ cls => some (d, slotsOf (if cls = 0 then wc else cls.toNat - 8))
  | .fmax d _ _ cls => some (d, slotsOf (if cls = 0 then wc else cls.toNat - 8))
  | .fminm d _ _ cls => some (d, slotsOf (if cls = 0 then wc else cls.toNat - 8))
  | .fmaxm d _ _ cls => some (d, slotsOf (if cls = 0 then wc else cls.toNat - 8))
  | .ffma d _ _ _ => some (d, slotsOf wc)
  | .ffms d _ _ _ => some (d, slotsOf wc)
  | .fnma d _ _ _ => some (d, slotsOf wc)
  | .fabs d _ _ cls => some (d, slotsOf (if cls = 0 then wc else cls.toNat - 8))
  | .fneg d _ _ cls => some (d, slotsOf (if cls = 0 then wc else cls.toNat - 8))
  | .frnd d _ _ cls => some (d, slotsOf (if cls = 0 then wc else cls.toNat - 8))
  | .gete d _ => some (d, 1)
  | .getm d _ _ cls => some (d, slotsOf (if cls = 0 then wc else cls.toNat - 8))
  | .fclass d _ => some (d, 1)
  | .reclass d _ _ cls => some (d, slotsOf (if cls = 0 then wc else cls.toNat - 8))
  | .twosum d _ _ cls => some (d, 2 * slotsOf (if cls = 0 then wc else cls.toNat - 8))
  | .twoprod d _ _ cls => some (d, 2 * slotsOf (if cls = 0 then wc else cls.toNat - 8))
  | .cvtin d _ _ _ cls => some (d, slotsOf (if cls = 0 then wc else cls.toNat - 8))
  | .cvtout d _ _ _ => some (d, 1)
  | .fscl d _ _ _ cls => some (d, slotsOf (if cls = 0 then wc else cls.toNat - 8))
  | .rcp d _ _ cls => some (d, slotsOf (if cls = 0 then wc else cls.toNat - 8))
  | .rsq d _ _ cls => some (d, slotsOf (if cls = 0 then wc else cls.toNat - 8))
  | .sqrt d _ _ cls => some (d, slotsOf (if cls = 0 then wc else cls.toNat - 8))
  | .exp2 d _ _ cls => some (d, slotsOf (if cls = 0 then wc else cls.toNat - 8))
  | .log2 d _ _ cls => some (d, slotsOf (if cls = 0 then wc else cls.toNat - 8))
  | .sin d _ _ cls => some (d, slotsOf (if cls = 0 then wc else cls.toNat - 8))
  | .cos d _ _ cls => some (d, slotsOf (if cls = 0 then wc else cls.toNat - 8))
  | .tanh d _ _ cls => some (d, slotsOf (if cls = 0 then wc else cls.toNat - 8))
  | .xpull d _ _ _ => some (d, 1)
  | .xrank d _ _ _ => some (d, 1)
  | .xsegb d _ _ _ => some (d, 1)
  | .xrev d _ _ _ => some (d, 1)
  | .xcount d _ _ _ => some (d, 1)
  | .xfirst d _ _ _ => some (d, 1)
  | .xmask d _ _ _ => some (d, 1)
  | .gbcast d _ _ => some (d, 1)
  | .gred d _ _ _ => some (d, 1)
  | .gscan d _ _ _ _ => some (d, 1)
  | .pack6 d _ _ => some (d, 1)
  | .unpk6 d _ cls => some (d, slotsOf (if cls = 0 then wc else cls.toNat - 8))
  | .cmma d _ _ _ => some (d, 1)
  | .ld d _ _ _ _ _ => some (d, 1)
  | .lda d _ _ _ _ _ _ => some (d, 1)
  | .wmap d _ => some (d, 1)
  | .wunmap d _ => some (d, 1)
  | .wflush d _ => some (d, 1)
  | .wdrop d _ => some (d, 1)
  | .wquery d _ => some (d, 1)
  | .atom d _ _ _ _ => some (d, 1)
  | .cpya _ t _ _ => some (t, 1)
  | .gath _ t _ _ _ _ => some (t, 1)
  | .scat _ t _ _ _ _ => some (t, 1)
  | .scatReduce _ t _ _ _ _ _ _ => some (t, 1)
  | .drain d _ => some (d, 1)
  | .drainAll d => some (d, 1)
  | .drainPass d => some (d, 1)
  | .atomw d _ _ _ _ => some (d, 1)
  | .atomc d _ _ _ _ => some (d, 1)
  | .mget d _ => some (d, 1)
  | .waitc d _ _ _ _ => some (d, 1)
  | .latchArrive d _ _ => some (d, 1)
  | .latchSync d _ _ => some (d, 1)
  | .latchWait d _ => some (d, 1)
  | .latchX d _ => some (d, 1)
  | .tbarArrive d _ _ => some (d, 1)
  | .tbarSync d _ _ => some (d, 1)
  | .tbarWait d _ => some (d, 1)
  | .cbarArrive d _ _ => some (d, 1)
  | .cbarSync d _ _ => some (d, 1)
  | .cbarWait d _ => some (d, 1)
  | .launch d _ => some (d, 1)
  | .mpassDense d _ => some (d, 1)
  | .mpassReduce d _ => some (d, 1)
  | .mpassBatch d _ => some (d, 1)
  | .mpassMvec d _ => some (d, 1)
  | .accinit d _ _ _ => some (d, 1)
  | .mcancel d _ _ => some (d, 1)
  | .mquery d _ _ => some (d, 1)
  | .fdiv d _ _ _ cls => some (d, slotsOf (if cls = 0 then wc else cls.toNat - 8))
  | .fman d _ _ _ => some (d, slotsOf wc)
  | .gets d _ => some (d, 1)
  | _ => none

/-- The predicates that a word writes, as a mask. -/
def wordPreds : Instr → BitVec 8
  | .icmp _ p .. => 1#8 <<< p.toNat
  | .icmpi _ p .. => 1#8 <<< p.toNat
  | .fcmp _ p .. => 1#8 <<< p.toNat
  | .setp _ => 0xFE
  | _ => 0

/-- The named slots that a word writes. -/
def wordSlots (wc : Nat) (i : Instr) : List Nat :=
  match wordDest wc i with
  | some (d, k) => if 16 ≤ d.toNat then (List.range k).map (d.toNat + ·) else []
  | none => []

/-- Two words that R29 keeps out of one chain: the same pipe, the same named slot, or the same predicate. -/
def clash (wc : Nat) (i j : Instr) : Bool :=
  ((pipeOf i).isSome && decide (pipeOf i = pipeOf j)) || (wordSlots wc i).any (wordSlots wc j).contains || wordPreds i &&& wordPreds j != 0

/-- The index of the first word that clashes with a later one of its chain. -/
def firstClash (wc : Nat) : Nat → List Instr → Option Nat
  | _, [] => none
  | k, i :: is => if is.any (clash wc i) then some k else firstClash wc (k + 1) is

/-- The chain that begins at word `idx` of a packet (R29): the words up to the first with C clear. -/
def takeChain : List Code → List Code
  | [] => []
  | w :: ws => if w.getLsbD 31 then w :: takeChain ws else [w]

/-- What a chain decodes to: its words with the B bit of the last, and the number of instructions it counts as (R32); or the index of the word that
makes it ILLEGAL. A triple (R49) stands as its XPR word. -/
structure Chain where
  words : List Instr
  bound : Bool
  count : Nat
  /-- words of the packet it takes -/
  len : Nat
  deriving DecidableEq, Repr, Inhabited

/-- A word that is ILLEGAL at decode by itself: one without an instruction, and the major opcodes 45 and 63 (R52). -/
def badWord (w : Code) : Bool :=
  match decodeWord w with
  | some x => (x.instr matches .reservedOpcode _)
  | none => true

/-- The index of the first word that is ILLEGAL by itself. -/
def firstBad : Nat → List Code → Option Nat
  | _, [] => none
  | i, w :: ws => if badWord w then some i else firstBad (i + 1) ws

/-- The token words of a triple: opcode 30, C and B as R49 states. -/
def tripleOk (ws : List Code) : Bool :=
  match ws with
  | [_, b, c] => b.extractLsb' 24 6 == 30#6 && b.getLsbD 31 && !b.getLsbD 30 && c.extractLsb' 24 6 == 30#6 && !c.getLsbD 31
  | _ => false

/-- The twelve tokens of a triple in order (R49). -/
def tokensOf (b c : Code) : List Nat :=
  let six (w : Code) : List Nat := (List.range 6).map fun i => (w.extractLsb' (20 - 4 * i) 4).toNat
  six b ++ six c

/-- What a token pops and pushes, and whether it counts as an operator (R50). -/
def tokenShape (t : Nat) : Nat × Nat × Bool :=
  if t ≤ 4 then (0, 1, false)
  else if t ≤ 7 then (2, 1, true)
  else if t = 8 then (3, 1, true)
  else if t ≤ 10 then (2, 1, true)
  else if t ≤ 12 then (1, 1, true)
  else if t = 13 then (1, 2, false)
  else if t = 14 then (2, 2, false)
  else (3, 1, true)

/-- The static check of a triple (R51), with the stack's depth and the operators so far. -/
def tokensOk : Nat → Nat → List Nat → Bool
  | depth, _, [] => depth == 1
  | depth, ops, t :: ts =>
    if t = 0 then ts.all (· == 0) && depth == 1
    else
      let (pops, pushes, op) := tokenShape t
      let ops' := if op then ops + 1 else ops
      decide (pops ≤ depth) && decide (depth - pops + pushes ≤ 4) && decide (ops' ≤ 7) && tokensOk (depth - pops + pushes) ops' ts

/-- The chain at word `idx` of a packet, checked by R29, R33, R41, R49, R51 and R270. -/
def chainAt (wc idx : Nat) (packet : List Code) : Except Nat Chain :=
  let ws := takeChain (packet.drop idx)
  match ws.head? with
  | none => .error 0
  | some w0 =>
    if w0.extractLsb' 24 6 = 29#6 then
      -- an expression triple fills one packet
      if idx = 0 ∧ (decodeWord w0).isSome ∧ tripleOk packet
          ∧ tokensOk 0 0 (tokensOf (packet.getD 1 0) (packet.getD 2 0)) then
        .ok ⟨[((decodeWord w0).map (·.instr)).getD .nop], (packet.getD 2 0).getLsbD 30, 1, 3⟩
      else .error 0
    else
      match firstBad 0 ws with
      | some i => .error i
      | none =>
        let sws := ws.filterMap decodeWord
        let is := sws.map (·.instr)
        let last := sws.getLast?
        if (last.map (·.chain)).getD true then .error (ws.length - 1)
        else if (sws.dropLast).any (·.bound) then .error (((sws.dropLast).findIdx (·.bound)))
        else if (firstClash wc 0 is).isSome then .error ((firstClash wc 0 is).getD 0)
        else if 1 < is.length && is.any (fun i => i matches .pool _) then .error (is.findIdx fun i => i matches .pool _)
        else if is.any (fun i => i matches .xpr ..) then .error (is.findIdx fun i => i matches .xpr ..)
        else if is.any (fun i => i matches .loop ..) && idx + ws.length ≠ 3 then .error (is.findIdx fun i => i matches .loop ..)
        else .ok ⟨is, (last.map (·.bound)).getD false, ws.length, ws.length⟩

/-- The first decode-time cause of the words of a chain, in the order of R48 over the slot: index, cause and info. -/
def chainCause (g : Grid) (t : Thread) (ws : List Instr) : Option (Nat × Nat × Word) :=
  let cs := (List.range ws.length).filterMap fun i => (decodeCause g t (ws.getD i .nop)).map fun c => (i, c.1, c.2)
  let pick (c : Nat) := cs.find? fun x => x.2.1 == c
  (pick cILLEGAL).or ((pick cPRIV).or ((pick cROLE).or (pick cWINDOW)))

/-! ### Retirement -/

/-- The records whose body ends at a word, innermost first (R271). -/
def endingLoops (t : Thread) (last : Word) : List Nat :=
  let is := (List.range 3).filter fun i => (vget t.loops i).order ≠ 0 && (vget t.loops i).last == last
  let newest (xs : List Nat) : List Nat :=
    xs.foldr (fun i acc =>
      let before := acc.takeWhile fun j => decide ((vget t.loops i).order < (vget t.loops j).order)
      before ++ i :: acc.drop before.length) []
  newest is

/-- The back-edge of the loops that end at a word (R271): counters are decremented, exhausted records cleared; where the next run begins. -/
def loopBack (t : Thread) : List Nat → Thread × Option Word
  | [] => (t, none)
  | i :: is =>
    let v := vget t.land.lc i - 1
    let t' := t.produce (some 1) (.lc i) v
    if v ≠ 0 then (t', some (vget t.loops i).start)
    else loopBack { t' with loops := vset t'.loops i {} } is

/-- The running thread's chain has retired: the counter rises (R32), the pc moves on, and a boundary ends the run. -/
def retire (c : Chain) (s : State) : State :=
  let s := s.dropReplies s.cur
  match s.th? s.cur with
  | none => s
  | some t =>
    if t.status = .ended then s
    else
      let last := t.pc + w64 (4 * (c.len - 1))
      let t1 := { t with runCount := t.runCount + c.count, base := t.head, next := none, lineWait := [], rangeDone := 0, collDone := none, captured := none, entry := none }
      if c.bound || decide (24 ≤ t1.runCount) then
        -- POOL is no transfer (R53): the back-edge of a body that ends with it goes first
        let jumps := t.next.isSome && !(c.words.any fun i => i matches .pool _)
        let (t2, back) := if jumps then (t1, none) else loopBack t1 (endingLoops t1 last)
        let pc := (back.or t.next).getD (last + 4)
        s.setTh s.cur ({ t2 with pc := pc, slot := t2.slot + 1 }.endRun s.time)
      else s.setTh s.cur { t1 with pc := t.next.getD (last + 4), slot := t1.slot + 1 }

/-- A gang without some of its members. -/
def Gang.without (g : Gang) (gone : Nat → Bool) : Gang :=
  { g with members := g.members.filter fun u => !gone u, pending := g.pending.filter fun u => !gone u }

/-- A thread leaves whatever gang it issues with (R241). -/
def State.leaveGang (s : State) (u : Nat) : State :=
  match s.th? u with
  | none => s
  | some t =>
    let k := coreKey t.die t.core
    if (s.core k).gangs = [] then s
    else s.modCore k fun c =>
      { c with gangs := (c.gangs.map fun p => (p.1, p.2.without fun v => v == u)).filter fun p => p.2.members ≠ [] }

/-- After a slot: the thread stays with its gang only in mid-run (R241). -/
def afterSlot (s : State) : State :=
  match s.th? s.cur with
  | none => s
  | some t => if t.status = .ready ∧ t.slot ≠ 0 ∧ !s.left then s else s.leaveGang s.cur

/-- The words of a chain with their places. -/
def numbered : Nat → List Instr → List (Nat × Instr)
  | _, [] => []
  | k, i :: is => (k, i) :: numbered (k + 1) is

/-- A word that acts on asynchronous operations or on translations alone, so that the stack access of its chain's CALL comes before its effect (R30). -/
def actsLater : Instr → Bool
  | .cpya .. => true
  | .gath .. => true
  | .scat .. => true
  | .scatReduce .. => true
  | .tlbiPage .. => true
  | .tlbiAsid .. => true
  | .tlbiAll .. => true
  | _ => false

/-- A word that writes a mask of its group. -/
def writesMask : Instr → Bool
  | .join _ => true
  | .leave _ => true
  | .waitm .. => true
  | .mset .. => true
  | .msave .. => true
  | .mrst _ => true
  | _ => false

/-- A word that goes before the other words of its chain, so that it finds memory and the copy unit as they stood before the chain (R30): RET, whose load reads
the return slot, and a CALL beside a word that acts later. -/
def goesFirst (ws : List Instr) : Instr → Bool
  | .ret => true
  | .call .. => ws.any actsLater
  | .callr .. => ws.any actsLater
  | _ => false

/-- The order in which a chain's words act, so that each reads its sources as they stood before the chain (R30): memory that a RET reads before any store, and
a mask that a collective reads before a mask step of the chain. -/
def chainOrder (ws : List Instr) : List (Nat × Instr) :=
  let xs := numbered 0 ws
  let rest := xs.filter fun p => !goesFirst ws p.2
  (xs.filter fun p => goesFirst ws p.2) ++ (rest.filter fun p => !writesMask p.2) ++ rest.filter fun p => writesMask p.2

/-- Word k of the chain goes next; one whose translation had failed takes its sources from its fault-buffer entry (R320). -/
def enterWord (s : State) (k : Nat) : State :=
  match s.th? s.cur with
  | some t =>
    if t.captured.isNone && t.entry.isNone then { s with word := k }
    else { s.setTh s.cur { t with entry := t.captured.bind fun c => if c.1 = k then some c.2 else none } with word := k }
  | none => { s with word := k }

/-- Run the words of a chain one after another on the state, all from registers as they stood before (R30). -/
def runWords (run : Instr → State → Host.Outcome State Fault Refusal) : List (Nat × Instr) → State → Host.Outcome State Fault Refusal
  | [], s => .next s
  | (k, i) :: is, s =>
    match run i (enterWord s k) with
    | .next s' => if s'.left then .next s' else runWords run is s'
    | o => o

/-- A stop that a word of a chain came to after others had acted is taken on the state before the chain, so that no effect of them remains (R31). -/
def backOut (s : State) : Host.Outcome State Fault Refusal → Host.Outcome State Fault Refusal
  | .next s' =>
    if !s'.left then .next s'
    else
      match s'.th? s'.cur with
      | none => .next s'
      | some t =>
        let before := { s with word := s'.word }
        match t.status with
        | .parked why => .next (before.parkCur why)
        | _ => .next (before.trapCur t.trapcause.toNat t.trapaddr t.trapinfo)
  | o => o

/-- A collective that may trap at its completion: its values are floating (R71, R120, R157). -/
def mayTrapLate : Instr → Bool
  | .gred _ _ op _ => decide (8 ≤ op.toNat)
  | .gscan _ _ op _ _ => decide (8 ≤ op.toNat)
  | .cmma .. => true
  | _ => false

/-- A word whose effect reaches beyond the results of its thread's run: an M-pipe word, a mask step, a call or a return. -/
def actsBeyond (i : Instr) : Bool :=
  decide (pipeOf i = some .m) || writesMask i || (i matches .call ..) || (i matches .callr ..) || (i matches .ret)

/-- The word of a chain that holds the others back until its collective has completed, so that none of their effects remains where it traps (R31). -/
def holdsChain (ws : List Instr) : Option (Nat × Instr) :=
  if ws.any actsBeyond then (numbered 0 ws).find? fun p => mayTrapLate p.2 else none

/-- The chain has arrived at its collective with one word alone, and parks there; it issues again when the collective has completed
(notes/assumptions/13.md). -/
def parkArrived (s : State) : Host.Outcome State Fault Refusal → Option (Host.Outcome State Fault Refusal)
  | .next s' =>
    match s.th? s.cur, s'.th? s.cur with
    | some t, some t' =>
      if t'.waits.contains .collective && t.collDone.isNone then
        some (.next { s'.setTh s.cur { t with head := t.base, status := .parked .collective } with left := true })
      else none
    | _, _ => none
  | _ => none

/-- The rank of a slot's stop: the decode-time causes in the order of R48, which a header or a register may bring at issue, then every other. -/
def stopRank (s : State) : Nat :=
  match s.th? s.cur with
  | none => 5
  | some t =>
    match t.status with
    | .parked _ => 5
    | _ => ([cILLEGAL, cPRIV, cROLE, cWINDOW, cALIGN].map fun c => w64 c).findIdx (· == t.trapcause)

/-- The stop of a chain whose word stops in s, given what its later words come to: of two, that which R48 puts first, else the earlier. -/
def sooner (s : State) : Option (Host.Outcome State Fault Refusal) → State
  | some (.next s') => if stopRank s' < stopRank s then s' else s
  | _ => s

/-- The outcome of a word of a chain that traps or parks when it issues alone (R31, R48), if one does. -/
def firstStop (run : Instr → State → Host.Outcome State Fault Refusal) : Nat → List Instr → State → Option (Host.Outcome State Fault Refusal)
  | _, [], _ => none
  | k, i :: is, s =>
    match run i (enterWord s k) with
    | .next s' => if s'.left then some (.next (sooner s' (firstStop run (k + 1) is s))) else firstStop run (k + 1) is s
    | o => some o

/-- A word that begins with a release at DIE scope or wider (R200, R285, R288, R301, R302). -/
def releasesWide : Instr → Bool
  | .strl _ _ _ _ _ scope => decide (4 ≤ scope.toNat)
  | .fenceRel scope => decide (4 ≤ scope.toNat)
  | .fenceFull scope => decide (4 ≤ scope.toNat)
  | .latchArrive .. => true
  | .latchSync .. => true
  | .launch .. => true
  | .tlbiPage .. => true
  | .tlbiAsid .. => true
  | .tlbiAll .. => true
  | .invl => true
  | _ => false

/-- The releases of a chain are made before its words, and cover no access of the chain itself (R30, R197). -/
def releaseFirst (ws : List Instr) (s : State) : State :=
  let s := { s with released := true }
  if ws.any releasesWide then s.releaseWrites s.cur else s

/-- A chain issues as one instruction: a word that traps or parks leaves no effect of the others (R31). Each word is tried alone on the state before the
chain; when none stops there, they run one after another, and what stops one of them then is taken on the state before the chain too. -/
def runChain (run : Instr → State → Host.Outcome State Fault Refusal) (ws : List Instr) (s : State) : Host.Outcome State Fault Refusal :=
  match ws with
  | [i] => run i (enterWord s 0)
  | _ =>
    (firstStop run 0 ws s).getD
      (((holdsChain ws).bind fun p => parkArrived s (run p.2 (enterWord s p.1))).getD
        (backOut s (runWords run (chainOrder ws) (releaseFirst ws s))))

/-- The forced end of a run before the chain that would take the counter past 24 (R32). -/
def forceEnd (s : State) (u : Nat) : State := (s.modTh u fun t => t.endRun s.time).leaveGang u

/-- What retires after the words of a chain have run, unless the thread left its slot. -/
def finishSlot (c : Chain) : Host.Outcome State Fault Refusal → Host.Outcome State Fault Refusal
  | .next s => .next (afterSlot (if s.left then s else retire c s))
  | o => o

/-- One issue slot of thread u, alone: fetch, decode, run, retire. -/
def issueSlot (run : Instr → State → Host.Outcome State Fault Refusal) (s : State) (u : Nat) : Host.Outcome State Fault Refusal :=
  let s0 := { s with cur := u, word := 0, left := false, released := false }
  match s0.th? u with
  | none => .next s
  | some t =>
    match fetchPacket t.pc s0 with
    | .error e => .next (afterSlot (settleWord s0 (.error e)))
    | .ok (packet, s1) =>
      match chainAt (Prc.wc t.prc) (wordIdx t.pc) packet with
      | .error k => .next (afterSlot ({ s1 with word := k }.trapCur cILLEGAL 0 0))
      | .ok c =>
        if t.runCount ≠ 0 ∧ 24 < t.runCount + c.count then .next (forceEnd s1 u)
        else
          match chainCause (s1.gridOf t) t c.words with
          | some (k, cause, info) => .next (afterSlot ({ s1 with word := k }.trapCur cause 0 info))
          | none => finishSlot c (runChain run c.words s1)

/-! ### Going on after a park or a wait -/

/-- A pass or async ticket is done (R149, R226): kind, tid and sequence, for a team. -/
def State.ticketDone (s : State) (grid team kind tid seq : Nat) : Bool :=
  if kind = 1 then
    !(s.clusters.any fun c => c.2.table.any fun e => e.grid == grid && e.team == team && e.seq.toNat == seq)
  else
    !(s.cores.any fun c => c.2.ops.any fun o => o.grid == grid && o.team == team && o.tid == tid && o.seq.toNat == seq)

/-- The phase of a latch number on a die (R283). -/
abbrev State.latchPhase (s : State) (d num : Nat) : BitVec 16 := (AMap.get? (s.die d).phases num).getD 0

/-- The barriers of a thread's team, and of its cluster. -/
abbrev State.teamBar (s : State) (t : Thread) (num : Nat) : Barrier :=
  ((s.team? (teamKey t.grid t.team)).map fun x => x.bars.getD num {}).getD {}
abbrev State.clusterBar (s : State) (t : Thread) (num : Nat) : Barrier := (s.cluster (clusterKey t.die t.cluster)).bars.getD num {}

/-- A granted pass still uses the translations of its grant (R145, R301). -/
def State.usesLines (s : State) (key : Nat) : Bool := s.clusters.any fun c => c.2.table.any fun e => e.key == key && e.lines != []

/-- Some window of an address space is still to end (R176, R301). -/
def State.anyEnding (s : State) (asid : BitVec 16) : Bool := s.cores.any fun c => c.2.windows.any fun w => w.asid == asid && w.ending

/-- A wait of a thread has ended, except the waits that another agent removes (R275, R118). -/
def State.waitOver (s : State) (t : Thread) : Wait → Bool
  | .tbar n p => (s.teamBar t n).phase != p
  | .cbar n p => (s.clusterBar t n).phase != p
  | .latch n p => decide (0 < (s.latchPhase t.die n - p).toNat) && decide ((s.latchPhase t.die n - p).toNat < 2 ^ 15)
  | .mask .. => false
  | .collective => false
  | .time x => decide (x ≤ s.now t.die)
  | .tlbi ps asid => ps.all (fun key => !s.usesLines key) && (match asid with | some a => !s.anyEnding (BitVec.ofNat 16 a) | none => true)
  | .drain ts .. => ts.all fun x => s.ticketDone t.grid t.team x.1 x.2.1 x.2.2

/-- What the end of a wait does (R201, R140, R209): a barrier's completion acquires, and an observed ticket's writes count for later
releases. -/
def State.endWait (s : State) (u : Nat) : Wait → State
  | .tbar .. => s.acquire u 2 0
  | .cbar .. => s.acquire u 3 0
  | .latch .. => s.acquire u 5 0
  | _ => s

/-- The long results of a run return (R34), once a DRAIN of it is over (R233, R332). -/
def checkLongs (s : State) (u : Nat) : State :=
  s.modTh u fun t =>
    if t.status = .longs then
      { t with waits := t.waits.filter fun w => match w with | .drain .. => !s.waitOver t w | _ => true }.longsReturn s.time
    else t

/-- A waiting thread at its boundary (R34, R244): the waits that are over end, and with none left it is ready, or in the WAITC of its run. -/
def checkWaits (s : State) (u : Nat) : State :=
  match s.th? u with
  | none => s
  | some t =>
    let done := t.waits.filter (s.waitOver t)
    let s1 := done.foldl (fun s w => s.endWait u w) s
    s1.modTh u fun t' =>
      let ws := t.waits.filter fun w => !s.waitOver t w
      if t'.status ≠ .waiting then t'
      else if ws ≠ [] then { t' with waits := ws }
      else { t' with waits := [] }.wake s.time

/-- An earlier access to a window's front bank is still to be performed: another thread's, which waits on a line, or a fill that is under way, whoever began it
(R224, R176). -/
def State.windowWaits (s : State) (k u asid id : Nat) : Bool :=
  match (s.core k).windows.find? fun w => w.asid.toNat == asid && w.id == id with
  | none => false
  | some w =>
    let inside (l : Nat) : Bool := decide (w.soff ≤ 32 * l) && decide (32 * l < w.soff + w.bank)
    (s.threads.any fun p =>
      p.1 != u && coreKey p.2.die p.2.core == k && (s.gridOf p.2).asid == w.asid && p.2.lineWait.any inside)
      || (s.core k).lines.any fun p => inside p.1 && p.2.filling.isSome && p.2.pas != []

/-- The condition of a park now holds (R11). -/
def State.parkOver (s : State) (t : Thread) : Park → Bool
  | .replay tag => (AMap.get? (s.die t.die).records tag).isNone
  | .faultBufferFull => decide ((s.core (coreKey t.die t.core)).faults.length < 64)
  | .stashLine l => s.linePresent (coreKey t.die t.core) l || ((s.stashLine (coreKey t.die t.core) l).filling.isNone)
  | .window a i => !s.windowWaits (coreKey t.die t.core) t.key a i
  | .accLine l => !s.isAcc l
  | .reservation =>
    let tb := (s.cluster (clusterKey t.die t.cluster)).table
    decide (tb.length < 16) && decide ((tb.filter fun e => e.grid == t.grid && e.team == t.team).length < 8)
  | .footprint => decide ((s.core (coreKey t.die t.core)).ops.length < 32)
  | .conflict o => !((s.core (coreKey t.die t.core)).ops.any fun x => x.key == o)
  | .latchHeld n =>
    let x := (AMap.get? (s.core (coreKey t.die t.core)).latch n).getD {}
    !(decide (x.nexpect ≠ 0) && decide (x.ncount = x.nexpect))
  | .launchFull => decide ((s.grids.filter fun g => g.2.parent.isSome && !g.2.dispatched && g.1 / 2 ^ 26 == t.die).length < 16)
  | .until x => decide (x ≤ s.now t.die)
  | .answer x => ((AMap.get? s.pending x).map (·.reply.isSome)).getD true
  | .resend k => (AMap.get? s.nacked k).isNone
  | .collective => t.collDone.isSome

/-- A parked thread whose condition holds resumes, and issues its chain again (R11). -/
def resume (s : State) (u : Nat) : State :=
  match s.th? u with
  | some t =>
    match t.status with
    | .parked why => if s.parkOver t why then s.setTh u (t.wake s.time) else s
    | _ => s
  | none => s

/-- The words of the fill of a stash line arrive, and the accesses parked on it proceed (R171). -/
def finishFill (s : State) (die core line : Nat) : State :=
  let k := coreKey die core
  if (s.stashLine k line).filling.isNone ∨ (s.stashLine k line).pas = [] then s
  else
    match s.lineWindow k line with
    | none => s
    | some w =>
      match s.completeFill die core line w.ro with
      | none => s
      | some s' =>
        (s'.threads.filter fun p => p.2.die == die && p.2.core == core && p.2.status == .parked (.stashLine line)).foldl
          (fun s p => resume s p.1) s'

/-- Time passes where nobody can act. -/
abbrev State.tick (s : State) : State := { s with time := s.time + 1 }

end Sys2Proof.Machine
end

