-- ==== Sys2Proof/Machine/Float.lean ====
section
/-! DEFINITION. VF arithmetic, error-free pairs and conversions (R99 to R109), and the expression triple (R49 to R51, R117). -/
namespace Sys2Proof.Machine

/-- A VF value with its sign inverted, unless it is a NaN, which R63 delivers as it stands. -/
def Num.flip (x : Num) : Num := if x.isNan then x else x.negate

/-- A two-operand VF instruction (R99): sources read at their own classes, one rounding. -/
def vfOp2 (f : Bool → Num → Num → Exact) (d a b : Spec) (c : Nat) (md : Rnd) (long : Bool) : M Unit := do
  let prc ← readPrc
  let x ← readVf a
  let y ← readVf b
  let z := Prc.ftz prc
  deliver d c md (if long then none else classDist (maxClass c [x, y])) (f (decide (md = .rd)) (x.src z) (y.src z))

/-- A one-operand VF instruction (R99). -/
def vfOp1 (f : Rnd → Num → Exact) (d a : Spec) (rnd : BitVec 2) (cls : BitVec 4) : M Unit := do
  let prc ← readPrc
  let x ← readVf a
  let c := resultClass prc cls
  let md := roundMode prc rnd
  deliver d c md (classDist (maxClass c [x])) (f md (x.src (Prc.ftz prc)))

/-- A fused instruction (R99): always at prc.wc and prc.rm. -/
def vfOp3 (f : Bool → Num → Num → Num → Exact) (d a b e : Spec) : M Unit := do
  let prc ← readPrc
  let x ← readVf a
  let y ← readVf b
  let w ← readVf e
  let z := Prc.ftz prc
  let c := Prc.wc prc
  let md := Rnd.ofPrc (Prc.rm prc)
  deliver d c md (classDist (maxClass c [x, y, w])) (f (decide (md = .rd)) (x.src z) (y.src z) (w.src z))

/-! ### Arithmetic (R99, R101 to R103) -/

/-- FADD (R99). -/
def execFadd (d a b : Spec) (rnd : BitVec 2) (cls : BitVec 4) (s : State) : Host.Outcome State Fault Refusal :=
  runWord (.fadd d a b rnd cls) (do
    let prc ← readPrc
    vfOp2 (fun rd x y => exactAdd rd x y) d a b (resultClass prc cls) (roundMode prc rnd) false) s

/-- FSUB (R99): the subtrahend counts with its changed sign. -/
def execFsub (d a b : Spec) (rnd : BitVec 2) (cls : BitVec 4) (s : State) : Host.Outcome State Fault Refusal :=
  runWord (.fsub d a b rnd cls) (do
    let prc ← readPrc
    vfOp2 (fun rd x y => exactAdd rd x y.flip) d a b (resultClass prc cls) (roundMode prc rnd) false) s

/-- FMUL (R99). -/
def execFmul (d a b : Spec) (rnd : BitVec 2) (cls : BitVec 4) (s : State) : Host.Outcome State Fault Refusal :=
  runWord (.fmul d a b rnd cls) (do
    let prc ← readPrc
    vfOp2 (fun _ x y => exactMul x y) d a b (resultClass prc cls) (roundMode prc rnd) false) s

/-- FDIV (R102). Long. -/
def execFdiv (d a b : Spec) (rnd : BitVec 2) (cls : BitVec 4) (s : State) : Host.Outcome State Fault Refusal :=
  runWord (.fdiv d a b rnd cls) (do
    let prc ← readPrc
    vfOp2 (fun _ x y => exactDiv x y) d a b (resultClass prc cls) (roundMode prc rnd) true) s

/-- The operand that FMIN and its kin choose (R101), with the flag of a signalling NaN. -/
def exactMinMax (greater magnitude : Bool) (x y : Num) : Exact :=
  let (v, f) := chooseMinMax greater magnitude x y
  { x := v, flags := f }

/-- FMIN (R101). -/
def execFmin (d a b : Spec) (cls : BitVec 4) (s : State) : Host.Outcome State Fault Refusal :=
  runWord (.fmin d a b cls) (do
    let prc ← readPrc
    vfOp2 (fun _ x y => exactMinMax false false x y) d a b (resultClass prc cls) (Rnd.ofPrc (Prc.rm prc)) false) s

/-- FMAX (R101). -/
def execFmax (d a b : Spec) (cls : BitVec 4) (s : State) : Host.Outcome State Fault Refusal :=
  runWord (.fmax d a b cls) (do
    let prc ← readPrc
    vfOp2 (fun _ x y => exactMinMax true false x y) d a b (resultClass prc cls) (Rnd.ofPrc (Prc.rm prc)) false) s

/-- FMINM (R101). -/
def execFminm (d a b : Spec) (cls : BitVec 4) (s : State) : Host.Outcome State Fault Refusal :=
  runWord (.fminm d a b cls) (do
    let prc ← readPrc
    vfOp2 (fun _ x y => exactMinMax false true x y) d a b (resultClass prc cls) (Rnd.ofPrc (Prc.rm prc)) false) s

/-- FMAXM (R101). -/
def execFmaxm (d a b : Spec) (cls : BitVec 4) (s : State) : Host.Outcome State Fault Refusal :=
  runWord (.fmaxm d a b cls) (do
    let prc ← readPrc
    vfOp2 (fun _ x y => exactMinMax true true x y) d a b (resultClass prc cls) (Rnd.ofPrc (Prc.rm prc)) false) s

/-- FFMA (R99): a · b + c. -/
def execFfma (d a b e : Spec) (s : State) : Host.Outcome State Fault Refusal :=
  runWord (.ffma d a b e) (vfOp3 (fun rd x y w => exactFma rd x y w false) d a b e) s

/-- FFMS (R99): a · b − c. -/
def execFfms (d a b e : Spec) (s : State) : Host.Outcome State Fault Refusal :=
  runWord (.ffms d a b e) (vfOp3 (fun rd x y w => exactFma rd x y w.flip false) d a b e) s

/-- FNMA (R99): −(a · b) + c. -/
def execFnma (d a b e : Spec) (s : State) : Host.Outcome State Fault Refusal :=
  runWord (.fnma d a b e) (vfOp3 (fun rd x y w => exactFma rd x y w true) d a b e) s

/-! ### FUN (R104, R105) -/

/-- FABS and FNEG (R104): a NaN keeps its fraction and quiet bit, with no flag; another value is rounded. -/
def signOp (f : Num → Num) (d a : Spec) (rnd : BitVec 2) (cls : BitVec 4) : M Unit := do
  let prc ← readPrc
  let x ← readVf a
  let c := resultClass prc cls
  let md := roundMode prc rnd
  let dist := classDist (maxClass c [x])
  match f (x.src (Prc.ftz prc)) with
  | .nan n _ fr b => deliverVf d dist (keptNan c n fr b) {}
  | y => deliver d c md dist { x := y }

/-- FABS (R104). -/
def execFabs (d a : Spec) (rnd : BitVec 2) (cls : BitVec 4) (s : State) : Host.Outcome State Fault Refusal :=
  runWord (.fabs d a rnd cls) (signOp Num.abs d a rnd cls) s

/-- FNEG (R104). -/
def execFneg (d a : Spec) (rnd : BitVec 2) (cls : BitVec 4) (s : State) : Host.Outcome State Fault Refusal :=
  runWord (.fneg d a rnd cls) (signOp Num.negate d a rnd cls) s

/-- A value rounded to an integer under a mode (R83, R104); zeros keep their sign (notes/assumptions/7.md). -/
def exactRound (md : Rnd) : Num → Exact
  | .fin n m e =>
    if m = 0 then { x := .fin n m e }
    else
      let (k, inx) := toIntegral md n m e
      { x := .fin n k 0, flags := { inx := inx } }
  | .inf n => { x := .inf n }
  | x => { x := x, flags := snanFlag [x] }

/-- The exact significand of a value (R104 GETM). -/
def exactSignificand : Num → Exact
  | .fin n m e => if m = 0 then { x := .fin n m e } else { x := .fin n m (-(m.log2 : Int)) }
  | .inf _ => { x := madeNan, flags := { inv := true } }
  | x => { x := x, flags := snanFlag [x] }

/-- FRND (R104). -/
def execFrnd (d a : Spec) (rnd : BitVec 2) (cls : BitVec 4) (s : State) : Host.Outcome State Fault Refusal :=
  runWord (.frnd d a rnd cls) (vfOp1 (fun md x => exactRound md x) d a rnd cls) s

/-- The exponent that GETE returns, with its flags (R104). -/
def exponentOf : Num → Int × Flags
  | .fin n m e => if m = 0 then (-2 ^ 63, { div0 := true }) else ((Num.fin n m e).log2, {})
  | _ => (2 ^ 63 - 1, { inv := true })

/-- GETE (R104). -/
def execGete (d a : Spec) (s : State) : Host.Outcome State Fault Refusal :=
  runWord (.gete d a) (do
    let prc ← readPrc
    let x ← readVf a
    let (e, f) := exponentOf (x.src (Prc.ftz prc))
    raise f x.cls 0
    writeOp (classDist x.cls) d (BitVec.ofInt 64 e)) s

/-- GETM (R104). -/
def execGetm (d a : Spec) (rnd : BitVec 2) (cls : BitVec 4) (s : State) : Host.Outcome State Fault Refusal :=
  runWord (.getm d a rnd cls) (vfOp1 (fun _ x => exactSignificand x) d a rnd cls) s

/-- The bit that FCLASS sets (R105). -/
def classBit (v : Vf) : Nat :=
  match v.num with
  | .nan _ sig _ _ => if sig then 0 else 1
  | .inf n => if n then 2 else 9
  | .fin n m _ =>
    if m = 0 then (if n then 5 else 6)
    else if v.isSub then (if n then 4 else 7)
    else (if n then 3 else 8)

/-- FCLASS (R105): no flag, and FTZ does not change its answer. -/
def execFclass (d a : Spec) (s : State) : Host.Outcome State Fault Refusal :=
  runWord (.fclass d a) (do
    let v ← readVf a
    writeOp (classDist v.cls) d (w64 (2 ^ classBit v + v.cls * 1024))) s

/-- RECLASS (R104). -/
def execReclass (d a : Spec) (rnd : BitVec 2) (cls : BitVec 4) (s : State) : Host.Outcome State Fault Refusal :=
  runWord (.reclass d a rnd cls) (vfOp1 (fun _ x => { x := x, flags := snanFlag [x] }) d a rnd cls) s

/-! ### FCMP (R106) -/

/-- FCMP's conditions (R106); −0 equals +0. -/
def fcmpHolds (cond : Nat) (x y : Num) : Bool :=
  let un := x.isNan || y.isNan
  let o := Num.cmp x y
  match cond with
  | 0 => !un && decide (o = 0)
  | 1 => un || decide (o ≠ 0)
  | 2 => !un && decide (o < 0)
  | 3 => !un && decide (o ≤ 0)
  | 4 => !un && decide (0 < o)
  | 5 => !un && decide (0 ≤ o)
  | 6 => un
  | _ => !un

/-- FCMP (R106). -/
def execFcmp (cond p : BitVec 3) (a b : Spec) (comb : BitVec 3) (sig : Bool) (s : State) : Host.Outcome State Fault Refusal :=
  runWord (.fcmp cond p a b comb sig) (do
    let prc ← readPrc
    let x ← readVf a
    let y ← readVf b
    let u := x.src (Prc.ftz prc)
    let v := y.src (Prc.ftz prc)
    raise { inv := u.isSnan || v.isSnan || (sig && (u.isNan || v.isNan)) } (max x.cls y.cls) 0
    writePred p.toNat (combinePred comb.toNat (← readPred p.toNat) (fcmpHolds cond.toNat u v))) s

/-! ### Error-free pairs (R107) -/

/-- s, e and the flags of FTWO for an exact x (R107), less PX. Where a finite x overflows, e = s is not x − s, and INX stays; for an x that is infinite or a
NaN no INX arises (notes/assumptions/7.md). -/
def twoParts (c : Nat) (ftz : Bool) (x : Num) : Vf × Vf × Flags :=
  let (s, fs) := roundTo c .rne ftz x
  match x, s.num with
  | .fin n m e, .fin n' m' e' =>
    let (r, fe) := roundTo c .rne ftz (Num.addFin false n m e (!n') m' e')
    (s, r, { (fs.or fe) with inx := fe.inx })
  | .fin .., _ => (s, s, { fs with inx := true })
  | _, _ => (s, s, { fs with inx := false })

/-- FTWO (R107): s is written first, then e. -/
def twoOp (product : Bool) (d a b : Spec) (cls : BitVec 4) : M Unit := do
  let prc ← readPrc
  let x ← readVf a
  let y ← readVf b
  let c := resultClass prc cls
  let z := Prc.ftz prc
  let ex := if product then exactMul (x.src z) (y.src z) else exactAdd false (x.src z) (y.src z)
  let (u, v, f) := twoParts c z ex.x
  let px := pxHolds (Prc.floor prc) ex.addends ex.x c
  let fl := (f.or ex.flags).or { px := (px.map Prod.snd).getD false }
  checkReach d (2 * slotsOf c)
  raise fl c (keptField px)
  let dist := classDist (maxClass c [x, y])
  if d = 0 then
    writeOps dist d (vfToSlots u)
    writeOps dist d (vfToSlots v)
  else writeOps dist d (vfToSlots u ++ vfToSlots v)

/-- TWOSUM (R107). -/
def execTwosum (d a b : Spec) (cls : BitVec 4) (s : State) : Host.Outcome State Fault Refusal :=
  runWord (.twosum d a b cls) (twoOp false d a b cls) s

/-- TWOPROD (R107). -/
def execTwoprod (d a b : Spec) (cls : BitVec 4) (s : State) : Host.Outcome State Fault Refusal :=
  runWord (.twoprod d a b cls) (twoOp true d a b cls) s

/-! ### Conversions (R80 to R83, R108, R109) -/

/-- The integer of a CVT type code in a slot (R78, R109). -/
def integerOf (ty : Nat) (x : Word) : Int :=
  let w := 8 * 2 ^ (ty % 4)
  if ty < 8 then (BitVec.ofNat w x.toNat).toInt else (x.toNat % 2 ^ w : Nat)

/-- The range of a CVT integer type (R78, R83). -/
def integerRange (ty : Nat) : Int × Int :=
  let w := 8 * 2 ^ (ty % 4)
  if ty < 8 then (-2 ^ (w - 1), 2 ^ (w - 1) - 1) else (0, 2 ^ w - 1)

/-- The exact source of CVTIN (R109). -/
def convertSource (ty : Nat) (x : Word) : Exact :=
  if ty < 4 then
    let v := ieeeNum ty (x.toNat % 2 ^ (ieeeFmt ty).2.1)
    { x := v, flags := snanFlag [v] }
  else { x := Num.ofInt (integerOf ty x) }

/-- CVTIN (R109). -/
def execCvtin (d a : Spec) (ty : BitVec 4) (rnd : BitVec 2) (cls : BitVec 4) (s : State) : Host.Outcome State Fault Refusal :=
  runWord (.cvtin d a ty rnd cls) (do
    let prc ← readPrc
    let x ← readOp a
    let c := resultClass prc cls
    deliver d c (roundMode prc rnd) (classDist c) (convertSource ty.toNat x)) s

/-- The result of CVTOUT (R81, R83, R109): the slot and the flags. -/
def convertOut (ty : Nat) (md : Rnd) (x : Num) : Word × Flags :=
  if ty < 4 then
    let (v, f) := toIeee ty md x
    (w64 v, f.or (snanFlag [x]))
  else
    let (lo, hi) := integerRange ty
    let (n, f) := toInteger lo hi md x
    (BitVec.ofInt 64 n, f)

/-- CVTOUT (R109). With FTZ a subnormal source is flushed also for an IEEE result, as the input flush of R67 has it; the last bullet of R67 and R81, which take
FTZ from IEEE results, are read as being about the result alone (notes/assumptions/20.md). -/
def execCvtout (d a : Spec) (ty : BitVec 4) (rnd : BitVec 2) (s : State) : Host.Outcome State Fault Refusal :=
  runWord (.cvtout d a ty rnd) (do
    let prc ← readPrc
    let x ← readVf a
    let (v, f) := convertOut ty.toNat (roundMode prc rnd) (x.src (Prc.ftz prc))
    raise f x.cls 0
    writeOp (classDist x.cls) d v) s

/-! ### FSCL (R103) -/

/-- The exact value of FSCL (R103): n beyond ±2^20 counts as ±2^20. -/
def exactScale (x : Num) (n : Int) : Exact :=
  let k := max (-1048576) (min 1048576 n)
  match x with
  | .fin neg m e => if m = 0 then { x := x } else { x := .fin neg m (e + k) }
  | _ => { x := x, flags := snanFlag [x] }

/-- FSCL (R103). -/
def execFscl (d a b : Spec) (rnd : BitVec 2) (cls : BitVec 4) (s : State) : Host.Outcome State Fault Refusal :=
  runWord (.fscl d a b rnd cls) (do
    let prc ← readPrc
    let x ← readVf a
    let n ← readOp b
    let c := resultClass prc cls
    deliver d c (roundMode prc rnd) (classDist (maxClass c [x])) (exactScale (x.src (Prc.ftz prc)) n.toInt)) s

/-! ### The expression triple (R50, R51, R117) -/

/-- The exact result of an operator on its pops, deepest first (R117), and whether the value is kept unrounded as a NaN of FABS and FNEG. -/
def tripleExact (rd : Bool) (tok : Nat) (x y z : Num) : Exact :=
  match tok with
  | 5 => exactAdd rd x y
  | 6 => exactAdd rd x y.flip
  | 7 => exactMul x y
  | 8 => exactFma rd x y z false
  | 9 => exactMinMax false false x y
  | 10 => exactMinMax true false x y
  | 11 => { x := x.abs }
  | 12 => { x := x.negate }
  | _ =>
    let v := if !x.isNan && !x.isZero && !x.neg then y else z
    { x := v, flags := snanFlag [x, y, z] }

/-- The triple's machine: its stack (top first), the flags gathered, and kept of the first operator at which PX held. -/
structure Triple where
  stack : List Vf := []
  flags : Flags := {}
  kept : Option Nat := none
  deriving DecidableEq, Repr, Inhabited

/-- One operator with p pops: the result is rounded once at the working class (R117). -/
def tripleOperate (prc : Word) (tok p : Nat) (t : Triple) : Triple :=
  let c := Prc.wc prc
  let md := Rnd.ofPrc (Prc.rm prc)
  let z := Prc.ftz prc
  let args := (t.stack.take p).reverse.map (·.src z)
  let ex := tripleExact (decide (md = .rd)) tok (args.getD 0 (.zero false)) (args.getD 1 (.zero false)) (args.getD 2 (.zero false))
  let o : VfOut :=
    match tok, ex.x with
    | 11, .nan n _ fr b => { val := keptNan c n fr b, flags := {} }
    | 12, .nan n _ fr b => { val := keptNan c n fr b, flags := {} }
    | _, _ => finishVf c md z (Prc.floor prc) ex
  { stack := o.val :: t.stack.drop p, flags := t.flags.or o.flags,
    kept := if t.kept.isNone && o.flags.px then some o.kept else t.kept }

/-- One token (R50, R117). -/
def tripleToken (prc : Word) (ins : List Vf) (t : Triple) (tok : Nat) : Triple :=
  if tok = 0 then t
  else if tok ≤ 4 then { t with stack := ins.getD (tok - 1) default :: t.stack }
  else if tok = 13 then { t with stack := t.stack.headD default :: t.stack }
  else if tok = 14 then { t with stack := t.stack.getD 1 default :: t.stack.headD default :: t.stack.drop 2 }
  else tripleOperate prc tok (tokenShape tok).1 t

/-- XPR (R117): only the inputs that a push token names are read (R51). kept of a trap is 0 where PX was evaluated and held at no operator: R117 names only the
first at which it held (notes/assumptions/20.md). A lone push of an input of class prc.wc leaves it bit for bit, a subnormal and a signalling NaN too, and raises no flag:
no operation acts on it, so that neither FTZ nor R63 does; an input of another class is converted (notes/assumptions/7.md). -/
def execXpr (in0 in1 in2 in3 : Spec) (s : State) : Host.Outcome State Fault Refusal :=
  runWord (.xpr in0 in1 in2 in3) (do
    let t ← cur
    let prc ← readPrc
    let packet ← fetchPacket t.pc
    let toks := tokensOf (packet.getD 1 0) (packet.getD 2 0)
    if !tripleOk packet || !tokensOk 0 0 toks then trap cILLEGAL
    let specs := [in0, in1, in2, in3]
    let ins ← (List.range 4).mapM fun i => do
      if toks.contains (i + 1) then readVf (specs.getD i 0) else pure default
    let r := toks.foldl (tripleToken prc ins) {}
    let v := r.stack.headD default
    -- a value of another class, which no operator rounded, is pushed at prc.wc like the rest
    let out := if v.cls = Prc.wc prc then (v, r.flags)
      else
        let o := finishVf (Prc.wc prc) (Rnd.ofPrc (Prc.rm prc)) (Prc.ftz prc) 0
          { x := v.src (Prc.ftz prc), flags := snanFlag [v.src (Prc.ftz prc)] }
        (o.val, r.flags.or o.flags)
    checkReach 0 (slotsOf out.1.cls)
    raise out.2 out.1.cls (r.kept.getD 0)
    writeOps none 0 (vfToSlots out.1)) s

end Sys2Proof.Machine
end

