-- ==== Sys2Proof/Machine/Masks.lean ====
section
/-! DEFINITION. Group masks and reconvergence (R243, R244, R273 to R275). A mask step acts on the group's masks at once; the thread that issued it goes on
seeing the mask without it until its boundary (notes/assumptions/20.md). -/
namespace Sys2Proof.Machine

/-- Mask mk of a group. -/
abbrev Group.mask (g : Group) (k : Nat) : Word := vget g.m k

/-- What a mask step makes of a mask. -/
def MaskWrite.on (w : MaskWrite) (x : Word) : Word := (x &&& ~~~w.clr) ||| w.set

namespace State

/-- The threads of a group, with their keys. -/
def groupThreads (s : State) (gk : Nat) : List (Nat × Thread) :=
  s.threads.filter fun p => !p.2.isCond && grpKey p.2.grid p.2.team p.2.grp == gk

/-- The waiters on mk: key, re-arm mask and order of their WAITM steps. -/
def maskWaiters (s : State) (gk k : Nat) : List (Nat × Nat × Nat) :=
  (s.groupThreads gk).filterMap fun p =>
    (p.2.waits.findSome? fun w => match w with | .mask k' j o => if k' = k then some (j, o) else none | _ => none).map
      fun x => (p.1, x.1, x.2)

/-- Change what the threads of a group that have written mk in their runs see of it. -/
def modViews (s : State) (gk k : Nat) (f : Thread → Word → Option Word) : State :=
  (s.groupThreads gk).foldl (fun s p =>
    match AMap.get? p.2.views k with
    | some v => s.setTh p.1 { p.2 with views := AMap.set p.2.views k (f p.2 v) }
    | none => s) s

/-- A mask step is applied (R243): on the mask, and on what the other threads of the group see where their runs have written that mask. -/
def applyMask (s : State) (gk : Nat) (w : MaskWrite) : State :=
  let g := s.group gk
  (s.setGroup gk { g with m := vset g.m w.k (w.on (g.mask w.k)) }).modViews gk w.k fun t v => some (if t.tid = w.tid then v else w.on v)

/-- The step's issuer sees the mask as it was until its boundary (R37). -/
def keepView (s : State) (gk : Nat) (w : MaskWrite) : State :=
  s.modTh s.cur fun t =>
    if (AMap.get? t.views w.k).isSome then t else { t with views := AMap.put t.views w.k ((s.group gk).mask w.k) }

/-- A mask step's write: one to the mask of an open collective waits until that completes (R118). -/
def writeMask (s : State) (gk : Nat) (w : MaskWrite) : State :=
  let s := s.keepView gk w
  let g := s.group gk
  if g.opens.any (·.k == w.k) then s.setGroup gk { g with held := g.held ++ [w] } else s.applyMask gk w

end State

/-- A thread whose WAITM on mk is over: with no other wait it is ready (R244). -/
def Thread.maskOver (t : Thread) (k now : Nat) : Thread :=
  let ws := t.waits.filter fun w => match w with | .mask k' _ _ => k' != k | _ => true
  let t' := { t with waits := ws }
  if t.status = .waiting ∧ ws = [] then t'.wake now else t'

/-- The earliest of a list of waiters. -/
def earliest : List (Nat × Nat × Nat) → Option (Nat × Nat × Nat)
  | [] => none
  | w :: ws =>
    match earliest ws with
    | none => some w
    | some v => if w.2.2 < v.2.2 then some w else some v

/-- The check of R275 on one mask. The re-armed mask is no thread's own write, and everyone sees it. -/
def maskCheck1 (s : State) (gk k : Nat) : State :=
  let ws := s.maskWaiters gk k
  let g := s.group gk
  match earliest ws with
  | none => s
  | some (_, j, _) =>
    if g.mask k &&& g.mask 0 = 0 then
      let s1 := (s.setGroup gk { g with m := vset g.m k (g.mask j) }).modViews gk k fun _ _ => none
      ws.foldl (fun s w => s.modTh w.1 fun t => t.maskOver k s.time) s1
    else s

/-- The check of R275 on every mask of a group. -/
def maskCheck (s : State) (gk : Nat) : State := (List.range 12).foldl (fun s k => maskCheck1 s gk k) s

/-- The group of the running thread. -/
abbrev State.curGroup (s : State) : Nat := let t := (s.th? s.cur).getD noThread; grpKey t.grid t.team t.grp

/-- Mask mk as the running thread sees it (R37, R243). -/
def readMask (k : Nat) : M Word := do return (← cur).seesMask k (((← get).group (← get).curGroup).mask k)

/-- One mask step of the running thread on mk (R243), and the check after it (R275). -/
def maskStep (k : Nat) (clr set : Word) : M Unit := modify fun s =>
  maskCheck (s.writeMask s.curGroup ⟨((s.th? s.cur).getD noThread).tid, k, clr, set⟩) s.curGroup

/-- The bit of a thread in its group's masks. -/
abbrev Thread.bit (t : Thread) : Word := 1#64 <<< t.lane

/-- JOIN (R273). -/
def execJoin (k : BitVec 4) (s : State) : Host.Outcome State Fault Refusal :=
  runWord (.join k) (do maskStep k.toNat 0 (← cur).bit) s

/-- LEAVE (R273). -/
def execLeave (k : BitVec 4) (s : State) : Host.Outcome State Fault Refusal :=
  runWord (.leave k) (do maskStep k.toNat (← cur).bit 0) s

/-- WAITM (R273 to R275): a clear bit raises COLLECTIVE, code 4. -/
def execWaitm (k j : BitVec 4) (s : State) : Host.Outcome State Fault Refusal :=
  runWord (.waitm k j) (do
    let t ← cur
    let v ← readMask k.toNat
    if v &&& t.bit = 0 then trap cCOLLECTIVE 0 4
    let s ← get
    set s.freshen
    modCur fun t => { t with waits := t.waits ++ [.mask k.toNat j.toNat s.fresh] }
    maskStep k.toNat t.bit 0) s

/-- MGET (R273): the mask after every step applied before this one, but for the thread's own of this run (R243). -/
def execMget (d : Spec) (k : BitVec 4) (s : State) : Host.Outcome State Fault Refusal :=
  runWord (.mget d k) (do writeOp none d (← readMask k.toNat)) s

/-- MSET (R273). -/
def execMset (a : Spec) (k : BitVec 4) (s : State) : Host.Outcome State Fault Refusal :=
  runWord (.mset a k) (do maskStep k.toNat (BitVec.allOnes 64) (← readOp a)) s

/-- MSAVE (R273): mj := mk. -/
def execMsave (k j : BitVec 4) (s : State) : Host.Outcome State Fault Refusal :=
  runWord (.msave k j) (do maskStep j.toNat (BitVec.allOnes 64) (← readMask k.toNat)) s

/-- MRST (R273): mk := m0. -/
def execMrst (k : BitVec 4) (s : State) : Host.Outcome State Fault Refusal :=
  runWord (.mrst k) (do maskStep k.toNat (BitVec.allOnes 64) (← readMask 0)) s

end Sys2Proof.Machine
end

