-- ==== Sys2Proof/Machine/CrossLane.lean ====
section
/-! DEFINITION. Collectives over a group's mask (R118 to R121, R157): arrival, completion, and what each gives its participants. -/
namespace Sys2Proof.Machine

/-! ### What a completed collective gives a participant -/

/-- The result at one participant: its slots, and flags with class and kept for a trap. -/
structure CollResult where
  vals : List Word
  flags : Flags := {}
  cls : Nat := 0
  kept : Nat := 0
  deriving DecidableEq, Repr, Inhabited

/-- The arrival at a lane. -/
def atLane (xs : List Arrival) (v : Nat) : Option Arrival := xs.find? fun x => x.lane == v

/-- Combine neighbours (R121): an absent value leaves the other. -/
def pairUp {β : Type} (f : β → β → β) : List (Option β) → List (Option β)
  | some x :: some y :: r => some (f x y) :: pairUp f r
  | some x :: none :: r => some x :: pairUp f r
  | none :: y :: r => y :: pairUp f r
  | r => r

/-- The fixed tree of R121 over 64 lanes. -/
def tree {β : Type} (f : β → β → β) (xs : List (Option β)) : Option β :=
  ((List.range 6).foldl (fun t _ => pairUp f t) xs).headD none

/-- Integer Combine of R120. -/
def combineInt (op : Nat) (x y : Word) : Word :=
  match op with
  | 0 => x + y
  | 1 => if x.slt y then x else y
  | 2 => if y.slt x then x else y
  | 3 => if x.ult y then x else y
  | 4 => if y.ult x then x else y
  | 5 => x &&& y
  | 6 => x ||| y
  | _ => x ^^^ y

/-- Integer identity of R120. -/
def identityInt (op : Nat) : Word :=
  match op with
  | 1 => BitVec.intMax 64
  | 2 => BitVec.intMin 64
  | 3 => BitVec.allOnes 64
  | 5 => BitVec.allOnes 64
  | _ => 0

/-- Floating Combine of R120 at the class and mode of the lowest participant, whose prc it is given; the flags raised so far ride along. -/
def combineVf (op : Nat) (prc : Word) (x y : Vf × Flags) : Vf × Flags :=
  let c := Prc.wc prc
  let md := Rnd.ofPrc (Prc.rm prc)
  let z := Prc.ftz prc
  let a := x.1.src z
  let b := y.1.src z
  let ex := if op = 8 then { exactAdd (decide (md = .rd)) a b with addends := [] } else exactMinMax (decide (op = 10)) false a b
  let (v, f) := roundTo c md z ex.x
  (v, ((x.2.or y.2).or f).or ex.flags)

/-- Floating identity of R120 at class c. -/
def identityVf (op c : Nat) : Vf :=
  if op = 8 then Vf.zero c true else Vf.infinity c (decide (op = 10))

/-- The values of the participants at lanes below `stop`, by lane. -/
def laneVals {β : Type} (f : Arrival → β) (xs : List Arrival) (stop : Nat) : List (Option β) :=
  (List.range 64).map fun v => if v < stop then (atLane xs v).map f else none

/-- A participant's value as a floating tree holds it: read as R67 and R63 read a source, flushed, and a signalling NaN quieted with its flag; no
Combine has rounded it, and it keeps its class (R121). -/
def treeLeaf (ftz : Bool) (v : Vf) : Vf × Flags :=
  let x := v.src ftz
  (match x with
   | .nan n _ f b => quietNan v.cls n f b
   | .fin n m _ => if m = 0 then Vf.zero v.cls n else v
   | .inf _ => v, snanFlag [x])

/-- GRED and GSCAN for a reader that takes the lanes below `stop` (R121). -/
def treeResult (op : Nat) (xs : List Arrival) (stop : Nat) : CollResult :=
  if op < 8 then
    { vals := [(tree (combineInt op) (laneVals (fun x => x.a.headD 0) xs stop)).getD (identityInt op)] }
  else
    let prc := (xs.headD { lane := 0, prc := 0, slot := 0 }).prc
    let r := match xs.filter fun x => decide (x.lane < stop) with
      | [x] => treeLeaf (Prc.ftz prc) (vfOfSlots x.a)
      | _ => (tree (combineVf op prc) (laneVals (fun x => (vfOfSlots x.a, ({} : Flags))) xs stop)).getD (identityVf op (Prc.wc prc), {})
    { vals := vfToSlots r.1, flags := r.2, cls := r.1.cls }

/-- One step of CMMA's sum (R157): the accumulator, its flags, and kept of the first step at which PX held. R157 has CMMA evaluate PX with the participant's
floor, although it is not in R73's list (notes/assumptions/20.md). -/
def cmmaStep (c : Nat) (md : Rnd) (ftz : Bool) (floor : Nat) (acc : Vf × Flags × Option Nat) (ab : Num × Num) : Vf × Flags × Option Nat :=
  let o := finishVf c md ftz floor (exactFma (decide (md = .rd)) ab.1 ab.2 (acc.1.src ftz) false)
  (o.val, acc.2.1.or o.flags, if acc.2.2.isNone && o.flags.px then some o.kept else acc.2.2)

/-- CMMA at one participant (R157): eight fused steps in ascending k at the lowest participant's class and mode. -/
def cmmaResult (xs : List Arrival) (x : Arrival) : CollResult :=
  let low := (xs.headD x).prc
  let c := Prc.wc low
  let md := Rnd.ofPrc (Prc.rm low)
  let z := Prc.ftz x.prc
  let elem (f : Arrival → List Word) (v : Nat) : Num := ((atLane xs v).map fun y => (vfOfSlots (f y)).src z).getD (.zero false)
  let i := x.lane / 8
  let j := x.lane % 8
  let r := (List.range 8).foldl (fun acc k => cmmaStep c md z (Prc.floor x.prc) acc (elem (·.a) (8 * i + k), elem (·.b) (8 * k + j)))
    (vfOfSlots x.c, {}, none)
  { vals := vfToSlots r.1, flags := r.2.1, cls := c, kept := r.2.2.getD 0 }

/-- One slot. -/
abbrev oneSlot (v : Word) : CollResult := { vals := [v] }

/-- The own value of a reader, or that of another participant (R119). -/
def pulled (xs : List Arrival) (x : Arrival) (v : Nat) : CollResult := oneSlot (((atLane xs v).getD x).a.headD 0)

/-- The size of an aligned segment: s = min(b, 6) (R119). -/
abbrev segment (x : Arrival) : Nat := 2 ^ min (x.b.headD 0).toNat 6

/-- What a completed collective gives a participant; the participants stand in ascending lane (R119, R121, R157). -/
def collResult (i : Instr) (xs : List Arrival) (x : Arrival) : CollResult :=
  let p := xs.length
  let hold := xs.filter (·.pred)
  match i with
  | .xpull .. => pulled xs x (x.b.headD 0).toNat
  | .xrank .. =>
    let r : Int := (xs.findIdx fun y => y.lane == x.lane : Nat)
    oneSlot (((xs.getD ((r + (x.b.headD 0).toInt) % p).toNat x).a).headD 0)
  | .xsegb .. =>
    let k := x.lane / segment x
    oneSlot (((xs.find? fun y => y.lane / segment x == k).getD x).a.headD 0)
  | .xrev .. =>
    let n := segment x
    pulled xs x (x.lane - x.lane % n + (n - 1 - x.lane % n))
  | .xcount .. => oneSlot (w64 (hold.length + 256 * p))
  | .xfirst .. => oneSlot (w64 ((hold.head?.map (·.lane)).getD 64))
  | .xmask .. => oneSlot (w64 (hold.foldl (fun m y => m + 2 ^ y.lane) 0))
  | .gbcast .. => oneSlot ((xs.headD x).a.headD 0)
  | .gred _ _ op _ => treeResult op.toNat xs 64
  | .gscan _ _ op excl _ => treeResult op.toNat xs (if excl then x.lane else x.lane + 1)
  | .cmma .. => cmmaResult xs x
  | _ => oneSlot 0

/-- The destination of a collective. -/
def collDest : Instr → Spec
  | .xpull d _ _ _ => d
  | .xrank d _ _ _ => d
  | .xsegb d _ _ _ => d
  | .xrev d _ _ _ => d
  | .xcount d _ _ _ => d
  | .xfirst d _ _ _ => d
  | .xmask d _ _ _ => d
  | .gbcast d _ _ => d
  | .gred d _ _ _ => d
  | .gscan d _ _ _ _ => d
  | .cmma d _ _ _ => d
  | _ => 0

/-! ### Completion -/

/-- Results into a run at the place that the arrival left, or straight into the files of a thread whose run has been written. -/
def Thread.placeResults (t : Thread) (slot : Nat) (ps : List (Target × Word)) : Thread :=
  if t.run.any fun p => p.slot == slot && p.tgt == .place then
    { t with run := t.run.flatMap fun p =>
        if p.slot == slot && p.tgt == .place then (ps.reverse.map fun x => { p with tgt := x.1, val := x.2 }) else [p] }
  else ps.foldl (fun t p => t.commit p.1 p.2) t

/-- The wait of an arrived thread is over. -/
def Thread.dropCollective (t : Thread) : Thread := { t with waits := t.waits.filter fun w => decide (w ≠ .collective) }

/-- The results of the chain of an issue slot, whose collective traps, are withdrawn (R31): the places that it pushed go from the queue. -/
def Thread.withdraw (t : Thread) (slot : Nat) (tgts : List Target) : Thread :=
  let places := (tgts ++ (t.run.filter fun p => p.slot == slot).map (·.tgt)).filterMap fun g =>
    match g with | .ring r => some ((r + 16 - t.head % 16) % 16) | _ => none
  let t' := { t with run := t.run.filter fun p => p.slot != slot }
  if places = [] then t' else t'.respace ((t.head + places.foldl min 15) % 16) (places.eraseDups.length : Nat)

/-- A trap of a participant at its completed collective (R31, R71): no result of its chain is written, the other slots of its run that have retired are
(notes/assumptions/13.md). The running thread, which has just arrived, leaves its slot. -/
def trapAt (s : State) (u : Nat) (x : Arrival) (col : Collective) (cause : Nat) (info : Word) : State :=
  let issuing := decide (u = s.cur) && decide (x.slot = ((s.th? u).getD noThread).slot) && decide (((s.th? u).getD noThread).status = .ready)
  let trapped (t : Thread) : Thread :=
    (if issuing then { t with run := t.run.filter fun p => p.slot != x.slot } else t.withdraw x.slot x.tgt).takeTrap (s.gridOf t) s.time cause col.pc 0
      (info ||| w64 (col.idx * 2 ^ 24))
  ({ s with left := s.left || issuing }.modTh u trapped).leaveGang u

/-- The places that a push reserved, made as many as its result takes. -/
def Thread.fitPush (t : Thread) (tgts : List Target) (n : Nat) : Thread × List Target :=
  match tgts with
  | .ring r :: _ =>
    if tgts.length = n then (t, tgts)
    else
      let e : Int := (tgts.length : Int) - n
      (t.respace r e, (List.range n).map fun i => .ring ((((r : Int) + e + i) % 16).toNat))
  | _ => (t, tgts)

/-- One participant of a completed collective takes its result, or its trap (R71, R118, R157); one whose chain had parked there finds either when the chain
issues again (R31). -/
def takeResult (xs : List Arrival) (base : Nat) (col : Collective) (s : State) (x : Arrival) : State :=
  let u := base + x.lane
  let s := s.modTh u Thread.dropCollective
  match s.th? u with
  | none => s
  | some t =>
    let r := collResult col.instr xs x
    let d := (collDest col.instr).toNat
    let stop : Option (Nat × Word) :=
      if 16 ≤ d ∧ (s.gridOf t).len t.tid < d - 16 + r.vals.length then some (cWINDOW, windowInfo d false)
      else (trapCause x.prc r.flags).map fun c => (c, arithInfo r.flags r.cls r.kept)
    if t.status = .parked .collective then
      s.setTh u ({ t with collDone := some ⟨stop, r.vals, w64 r.flags.bits⟩ }.wake s.time)
    else
      match stop with
      | some (c, info) => trapAt s u x col c info
      | none =>
        let n := r.vals.length
        let (t', tgts) := if 16 ≤ d then (t, (List.range n).map fun i => Target.named (d - 16 + i)) else t.fitPush x.tgt n
        let st := if r.flags = {} then [] else [(Target.sticky, w64 r.flags.bits)]
        s.setTh u (t'.placeResults x.slot (tgts.zip r.vals ++ st))

/-- The participants of an open collective: bits set in mk as read and in m0 (R118). -/
abbrev Collective.parts (c : Collective) (g : Group) : Word := c.mask &&& g.mask 0

/-- Arrivals in ascending lane. -/
def insertArrival (x : Arrival) : List Arrival → List Arrival
  | [] => [x]
  | y :: ys => if x.lane < y.lane then x :: y :: ys else y :: insertArrival x ys

/-- Mask steps that waited for a collective take effect, in their order (R118). -/
def State.settleHeld (s : State) (gk : Nat) : State :=
  let g := s.group gk
  let waits (w : MaskWrite) : Bool := g.opens.any (·.k == w.k)
  (g.held.filter fun w => !waits w).foldl (fun s w => s.applyMask gk w) (s.setGroup gk { g with held := g.held.filter waits })

/-- Complete a group's collectives whose participants have all arrived (R118). -/
def collCheck (s : State) (gk : Nat) : State :=
  let g := s.group gk
  let arrived (c : Collective) : Word := w64 (c.arrived.foldl (fun m x => m + 2 ^ x.lane) 0)
  match g.opens.find? fun c => c.parts g &&& ~~~arrived c == 0 with
  | none => s
  | some c =>
    let s1 := (s.setGroup gk { g with opens := g.opens.filter (· ≠ c) }).settleHeld gk
    -- the key of lane 0 of the group
    let base := gk / 16 * 2048 + 64 * (gk % 16)
    maskCheck (c.arrived.foldl (takeResult c.arrived base c) s1) gk

/-- The key of an instruction's kind: the same opcode and operation (R118). -/
def sameKind (i j : Instr) : Bool := i.ctorIdx == j.ctorIdx

/-- A chain that had parked at its collective takes the outcome as it issues again (R31). -/
def takeDone (d : Spec) (r : CollDone) : M Unit := do
  match r.trap with
  | some (c, info) => trap c 0 info
  | none => do
    writeOps none d r.vals
    if r.flags ≠ 0 then modCur fun t => t.produce none .sticky r.flags

/-- Arrive at a collective over mk (R118). `push` is how many slots a push of the result takes. -/
def arriveNew (i : Instr) (k push : Nat) (x : Arrival) : M Unit := do
  let t ← cur
  let s ← get
  let gk := grpKey t.grid t.team t.grp
  let g := s.group gk
  let mk ← readMask k
  if mk &&& t.bit = 0 then trap cCOLLECTIVE 0 1
  let mine := g.opens.filter fun c => c.parts g &&& t.bit ≠ 0
  if mine.any fun c => !(sameKind c.instr i && c.pc == t.pc && c.idx == s.word && c.k == k) then trap cCOLLECTIVE 0 2
  let d := collDest i
  let gs ← if d.toNat < 16 then reserve d push else pure []
  modCur fun t => { t.produce none .place 0 with waits := t.waits ++ [.collective] }
  let y := { x with lane := t.lane, slot := t.slot, prc := t.prc, tgt := gs }
  modify fun s =>
    let g := s.group gk
    let opens :=
      match mine with
      | c :: _ => g.opens.map fun o => if o = c then { o with arrived := insertArrival y (o.arrived.filter fun z => z.lane != y.lane) } else o
      | [] => g.opens ++ [{ instr := i, pc := t.pc, idx := s.word, mask := mk, k := k, arrived := [y] }]
    collCheck (s.setGroup gk { g with opens := opens }) gk

/-- Arrive at a collective over mk, or take the outcome of the one at which the chain had parked (R31, R118). -/
def arrive (i : Instr) (k push : Nat) (x : Arrival) : M Unit := do
  match (← cur).collDone with
  | some r => takeDone (collDest i) r
  | none => arriveNew i k push x

/-- An arrival not yet placed. -/
abbrev bare : Arrival := { lane := 0, prc := 0, slot := 0 }

/-- Slots of a floating result at the class of the lowest participant, as its prc stands now (R120); a result that takes another number of slots finds its
places at the completion (notes/assumptions/13.md). -/
def lowestSlots (k : Nat) : M Nat := do
  let t ← cur
  let s ← get
  let g := s.group (grpKey t.grid t.team t.grp)
  let m := (← readMask k) &&& g.mask 0
  let low := ((List.range 64).find? fun v => bitAt m v).getD t.lane
  return slotsOf (Prc.wc ((s.th? (thKey t.grid t.team (64 * t.grp + low))).getD t).prc)

/-! ### XLANE (R119) -/

/-- A form that moves one slot. -/
def moveOp (i : Instr) (a b : Spec) (k : Nat) : M Unit := do
  let x ← readOp a
  let y ← readOp b
  arrive i k 1 { bare with a := [x], b := [y] }

/-- A form on a predicate. -/
def predOp (i : Instr) (neg : Bool) (j k : Nat) : M Unit := do
  let p ← readPred j
  arrive i k 1 { bare with pred := p != neg }

/-- XPULL (R119). -/
def execXpull (d a b : Spec) (k : BitVec 3) (s : State) : Host.Outcome State Fault Refusal :=
  runWord (.xpull d a b k) (moveOp (.xpull d a b k) a b k.toNat) s

/-- XRANK (R119). -/
def execXrank (d a b : Spec) (k : BitVec 3) (s : State) : Host.Outcome State Fault Refusal :=
  runWord (.xrank d a b k) (moveOp (.xrank d a b k) a b k.toNat) s

/-- XSEGB (R119). -/
def execXsegb (d a b : Spec) (k : BitVec 3) (s : State) : Host.Outcome State Fault Refusal :=
  runWord (.xsegb d a b k) (moveOp (.xsegb d a b k) a b k.toNat) s

/-- XREV (R119). -/
def execXrev (d a b : Spec) (k : BitVec 3) (s : State) : Host.Outcome State Fault Refusal :=
  runWord (.xrev d a b k) (moveOp (.xrev d a b k) a b k.toNat) s

/-- XCOUNT (R119). -/
def execXcount (d : Spec) (neg : Bool) (j k : BitVec 3) (s : State) : Host.Outcome State Fault Refusal :=
  runWord (.xcount d neg j k) (predOp (.xcount d neg j k) neg j.toNat k.toNat) s

/-- XFIRST (R119). -/
def execXfirst (d : Spec) (neg : Bool) (j k : BitVec 3) (s : State) : Host.Outcome State Fault Refusal :=
  runWord (.xfirst d neg j k) (predOp (.xfirst d neg j k) neg j.toNat k.toNat) s

/-- XMASK (R119). -/
def execXmask (d : Spec) (neg : Bool) (j k : BitVec 3) (s : State) : Host.Outcome State Fault Refusal :=
  runWord (.xmask d neg j k) (predOp (.xmask d neg j k) neg j.toNat k.toNat) s

/-- GBCAST (R119). -/
def execGbcast (d a : Spec) (k : BitVec 3) (s : State) : Host.Outcome State Fault Refusal :=
  runWord (.gbcast d a k) (do
    let x ← readOp a
    arrive (.gbcast d a k) k.toNat 1 { bare with a := [x] }) s

/-! ### GRED, GSCAN, CMMA (R120, R121, R157) -/

/-- The operand slots of a tree operation: one slot, or a VF value. -/
def treeOperand (a : Spec) (op : Nat) : M (List Word) := do
  let h ← readOp a
  if op < 8 then return [h] else readOps a (slotsOf (slotClass h))

/-- GRED (R121). -/
def execGred (d a : Spec) (op : BitVec 4) (k : BitVec 3) (s : State) : Host.Outcome State Fault Refusal :=
  runWord (.gred d a op k) (do
    let x ← treeOperand a op.toNat
    let n ← if op.toNat < 8 then pure 1 else lowestSlots k.toNat
    arrive (.gred d a op k) k.toNat n { bare with a := x }) s

/-- GSCAN (R121). -/
def execGscan (d a : Spec) (op : BitVec 4) (excl : Bool) (k : BitVec 3) (s : State) : Host.Outcome State Fault Refusal :=
  runWord (.gscan d a op excl k) (do
    let x ← treeOperand a op.toNat
    let n ← if op.toNat < 8 then pure 1 else lowestSlots k.toNat
    arrive (.gscan d a op excl k) k.toNat n { bare with a := x }) s

/-- CMMA (R157). -/
def execCmma (d a b : Spec) (k : BitVec 3) (s : State) : Host.Outcome State Fault Refusal :=
  runWord (.cmma d a b k) (do
    let x ← treeOperand a 8
    let y ← treeOperand b 8
    let z ← treeOperand d 8
    arrive (.cmma d a b k) k.toNat 0 { bare with a := x, b := y, c := z }) s

end Sys2Proof.Machine
end

