-- ==== Sys2Proof/Machine/Topology.lean ====
section
/-! DEFINITION. The topology table that the anchor publishes (R372, R373), and the retirement of a cluster (R344). -/
namespace Sys2Proof.Machine

/-- The neighbour of a die in direction 0 to 3 for N, E, S, W (R14). -/
def neighbour (d dir : Nat) : Option Nat :=
  match dir with
  | 0 => if 8 ≤ d then some (d - 8) else none
  | 1 => if d % 8 < 7 then some (d + 1) else none
  | 2 => if d < 56 then some (d + 8) else none
  | _ => if 0 < d % 8 then some (d - 1) else none

/-- The mask of dead dies (R372). -/
def deadMask (s : State) : Nat := ((List.range 64).map fun d => if s.alive d then 0 else 2 ^ d).foldl (· + ·) 0

/-- Length of the topology table (R372). -/
abbrev topoLen : Nat := 21568

/-! ### The topology table (R372, R373) -/

/-- Bit i for each number of a list. -/
def bitSet (xs : List Nat) : Nat := xs.foldl (fun m i => m ||| 2 ^ i) 0

/-- The live modules of a die's links as the table shows them: N in 15:12 to W in 3:0, 15 without a neighbour. -/
def linkFields (x : Die) (d : Nat) : Nat :=
  (List.range 4).foldl (fun m dir =>
    16 * m + if (neighbour d dir).isNone then 15 else ((AMap.get? x.links dir).getD {}).modules) 0

/-- A die's eight slots of the table. -/
def topoDie (s : State) (d : Nat) : List Nat :=
  let x := s.die d
  let state := match x.life with | .dead => 0 | .live => 1 | .degraded => 2
  let mapped := x.clusters.filterMap fun c => c
  [x.serial.toNat,
   state * 2 ^ 56 + x.lcstate.toNat * 2 ^ 48 + d * 2 ^ 16 + linkFields x d,
   (BitVec.ofInt 64 x.off).toNat,
   bitSet ((List.range 34).filter fun i => !mapped.contains i),
   bitSet x.deadSlices ||| bitSet (x.deadLoops.map (· + 32)),
   x.epoch.toNat * 2 ^ 48 + x.rdcsize.toNat % 256 * 2 ^ 40 + mapped.length * 2 ^ 32 + x.accarea.toNat % 2 ^ 32, 0, 0]

/-- A site's four slots of the table. The second-tier range shows only after the site has reported its wipe. -/
def topoSite (s : State) (i : Nat) : List Nat :=
  let x := s.site i
  [x.type * 2 ^ 56 + abutting i * 2 ^ 48 + 25 * 2 ^ 40 + x.wiped.toNat, if x.wiped then x.populated else 0, x.portst.toNat,
   (x.portmods.foldl (· ||| ·) 0).toNat]

/-- A pair's four bytes of the table. -/
def topoPair (s : State) (k : Nat) : List (BitVec 8) :=
  match AMap.get? s.pairs k with
  | some (h, det, lat) => [BitVec.ofNat 8 h, BitVec.ofNat 8 det.toNat] ++ toBytes 2 lat
  | none => [0xFF, 0, 0, 0]

/-- The table's bytes but for the generation, which stands at offset 8. -/
def topoBytes (s : State) (anchor : Nat) (gen : Nat) : List (BitVec 8) :=
  let slots (xs : List Nat) : List (BitVec 8) := xs.flatMap (toBytes 8)
  let degraded := bitSet ((List.range 64).filter fun d => (s.die d).life == .degraded)
  let header := [0x4C565854_4F504F31, gen, topoLen, anchor + bits (s.die anchor).modid 0 6 * 256, deadMask s, degraded, s.now anchor % 2 ^ 64, 0]
  slots header ++ (List.range 64).flatMap (fun d => slots (topoDie s d)) ++ (List.range 32).flatMap (fun i => slots (topoSite s i))
    ++ (List.range 4096).flatMap (topoPair s)

namespace State

/-- Once the table that the anchor has written is visible, it stores the next even generation, which is its release (R197, R373). -/
def finishTopo (s : State) : State :=
  match s.anchor, s.topoDue with
  | some a, some v =>
    if s.now a < v then s
    else { (s.homeWrite a (s.topo + 8) (toBytes 8 (s.topoGen + 2))).1 with topoGen := s.topoGen + 2, topoDue := none }
  | _, _ => s

/-- The anchor stores an odd generation and the table, and the next even generation when they are visible (R373). Before the cores run nothing is published. -/
def publish (s : State) : State :=
  match s.anchor with
  | none => s
  | some a =>
    if s.boot ≠ .running then s
    else
      let (s1, v) := s.homeWrite a (s.topo + 8) (toBytes 8 (s.topoGen + 1))
      let (s2, v') := s1.homeWrite a s1.topo (topoBytes s1 a (s1.topoGen + 1))
      { s2 with topoDue := some (max v v') }.finishTopo

end State

/-! ### Retiring a cluster (R344) -/

/-- The lowest built resource that is neither mapped, nor retired, nor b. -/
def spareOf (built : Nat) (mapped : List (Option Nat)) (dead : List Nat) (b : Nat) : Option Nat :=
  (List.range built).find? fun i => !mapped.contains (some i) && !dead.contains i && i != b

namespace State

/-- A cohort other than `gone` stands on a cluster. -/
def clusterBusy (s : State) (d cl gone : Nat) : Bool :=
  s.cohorts.any fun p => p.1 != gone && p.2.status != .ended && p.2.status != .waiting && p.2.cores.any fun c => c.2 / 4 == 32 * d + cl

/-- A logical cluster without cohorts leaves its built one: persistent windows on its cores are written back and unmapped, a spare takes the number or it stays
absent and the die is degraded, and the table shows it. -/
def retireCluster (s : State) (d cl : Nat) : State :=
  let s1 := (List.range 4).foldl (fun s i =>
    let core := 4 * cl + i
    ((s.core (coreKey d core)).windows.filter (·.persist)).foldl (fun s w => (s.unmapWindow d core w).1) s) s
  let x := s1.die d
  match x.clusters.getD cl none with
  | none => s1.modDie d fun x => { x with leaving := x.leaving.filter (· ≠ cl) }
  | some b =>
    let spare := spareOf 34 x.clusters (x.deadClusters ++ x.failClusters) b
    (s1.modDie d fun x =>
      { x with clusters := listSet x.clusters cl spare, deadClusters := x.deadClusters ++ [b], leaving := x.leaving.filter (· ≠ cl),
               life := if spare.isNone then .degraded else x.life }).publish

/-- The clusters whose retirement waited for a cohort that leaves its cores. -/
def retireClusters (s : State) (gone : Nat) : State :=
  s.dies.foldl (fun s p => p.2.leaving.foldl (fun s cl => if s.clusterBusy p.1 cl gone then s else s.retireCluster p.1 cl) s) s

end State

end Sys2Proof.Machine
end

