-- ==== Sys2Proof/Machine/Control.lean ====
section
/-! DEFINITION. Transfers of control, loops, the end of a thread, team and cohort, and the software traps (R237, R260 to R272, R299, R41, R46,
R53). -/
namespace Sys2Proof.Machine

/-! ### The end of threads, teams and cohorts (R237, R266) -/

namespace State

/-- Lane bits of a thread leave its group: masks, waiting mask writes and arrivals (R118, R237), and the checks that follow. -/
def leaveGroup (s : State) (t : Thread) : State :=
  if t.isCond then s
  else
    let gk := grpKey t.grid t.team t.grp
    let g := s.group gk
    let g' : Group :=
      { g with m := Vector.ofFn fun (i : Fin 12) => g.mask i.val &&& ~~~t.bit,
               held := g.held.map fun w => { w with clr := w.clr ||| t.bit, set := w.set &&& ~~~t.bit },
               opens := (g.opens.map fun c => { c with arrived := c.arrived.filter fun x => x.lane != t.lane }).filter fun c => c.arrived ≠ [] }
    let s0 := (List.range 12).foldl (fun s k => s.modViews gk k fun _ v => some (v &&& ~~~t.bit)) (s.setGroup gk g')
    let s1 := maskCheck (s0.settleHeld gk) gk
    (List.range g'.opens.length).foldl (fun s _ => collCheck s gk) s1

/-- The windows of a core whose life is to end do so as soon as no access waits in them, of a thread, of a fill or of the copy unit (R176). -/
def endDue (s : State) (k : Nat) : State :=
  ((s.core k).windows.filter fun w => w.ending && (s.windowOp k w).isNone && !s.windowWaits k 0 w.asid.toNat w.id).foldl (fun s w =>
    let (s', v) := s.unmapWindow (k / 128) (k % 128) w
    s'.noteVis w.grid (k / 128) v) s

/-- Windows of a core are to end (R176, R301). -/
def endMarked (s : State) (k : Nat) (f : Window → Bool) : State :=
  if (s.core k).windows.any f then
    (s.modCore k fun c => { c with windows := c.windows.map fun w => if f w then { w with ending := true } else w }).endDue k
  else s

/-- The windows of a core that its team mapped and that are not persistent end (R176). -/
def endWindows (s : State) (die core grid team : Nat) : State :=
  s.endMarked (coreKey die core) fun w => w.grid == grid && w.team == team && !w.persist

/-- A team whose threads have all ended (R237): its windows end, and its groups and barriers go. -/
def endTeam (s : State) (grid team : Nat) : State :=
  match s.team? (teamKey grid team) with
  | none => s
  | some t =>
    let s1 := s.endWindows t.die t.core grid team
    { s1 with teams := AMap.del s1.teams (teamKey grid team),
              groups := s1.groups.filter fun p => !(p.1 / 16 == teamKey grid team) }

/-- A cohort leaves the requests that wait for it (R367), and the clusters that it holds back from retirement (R344). -/
def preemptOver (s : State) (key : Nat) : State :=
  let s := s.retireClusters key
  { s with dies := s.dies.map fun p =>
      if p.2.preemptBusy.contains key then
        let rest := p.2.preemptBusy.filter (· ≠ key)
        (p.1, { p.2 with preemptBusy := rest, preemptDone := p.2.preemptDone + if rest = [] then 1 else 0 })
      else p }

/-- A cohort whose teams have all ended (R237): its cluster unit and save area are free (R250, R336). -/
def endCohort (s : State) (grid c : Nat) : State :=
  let s := s.preemptOver (cohortKey grid c)
  let s1 : State :=
    { s with clusters := s.clusters.map fun p => (p.1, if p.2.owner = some (grid, c) then { p.2 with owner := none } else p.2) }
  match s1.cohort? (cohortKey grid c) with
  | some x => s1.setCohort (cohortKey grid c) { x with status := .ended, area := none, cores := [], image := 0, recs := [], kept := [], groups := [], entries := [], ops := [] }
  | none => s1

/-- The cohort number of a team (R247). -/
def cohortOf (s : State) (grid team : Nat) : Nat :=
  team / (((s.grid? grid).map Grid.cohortSize).getD 1)

/-- The ends that follow from a thread's end: its team's, its cohort's. -/
def endAbove (s : State) (grid team : Nat) : State :=
  if s.threads.any fun p => p.2.grid == grid && p.2.team == team then s
  else
    let s1 := s.endTeam grid team
    let c := s1.cohortOf grid team
    if s1.teams.any fun p => p.2.grid == grid && s1.cohortOf grid p.2.team == c then s1 else s1.endCohort grid c

/-- A thread ends (R237, R266): its results are discarded, its mask bits cleared, its watches dropped. -/
def endThread (s : State) (u : Nat) : State :=
  match s.th? u with
  | none => s
  | some t =>
    let s1 := s.leaveGang u
    let s2 : State :=
      { s1 with threads := AMap.del s1.threads u,
                dies := s1.dies.map fun p => (p.1, { p.2 with watches := p.2.watches.filter fun w => w.remote || w.th != u }) }
    ((s2.noteVis t.grid t.die (max t.hor t.obs)).leaveGroup t).endAbove t.grid t.team

end State

/-! ### CTL -/

/-- NOP (R46). -/
def execNop (s : State) : Host.Outcome State Fault Refusal := runWord .nop (pure ()) s

/-- The address of the word that is executing, in the chain at the thread's pc. -/
abbrev wordPc (t : Thread) (s : State) : Word := t.pc + w64 (4 * s.word)

/-- Where the next slot is taken from, once the chain retires. -/
def goTo (a : Word) : M Unit := modCur fun t => { t with next := some a }

/-- POOL (R53): no boundary of its own. -/
def execPool (count : BitVec 20) (s : State) : Host.Outcome State Fault Refusal :=
  runWord (.pool count) (do goTo (packetOf (← cur).pc + w64 (12 * (count.toNat + 1)))) s

/-- EXIT (R266). It carries B, so that no word of its chain follows it. -/
def execExit (s : State) : Host.Outcome State Fault Refusal :=
  runWord .exit (modify fun s => s.endThread s.cur) s

/-- The place of a call-stack slot (R263, R265), for a depth that lies within the private space. -/
def stackSlot (g : Grid) (cd : Word) : Word := w64 g.psize - cd * 8

/-- A call depth beyond the private space: its slot would lie below address 0. -/
def stackOver (g : Grid) (cd : Nat) : Bool := decide (g.psize < 8 * cd)

/-- RET (R265): at depth 0 PROTECTION. It resumes at the word that it loads (R260). -/
def execRet (s : State) : Host.Outcome State Fault Refusal :=
  runWord .ret (do
    let t ← cur
    let s ← get
    if t.cd = 0 then trap cPROTECTION
    if stackOver (s.gridOf t) t.cd.toNat then trap cPROTECTION (stackSlot (s.gridOf t) t.cd)
    let x ← access 0 [] (loadSpace .priv (stackSlot (s.gridOf t) t.cd) 8 8 {})
    let ra := w64 (ofBytes x.bytes)
    if !canonical ra then trap cPROTECTION ra
    if ra.toNat % 4 ≠ 0 then trap cALIGN ra
    access 0 [] fun g => noteLoad g.th x.stamp x.seq
    modCur fun t => t.produce (some 1) .cd (t.cd - 1)
    goTo ra) s

/-- An age newer than that of every ready thread of a core (R267). -/
def State.newestAge (s : State) (die core : Nat) : Nat :=
  1 + maxOf ((s.threads.filter fun p => p.2.die == die && p.2.core == core && p.2.status == .ready).map (·.2.age))

/-- YIELD (R267): the boundary that it carries ends the run, and when the thread is ready again its age is newer than that of every thread of its core
that is ready now. -/
def execYield (s : State) : Host.Outcome State Fault Refusal :=
  runWord .yield (do
    let s ← get
    modCur fun t => { t with yielded := s.newestAge t.die t.core }) s

/-- RFT (R268): with trapcause 0 ILLEGAL. Where the trap was the fetch of an RFT.skip, that word issues again. -/
def execRft (s : State) : Host.Outcome State Fault Refusal :=
  runWord .rft (do
    let t ← cur
    if t.trapcause = 0 then trap cILLEGAL
    match t.skip with
    | none => modCur fun t => t.returnTrap t.trappc
    | some k => modCur fun t => { (t.retrySkip k).produce (some 1) .trapcause k.cause with next := some k.pc }) s

/-- The trap was raised by the fetch of the packet at trappc (R268). -/
def fetchTrap (t : Thread) : Bool :=
  (t.trapcause == w64 cTRANSLATION || t.trapcause == w64 cPROTECTION || t.trapcause == w64 cDATALOSS) && bits t.trapinfo 0 4 == 3

/-- The packet at trappc, fetched again for RFT.skip: a fault is a fetch fault of that packet, which its thread notes while it parks (R163, R268). -/
def refetch (t : Thread) : M (List Code) := fun s =>
  match fetchPacket t.trappc s with
  | .ok r => .ok r
  | .error (.park w s') => .error (.park w (s'.modTh s'.cur fun u => { u with skip := some ⟨t.pc, t.trapcause, t.trapaddr, t.trapinfo⟩ }))
  | .error (.trap c a x) => .error (.skip c a x)
  | .error (.lost a x d n) => .error (.skipLost a x d n)
  | .error e => .error e

/-- RFT.skip (R268): the word after the trapping chain, found from the C bits at trappc. -/
def execRftSkip (s : State) : Host.Outcome State Fault Refusal :=
  runWord .rftSkip (do
    let t ← cur
    if t.trapcause = 0 then trap cILLEGAL
    if fetchTrap t then modCur fun t => t.returnTrap (packetOf t.trappc + 12)
    else
      let packet ← refetch t
      let n := (takeChain (packet.drop (wordIdx t.trappc))).length
      modCur fun t => t.returnTrap (t.trappc + w64 (4 * n))) s

/-- BRKPT (R269). -/
def execBrkpt (code : BitVec 20) (s : State) : Host.Outcome State Fault Refusal :=
  runWord (.brkpt code) (trap cTRAP 0 (w64 (code.toNat + 2 ^ 20))) s

/-- LAST (R41): the marks take effect when the chain retires. -/
def execLast (x y z : Spec) (s : State) : Host.Outcome State Fault Refusal :=
  runWord (.last x y z) (do
    for sp in [x, y, z] do
      if 16 ≤ sp.toNat then modCur fun t => t.produce (some 1) (.dead (sp.toNat - 16)) 0) s

/-! ### Branches and calls (R260 to R264) -/

/-- A uniform branch whose gang's members do not all compute the same condition (R262). A conductor never raises it. -/
def splitVote (s : State) (t : Thread) (u : Nat) : Bool :=
  !t.isCond && (s.core (coreKey t.die t.core)).gangs.any fun p =>
    p.2.members.contains u && p.2.votes.any (·.2) && p.2.votes.any fun v => !v.2

/-- The condition of a transfer (R261), after the vote of a uniform one. -/
def branchTaken (neg : Bool) (p : BitVec 3) (u : Bool) : M Bool := do
  let t ← cur
  let s ← get
  if u && splitVote s t s.cur then trap cUNIFORM
  return t.predVal p.toNat != neg

/-- The target of a taken transfer is checked (R28, R260). -/
def checkTarget (a : Word) : M Unit := do
  if !canonical a then trap cPROTECTION a
  if a.toNat % 12 ≠ 0 then trap cALIGN a

/-- BRA and JMPR clear the loop records whose body does not hold the target (R272). -/
def clearLoops (a : Word) : M Unit :=
  modCur fun t => { t with loops := t.loops.map fun r =>
    if r.order ≠ 0 ∧ r.start.toNat ≤ a.toNat ∧ a.toNat ≤ r.last.toNat then r else {} }

/-- A taken jump. -/
def jump (a : Word) : M Unit := do
  checkTarget a
  clearLoops a
  goTo a

/-- A taken call (R263): the return address is stored, the depth rises. -/
def callTo (a : Word) : M Unit := do
  checkTarget a
  let t ← cur
  let s ← get
  let ra := wordPc t s + 4
  let off := stackSlot (s.gridOf t) (t.cd + 1)
  if stackOver (s.gridOf t) (t.cd.toNat + 1) then trap cPROTECTION off 1
  access 1 (toBytes 8 ra.toNat) (storeSpace .priv off (toBytes 8 ra.toNat) 8)
  modCur fun t => t.produce (some 1) .cd (t.cd + 1)
  goTo a

/-- The target of format J (R261). -/
def branchTarget (off : BitVec 19) : M Word := do
  return packetOf (← cur).pc + off.signExtend 64 * 12

/-- BRA (R261, R262). -/
def execBra (neg : Bool) (p : BitVec 3) (u : Bool) (off : BitVec 19) (s : State) : Host.Outcome State Fault Refusal :=
  runWord (.bra neg p u off) (do
    if ← branchTaken neg p u then jump (← branchTarget off)) s

/-- CALL (R261 to R263). -/
def execCall (neg : Bool) (p : BitVec 3) (u : Bool) (off : BitVec 19) (s : State) : Host.Outcome State Fault Refusal :=
  runWord (.call neg p u off) (do
    if ← branchTaken neg p u then callTo (← branchTarget off)) s

/-- JMPR (R264). -/
def execJmpr (neg : Bool) (p : BitVec 3) (u : Bool) (a : Spec) (s : State) : Host.Outcome State Fault Refusal :=
  runWord (.jmpr neg p u a) (do
    let x ← readOp a
    if ← branchTaken neg p u then jump x) s

/-- CALLR (R264). -/
def execCallr (neg : Bool) (p : BitVec 3) (u : Bool) (a : Spec) (s : State) : Host.Outcome State Fault Refusal :=
  runWord (.callr neg p u a) (do
    let x ← readOp a
    if ← branchTaken neg p u then callTo x) s

/-! ### LOOP (R270, R271) -/

/-- The rank of the most recently set record. -/
def newestLoop (t : Thread) : Nat := maxOf (t.loops.toList.map (·.order))

/-- LOOP (R270, R271): the body's last word must carry B (R33). Its counter is seen by every later slot. -/
def execLoop (i : BitVec 2) (n : Spec) (len : BitVec 12) (s : State) : Host.Outcome State Fault Refusal :=
  runWord (.loop i n len) (do
    let t ← cur
    let pk := packetOf t.pc
    let last := pk + w64 (12 * len.toNat + 8)
    let w ← access 3 [] fun g => fetchWord g last
    if !w.getLsbD 30 then trap cILLEGAL
    let k ← readOp n
    if k = 0 then
      modCur fun t => { t.produce (some 1) (.lc i.toNat) 0 with loops := vset t.loops i.toNat {} }
      goTo (pk + w64 (12 * (len.toNat + 1)))
    else
      modCur fun t => { t.produce (some 1) (.lc i.toNat) k with
        loops := vset t.loops i.toNat { start := pk + 12, last := last, order := newestLoop t + 1 } }
      goTo (pk + 12)) s

/-! ### TRAP and SVC (R299) -/

/-- TRAP (R299). -/
def execTrap (x : BitVec 8) (s : State) : Host.Outcome State Fault Refusal :=
  runWord (.trap x) (trap cTRAP 0 (w64 x.toNat)) s

/-- SVC (R299): the argument in trap addr, the service number in trap info. -/
def execSvc (a : Spec) (x : BitVec 8) (s : State) : Host.Outcome State Fault Refusal :=
  runWord (.svc a x) (do trap cSVC (← readOp a) (w64 x.toNat)) s

end Sys2Proof.Machine
end

