-- ==== Sys2Proof/Machine/Memory.lean ====
section
/-! DEFINITION. The memory instructions (R214 to R224, R233): loads and stores, prefetches, windows, atomics, reductions, fences, waiting for
tickets. -/
namespace Sys2Proof.Machine

/-! ### Loads and stores (R214, R215) -/

/-- Bytes of an access by its size code, and the scale of its offset (R44). -/
def sizeBytes (size : BitVec 3) : Nat :=
  match size.toNat with
  | 0 => 1
  | 1 => 2
  | 2 => 4
  | 3 => 8
  | 4 => 2
  | 5 => 1
  | 6 => 2
  | _ => 4

/-- The value of a loaded byte, halfword, word or slot (R44, R78). -/
def extendLoad (size : BitVec 3) (bs : List (BitVec 8)) : Word :=
  if size.toNat < 5 then w64 (ofBytes bs) else sx (8 * sizeBytes size) (ofBytes bs)

/-- The address of format M (R44): base and scaled off5. -/
def formatM (base : Word) (off : BitVec 5) (scale : Nat) : Word := base + off.signExtend 64 * w64 scale

/-- The memory length of the VF value at an address, from its header (R59, R61), which is read together with the value: the state stays as it is. -/
def vfLength (x : A Loaded) : A Nat := fun s =>
  match x s with
  | .ok (h, _) => .ok (2 * headerClass (ofBytes h.bytes) + 4, s)
  | .error e => .error e

/-- A load, with what it observes (R195). -/
def loadNoted (sp : Space) (a : Word) (size : BitVec 3) (m : LoadMode) (g : Agent) : A Loaded := do
  let n ← if size = 4 then vfLength (loadSpace sp a 2 2 m g) else pure (sizeBytes size)
  let x ← loadSpace sp a n (sizeBytes size) m g
  noteLoad g.th x.stamp x.seq
  return x

/-- What a load writes to its destination (R214): a VF value that would reach beyond the named length raises WINDOW. -/
def deliverLoad (d : Spec) (size : BitVec 3) (bs : List (BitVec 8)) : M Unit := do
  if size = 4 then
    let v := vfOfBytes bs
    checkReach d (slotsOf v.cls)
    writeOps none d (vfToSlots v)
  else writeOp none d (extendLoad size bs)

/-- A load of global space consumes the home-die hint of its run (R217). -/
def takeHint (sp : Space) : M Unit := if sp = .glob then modCur fun t => { t with hint := none } else pure ()

/-- A load and its destination: its stamp. -/
def loadTo (d : Spec) (sp : Space) (a : Word) (size : BitVec 3) (m : LoadMode) : M Nat := do
  let x ← access 0 [] (loadNoted sp a size m)
  takeHint sp
  deliverLoad d size x.bytes
  return x.stamp

/-- LD (R214). -/
def execLd (d base : Spec) (space : BitVec 2) (size : BitVec 3) (reuse : BitVec 2) (off : BitVec 5) (s : State) :
    Host.Outcome State Fault Refusal :=
  runWord (.ld d base space size reuse off) (do
    let b ← readOp base
    let _ ← loadTo d (Space.ofCode space) (formatM b off (sizeBytes size)) size { alloc := reuse != 1 }) s

/-- The bytes that a store writes (R214): a VF source's memory form, else the low bytes. -/
def storeBytes (src : Spec) (size : BitVec 3) : M (List (BitVec 8)) := do
  if size = 4 then return vfToBytes (← readVf src)
  else return toBytes (sizeBytes size) (← readOp src).toNat

/-- ST (R214). -/
def execSt (src base : Spec) (space : BitVec 2) (size : BitVec 3) (reuse : BitVec 2) (off : BitVec 5) (s : State) :
    Host.Outcome State Fault Refusal :=
  runWord (.st src base space size reuse off) (do
    let bs ← storeBytes src size
    let b ← readOp base
    access 1 bs (storeSpace (Space.ofCode space) (formatM b off (sizeBytes size)) bs (sizeBytes size))) s

/-- LDA (R215, R216): the load, then Acquire. -/
def execLda (d base : Spec) (space : BitVec 2) (size : BitVec 3) (reuse : BitVec 2) (peek : Bool) (scope : BitVec 3) (s : State) :
    Host.Outcome State Fault Refusal :=
  runWord (.lda d base space size reuse peek scope) (do
    let a ← readOp base
    let stamp ← loadTo d (Space.ofCode space) a size { scope := scope.toNat, peek := peek, alloc := reuse != 1 }
    acquire scope.toNat stamp) s

/-- STRL (R215): Release, then the store. -/
def execStrl (src base : Spec) (space : BitVec 2) (size : BitVec 3) (reuse : BitVec 2) (scope : BitVec 3) (s : State) :
    Host.Outcome State Fault Refusal :=
  runWord (.strl src base space size reuse scope) (do
    let bs ← storeBytes src size
    let a ← readOp base
    release scope.toNat
    access 1 bs (storeSpace (Space.ofCode space) a bs (sizeBytes size))) s

/-! ### Prefetch (R217) -/

/-- An access that changes nothing where it fails. -/
def quiet {α : Type} (x : Agent → A α) : M Unit := fun s =>
  match tryA (x (s.agentOf ((s.th? s.cur).getD noThread))) s with
  | some (_, s') => .ok ((), s')
  | none => .ok ((), s)

/-- The line of a prefetch in global or thread-private space goes to L2, and with `l1` into the core's L1 under a lease. -/
def prefetchLine (va : Word) (l1 : Bool) (reuse : BitVec 2) (g : Agent) : A Unit := do
  let (pa, pte) ← translate g va .r
  match regionOf pa with
  | .hbm .. =>
    if l1 then
      let _ ← loadPiece g va (pa / 64 * 64) 64 { alloc := reuse != 1, nrd := bitAt pte 52 }
  | .tier .. =>
    if l1 then
      let _ ← loadPiece g va (pa / 64 * 64) 64 { alloc := reuse != 1, nrd := bitAt pte 52 }
  | _ => return ()

/-- The fill of the stash line that holds an offset begins, if the line is absent. -/
def prefetchStash (off : Nat) (g : Agent) : A Unit := do
  let s ← get
  let k := coreKey g.die g.core
  match s.windowAt k g.asid off 1 false with
  | some w =>
    let line := off / 32
    if !s.linePresent k line && (s.stashLine k line).filling.isNone && (s.stashLine k line).copying.isNone then do
      modA fun s => s.touch k g w
      startFill g w line
  | none => return ()

/-- PREF and PREF.l1: no trap and no record on any address, and nothing at all on one that is not a multiple of the 64 bytes that the form moves by
(notes/assumptions/22.md). -/
def prefetch (sp : Space) (a : Word) (l1 : Bool) (reuse : BitVec 2) : M Unit :=
  if a.toNat % 64 ≠ 0 then pure ()
  else
    match sp with
    | .glob => quiet (prefetchLine a l1 reuse)
    | .stash => quiet (prefetchStash a.toNat)
    | .priv => fun s =>
      let t := (s.th? s.cur).getD noThread
      let g := s.gridOf t
      if g.psize ≤ a.toNat then .ok ((), s) else quiet (prefetchLine (privAddr g t a.toNat) l1 reuse) s

/-- PREF (R217). -/
def execPref (base : Spec) (space reuse : BitVec 2) (off : BitVec 5) (s : State) : Host.Outcome State Fault Refusal :=
  runWord (.pref base space reuse off) (do
    let b ← readOp base
    prefetch (Space.ofCode space) (formatM b off 64) false reuse) s

/-- PREF.l1 (R217). -/
def execPrefL1 (base : Spec) (space reuse : BitVec 2) (off : BitVec 5) (s : State) : Host.Outcome State Fault Refusal :=
  runWord (.prefL1 base space reuse off) (do
    let b ← readOp base
    prefetch (Space.ofCode space) (formatM b off 64) true reuse) s

/-- PREF.home (R217). -/
def execPrefHome (die : Spec) (s : State) : Host.Outcome State Fault Refusal :=
  runWord (.prefHome die) (modCur fun t => { t with hint := some die }) s

/-! ### Windows (R222 to R224) -/

/-- Code 1 of WMAP's DESC (R168, R169, R175): a field outside its range, or a reserved bit set. -/
def badFields (w : Window) (d3 : Word) : Bool :=
  d3 != 0 || bits w.d2 38 10 != 0 || w.soff % 32 != 0 || w.count == 0 || (!w.shutter && w.cbar != 0)
    || (if w.scratch then w.stride != 0 || w.foff != 0 || w.flen != 0 || w.ro || w.shutter
        else w.flen == 0 || decide (64 < w.flen) || w.stride == 0 || w.stride % 4 != 0)

/-- Two windows' stash ranges overlap (R169). -/
abbrev Window.clash (v w : Window) : Bool := decide (v.soff < w.stop) && decide (w.soff < v.stop)

/-- The persistent window that a WMAP reclaims first (R176): of those that no resident team has touched since they were mapped, the least recently touched; one
that nothing has touched comes before all others, and of windows touched at one time the one mapped first (notes/assumptions/22.md). -/
def reclaimable (s : State) (k : Nat) : Option Window :=
  let ws := (s.core k).windows.filter fun w => w.persist && (s.windowOp k w).isNone && w.teams.all fun x => (s.team? (teamKey x.1 x.2)).isNone
  ws.foldl (fun m w => match m with | some v => if w.touched < v.touched then some w else m | none => some w) none

/-- Reclaim until the window fits, or nothing more can be reclaimed (R176). -/
def reclaim (die core : Nat) (w : Window) : Nat → State → State
  | 0, s => s
  | f + 1, s =>
    let k := coreKey die core
    let ws := (s.core k).windows
    if decide (ws.length < 32) && !(ws.any (w.clash ·)) then s
    else
      match reclaimable s k with
      | some v => reclaim die core w f (s.unmapWindow die core v).1
      | none => s

/-- The entry and presence of a new window (R171, R175, R224). Its stash range starts zeroed, both banks and their padding, so that no other context's bytes come out of it
(R174, R297; notes/assumptions/22.md). -/
def enterWindow (s : State) (die core : Nat) (w : Window) : State :=
  let k := coreKey die core
  let s1 := (s.modCore k fun c => { c with windows := c.windows ++ [w] }).stashPut k w.soff (List.replicate (w.stop - w.soff) 0)
  (w.frontLines ++ w.shadowLines).foldl (fun s l => s.setLine k l (if w.scratch then { present := true } else {})) s1

/-- WMAP (R168, R169, R222, R224). -/
def execWmap (d a : Spec) (s : State) : Host.Outcome State Fault Refusal :=
  runWord (.wmap d a) (do
    let ds ← readOps a 4
    let t ← cur
    let s ← get
    let g := s.gridOf t
    let k := coreKey t.die t.core
    let w : Window := { d0 := ds.getD 0 0, d1 := ds.getD 1 0, d2 := ds.getD 2 0, asid := g.asid, root := g.root, super := g.super,
                        grid := t.grid, team := t.team }
    if badFields w (ds.getD 3 0) then trap cDESC 0 1
    if !w.scratch && !canonical w.gbase then trap cPROTECTION w.gbase
    if !w.scratch && decide (w.stride < w.span) then trap cDESC 0 2
    if stashBytes (s.core k).carve < w.stop then trap cDESC 0 3
    if (s.core k).windows.any fun v => v.asid == w.asid && v.id == w.id then trap cDESC 0 5
    set (reclaim t.die t.core w 32 s)
    let s ← get
    if (s.core k).windows.any (w.clash ·) then trap cDESC 0 4
    if 32 ≤ (s.core k).windows.length then trap cDESC 0 6
    set (enterWindow s t.die t.core w)
    writeOp none d w.query) s

/-- The running thread's core, and the window of its address space that an id operand names (R222). -/
def namedWindow (a : Spec) : M (Nat × Nat × Option Window) := do
  let x ← readOp a
  if bits x 16 48 ≠ 0 then trap cDESC
  let t ← cur
  let s ← get
  let g := s.gridOf t
  return (coreKey t.die t.core, x.toNat, (s.core (coreKey t.die t.core)).windows.find? fun w => w.asid == g.asid && w.id == x.toNat)

/-- A window operation waits for the accesses to the window issued before it (R224). -/
def settleAccesses (w : Window) : M Unit := fun s =>
  let t := (s.th? s.cur).getD noThread
  let k := coreKey t.die t.core
  match s.windowOp k w with
  | some o => .error (.park (.conflict o) s)
  | none =>
    if s.windowWaits k s.cur w.asid.toNat w.id then .error (.park (.window w.asid.toNat w.id) s) else .ok ((), s)

/-- The query word of an id that is not mapped (R223). -/
abbrev unmappedQuery (id : Nat) : Word := w64 (id * 2 ^ 48)

/-- WUNMAP (R224). -/
def execWunmap (d a : Spec) (s : State) : Host.Outcome State Fault Refusal :=
  runWord (.wunmap d a) (do
    let (_, id, w?) ← namedWindow a
    match w? with
    | none => writeOp none d (unmappedQuery id)
    | some w => do
      settleAccesses w
      let t ← cur
      let (s', v) := (← get).unmapWindow t.die t.core w
      set s'
      modCur fun t => { t with hor := max t.hor v }
      writeOp none d (unmappedQuery id)) s

/-- WFLUSH (R224). -/
def execWflush (d a : Spec) (s : State) : Host.Outcome State Fault Refusal :=
  runWord (.wflush d a) (do
    let (_, id, w?) ← namedWindow a
    match w? with
    | none => writeOp none d (unmappedQuery id)
    | some w => do
      settleAccesses w
      let t ← cur
      let (s', v) := (← get).flushWindow t.die t.core w
      set s'
      modCur fun t => { t with hor := max t.hor v }
      writeOp none d w.query) s

/-- WDROP (R224): the front bank's ownership and presence go without a write-back. -/
def execWdrop (d a : Spec) (s : State) : Host.Outcome State Fault Refusal :=
  runWord (.wdrop d a) (do
    let (k, id, w?) ← namedWindow a
    match w? with
    | none => writeOp none d (unmappedQuery id)
    | some w => do
      settleAccesses w
      let t ← cur
      if !w.scratch then modify fun s => (s.dropLines t.die t.core w).clearShadow k w
      writeOp none d w.query) s

/-- WQUERY (R224). -/
def execWquery (d a : Spec) (s : State) : Host.Outcome State Fault Refusal :=
  runWord (.wquery d a) (do
    let (_, id, w?) ← namedWindow a
    writeOp none d ((w?.map Window.query).getD (unmappedQuery id))) s

/-! ### Atomics (R218) -/

/-- New(op, old, b) of R218 on words of one width. -/
def atomNew {w : Nat} (op : Nat) (old b : BitVec w) : BitVec w :=
  match op with
  | 0 => old + b
  | 1 => if old.slt b then old else b
  | 2 => if b.slt old then old else b
  | 3 => old &&& b
  | 4 => old ||| b
  | 5 => old ^^^ b
  | 6 => b
  | _ => if old.ult b then old else b

/-- The update of an atomic on the bytes of its word: code 0 to 7 for ATOM's and ATOMW's op, 8 for ATOMC; none where ATOMC does not match. -/
def atomUpdate (code : Nat) (w32 : Bool) (b nv : Word) (old : List (BitVec 8)) : Option (List (BitVec 8)) :=
  let o := w64 (ofBytes old)
  if code = 8 then
    if w32 then (if o.setWidth 32 = b.setWidth 32 then some (toBytes 4 nv.toNat) else none)
    else if o = b then some (toBytes 8 nv.toNat) else none
  else if w32 then some (toBytes 4 (atomNew code (o.setWidth 32) (b.setWidth 32)).toNat)
  else some (toBytes 8 (atomNew code o b).toNat)

/-- The Hinge form of an atomic (R352): operand and q0 in slot 1, the operation and width in slot 2 (bits 2:0 the op, bit 3 ATOMC, bit 4 the
32-bit width). -/
def atomRequest (code : Nat) (w32 : Bool) (b nv : Word) : BitVec 3 × BitVec 5 × List (BitVec 128) :=
  (0, 5, [BitVec.ofNat 128 (b.toNat + nv.toNat * 2 ^ 64), BitVec.ofNat 128 (code + if w32 then 16 else 0)])

/-- An atomic by the running thread: the old value, zero-extended (R218). -/
def atomic (code : Nat) (w32 : Bool) (d base b : Spec) (scope : Nat) : M Unit := do
  let a ← readOp base
  let x ← readOp b
  let nv ← if code = 8 then readOp 0 else pure 0
  let n := if w32 then 4 else 8
  let old ← access 2 (toBytes 8 x.toNat ++ toBytes 8 nv.toNat) fun g => do
    checkAddr .glob a n
    rmw g scope a n (atomRequest code w32 x nv) (atomUpdate code w32 x nv)
  writeOp none d (w64 (ofBytes old))

/-- ATOM (R218). -/
def execAtom (d base b : Spec) (scope op : BitVec 3) (s : State) : Host.Outcome State Fault Refusal :=
  runWord (.atom d base b scope op) (atomic op.toNat false d base b scope.toNat) s

/-- ATOMW (R218). -/
def execAtomw (d base b : Spec) (scope op : BitVec 3) (s : State) : Host.Outcome State Fault Refusal :=
  runWord (.atomw d base b scope op) (atomic op.toNat true d base b scope.toNat) s

/-- ATOMC (R218): the new value is q0. -/
def execAtomc (d base b : Spec) (scope : BitVec 3) (w : Bool) (s : State) : Host.Outcome State Fault Refusal :=
  runWord (.atomc d base b scope w) (atomic 8 w d base b scope.toNat) s

/-! ### Reductions (R219, R220) -/

/-- An integer reduction op of RED as the operation of R218 that computes it: add, min, max, and, or. -/
def redIntOp (op : Nat) : Nat := match op with | 0 => 0 | 4 => 1 | 5 => 2 | 6 => 3 | _ => 4

/-- A floating op of RED (R219). -/
abbrev redIsVf (op : Nat) : Bool := op == 1 || op == 2 || op == 3

/-- A floating application: e op a, at the class of e, RNE, FTZ 0 (R219). -/
def reduceVf (op : Nat) (e a : Vf) : Vf × Flags :=
  let x := e.src false
  let y := a.src false
  let ex := if op = 1 then exactAdd false x y else exactMinMax (decide (op = 3)) false x y
  let o := finishVf e.cls .rne false 0 { ex with addends := [] }
  (o.val, { o.flags with px := false })

/-- An application to the bytes of an element of the operand: the new bytes, and the flags. -/
def reduceBytes (op : Nat) (e : List (BitVec 8)) (a : Vf) (x : Word) : List (BitVec 8) × Flags :=
  if redIsVf op then
    let r := reduceVf op (vfOfBytes e) a
    (vfToBytes r.1, r.2)
  else if e.length = 4 then
    (toBytes 4 (atomNew (redIntOp op) (BitVec.ofNat 32 (ofBytes e)) (x.setWidth 32)).toNat, {})
  else (toBytes 8 (atomNew (redIntOp op) (w64 (ofBytes e)) x).toNat, {})

/-- A reduction that is discarded on an ACC line, or that no port delivers, is reported for its thread (R137, R323, R363); any other failure stands. -/
def discardAcc (g : Agent) (va : Word) (x : A Unit) : A Unit := fun s =>
  match x s with
  | .error (.acc _, s') => .ok ((), s'.report g.die g.grid g.team g.tid g.core cPROTECTION va 1 0)
  | .error (.refused _, s') => .ok ((), s'.report g.die g.grid g.team g.tid g.core cPROTECTION va 1 0)
  | .error (.mcast _, s') => .ok ((), s'.report g.die g.grid g.team g.tid g.core cMCAST va 2 0)
  | r => r

/-- The Hinge form of RED (R352): the operand in slot 1 (the slots of a VF value beyond its first 16 bytes in slot 2 from bit 64 on), op and width in
slot 2 bits 7:0. -/
def redRequest (op : Nat) (w : Bool) (v : Vf) (x : Word) : BitVec 3 × BitVec 5 × List (BitVec 128) :=
  let bs := if redIsVf op then vfToBytes v else toBytes 8 x.toNat
  (4, 0, [BitVec.ofNat 128 (ofBytes (bs.take 16)),
          BitVec.ofNat 128 (op + (if w then 16 else 0) + ofBytes (bs.drop 16) * 2 ^ 64)])

/-- RED at the running thread (R219). -/
def execRed (a base : Spec) (scope op : BitVec 3) (w : Bool) (s : State) : Host.Outcome State Fault Refusal :=
  runWord (.red a base scope op w) (do
    let p ← readOp base
    let fl := redIsVf op.toNat
    let v ← if fl then readVf a else pure default
    let x ← if fl then pure 0 else readOp a
    let req := redRequest op.toNat w v x
    access 2 (if fl then vfToBytes v else toBytes 8 x.toNat) fun g => do
      checkAddr .glob p (if fl then 2 else if w then 4 else 8)
      discardAcc g p (do
        let n ← if fl then (fun s => match rmw g scope.toNat p 2 req (fun _ => none) s with
            | .ok (h, _) => .ok (2 * headerClass (ofBytes h) + 4, s)
            | .error e => .error e) else pure (if w then 4 else 8)
        let _ ← rmw g scope.toNat p n req fun e => some (reduceBytes op.toNat e v x).1)) s

/-- Flags of an ordinal word (R220): INV, OVF, UNF, INX in bits 51:48. -/
abbrev ordFlags (f : Flags) : Word := w64 (f.nibble * 2 ^ 48)

/-- How a contribution fares at its home (R220). -/
inductive RedoEnd where
  | applied (vis : Nat)
  | held
  | nack
  | order
  deriving DecidableEq, Repr, Inhabited

/-- What stands for the issuing thread in a contribution that came from beyond the module: no thread has this key. -/
abbrev noIssuer : Nat := 2047

/-- The held REDO of one line with a given ordinal word and ordinal: its element, value and issuing thread. -/
def findRedo (ds : List (Nat × Held)) (w ord : Nat) : Option (Nat × Vf × Nat) :=
  ds.findSome? fun p => match p.2 with
    | .redo e w' o v th _ => if w' = w ∧ o = ord then some (e, v, th) else none
    | _ => none

/-- Without the held REDO of an ordinal word and ordinal. -/
def dropRedo (ds : List (Nat × Held)) (w ord : Nat) : List (Nat × Held) :=
  ds.filter fun p => match p.2 with
    | .redo _ w' o _ _ _ => !(w' == w && o == ord)
    | _ => true

/-- The bytes of the VF element at an address, as its header says. -/
def elementLen (s : State) (e : Nat) : Nat := 2 * headerClass (s.homeNat e 2) + 4

/-- The die that writes with a contribution: that of its issuing thread, or the home die for one from beyond the module. -/
def redoDie (s : State) (e th : Nat) : Nat := ((s.th? th).map (·.die)).getD (homeDie e)

/-- One application of an ordered contribution: one write over the span of element and ordinal word (R220), whose words that windows own are recalled
before it is read (R172). Its visibility time is in ticks of the writing die (R194). -/
def applyRedo (s : State) (e w : Nat) (v : Vf) (th : Nat) : State × Nat :=
  let lo := min e w
  let hi := max (e + elementLen s e) (w + 8)
  let s := s.recallSpan lo (hi - lo)
  let r := reduceVf 1 (vfOfBytes (s.homeBytes e (elementLen s e))) v
  let word' := (w64 (s.homeNat w 8) ||| ordFlags r.2) + 1
  let span := patch (patch (s.homeBytes lo (hi - lo)) (e - lo) (vfToBytes r.1)) (w - lo) (toBytes 8 word'.toNat)
  s.applyAtHome (redoDie s e th) lo span

/-- The next held contributions are applied as long as their turn comes; each raises the write horizon of the thread that issued it (R195). -/
def drainRedo (h w : Nat) : Nat → State → State
  | 0, s => s
  | f + 1, s =>
    match findRedo (s.die h).reorder w (s.homeNat w 2) with
    | none => s
    | some (e, v, th) =>
      let s1 := s.modDie h fun d => { d with reorder := dropRedo d.reorder w (s.homeNat w 2) }
      let (s2, vis) := applyRedo s1 e w v th
      drainRedo h w f ((if th = noIssuer then s2 else s2.raiseHor (redoDie s1 e th) th vis).payOwed h w (s.homeNat w 2) vis)

/-- The contributions that the built slice behind a logical slice of a die holds in its reorder buffer (R19, R144). -/
def reorderCount (s : State) (h slice : Nat) : Nat :=
  let x := s.die h
  (x.reorder.filter fun p => x.slices.getD p.1 none == x.slices.getD slice none).length

/-- The arrival of a contribution at the home slice (R220): element and ordinal word by physical address. -/
def redoArrive (s : State) (e w ord : Nat) (v : Vf) (th : Nat) (va : Word) : State × RedoEnd :=
  let h := homeDie e
  let s := s.recallSpan w 8
  let next := s.homeNat w 2
  let expect := s.homeNat (w + 2) 2
  if expect = 0 ∨ expect ≤ ord ∨ ord < next ∨ (findRedo (s.die h).reorder w ord).isSome then (s, .order)
  else if ord ≠ next then
    let slice := sliceOf e
    if 16 ≤ reorderCount s h slice then (s, .nack)
    else (s.modDie h fun d => { d with reorder := d.reorder ++ [(slice, .redo e w ord v th va)] }, .held)
  else
    let (s1, vis) := applyRedo s e w v th
    (drainRedo h w 16 s1, .applied vis)

/-- A contribution comes to its home: words of element and ordinal word that windows own are recalled (R172), and errors that can be put right go (R341). -/
def redoReady (s : State) (e w : Nat) : State :=
  let s1 := s.scrub (e / 64 * 64) 64
  (s1.recallSpan w 8).recallSpan e (elementLen s1 e)

/-- What becomes of a contribution at its issuing core (R220, R137, R144). Where the element or the ordinal word holds a granule with bad check bits the contribution
is not applied, and an ASYNC report says so (R342; notes/assumptions/21.md). -/
def redoSend (g : Agent) (e w ord : Nat) (v : Vf) (va : Word) : A Unit := do
  let s ← get
  if s.isAcc (e / 64) then failA (.acc (e / 64))
  let s := redoReady s e w
  match (s.badGranule? w 8).or (s.badGranule? e (elementLen s e)) with
  | some (d, n) => set ((s.report g.die g.grid g.team g.tid g.core cASYNC va 11 0).lasting d n)
  | none => do
    let (s1, r) := redoArrive s e w ord v g.th va
    match r with
    | .applied vis => do
      set s1
      noteStore g.die g.th 0 vis
    | .held => set s1
    | .nack => set { s1.freshen with nacked := AMap.put s1.nacked s1.fresh (s1.tenths g.die, .redo e w ord v g.th va) }
    | .order => set (s1.report g.die g.grid g.team g.tid g.core cASYNC va 5 0)

/-- The Hinge form of REDO (R352): the value in slot 1 (its bytes beyond 16 in slot 2 from bit 64 on), ordinal and ordinal-word offset in slot 2. -/
def redoRequest (v : Vf) (ord off : Nat) : List (BitVec 128) :=
  let bs := vfToBytes v
  [BitVec.ofNat 128 (ofBytes (bs.take 16)), BitVec.ofNat 128 (ord + off * 2 ^ 16 + ofBytes (bs.drop 16) * 2 ^ 64)]

/-- An element of n bytes must share its line with the ordinal word and not overlap it (R220); what conflicts with either is waited for (R208). -/
def checkRedo (g : Agent) (e : Word) (pa : Nat) (w : Word) (n : Nat) : A Unit := do
  let we := pa / 64 * 64 + w.toNat % 64
  if 64 < pa % 64 + n ∨ (pa < we + 8 ∧ we < pa + n) then failA (.align e)
  checkFootprint g false e.toNat n true
  checkFootprint g false w.toNat 8 true

/-- A REDO to an element of this module: the element's header, read after the cluster's own stores to the line have gone home, gives its extent (R188, R220). -/
def redoLocal (g : Agent) (e : Word) (pa : Nat) (w : Word) (v : Vf) (ord : Nat) : A Unit := do
  modA fun s => s.ownFirst g [(pa, 2)]
  checkRedo g e pa w (elementLen (← get) pa)
  discardAcc g e (redoSend g pa (pa / 64 * 64 + w.toNat % 64) ord v e)

/-- A REDO to an element of another module: its header is read first, for the checks at issue (R220; notes/assumptions/16.md). -/
def redoFar (g : Agent) (e : Word) (md pa : Nat) (w : Word) (v : Vf) (ord scope : Nat) : A Unit := do
  let h ← loadFar g e {} md { off := 0, pa := pa, len := 2 }
  checkRedo g e pa w (2 * headerClass (ofBytes h.2.bytes) + 4)
  let i ← systemPort g e md
  let _ ← remoteAccess g e scope pa i 4 1 (redoRequest v ord (w.toNat % 64))

/-- REDO (R220). -/
def execRedo (a base b : Spec) (scope : BitVec 3) (s : State) : Host.Outcome State Fault Refusal :=
  runWord (.redo a base b scope) (do
    let v ← readVf a
    let e ← readOp base
    let w ← readOp b
    let ord := (← readOp 0).toNat % 2 ^ 16
    access 2 (vfToBytes v ++ toBytes 2 ord) fun g => do
      if !canonical e then failA (.prot e false)
      if e.toNat % 2 ≠ 0 ∨ w.toNat % 8 ≠ 0 ∨ e.toNat / 64 ≠ w.toNat / 64 then failA (.align e)
      let (pa, _) ← translate g e .rw
      checkFootprint g false e.toNat 2 true
      checkFootprint g false w.toNat 8 true
      let p : Piece := { off := 0, pa := pa, len := 2 }
      if p.reg then failA (.prot e false)
      match p.module? with
      | some md => discardAcc g e (redoFar g e md pa w v ord scope.toNat)
      | none => redoLocal g e pa w v ord) s

/-! ### Fences (R200, R221) -/

/-- Release fence. -/
def execFenceRel (scope : BitVec 3) (s : State) : Host.Outcome State Fault Refusal :=
  runWord (.fenceRel scope) (release scope.toNat) s

/-- Acquire fence: its stamp is the observation horizon. -/
def execFenceAcq (scope : BitVec 3) (s : State) : Host.Outcome State Fault Refusal :=
  runWord (.fenceAcq scope) (do acquire scope.toNat (← cur).obs) s

/-- Full fence: a release fence, then an acquire fence. -/
def execFenceFull (scope : BitVec 3) (s : State) : Host.Outcome State Fault Refusal :=
  runWord (.fenceFull scope) (do
    release scope.toNat
    acquire scope.toNat (← cur).obs) s

/-! ### Waiting for tickets (R233) -/

/-- A ticket that DRAIN and WAITC accept (R149, R226, R233): kind, tid and sequence. -/
def ticketOf (s : State) (t : Thread) (x : Word) : Option (Nat × Nat × Nat) :=
  let g := s.gridOf t
  if bits x 60 4 = 1 ∧ bits x 16 44 = 0 then some (1, 1024, bits x 0 16)
  else if bits x 60 4 = 2 ∧ bits x 43 17 = 0 ∧ (bits x 32 11 < 64 * g.ngrp ∨ (bits x 32 11 = 1024 ∧ g.hasCond)) then
    some (2, bits x 32 11, bits x 0 32)
  else none

/-- DRAIN of a list of tickets: `value` of those not done goes to d, and the thread waits for them at its boundary. -/
def drainTickets (d : Spec) (ts : List (Nat × Nat × Nat)) : M Unit := do
  let t ← cur
  let s ← get
  let open' := ts.filter fun x => !s.ticketDone t.grid t.team x.1 x.2.1 x.2.2
  let gs ← reserve d 1
  fill none gs [w64 open'.length]
  if open' ≠ [] then modCur fun u => { u with waits := u.waits ++ [.drain open' (gs.headD .place) t.pc t.slot t.base t.loops] }

/-- DRAIN (R233). -/
def execDrain (d a : Spec) (s : State) : Host.Outcome State Fault Refusal :=
  runWord (.drain d a) (do
    let x ← readOp a
    match ticketOf (← get) (← cur) x with
    | none => trap cDESC
    | some tk => drainTickets d [tk]) s

/-- DRAIN.all (R233): the async tickets of the issuing thread. -/
def execDrainAll (d : Spec) (s : State) : Host.Outcome State Fault Refusal :=
  runWord (.drainAll d) (do
    let t ← cur
    let s ← get
    drainTickets d (((s.core (coreKey t.die t.core)).ops.filter fun o => o.grid == t.grid && o.team == t.team && o.tid == t.tid).map
      fun o => (2, t.tid, o.seq.toNat))) s

/-- DRAIN.pass (R233): the pass tickets of the issuing team. -/
def execDrainPass (d : Spec) (s : State) : Host.Outcome State Fault Refusal :=
  runWord (.drainPass d) (do
    let t ← cur
    let s ← get
    drainTickets d (((s.cluster (clusterKey t.die t.cluster)).table.filter fun e => e.grid == t.grid && e.team == t.team).map
      fun e => (1, 1024, e.seq.toNat))) s

end Sys2Proof.Machine
end

