-- ==== Sys2Proof/Machine/CopyUnit.lean ====
section
/-! DEFINITION. The copy unit (R208, R209, R225 to R232): posting CPYA, GATH and SCAT, and what an operation does when it ends. -/
namespace Sys2Proof.Machine

/-! ### Posting -/

/-- Rows less one, row length and strides of CPYA (R230). -/
abbrev AsyncOp.rows (o : AsyncOp) : Nat := bits (o.slot 2) 48 16
abbrev AsyncOp.len (o : AsyncOp) : Nat := bits (o.slot 2) 0 32
abbrev AsyncOp.sstride (o : AsyncOp) : Nat := bits (o.slot 3) 0 32
abbrev AsyncOp.dstride (o : AsyncOp) : Nat := bits (o.slot 3) 32 32

/-- The status word's address (R230, R231). -/
abbrev AsyncOp.swaddr (o : AsyncOp) : Word := if o.kind = 1 then o.slot 4 else o.slot 5

/-- Mode of GATH and SCAT: 0 fill, 1 wrap, 2 trap (R231). -/
abbrev AsyncOp.mode (o : AsyncOp) : Nat := o.control.toNat / 1024

/-- The reduce op and scope of a scatter-reduce. -/
abbrev AsyncOp.reduceOp (o : AsyncOp) : Nat := o.control.toNat / 16 % 8
abbrev AsyncOp.scope (o : AsyncOp) : Nat := o.control.toNat % 8
abbrev AsyncOp.reduces (o : AsyncOp) : Bool := o.kind == 3 && o.bit 3

/-- DESC by the fields of a descriptor (R230, R231). -/
def asyncBadFields (o : AsyncOp) : Bool :=
  if o.kind = 1 then o.len == 0 || decide (2 ^ 31 < o.len) || bits (o.slot 2) 32 16 != 0 || o.swaddr.toNat % 8 != 0
  else o.count == 0 || o.esize == 0 || decide (64 < o.esize) || o.dim == 0 || o.swaddr.toNat % 8 != 0
    || (o.reduces && !redIsVf o.reduceOp && o.esize != 4 && o.esize != 8)

/-- DESC by the ends and the overlap of the footprints (R230, R231). -/
def asyncBadRanges (fs : List Footprint) : Bool :=
  (fs.any fun f => !f.stash && (decide (2 ^ 64 < f.hi) || !canonical (w64 (f.hi - 1))))
    || fs.any fun f => fs.any fun g => f.write && !g.write && f.stash == g.stash && decide (f.lo < g.hi) && decide (g.lo < f.hi)

/-- The window whose front bank holds a stash footprint whole, and permits it (R230). -/
def asyncWindow (s : State) (k : Nat) (asid : BitVec 16) (f : Footprint) : Bool :=
  match s.windowAt k asid f.lo (f.hi - f.lo) false with
  | some w => !(f.write && w.ro)
  | none => false

/-- The stash lines that an operation writes. -/
def AsyncOp.writtenLines (o : AsyncOp) : List Nat :=
  (o.footprints.filter fun f => f.stash && f.write).flatMap fun f => touchedLines f.lo (f.hi - f.lo)

/-- Those that it has still to write: from its progress on (R229). -/
def AsyncOp.leftLines (o : AsyncOp) : List Nat :=
  if o.kind = 1 then
    if !o.bit 8 then []
    else (List.range (o.rows + 1)).flatMap fun r =>
      let lo := max (r * o.len) o.progress
      if lo < (r + 1) * o.len then touchedLines ((o.slot 1).toNat + r * o.dstride + (lo - r * o.len)) ((r + 1) * o.len - lo) else []
  else if o.kind = 2 ∧ o.bit 7 = true ∧ o.progress < o.count then
    touchedLines ((o.slot 2).toNat + o.esize * o.progress) (o.esize * (o.count - o.progress))
  else []

/-- Post an operation (R208, R225, R226): the descriptor is copied, the presence of the stash lines that it writes is cleared (R171), and the
ticket goes to t. -/
def postAsync (kind n : Nat) (a t : Spec) (control : BitVec 12) : M Unit := do
  let ds ← readOps a n
  let th ← cur
  let s ← get
  let k := coreKey th.die th.core
  let asid := (s.gridOf th).asid
  let o : AsyncOp := { key := s.fresh, grid := th.grid, team := th.team, tid := th.tid, seq := th.aseq, kind := kind,
                       desc := Vector.ofFn fun (i : Fin 6) => ds.getD i.val 0, control := control }
  if asyncBadFields o then trap cDESC
  match o.footprints.find? fun f => !f.stash && !canonical (w64 f.lo) with
  | some f => trap cPROTECTION (w64 f.lo) 5
  | none => pure ()
  if asyncBadRanges o.footprints then trap cDESC
  match o.footprints.find? fun f => f.stash && !asyncWindow s k asid f with
  | some f => trap cPROTECTION (w64 f.lo) 5
  | none => pure ()
  if 32 ≤ (s.core k).ops.length then park .footprint
  let s0 := (o.footprints.filter (·.stash)).foldl (fun s f =>
    match s.windowAt k asid f.lo (f.hi - f.lo) false with
    | some w => s.touch k (s.agentOf th) w
    | none => s) s
  let s1 := s0.freshen.modCore k fun c => { c with ops := c.ops ++ [o] }
  set (o.writtenLines.foldl (fun s l => s.setLine k l { s.stashLine k l with present := false, copying := some o.key }) s1)
  modCur fun u => { u with aseq := u.aseq + 1 }
  writeOp none t (w64 (2 ^ 61 + th.tid * 2 ^ 32 + th.aseq.toNat))

/-- Bits of a Boolean field. -/
abbrev bitOf (b : Bool) (i : Nat) : Nat := if b then 2 ^ i else 0

/-- CPYA (R230). -/
def execCpya (a t : Spec) (sspace dspace : BitVec 2) (s : State) : Host.Outcome State Fault Refusal :=
  runWord (.cpya a t sspace dspace) (postAsync 1 5 a t (BitVec.ofNat 12 (sspace.toNat * 2 ^ 10 + dspace.toNat * 2 ^ 8))) s

/-- GATH (R231, R232). -/
def execGath (a t : Spec) (mode : BitVec 2) (i64 istash dstash : Bool) (s : State) : Host.Outcome State Fault Refusal :=
  runWord (.gath a t mode i64 istash dstash)
    (postAsync 2 6 a t (BitVec.ofNat 12 (mode.toNat * 2 ^ 10 + bitOf i64 9 + bitOf istash 8 + bitOf dstash 7))) s

/-- SCAT (R231, R232). -/
def execScat (a t : Spec) (mode : BitVec 2) (i64 istash dstash : Bool) (s : State) : Host.Outcome State Fault Refusal :=
  runWord (.scat a t mode i64 istash dstash)
    (postAsync 3 6 a t (BitVec.ofNat 12 (mode.toNat * 2 ^ 10 + bitOf i64 9 + bitOf istash 8 + bitOf dstash 7))) s

/-- SCAT with a reduce op (R231, R232). -/
def execScatReduce (a t : Spec) (mode : BitVec 2) (i64 istash dstash : Bool) (op scope : BitVec 3) (s : State) :
    Host.Outcome State Fault Refusal :=
  runWord (.scatReduce a t mode i64 istash dstash op scope)
    (postAsync 3 6 a t (BitVec.ofNat 12
      (mode.toNat * 2 ^ 10 + bitOf i64 9 + bitOf istash 8 + bitOf dstash 7 + op.toNat * 16 + 8 + scope.toNat))) s

/-! ### Accesses of an operation -/

/-- What ends the pass of the unit over an operation: it waits, it waits on a replay tag, or it stops with a status at an address. -/
inductive AsyncStop where
  | wait
  | replay (level : Nat) (va : Word)
  | error (status cause : Nat) (va : Word)
  deriving DecidableEq, Repr, Inhabited

/-- How a failed access stops an operation (R228, R137). One that cannot be delivered (R363) takes the status of lost data, for R227 lists none for it
(notes/assumptions/10.md). -/
def asyncFail : Fail → AsyncStop
  | .replay l va _ => .replay l va
  | .prot va _ => .error 10 cPROTECTION va
  | .align va => .error 10 cPROTECTION va
  | .loss va _ => .error 11 cDATALOSS va
  | .mcast va => .error 11 cMCAST va
  | .refused va => .error 10 cPROTECTION va
  | _ => .wait

/-- The words of a stash line are brought in by the copy unit itself (R230). A fill that is under way is waited for; a read-only line whose lease has ended
is filled again; a line whose words the window owns is there. -/
def asyncFillLine (g : Agent) (w : Window) (line : Nat) : A Unit := do
  let s ← get
  let k := coreKey g.die g.core
  let x := s.stashLine k line
  if w.scratch then return ()
  if x.filling.isSome then failA (.stash line)
  if (if w.ro then s.linePresent k line else x.pas != []) then return ()
  startFill g w line
  let s1 ← get
  match s1.completeFill g.die g.core line w.ro with
  | some s2 => set s2
  | none =>
    match ((s1.stashLine k line).pas.filterMap fun p => p).find? fun pa => s1.isAcc (pa / 64) with
    | some pa => failA (.acc (pa / 64))
    | none => failA (.stash line)

/-- The lines of a stash range are there for an operation's read. -/
def asyncLines (g : Agent) (w : Window) (off n : Nat) : A Unit := do
  for line in touchedLines off n do
    let s ← get
    let x := s.stashLine (coreKey g.die g.core) line
    if s.linePresent (coreKey g.die g.core) line then pure ()
    else if x.copying.isSome && x.copying != g.op then failA (.stash line)
    else asyncFillLine g w line

/-- A read of this module's memory at its home, for an operation (R202, R209): the cluster's buffered bytes of the lines go home first. -/
def asyncNear (g : Agent) (va : Word) (p : Piece) : A (List (BitVec 8)) := do
  let s ← get
  let cut := cutLines [(p.pa, p.len)]
  match cut.find? fun q => s.isAcc (q.1 / 64) with
  | some q => failA (.acc (q.1 / 64))
  | none => do
    match cut.findSome? fun q => s.badGranule? q.1 q.2 with
    | some b => failA (.loss (va + w64 p.off) (some b))
    | none => do
      modA fun s => cut.foldl (fun s q => s.scrub q.1 q.2) (s.ownFirst g cut)
      let s ← get
      return cut.flatMap fun q => (s.homeRead g.die q.1 q.2).1

/-- Read n bytes of a space for an operation. -/
def asyncRead (g : Agent) (stash : Bool) (a : Word) (n : Nat) : A (List (BitVec 8)) := do
  let s ← get
  let k := coreKey g.die g.core
  if stash then
    match s.windowAt k g.asid a.toNat n true with
    | none => failA (.prot a false)
    | some w => do
      modA fun s => s.touch k g w
      asyncLines g w a.toNat n
      let s ← get
      if (s.badStash? k a.toNat n).isSome then failA (.loss a (s.badStash? k a.toNat n))
      modA fun s => s.scrubStash k a.toNat n
      return readCells (s.core k).stash a.toNat n
  else do
    let (ps, ptes) ← translateSpan g a n .r
    let qs ← checkPieces g a (piecesOf ps ptes)
    if qs.any (·.reg) then failA (.prot a false)
    let far ← (qs.filterMap fun p => p.module?.map fun md => (md, p)).mapM fun x => loadFar g a {} x.1 x.2
    let near ← (qs.filter fun p => p.module?.isNone).mapM fun p => do return (p.off, ← asyncNear g a p)
    let xs := (far.map fun x => (x.1, x.2.bytes)) ++ near
    return qs.flatMap fun p => ((xs.find? fun x => x.1 == p.off).map (·.2)).getD []

/-- A write of this module's memory for an operation: the visibility time. A piece on an ACC line is discarded and reported (R137). -/
def asyncPut (g : Agent) (a : Word) (bs : List (BitVec 8)) (p : Piece) : A Nat := do
  let cut := p.lines
  modA fun s => s.ownFirst g (cut.map fun q => (q.pa, q.len))
  let r := cut.foldl (fun (acc : State × Nat) q =>
    if acc.1.isAcc (q.pa / 64) then (acc.1.report g.die g.grid g.team g.tid g.core cPROTECTION (a + w64 q.off) 1 0, acc.2)
    else
      let part := (bs.drop q.off).take q.len
      let (s', v) := acc.1.homeWrite1 g.die q.pa part
      (s'.l1Update (coreKey g.die g.core) q.pa part, max acc.2 v)) (← get, 0)
  set r.1
  return r.2

/-- Write bytes of a space for an operation: the largest visibility time. -/
def asyncWrite (g : Agent) (stash : Bool) (a : Word) (bs : List (BitVec 8)) : A Nat := do
  let s ← get
  let k := coreKey g.die g.core
  if stash then
    match s.windowAt k g.asid a.toNat bs.length true with
    | none => failA (.prot a false)
    | some w => do
      modA fun s => s.touch k g w
      for line in touchedLines a.toNat bs.length do
        asyncFillLine g w line
      modA fun s => ((s.stashPut k a.toNat bs).markStash k g.grid a.toNat bs.length).stashOwn g.die g.core a.toNat bs
      let s ← get
      return maxOf (s.now g.die :: (touchedLines a.toNat bs.length).map fun l => (s.stashLine k l).claim)
  else do
    let (ps, ptes) ← translateSpan g a bs.length .w
    let qs ← checkPieces g a (piecesOf ps ptes)
    if qs.any (·.reg) then failA (.prot a false)
    match (qs.filter (·.module?.isNone)).findSome? fun p => (s.badPart? p.pa p.len).map fun b => (p, b) with
    | some (p, b) => failA (.loss (a + w64 p.off) (some b))
    | none => do
      let rs ← (qs.filterMap fun p => p.module?.map fun md => (md, p)).mapM fun x => do
        let i ← systemPort g a x.1
        storeFar g a bs 0 i x.2
      let vs ← (qs.filter fun p => p.module?.isNone).mapM (asyncPut g a bs)
      reportRefused g rs
      return maxOf vs

/-! ### What an operation does -/

/-- Progress of an operation: the next byte or position, the marks of its status word, and the visibility time of its writes so far. -/
structure AsyncAt where
  pos : Nat
  oor : Bool
  flags : Flags
  vis : Nat
  deriving DecidableEq, Repr, Inhabited

/-- The answers from other modules that a step of an operation has used: each element's access asks anew (R232). Those of its index array stay. -/
def State.useReplies (s : State) (o : AsyncOp) : State :=
  if s.pending = [] then s
  else
    let index (va : Word) : Bool := o.kind != 1 && decide ((o.slot 1).toNat / 64 ≤ va.toNat / 64) && decide (va.toNat < (o.slot 1).toNat + o.isize * o.count)
    { s with pending := s.pending.filter fun p => !(p.2.op == some o.key && p.2.reply.isSome && !index p.2.va) }

/-- Steps of an operation one after another up to a position, until one stops. A stopped step leaves the state it reached, and the position before it. -/
def asyncSteps (o : AsyncOp) (step : Nat → AsyncAt → A AsyncAt) (upto : Nat) : Nat → AsyncAt → State → State × AsyncAt × Option Fail
  | 0, x, s => (s, x, none)
  | f + 1, x, s =>
    if upto ≤ x.pos then (s, x, none)
    else
      match step x.pos x s with
      | .ok (x', s') => asyncSteps o step upto f x' (s'.useReplies o)
      | .error (e, s') => (s', x, some e)

/-- One piece of a copy, which crosses no 64-byte line on either side, and no progress point (R229, R230). -/
def copyStep (o : AsyncOp) (g : Agent) (p : Nat) (x : AsyncAt) : A AsyncAt := do
  let r := p / o.len
  let i := p % o.len
  let src := o.slot 0 + w64 (r * o.sstride + i)
  let dst := o.slot 1 + w64 (r * o.dstride + i)
  let n := min (min (o.len - i) (4096 - p % 4096)) (min (64 - src.toNat % 64) (64 - dst.toNat % 64))
  let bs ← asyncRead g (o.bit 10) src n
  let v ← asyncWrite g (o.bit 8) dst bs
  return { x with pos := p + n, vis := max x.vis v }

/-- Resolve of R232. -/
def AsyncOp.resolve (o : AsyncOp) (i : Int) : Option Nat :=
  if 0 ≤ i ∧ i < o.dim then some i.toNat
  else if o.mode = 1 ∧ -(o.dim : Int) ≤ i ∧ i < 0 then some (i + o.dim).toNat
  else none

/-- The whole index array, in order (R232). -/
def readIndices (o : AsyncOp) (g : Agent) : A (List (Option Nat)) :=
  (List.range o.count).mapM fun p => do
    let bs ← asyncRead g (o.bit 8) (o.slot 1 + w64 (o.isize * p)) o.isize
    return o.resolve (if o.isize = 8 then (w64 (ofBytes bs)).toInt else (BitVec.ofNat 32 (ofBytes bs)).toInt)

/-- Address of table element j, and of position p of the data array. -/
abbrev AsyncOp.elem (o : AsyncOp) (j : Nat) : Word := o.slot 0 + w64 (o.esize * j)
abbrev AsyncOp.datum (o : AsyncOp) (p : Nat) : Word := o.slot 2 + w64 (o.esize * p)

/-- The fill bytes of GATH, repeated to the element's size (R231). -/
def AsyncOp.fillBytes (o : AsyncOp) : List (BitVec 8) :=
  (List.range o.esize).map fun i => (toBytes 8 (o.slot 4).toNat).getD (i % 8) 0

/-- One position of GATH (R232). -/
def gathStep (o : AsyncOp) (g : Agent) (js : List (Option Nat)) (p : Nat) (x : AsyncAt) : A AsyncAt := do
  let bs ← match js.getD p none with
    | some j => asyncRead g false (o.elem j) o.esize
    | none => pure o.fillBytes
  let v ← asyncWrite g (o.bit 7) (o.datum p) bs
  return { x with pos := p + 1, oor := x.oor || (js.getD p none).isNone, vis := max x.vis v }

/-- A VF value longer than its element stops the operation (R232); the reason rides on an alignment failure of that address. -/
def checkLonger (o : AsyncOp) (a : Word) (bs : List (BitVec 8)) : A Unit :=
  if o.esize < 2 * headerClass (ofBytes (bs.take 2)) + 4 then failA (.align a) else pure ()

/-- One application of a scatter-reduce at the perform point of its scope (R219, R232): the flags and the visibility time. -/
def reduceStep (o : AsyncOp) (g : Agent) (j p : Nat) : A (Flags × Nat) := do
  let data ← asyncRead g (o.bit 7) (o.datum p) o.esize
  let fl := redIsVf o.reduceOp
  if fl then checkLonger o (o.datum p) data
  let v := if fl then vfOfBytes data else default
  let x := if fl then 0 else w64 (ofBytes data)
  let a := o.elem j
  let req := redRequest o.reduceOp (decide (o.esize = 4)) v x
  let (ps, ptes) ← translateSpan g a o.esize .rw
  let qs ← checkPieces g a (piecesOf ps ptes)
  if qs.any (·.reg) then failA (.prot a false)
  match qs.findSome? (·.module?) with
  | some md => do
    if qs.any fun q => q.module? != some md then failA (.mcast a)
    let i ← systemPort g a md
    -- the element is read first: the request's acknowledgement brings neither its header nor the flags (notes/assumptions/16.md)
    let olds ← qs.mapM fun q => loadFar g a {} md q
    let old := olds.flatMap (·.2.bytes)
    if fl then checkLonger o a old
    let r ← refusedAt (remoteAccess g a o.scope (qs.headD default).pa i req.1 req.2.1 req.2.2)
    reportRefused g [r]
    return (if r.isNone then (reduceBytes o.reduceOp (if fl then old.take (2 * headerClass (ofBytes (old.take 2)) + 4) else old) v x).2 else {}, 0)
  | none => do
    let s ← get
    let cut := cutLines (qs.map fun q => (q.pa, q.len))
    match cut.find? fun q => s.isAcc (q.1 / 64) with
    | some _ => do
      modA fun s => s.report g.die g.grid g.team g.tid g.core cPROTECTION a 1 0
      return ({}, 0)
    | none => do
      let f (e : List (BitVec 8)) : List (BitVec 8) × Flags :=
        let n := if fl then 2 * headerClass (ofBytes (e.take 2)) + 4 else o.esize
        let r := reduceBytes o.reduceOp (e.take n) v x
        (r.1 ++ e.drop n, r.2)
      let old ← (if o.scope ≤ 3 then rmwCluster g a cut (fun _ => none) else rmwHome g a cut (fun _ => none))
      if fl then checkLonger o a old
      let s ← get
      let vis := if o.scope ≤ 3 then 0 else maxOf (cut.map fun q => s.visTime g.die q.1 q.2)
      let _ ← (if o.scope ≤ 3 then rmwCluster g a cut (fun e => some (f e).1) else rmwHome g a cut (fun e => some (f e).1))
      return ((f old).2, vis)

/-- One position of SCAT (R232): the largest position that resolves to an element writes it; a scatter-reduce applies each. -/
def scatStep (o : AsyncOp) (g : Agent) (js : List (Option Nat)) (p : Nat) (x : AsyncAt) : A AsyncAt := do
  match js.getD p none with
  | none => return { x with pos := p + 1, oor := true }
  | some j =>
    if o.reduces then
      let (f, v) ← reduceStep o g j p
      return { x with pos := p + 1, flags := x.flags.or f, vis := max x.vis v }
    else if (js.drop (p + 1)).contains (some j) then return { x with pos := p + 1 }
    else
      let bs ← asyncRead g (o.bit 7) (o.datum p) o.esize
      let v ← asyncWrite g false (o.elem j) bs
      return { x with pos := p + 1, vis := max x.vis v }

/-- The bytes or positions of an operation in all, and those between two progress points (R227, R229). -/
abbrev AsyncOp.total (o : AsyncOp) : Nat := if o.kind = 1 then (o.rows + 1) * o.len else o.count
abbrev AsyncOp.unit (o : AsyncOp) : Nat := if o.kind = 1 then 4096 else 64

/-- An operation stands at a progress point, or cannot reach its next one: it waits, or has ended but for its status word (R229). -/
def AsyncOp.suspended (o : AsyncOp) : Bool := o.progress % o.unit == 0 || o.tag.isSome || o.waits || o.done.isSome

/-- An operation goes on from its progress up to a position. An uncorrectable granule that stops it is lasting (R341). -/
def runAsync (o : AsyncOp) (g : Agent) (upto : Nat) (s : State) : State × AsyncAt × Option AsyncStop :=
  let x : AsyncAt := ⟨o.progress, o.oor, o.flags, o.vis⟩
  let sick (s : State) (e : Option Fail) : State := match e with | some (.loss _ (some (d, n))) => s.lasting d n | _ => s
  if o.kind = 1 then
    let (s', x', e) := asyncSteps o (copyStep o g) upto o.total x s
    (sick s' e, x', e.map asyncFail)
  else
    match readIndices o g s with
    | .error (e, s') => (sick s' (some e), x, some (asyncFail e))
    | .ok (js, s1) =>
      if o.mode = 2 ∧ js.contains none then
        let p := js.findIdx (·.isNone)
        (s1, { x with pos := p }, some (.error 13 cOOR (o.slot 1 + w64 (o.isize * p))))
      else
        let (s', x', e) := asyncSteps o (if o.kind = 2 then gathStep o g js else scatStep o g js) upto o.total x s1
        (sick s' e, x', e.map fun f => match f with
          | .align va => if o.reduces then .error 9 cASYNC va else asyncFail f
          | _ => asyncFail f)

/-- Change an operation of a core. -/
def State.modOp (s : State) (k key : Nat) (f : AsyncOp → AsyncOp) : State :=
  s.modCore k fun c => { c with ops := c.ops.map fun o => if o.key = key then f o else o }

/-- An operation's ticket (R226), and its status word (R227). -/
abbrev AsyncOp.ticket (o : AsyncOp) : Word := w64 (2 ^ 61 + o.tid * 2 ^ 32 + o.seq.toNat)
abbrev asyncStatus (o : AsyncOp) (status : Nat) (x : AsyncAt) : Word :=
  w64 (status * 2 ^ 60 + (if o.reduces then x.flags.nibble else 0) * 2 ^ 56 + bitOf x.oor 52 + o.kind * 2 ^ 48 + x.pos % 2 ^ 48)

/-- The stash lines that an operation has held absent are present where the words they stand for are there (R171). -/
def freeLines (s : State) (k : Nat) (o : AsyncOp) : State :=
  o.writtenLines.foldl (fun s l =>
    let x := s.stashLine k l
    let scratch := ((s.core k).windows.find? fun w => decide (w.soff ≤ 32 * l) && decide (32 * l < w.soff + w.bank) && w.scratch).isSome
    if x.copying = some o.key then s.setLine k l { x with copying := none, present := scratch || x.pas ≠ [] } else s) s

/-- The end of an operation (R171, R209, R228): the lines it wrote are present, the entry is freed, its team's threads may observe its ticket
done, and a window of an ended team ends. -/
def endAsync (s : State) (die core : Nat) (o : AsyncOp) (vis : Nat) : State :=
  let k := coreKey die core
  let s1 := freeLines s k o
  let s2 : State := { (s1.modCore k fun c => { c with ops := c.ops.filter fun x => x.key ≠ o.key }) with
    pending := s1.pending.filter fun p => p.2.op != some o.key,
    threads := s1.threads.map fun p =>
      if p.2.grid = o.grid ∧ p.2.team = o.team then (p.1, { p.2 with hor := max p.2.hor vis }) else p }
  let s3 := s2.noteVis o.grid die vis
  if (s3.team? (teamKey o.grid o.team)).isNone then s3.endWindows die core o.grid o.team else s3

/-- The agent of an operation (R186). -/
def asyncAgent (s : State) (die core : Nat) (o : AsyncOp) : Agent :=
  let g := s.gridAgent o.grid die
  { g with th := thKey o.grid o.team o.tid, team := o.team, tid := o.tid, core := core, op := some o.key, unit := false }

/-- An operation keeps what its last pass came to. -/
def State.keepOp (s : State) (k : Nat) (o : AsyncOp) (x : AsyncAt) (f : AsyncOp → AsyncOp) : State :=
  s.modOp k o.key fun o => f { o with progress := x.pos, oor := x.oor, flags := x.flags, vis := x.vis, tag := none, va := 0, waits := false }

/-- The contributions of a scatter-reduce at the cluster unit go to their homes before its status word (R205, R227): the time of their visibility. -/
def flushOwn (s : State) (g : Agent) (o : AsyncOp) : State × Nat :=
  let ck := clusterKey g.die (g.core / 4)
  if o.reduces && decide (o.scope ≤ 3) then s.flushLines ck (((s.cluster ck).buf.filter fun p => p.2.who.contains g.th).map (·.1)) else (s, 0)

/-- The status word is written, the report made, and the operation ends (R227, R228), once its own writes are visible. A replayable fault on the status word's page
leaves the operation waiting on its record. Where the write of the status word itself fails otherwise, one more report is made and the operation ends without it
(notes/assumptions/10.md). -/
def finishAsync (s : State) (die core : Nat) (o : AsyncOp) (x : AsyncAt) (status : Nat) (rep : Option (Nat × Word)) : State :=
  let k := coreKey die core
  let g := asyncAgent s die core o
  let close (s : State) (vis : Nat) : State :=
    let s1 := match rep with
      | some (c, va) =>
        s.report die o.grid o.team o.tid core c va
          (w64 (if c = cASYNC then o.seq.toNat / 16 * 16 + 9 + o.kind * 2 ^ 32 else o.seq.toNat + o.kind * 2 ^ 32)) o.ticket
      | none => s
    endAsync s1 die core o (max x.vis vis)
  if o.swaddr = 0 then close s 0
  else
    let (s0, v0) := flushOwn s g o
    let x := { x with vis := max x.vis v0 }
    let later (s : State) (f : AsyncOp → AsyncOp) : State := s.keepOp k o x fun o => f { o with done := some (status, rep) }
    if s0.now die < x.vis then later s0 id
    else
      match asyncWrite g false o.swaddr (toBytes 8 (asyncStatus o status x).toNat) s0 with
      | .ok (v, s') => close s' v
      | .error (e, s') =>
        match asyncFail e with
        | .replay l va =>
          let (s1, tag) := s'.postReplay g va l 5 false 0
          later s1 fun o => { o with tag := some tag, va := va }
        | .error _ c va => close (s'.report die o.grid o.team o.tid core c va (w64 (o.seq.toNat + o.kind * 2 ^ 32)) o.ticket) 0
        | .wait => later s' fun o => { o with waits := true }

/-- The cohort of an operation is being pre-empted (R229, R331). -/
def stopsOp (s : State) (o : AsyncOp) : Bool :=
  match s.cohort? (cohortKey o.grid (s.cohortOf o.grid o.team)) with
  | some c => match c.status with | .stopping _ => true | _ => false
  | none => false

/-- An operation goes on from its progress (R227 to R232): to its end, or where its cohort is being pre-empted to its next progress point; it waits, or parks on a
replayable fault. -/
def advanceOp (s : State) (die core : Nat) (o : AsyncOp) : State :=
  let k := coreKey die core
  let g := asyncAgent s die core o
  let x0 : AsyncAt := ⟨o.progress, o.oor, o.flags, o.vis⟩
  match o.done with
  | some (status, rep) => finishAsync s die core o x0 status rep
  | none =>
    let upto := if stopsOp s o then min o.total (roundUp o.progress o.unit) else o.total
    let (s1, x, e) := runAsync o g upto s
    let s2 := s1.raiseHor die g.th x.vis
    match e with
    | none => if o.total ≤ x.pos then finishAsync s1 die core o x 3 none else s2.keepOp k o x id
    | some .wait => s2.keepOp k o x fun o => { o with waits := true }
    | some (.replay l va) =>
      let (s3, tag) := s2.postReplay g va l 5 false 0
      s3.keepOp k o x fun o => { o with tag := some tag, va := va }
    | some (.error status c va) => finishAsync s1 die core o x status (some (c, va))

/-- A REDO of an operation's thread that a home has refused, and that conflicts with the operation, is still to be performed (R144, R197, R208). -/
def redoAhead (s : State) (o : AsyncOp) : Bool :=
  s.nacked.any fun p => match p.2.2 with
    | .redo e w _ _ th va =>
      th == thKey o.grid o.team o.tid && o.footprints.any fun f => !f.stash
        && ((decide (va.toNat < f.hi) && decide (f.lo < va.toNat + elementLen s e))
          || (decide (va.toNat / 64 * 64 + w % 64 < f.hi) && decide (f.lo < va.toNat / 64 * 64 + w % 64 + 8)))
    | _ => false

/-- ASYNC_OP_COMPLETE (R208, R227 to R232): the operation goes on, unless it waits on a replay, or an earlier operation of its core or an earlier REDO of its
thread that is still to be performed conflicts with it. -/
def execAsyncOpComplete (die : DieId) (core : CoreId) (key : Nat) (s : State) : Host.Outcome State Fault Refusal :=
  let k := coreKey die.toNat core.toNat
  let ops := (s.core k).ops
  match ops.find? fun o => o.key == key with
  | none => .next s
  | some o =>
    let before := ops.takeWhile fun p => p.key != key
    let clash := before.any fun p =>
      ((s.grid? p.grid).map (·.asid)) == ((s.grid? o.grid).map (·.asid)) && p.footprints.any fun f => o.footprints.any fun h =>
        f.stash == h.stash && decide (f.lo < h.hi) && decide (h.lo < f.hi) && (f.write || h.write)
    if o.tag.isSome || clash || redoAhead s o then .next s else .next (advanceOp s die.toNat core.toNat o)

end Sys2Proof.Machine
end

