-- ==== Sys2Proof/Machine/Crypto.lean ====
section
/-! DEFINITION. The primitives that the firmware and attestation rules name (R304, R306, R307, R311): SHA-512, and RSASSA-PSS with SHA-512, MGF1 with SHA-512 and
a 64-byte salt over a 4,096-bit modulus. The spec names the standards; their constants are taken from them (notes/assumptions/15.md). -/
namespace Sys2Proof.Machine

/-! ### SHA-512 -/

/-- Round constants 0 to 19: the fractions of the cube roots of the primes. -/
def shaK0 : List Word :=
  [0x428A2F98D728AE22, 0x7137449123EF65CD, 0xB5C0FBCFEC4D3B2F, 0xE9B5DBA58189DBBC,
   0x3956C25BF348B538, 0x59F111F1B605D019, 0x923F82A4AF194F9B, 0xAB1C5ED5DA6D8118,
   0xD807AA98A3030242, 0x12835B0145706FBE, 0x243185BE4EE4B28C, 0x550C7DC3D5FFB4E2,
   0x72BE5D74F27B896F, 0x80DEB1FE3B1696B1, 0x9BDC06A725C71235, 0xC19BF174CF692694,
   0xE49B69C19EF14AD2, 0xEFBE4786384F25E3, 0x0FC19DC68B8CD5B5, 0x240CA1CC77AC9C65]

/-- Round constants 20 to 39: the fractions of the cube roots of the primes. -/
def shaK1 : List Word :=
  [0x2DE92C6F592B0275, 0x4A7484AA6EA6E483, 0x5CB0A9DCBD41FBD4, 0x76F988DA831153B5,
   0x983E5152EE66DFAB, 0xA831C66D2DB43210, 0xB00327C898FB213F, 0xBF597FC7BEEF0EE4,
   0xC6E00BF33DA88FC2, 0xD5A79147930AA725, 0x06CA6351E003826F, 0x142929670A0E6E70,
   0x27B70A8546D22FFC, 0x2E1B21385C26C926, 0x4D2C6DFC5AC42AED, 0x53380D139D95B3DF,
   0x650A73548BAF63DE, 0x766A0ABB3C77B2A8, 0x81C2C92E47EDAEE6, 0x92722C851482353B]

/-- Round constants 40 to 59: the fractions of the cube roots of the primes. -/
def shaK2 : List Word :=
  [0xA2BFE8A14CF10364, 0xA81A664BBC423001, 0xC24B8B70D0F89791, 0xC76C51A30654BE30,
   0xD192E819D6EF5218, 0xD69906245565A910, 0xF40E35855771202A, 0x106AA07032BBD1B8,
   0x19A4C116B8D2D0C8, 0x1E376C085141AB53, 0x2748774CDF8EEB99, 0x34B0BCB5E19B48A8,
   0x391C0CB3C5C95A63, 0x4ED8AA4AE3418ACB, 0x5B9CCA4F7763E373, 0x682E6FF3D6B2B8A3,
   0x748F82EE5DEFB2FC, 0x78A5636F43172F60, 0x84C87814A1F0AB72, 0x8CC702081A6439EC]

/-- Round constants 60 to 79: the fractions of the cube roots of the primes. -/
def shaK3 : List Word :=
  [0x90BEFFFA23631E28, 0xA4506CEBDE82BDE9, 0xBEF9A3F7B2C67915, 0xC67178F2E372532B,
   0xCA273ECEEA26619C, 0xD186B8C721C0C207, 0xEADA7DD6CDE0EB1E, 0xF57D4F7FEE6ED178,
   0x06F067AA72176FBA, 0x0A637DC5A2C898A6, 0x113F9804BEF90DAE, 0x1B710B35131C471B,
   0x28DB77F523047D84, 0x32CAAB7B40C72493, 0x3C9EBE0A15C9BEBC, 0x431D67C49C100D4C,
   0x4CC5D4BECB3E42B6, 0x597F299CFC657E2A, 0x5FCB6FAB3AD6FAEC, 0x6C44198C4A475817]

/-- The initial hash: the fractions of the square roots of the first eight primes. -/
def shaInit : List Word :=
  [0x6A09E667F3BCC908, 0xBB67AE8584CAA73B, 0x3C6EF372FE94F82B, 0xA54FF53A5F1D36F1,
   0x510E527FADE682D1, 0x9B05688C2B3E6C1F, 0x1F83D9ABFB41BD6B, 0x5BE0CD19137E2179]

/-- The round constants. -/
def shaK : List Word := shaK0 ++ shaK1 ++ shaK2 ++ shaK3

/-- Big-endian bytes of a number, n of them. -/
def beBytes (n x : Nat) : List (BitVec 8) := (toBytes n x).reverse

/-- The number of big-endian bytes. -/
def beNat (bs : List (BitVec 8)) : Nat := ofBytes bs.reverse

abbrev rotr (x : Word) (n : Nat) : Word := x.rotateRight n

/-- The next 64 words of the schedule from the last sixteen, newest first. -/
def schedule : Nat → List Word → List Word
  | 0, w => w
  | k + 1, w =>
    let w2 := w.getD 1 0
    let w15 := w.getD 14 0
    let a := rotr w2 19 ^^^ rotr w2 61 ^^^ (w2 >>> 6)
    let b := rotr w15 1 ^^^ rotr w15 8 ^^^ (w15 >>> 7)
    schedule k ((a + w.getD 6 0 + b + w.getD 15 0) :: w)

/-- One round on the working variables a to h. -/
def shaRound (v : List Word) (kw : Word) : List Word :=
  match v with
  | [a, b, c, d, e, f, g, h] =>
    let t1 := h + (rotr e 14 ^^^ rotr e 18 ^^^ rotr e 41) + ((e &&& f) ^^^ (~~~e &&& g)) + kw
    let t2 := (rotr a 28 ^^^ rotr a 34 ^^^ rotr a 39) + ((a &&& b) ^^^ (a &&& c) ^^^ (b &&& c))
    [t1 + t2, a, b, c, d + t1, e, f, g]
  | v => v

/-- One block of 128 bytes. -/
def shaBlock (h : List Word) (block : List (BitVec 8)) : List Word :=
  let w := (List.range 16).map fun i => w64 (beNat ((block.drop (8 * i)).take 8))
  let ws := (schedule 64 w.reverse).reverse
  let v := ((shaK.zip ws).map fun p => p.1 + p.2).foldl shaRound h
  (h.zip v).map fun p => p.1 + p.2

/-- The blocks of a padded message. -/
def shaBlocks : Nat → List Word → List (BitVec 8) → List Word
  | 0, h, _ => h
  | n + 1, h, bs => shaBlocks n (shaBlock h (bs.take 128)) (bs.drop 128)

/-- SHA-512 of some bytes. -/
def sha512 (bs : List (BitVec 8)) : List (BitVec 8) :=
  let n := bs.length
  let pad := (239 - n % 128) % 128
  let m := bs ++ [0x80] ++ List.replicate pad 0 ++ beBytes 16 (8 * n)
  (shaBlocks (m.length / 128) shaInit m).flatMap fun w => beBytes 8 w.toNat

/-! ### RSASSA-PSS -/

/-- x^e mod n, over the low bits of e. -/
def powMod (n : Nat) : Nat → Nat → Nat → Nat → Nat
  | 0, _, _, acc => acc
  | f + 1, x, e, acc => powMod n f (x * x % n) (e / 2) (if e % 2 = 1 then acc * x % n else acc)

/-- MGF1 with SHA-512: n bytes of mask. -/
def mgf1 (seed : List (BitVec 8)) (n : Nat) : List (BitVec 8) :=
  ((List.range ((n + 63) / 64)).flatMap fun i => sha512 (seed ++ beBytes 4 i)).take n

/-- Bytes exclusive-or. -/
def xorBytes (a b : List (BitVec 8)) : List (BitVec 8) := (a.zip b).map fun p => p.1 ^^^ p.2

/-- The data block before its salt: of its 447 bytes, the salt takes 64 and the separating 1 the one before. -/
def pssHead : List (BitVec 8) := List.replicate 382 0 ++ [1]

/-- The hash of the padding, the message's hash and the salt. -/
def pssHash (mHash salt : List (BitVec 8)) : List (BitVec 8) := sha512 (List.replicate 8 0 ++ mHash ++ salt)

/-- The encoded message of a salt: 512 bytes, the top bit clear. -/
def pssEncode (m salt : List (BitVec 8)) : List (BitVec 8) :=
  let h := pssHash (sha512 m) salt
  let masked := xorBytes (pssHead ++ salt) (mgf1 h 447)
  (match masked with | b :: bs => (b &&& 0x7F) :: bs | [] => []) ++ h ++ [0xBC]

/-- A signature is valid for a message under a modulus and exponent. -/
def pssVerify (n e : Nat) (m sig : List (BitVec 8)) : Bool :=
  let s := beNat sig
  if decide (n ≤ s) || !((beBytes 512 n).getD 0 0).getLsbD 7 then false
  else
    let em := beBytes 512 (powMod n 32 s e 1)
    let masked := em.take 447
    let h := (em.drop 447).take 64
    if em.getD 511 0 ≠ 0xBC ∨ (em.getD 0 0).getLsbD 7 then false
    else
      let db := match xorBytes masked (mgf1 h 447) with | b :: bs => (b &&& 0x7F) :: bs | [] => []
      db.take 383 == pssHead && pssHash (sha512 m) (db.drop 383) == h

/-- The signature of a message under a modulus, private exponent and salt. -/
def pssSign (n d : Nat) (m salt : List (BitVec 8)) : List (BitVec 8) := beBytes 512 (powMod n 4096 (beNat (pssEncode m salt)) d 1)

end Sys2Proof.Machine
end

