-- ==== Sys2Proof/Machine/Narrow.lean ====
section
/-! DEFINITION. Narrow elements, their products and blocks (R74 to R77), and the thread instructions on them (R113 to R116). -/
namespace Sys2Proof.Machine

namespace Narrow

/-- The table T of R75, in units of 2^-23. -/
def table (i : Nat) : Nat :=
  match i % 4 with
  | 0 => 0x800000
  | 1 => 0x9837F0
  | 2 => 0xB504F3
  | _ => 0xD744FD

/-- The log field of an L6 code (R75). -/
def logField (code : Nat) : Int := (BitVec.ofNat 5 code).toInt

/-- The magnitude that a log field stands for (R75), in the exponent form of Num. -/
def logNum (neg : Bool) (x : Int) : Num := .fin neg (table (x % 4).toNat) (x / 4 - 23)

/-- NaL: x = -16 with the sign set (R75). -/
def isNal (tag code : Nat) : Bool := tag == 0 && code % 64 == 48

/-- The value of an element, less its block's scale (R75, R76); NaL has none and reads as a NaN. -/
def value (tag code : Nat) : Num :=
  let neg := decide (code / 32 % 2 = 1)
  match tag with
  | 0 => if logField code = -16 then (if neg then madeNan else .zero false) else logNum neg (logField code)
  | 1 =>
    let e := code / 4 % 8
    if e = 0 then .fin neg (code % 4) (-4) else .fin neg (4 + code % 4) ((e : Int) - 5)
  | 2 => Num.ofInt (BitVec.ofNat 6 code).toInt
  | _ => .zero false

/-- A number times a power of two. -/
def scale (x : Num) (k : Int) : Num :=
  match x with
  | .fin n m e => .fin n m (e + k)
  | y => y

/-- The product of two elements, scaled (R77). A NaL operand is an invalid operation, whatever the other is (R116;
notes/assumptions/7.md). -/
def product (ta ca tb cb : Nat) (k : Int) : Num × Bool :=
  if isNal ta ca || isNal tb cb then (madeNan, true)
  else
    let x := value ta ca
    let y := value tb cb
    let p :=
      if x.isZero || y.isZero then .zero (x.neg != y.neg)
      else if ta = 0 ∧ tb = 0 then logNum (x.neg != y.neg) (logField ca + logField cb)
      else (exactProduct x y).1
    (scale p k, false)

/-- A block of 26 bytes (R74): tag, scale, and the 32 codes; a nonzero field in header bits 15:14 makes every element NaL. -/
structure Block where
  tag : Nat
  scale : Int
  codes : List Nat
  deriving DecidableEq, Repr, Inhabited

/-- The block of its bytes. -/
def block (bs : List (BitVec 8)) : Block :=
  let h := ofBytes (bs.take 2)
  let v := ofBytes ((bs.drop 2).take 24)
  if h / 16384 ≠ 0 then ⟨0, 0, List.replicate 32 48⟩
  else ⟨h / 4096 % 4, (BitVec.ofNat 12 h).toInt, (List.range 32).map fun i => v >>> (6 * i) % 64⟩

/-! ### The nearest code (R114) -/

/-- The codes of one sign with their magnitudes in units of 2^-27, in rising order; zero leads. -/
def codes (tag : Nat) (neg : Bool) : List (Nat × Nat) :=
  let s := if neg then 32 else 0
  match tag with
  | 0 =>
    (16, 0) :: (List.range 31).map fun i =>
      let x : Int := (i : Int) - 15
      (s + (x % 32).toNat, table (x % 4).toNat <<< (x / 4 + 4).toNat)
  | 1 =>
    (List.range 32).map fun c => (s + c, if c / 4 = 0 then (c % 4) <<< 23 else (4 + c % 4) <<< (c / 4 + 22))
  | _ => if neg then (List.range 33).map fun k => ((64 - k) % 64, k <<< 27) else (List.range 32).map fun k => (k, k <<< 27)

/-- The distance between two naturals. -/
abbrev apart (a b : Nat) : Nat := (a - b) + (b - a)

/-- The nearest of a list of codes to v, with its distance; a tie goes to the code with bit 0 clear. The codes' magnitudes are shifted by `up`. -/
def nearest (v up : Nat) : List (Nat × Nat) → Option (Nat × Nat)
  | [] => none
  | (c, m) :: rest =>
    let d := apart v (m <<< up)
    match nearest v up rest with
    | none => some (c, d)
    | some (c', d') => if d < d' ∨ (d = d' ∧ c % 2 = 0) then some (c, d) else some (c', d')

/-- The code and flags that PACK6 gives for a value already divided by the scale (R114). -/
def pack (tag : Nat) (v : Num) : Nat × Flags :=
  if tag = 3 then (0, {})
  else
    match v with
    | .nan .. => (if tag = 0 then 48 else 0, { inv := true })
    | .inf n => (((codes tag n).getLastD (0, 0)).1, { ovf := true, inx := true })
    | .fin n m e =>
      let cs := codes tag n
      if m = 0 then ((cs.headD (0, 0)).1, {})
      else
        let sh := e + 27
        let x := m <<< sh.toNat
        let up := (-sh).toNat
        let top := cs.getLastD (0, 0)
        if top.2 <<< up < x then (top.1, { ovf := true, inx := true })
        else
          let r := (nearest x up cs).getD (0, 0)
          (r.1, { inx := decide (r.2 ≠ 0) })

end Narrow

/-- The fields of a narrow operand slot (R113): tag, scale and code; nonzero reserved bits raise DESC. -/
def narrowSlot (x : Word) : M (Nat × Int × Nat) := do
  if bits x 28 36 ≠ 0 ∨ bits x 10 6 ≠ 0 ∨ bits x 6 2 ≠ 0 then trap cDESC
  return (bits x 8 2, (BitVec.ofNat 12 (bits x 16 12)).toInt, bits x 0 6)

/-- PACK6 (R114). It ignores FTZ, and so reads a subnormal source as it is, although R67 names FCLASS as the one exception to the input flush
(notes/assumptions/20.md). -/
def execPack6 (d a b : Spec) (s : State) : Host.Outcome State Fault Refusal :=
  runWord (.pack6 d a b) (do
    let x ← readVf a
    let y ← readOp b
    let (tag, k, _) ← narrowSlot y
    let (code, f) := Narrow.pack tag (Narrow.scale x.num (-k))
    raise f x.cls 0
    writeOp none d (w64 (bits y 16 12 * 65536 + tag * 256 + code))) s

/-- UNPK6 (R115). -/
def execUnpk6 (d a : Spec) (cls : BitVec 4) (s : State) : Host.Outcome State Fault Refusal :=
  runWord (.unpk6 d a cls) (do
    let prc ← readPrc
    let y ← readOp a
    checkReach d (slotsOf (resultClass prc cls))
    let (tag, k, code) ← narrowSlot y
    deliver d (resultClass prc cls) (Rnd.ofPrc (Prc.rm prc)) none
      { x := Narrow.scale (Narrow.value tag code) k, flags := { inv := Narrow.isNal tag code } }) s

/-- The exact sum of FMAN (R116): a NaN addend prevails over a NaL product. -/
def exactFman (rd : Bool) (p : Num) (nal : Bool) (c : Num) : Exact :=
  match firstNan [c] with
  | some n => { x := n, flags := { inv := nal || c.isSnan }, addends := [p, c] }
  | none =>
    if nal then { x := madeNan, flags := { inv := true }, addends := [p, c] }
    else
      let (x, iv) := exactSum rd p c
      { x := x, flags := { inv := iv }, addends := [p, c] }

/-- FMAN (R116). -/
def execFman (d a b e : Spec) (s : State) : Host.Outcome State Fault Refusal :=
  runWord (.fman d a b e) (do
    let prc ← readPrc
    let x ← readOp a
    let y ← readOp b
    let v ← readVf e
    let c := Prc.wc prc
    checkReach d (slotsOf c)
    let (ta, ka, ca) ← narrowSlot x
    let (tb, kb, cb) ← narrowSlot y
    let (p, nal) := Narrow.product ta ca tb cb (ka + kb)
    let md := Rnd.ofPrc (Prc.rm prc)
    deliver d c md (classDist (maxClass c [v])) (exactFman (decide (md = .rd)) p nal (v.src (Prc.ftz prc)))) s

end Sys2Proof.Machine
end

