-- ==== Sys2Proof/Machine/Sync.lean ====
section
/-! DEFINITION. WAITC with its events (R276 to R279), team and cluster barriers (R280 to R282), the latch tree (R283 to R287, R368). -/
namespace Sys2Proof.Machine

/-! ### WAITC -/

/-- The condition of a control byte, its operand and its value (R277). -/
def condOf (ctl : Nat) (operand value : Word) : Cond :=
  { kind := ctl / 32, op := ctl / 4 % 8, w32 := ctl / 2 % 2 == 1, acq := ctl % 2 == 1, operand := operand, value := value }

/-- DESC of one condition (R277); a mask condition that names none of m0 to m11 among them, for which R277 names no fault (notes/assumptions/20.md). -/
def badCond (s : State) (t : Thread) (ctl : Nat) (c : Cond) : Bool :=
  c.kind == 0 || decide (6 ≤ c.kind) || (c.kind != 1 && ctl % 32 != 0)
    || ((c.kind == 2 || c.kind == 3) && c.value != 0)
    || (c.kind == 3 && (ticketOf s t c.operand).isNone)
    || (c.kind == 4 && (bits c.operand 4 60 != 0 || bits c.value 16 48 != 0))
    || (c.kind == 5 && decide (12 ≤ c.operand.toNat))

/-- The word of a memory condition, read once at its home, with the cluster's buffered bytes taking precedence (R278, step 1): its physical address
and what the read returns. -/
def readCond (c : Cond) (g : Agent) : A (Nat × Loaded) := do
  let n := if c.w32 then 4 else 8
  checkAddr .glob c.operand n
  let (pa, _) ← translate g c.operand .r
  let x ← loadGlobal g c.operand n { scope := 6, alloc := false }
  return (pa, x)

/-- A watch can stand at the home of an address: cacheable memory, and no window owns the word (R278, step 3). -/
def watchable (s : State) (pa n : Nat) : Bool :=
  match regionOf pa with
  | .hbm .. => !s.anyOwned pa n
  | .tier .. => !s.anyOwned pa n
  | _ => false

/-- The address checks and first read of one condition at issue, and its watch (R277, R278). -/
def startCond (c : Cond) (idx : Nat) : M Cond := do
  if c.kind = 1 then
    let (pa, x) ← access 0 [] (readCond c)
    let s ← get
    let n := if c.w32 then 4 else 8
    let c' := { c with pa := pa, seen := w64 (ofBytes x.bytes), stamp := x.stamp, seq := x.seq, watched := watchable s pa n }
    if c'.watched = true then
      let w : Watch := { pa := pa, th := s.cur, cond := idx, txn := s.fresh % 65536 }
      set (s.freshen.modDie (homeDie pa) fun d => { d with watches := d.watches ++ [w] })
    return c'
  else if c.kind = 2 then
    let t ← cur
    let s ← get
    if (s.windowAt (coreKey t.die t.core) (s.gridOf t).asid c.operand.toNat 1 false).isNone then trap cPROTECTION c.operand
    return c
  else if c.kind = 4 then
    let t ← cur
    let s ← get
    if !(s.gridOf t).latchmask.testBit c.operand.toNat then trap cPROTECTION c.operand
    return c
  else return c

/-- Start conditions from index `idx` on, in ascending order. -/
def startConds : Nat → List Cond → M (List Cond)
  | _, [] => return []
  | idx, c :: cs => do
    let c' ← startCond c idx
    return c' :: (← startConds (idx + 1) cs)

/-- WAITC (R276 to R278): the wait itself begins at the boundary that it carries. -/
def execWaitc (d a : Spec) (n : BitVec 2) (all t : Bool) (s : State) : Host.Outcome State Fault Refusal :=
  runWord (.waitc d a n all t) (do
    let k := n.toNat + 1
    let ds ← readOps a (2 * k + 1)
    let th ← cur
    let s ← get
    let hd := ds.getD 0 0
    let ctl (i : Nat) : Nat := bits hd (8 * i) 8
    let cs := (List.range k).map fun i => condOf (ctl i) (ds.getD (1 + 2 * i) 0) (ds.getD (2 + 2 * i) 0)
    if th.isCond && cs.any (·.kind == 5) then trap cROLE
    if ((List.range 4).drop k).any (fun i => ctl i != 0) || (List.range k).any (fun i => badCond s th (ctl i) (cs.getD i default)) then
      trap cDESC
    let cs' ← startConds 0 cs
    let base := (← cur).base
    let gs ← reserve d 1
    let s ← get
    let u ← cur
    let w : WaitC := { tgt := gs.headD .place, slot := u.slot, conds := cs', all := all, trap := t,
                       deadline := if bits hd 32 32 = 2 ^ 32 - 1 then none else some (s.now u.die + bits hd 32 32),
                       pc := wordPc u s, idx := s.word, chain := u.pc, head := base, loops := u.loops }
    modCur fun u => { u with waitc := some w }) s

/-- A condition holds now (R277). -/
def condHolds (s : State) (t : Thread) (c : Cond) : Bool :=
  match c.kind with
  | 1 => if c.w32 then icmpHolds c.op (c.seen.setWidth 32) (c.value.setWidth 32) else icmpHolds c.op c.seen c.value
  | 2 => s.linePresent (coreKey t.die t.core) (c.operand.toNat / 32)
  | 3 => match ticketOf s t c.operand with
         | some (k, tid, seq) => s.ticketDone t.grid t.team k tid seq
         | none => false
  | 4 => (s.latchPhase t.die c.operand.toNat).toNat != c.value.toNat
  | _ => (s.group (grpKey t.grid t.team t.grp)).mask c.operand.toNat &&& c.value == 0

/-- The watches of a thread are dropped. -/
def State.dropWatches (s : State) (u : Nat) : State :=
  { s with dies := s.dies.map fun p => (p.1, { p.2 with watches := p.2.watches.filter fun w => w.remote || w.th != u }) }

/-- The bits of a list of truths, from bit 0 on. -/
def bitList : List Bool → Nat
  | [] => 0
  | b :: bs => b.toNat + 2 * bitList bs

/-- The value of each memory condition that is compared is observed by the thread (R195, R278). -/
def WaitC.observe (w : WaitC) (t : Thread) : Thread :=
  let mems := w.conds.filter (·.kind == 1)
  { t with obs := max t.obs (maxOf (mems.map (·.stamp))), mark := max t.mark (maxOf (mems.map (·.seq))) }

/-- A WAITC ends (R278): its memory values are observed, and it acquires for the conditions with acq that hold; d takes the set that holds and the
time-out bit. -/
def finishWaitc (s : State) (u : Nat) (t : Thread) (w : WaitC) (out : Bool) : State :=
  let holds := w.conds.map (condHolds s t)
  let s1 := (s.dropWatches u).setTh u (w.observe t)
  let s2 := (w.conds.filter fun c => c.kind == 1 && c.acq && condHolds s t c).foldl (fun s c => s.acquire u 5 c.stamp) s1
  s2.modTh u fun t => t.waitcDone w (w64 (bitList holds + if out then 16 else 0)) s.time

/-- A WAITC with T that runs out of time traps at its word (R278, step 5): its chain has retired, and d is not written. -/
def timeoutWaitc (s : State) (u : Nat) (t : Thread) (w : WaitC) : State :=
  let t1 := (w.observe t).takeTrap (s.gridOf t) s.time cTIMEOUT w.pc 0 (w64 (w.idx * 2 ^ 24))
  (s.dropWatches u).setTh u (match w.tgt with | .ring r => t1.unpush r | _ => t1)

/-- The next value that a watch has delivered becomes the latest of its condition (R278, step 4). Values of several conditions that came within one step are taken
in the order of the conditions (notes/assumptions/22.md). -/
def takeNews : List Cond → Option (List Cond)
  | [] => none
  | c :: cs =>
    match c.news with
    | (v, st) :: more => some ({ c with seen := v, stamp := st, seq := 0, news := more } :: cs)
    | [] => (takeNews cs).map (c :: ·)

/-- A WAITC at its boundary is evaluated over the latest value or state of each condition, once for every change (R278, step 4); each evaluation compares the
values of its memory conditions (R195). -/
def evalWaitc (u : Nat) : Nat → State → State
  | fuel, s =>
    match s.th? u with
    | none => s
    | some t =>
      match (if t.status = .waitc then t.waitc else none) with
      | none => s
      | some w =>
        let holds := w.conds.map (condHolds s t)
        if (if w.all then holds.all (·) else holds.any (·)) then finishWaitc s u t w false
        else
          match fuel, takeNews w.conds with
          | f + 1, some cs => evalWaitc u f (s.setTh u { w.observe t with waitc := some { w with conds := cs } })
          | _, _ => s.setTh u (w.observe t)

/-- A WAITC whose time has passed without completion (R278, step 5) completes, or raises TIMEOUT. -/
def expireWaitc (s : State) (u : Nat) : State :=
  match s.th? u with
  | none => s
  | some t =>
    match (if t.status = .waitc then t.waitc else none) with
    | none => s
    | some w =>
      match w.deadline with
      | none => s
      | some x => if s.now t.die < x then s else if w.trap then timeoutWaitc s u t w else finishWaitc s u t w true

/-- A WAITC at its boundary is evaluated, and ends where its time has passed (R278, steps 4 and 5). -/
def checkWaitc (s : State) (u : Nat) : State :=
  let n := match (s.th? u).bind (·.waitc) with | some w => (w.conds.map fun c => c.news.length).sum | none => 0
  expireWaitc (evalWaitc u n s) u

/-- WAITC_POLL (R278, step 3): a memory condition without a watch, or whose word a window now owns, is read again at its home, and the combination is
evaluated. A word of another module has no watch, and its read waits for an answer that a later poll takes. R278 lets the first read alone fault: a fault of a later
one is ignored, and the value read last stands (notes/assumptions/22.md). -/
def execWaitcPoll (th c : Nat) (s : State) : Host.Outcome State Fault Refusal :=
  match s.th? th with
  | none => .next s
  | some t =>
    match t.waitc with
    | none => .next s
    | some w =>
      match w.conds[c]? with
      | none => .next s
      | some x =>
        if x.kind ≠ 1 ∨ (x.watched = true ∧ watchable s x.pa (if x.w32 then 4 else 8) = true) ∨
            (s.pending.any fun p => p.2.th == th && p.2.op.isNone && p.2.reply.isNone) = true then .next (checkWaitc s th)
        else
          match readCond x (s.agentOf t) s with
          | .error (.answer _, s1) => .next (checkWaitc s1 th)
          | .error _ => .next (checkWaitc (s.dropReplies th) th)
          | .ok ((pa, v), s1) =>
            let x' := { x with pa := pa, seen := w64 (ofBytes v.bytes), stamp := v.stamp, seq := v.seq }
            .next (checkWaitc ((s1.dropReplies th).modTh th fun t => { t with waitc := t.waitc.map fun w => { w with conds := listSet w.conds c x' } }) th)

/-- WAITC_TIMEOUT (R278, step 5): a WAITC whose time has passed completes or raises TIMEOUT. -/
def execWaitcTimeout (th : Nat) (s : State) : Host.Outcome State Fault Refusal := .next (checkWaitc s th)

/-! ### Barriers -/

/-- An arrival with a count (R281): none on a mismatch; else the phase of arrival, the barrier after it, and whether the phase completes. -/
def Barrier.arrive (b : Barrier) (k : Nat) : Option (BitVec 16 × Barrier × Bool) :=
  let e := if b.expect = 0 then k else b.expect
  if e ≠ k then none
  else if b.count + 1 = e then some (b.phase, { phase := b.phase + 1, expect := 0, count := 0 }, true)
  else some (b.phase, { b with expect := e, count := b.count + 1 }, false)

/-- Put a team barrier of a thread. -/
def State.setTeamBar (s : State) (t : Thread) (num : Nat) (b : Barrier) : State :=
  match s.team? (teamKey t.grid t.team) with
  | some x => s.setTeam (teamKey t.grid t.team) { x with bars := listSet x.bars num b }
  | none => s

/-- COLLECTIVE for a count mismatch: code 3 (R313). -/
abbrev mismatch {α : Type} : M α := trap cCOLLECTIVE 0 3

/-- An arrival at a team barrier (R281): the release at TEAM scope, then the count; its phase. -/
def teamArrive (num k : Nat) : M (BitVec 16) := do
  release 2
  let t ← cur
  let s ← get
  match (s.teamBar t num).arrive k with
  | none => mismatch
  | some (p, b, _) => do
    set (s.setTeamBar t num b)
    return p

/-- A wait of the run. -/
def addWait (w : Wait) : M Unit := modCur fun t => { t with waits := t.waits ++ [w] }

/-- TBAR.arrive (R280, R281). -/
def execTbarArrive (d : Spec) (num : BitVec 4) (count : BitVec 11) (s : State) : Host.Outcome State Fault Refusal :=
  runWord (.tbarArrive d num count) (do
    let p ← teamArrive num.toNat count.toNat
    writeOp none d (w64 p.toNat)) s

/-- TBAR.sync (R280, R281). -/
def execTbarSync (d : Spec) (num : BitVec 4) (count : BitVec 11) (s : State) : Host.Outcome State Fault Refusal :=
  runWord (.tbarSync d num count) (do
    let p ← teamArrive num.toNat count.toNat
    addWait (.tbar num.toNat p)
    writeOp none d (w64 p.toNat)) s

/-- TBAR.wait (R280, R281). -/
def execTbarWait (d : Spec) (num : BitVec 4) (s : State) : Host.Outcome State Fault Refusal :=
  runWord (.tbarWait d num) (do
    let p := ((← get).teamBar (← cur) num.toNat).phase
    addWait (.tbar num.toNat p)
    writeOp none d (w64 p.toNat)) s

/-- A CBAR's thread must own the cluster unit (R280). -/
def checkCbar : M Unit := do
  let t ← cur
  let s ← get
  if !((s.gridOf t).cbar && (s.cluster (clusterKey t.die t.cluster)).owner == some (t.grid, s.cohortOf t.grid t.team)) then
    trap cPROTECTION

/-- Every core of a cluster swaps its shutter windows bound to a barrier (R174, R281). -/
def State.swapCluster (s : State) (die cl num : Nat) : State :=
  (List.range 4).foldl (fun s i =>
    let core := 4 * cl + i
    ((s.core (coreKey die core)).windows.filter fun w => w.shutter && w.cbar == num).foldl (fun s w => s.swapWindow die core w) s) s

/-- An arrival at a cluster barrier (R281, R282): the release at CLU scope, then the count; a phase that completes swaps the banks. -/
def clusterArrive (num k : Nat) : M (BitVec 16) := do
  checkCbar
  release 3
  let t ← cur
  let s ← get
  match (s.clusterBar t num).arrive k with
  | none => mismatch
  | some (p, b, done) => do
    let s1 := if done then s.swapCluster t.die t.cluster num else s
    set (s1.modCluster (clusterKey t.die t.cluster) fun c => { c with bars := listSet c.bars num b })
    return p

/-- CBAR.arrive (R280 to R282). -/
def execCbarArrive (d : Spec) (num : BitVec 3) (count : BitVec 12) (s : State) : Host.Outcome State Fault Refusal :=
  runWord (.cbarArrive d num count) (do
    let p ← clusterArrive num.toNat count.toNat
    writeOp none d (w64 p.toNat)) s

/-- CBAR.sync (R280 to R282). -/
def execCbarSync (d : Spec) (num : BitVec 3) (count : BitVec 12) (s : State) : Host.Outcome State Fault Refusal :=
  runWord (.cbarSync d num count) (do
    let p ← clusterArrive num.toNat count.toNat
    addWait (.cbar num.toNat p)
    writeOp none d (w64 p.toNat)) s

/-- CBAR.wait (R280 to R282). -/
def execCbarWait (d : Spec) (num : BitVec 3) (s : State) : Host.Outcome State Fault Refusal :=
  runWord (.cbarWait d num) (do
    checkCbar
    let p := ((← get).clusterBar (← cur) num.toNat).phase
    addWait (.cbar num.toNat p)
    writeOp none d (w64 p.toNat)) s

/-! ### The latch tree -/

/-- The latch state of a core for a number. -/
abbrev State.latchCore (s : State) (k num : Nat) : LatchCore := (AMap.get? (s.core k).latch num).getD {}

/-- Put it. -/
def State.setLatch (s : State) (k num : Nat) (x : LatchCore) : State :=
  s.modCore k fun c => { c with latch := AMap.put c.latch num x }

/-- A latch number must be one of the cohort's (R284). -/
def checkLatch (num : Nat) : M Unit := do
  let t ← cur
  let s ← get
  if !(s.gridOf t).latchmask.testBit num then trap cPROTECTION (w64 num)

/-- An arrival at a latch (R285): the release at MOD scope, then the count, towards the current phase or, with the input raised, held towards the next;
the phase it counts for. -/
def latchArrive (num k : Nat) : M (BitVec 16) := do
  checkLatch num
  release 5
  let t ← cur
  let s ← get
  let ck := coreKey t.die t.core
  let x := s.latchCore ck num
  let phase := s.latchPhase t.die num
  if !x.raised then
    if x.expect ≠ 0 ∧ x.expect ≠ k then mismatch
    set (s.setLatch ck num { x with expect := k, count := x.count + 1, raised := decide (x.count + 1 = k) })
    return phase
  else do
    if x.nexpect ≠ 0 ∧ x.ncount = x.nexpect then park (.latchHeld num)
    if x.nexpect ≠ 0 ∧ x.nexpect ≠ k then mismatch
    set (s.setLatch ck num { x with nexpect := k, ncount := x.ncount + 1 })
    return phase + 1

/-- LATCH.arrive (R284, R285). -/
def execLatchArrive (d : Spec) (num : BitVec 4) (count : BitVec 12) (s : State) : Host.Outcome State Fault Refusal :=
  runWord (.latchArrive d num count) (do
    let p ← latchArrive num.toNat count.toNat
    writeOp none d (w64 p.toNat)) s

/-- LATCH.sync (R284, R285). -/
def execLatchSync (d : Spec) (num : BitVec 4) (count : BitVec 12) (s : State) : Host.Outcome State Fault Refusal :=
  runWord (.latchSync d num count) (do
    let p ← latchArrive num.toNat count.toNat
    addWait (.latch num.toNat p)
    writeOp none d (w64 p.toNat)) s

/-- LATCH.wait (R284, R285). -/
def execLatchWait (d : Spec) (num : BitVec 4) (s : State) : Host.Outcome State Fault Refusal :=
  runWord (.latchWait d num) (do
    checkLatch num.toNat
    let p := (← get).latchPhase (← cur).die num.toNat
    addWait (.latch num.toNat p)
    writeOp none d (w64 p.toNat)) s

/-- LATCH.x (R284, R285): the input is raised, and the core is excused from the next phase on. The manual does not say what d receives: the model gives it the
segment's current phase, as LATCH.wait does (notes/assumptions/20.md). -/
def execLatchX (d : Spec) (num : BitVec 4) (s : State) : Host.Outcome State Fault Refusal :=
  runWord (.latchX d num) (do
    checkLatch num.toNat
    let t ← cur
    let s ← get
    let ck := coreKey t.die t.core
    set (s.setLatch ck num.toNat { s.latchCore ck num.toNat with raised := true, leaving := true })
    writeOp none d (w64 (s.latchPhase t.die num.toNat).toNat)) s

namespace State

/-- The segment register of a die for a number (R368). -/
abbrev seg (s : State) (d num : Nat) : Seg := (AMap.get? (s.die d).segs num).getD {}

/-- The member dies of the segment of a number in which a die lies (R368). -/
def segDies (s : State) (d num : Nat) : List Nat :=
  if (s.seg d num).member then
    (List.range 64).filter fun e => (s.seg e num).member && (s.seg e num).seg == (s.seg d num).seg
  else []

/-- The direction of the neighbour b of die a: 0 to 3 for N, E, S, W (R14, R15). -/
def dirTo (a b : Nat) : Option Nat :=
  if a = b + 8 then some 0
  else if b = a + 1 ∧ a / 8 = b / 8 then some 1
  else if b = a + 8 then some 2
  else if a = b + 1 ∧ a / 8 = b / 8 then some 3
  else none

/-- The direct link between two dies carries traffic. -/
def linkLive (s : State) (a b : Nat) : Bool :=
  match State.dirTo a b with
  | some dir => decide (((AMap.get? (s.die a).links dir).getD {}).modules ≠ 0)
  | none => false

/-- The dies reached from a list through members, in n rounds. -/
def spreadOver (s : State) (ds : List Nat) : Nat → List Nat → List Nat
  | 0, xs => xs
  | n + 1, xs => spreadOver s ds n (ds.filter fun d => xs.contains d || xs.any fun x => s.linkLive x d)

/-- A segment is formed (R368): its members agree on the root, the root is a member, and live links connect them, for which all of them live. -/
def segFormed (s : State) (d num : Nat) : Bool :=
  let ds := s.segDies d num
  ds ≠ [] && ds.all (fun e => s.alive e && (s.seg e num).root == (s.seg d num).root) && ds.contains (s.seg d num).root.toNat
    && (spreadOver s ds 64 [d]).length == ds.length

/-- A logical cluster of a die is backed by a built one (R21). -/
abbrev clusterOk (s : State) (d cl : Nat) : Bool := ((s.die d).clusters.getD cl none).isSome

/-- The AND of a segment and its raised core (R283): a core whose cluster is gone is excused (R287). -/
def latchReady (s : State) (ds : List Nat) (num : Nat) : Bool :=
  let cs := ds.flatMap fun d => (List.range 128).map fun c => (d, c)
  cs.all (fun c => let x := s.latchCore (coreKey c.1 c.2) num; x.raised || x.excuse || !s.clusterOk c.1 (c.2 / 4))
    && cs.any fun c => (s.latchCore (coreKey c.1 c.2) num).raised

end State

/-- A core at a release (R285). -/
def LatchCore.released (x : LatchCore) : LatchCore :=
  { raised := decide (x.nexpect ≠ 0) && decide (x.ncount = x.nexpect), expect := x.nexpect, count := x.ncount, nexpect := 0, ncount := 0,
    leaving := false, excuse := x.excuse || x.leaving }

/-- LATCH_RELEASE (R283, R285): when the AND of the segment holds, its phase rises and every core is released. -/
def execLatchRelease (num : BitVec 4) (die : DieId) (s : State) : Host.Outcome State Fault Refusal :=
  let ds := s.segDies die.toNat num.toNat
  if s.segFormed die.toNat num.toNat && s.latchReady ds num.toNat then
    .next (ds.foldl (fun s d =>
      let s1 := s.modDie d fun x => { x with phases := AMap.put x.phases num.toNat (s.latchPhase d num.toNat + 1) }
      (List.range 128).foldl (fun s c =>
        let k := coreKey d c
        match AMap.get? (s.core k).latch num.toNat with
        | some x => s.setLatch k num.toNat x.released
        | none => s) s1) s)
  else .next s

end Sys2Proof.Machine
end

