-- ==== Sys2Proof/Machine/Matrix.lean ====
section
/-! DEFINITION. The matrix engine and accumulator tiles (R122 to R156): MPASS, ACCINIT, MCANCEL, MQUERY and the steps of the engine. -/
namespace Sys2Proof.Machine

/-! ### Descriptors and shapes (R129 to R131) -/

/-- A pass descriptor: six slots. -/
abbrev Desc := Vector Word 6

namespace Desc
abbrev slot (d : Desc) (i : Nat) : Word := vget d i
abbrev abase (d : Desc) : Word := d.slot 0
abbrev stword (d : Desc) : Word := d.slot 0
abbrev bbase (d : Desc) : Word := d.slot 1
abbrev cbase (d : Desc) : Word := d.slot 2
abbrev bstride (d : Desc) : Nat := bits (d.slot 3) 32 32
abbrev astride (d : Desc) : Nat := bits (d.slot 3) 0 32
abbrev rows (d : Desc) : Nat := bits (d.slot 4) 56 8
abbrev vecs (d : Desc) : Nat := bits (d.slot 4) 50 3
abbrev cls (d : Desc) : Nat := bits (d.slot 4) 48 2
abbrev k (d : Desc) : Nat := bits (d.slot 4) 32 11
abbrev cstride (d : Desc) : Nat := bits (d.slot 4) 0 32
abbrev expect (d : Desc) : Nat := bits (d.slot 5) 48 16
abbrev ordinal (d : Desc) : Nat := bits (d.slot 5) 32 16
abbrev k0 (d : Desc) : Nat := bits (d.slot 5) 0 32
/-- Bytes of an element. -/
abbrev esize (d : Desc) : Nat := 2 * d.cls + 4
/-- Rows and columns of the tile (R131). -/
def shape (d : Desc) (kind : Nat) : Nat × Nat :=
  match kind with
  | 2 => (256, 8)
  | 3 => (d.rows + 1, d.vecs + 1)
  | _ => (64, 32)
/-- A rows and B columns read (R131). -/
def operands (d : Desc) (kind : Nat) : Nat × Nat :=
  match kind with
  | 2 => (256, 128)
  | 3 => (d.rows + 1, d.vecs + 1)
  | _ => (64, 32)
/-- Address of element (r, n) of the tile (R127). -/
abbrev elem (d : Desc) (r n : Nat) : Word := d.cbase + w64 (r * d.cstride + n * d.esize)
/-- The B column that element (r, n) takes (R131). -/
abbrev bcol (kind r n : Nat) : Nat := if kind = 2 then 8 * (r / 16) + n else n
end Desc

/-- A descriptor slot fails R130, for a pass (`init` false) or an ACCINIT of a kind. -/
def badSlot (d : Desc) (kind : Nat) (init : Bool) (i : Nat) : Bool :=
  match i with
  | 0 => init && d.stword.toNat % 8 != 0
  | 2 => d.cbase.toNat % 2 != 0
  | 4 =>
    bits (d.slot 4) 53 3 != 0 || bits (d.slot 4) 43 5 != 0 || (kind != 3 && (d.rows != 0 || d.vecs != 0))
      || (!init && (d.k == 0 || d.k % 32 != 0 || decide (1024 < d.k)))
      || d.cstride % 2 != 0 || decide (d.cstride < (d.shape kind).2 * d.esize)
  | 5 =>
    if init then d.expect == 0
    else (kind != 1 && d.ordinal != 0) || (if kind = 1 then d.k0 != 0 else d.k0 % 32 != 0)
  | _ => false

/-- The identity of a descriptor's tile (R136). -/
def Desc.tile (d : Desc) (asid : BitVec 16) (kind : Nat) : TileId :=
  ⟨asid, d.cbase, BitVec.ofNat 32 d.cstride, d.cls, kind, if kind = 3 then d.rows else 0, if kind = 3 then d.vecs else 0⟩

/-- The keys of a list of numbers, rising and without repeats. -/
def keySet (xs : List Nat) : List Nat := (xs.foldl (fun (m : AMap Unit) x => AMap.put m x ()) []).map (·.1)

/-- The lines that n bytes at an address touch, by line number. -/
abbrev linesAt (va : Word) (n : Nat) : List Nat :=
  (List.range (n / 64 + 2)).filterMap fun i =>
    if va.toNat / 64 + i ≤ (va.toNat + n - 1) / 64 then some ((va.toNat / 64 + i) % 2 ^ 58) else none

/-- The tile lines (R127), by virtual line number. -/
def Desc.tileLines (d : Desc) (kind : Nat) : List Nat :=
  let (r, c) := d.shape kind
  keySet ((List.range r).flatMap fun i => linesAt (d.elem i 0) (c * d.esize))

/-! ### Entries -/

/-- The tile kind of an entry. -/
abbrev Entry.tkind (e : Entry) : Nat := if e.kind = 15 then e.tile else e.kind

/-- The ticket of an entry (R149). -/
abbrev Entry.ticket (e : Entry) : Word := w64 (2 ^ 60 + e.seq.toNat)

/-- The agent that acts for an entry's conductor (R186). -/
def engineAgent (s : State) (die cl : Nat) (e : Entry) : Agent :=
  let g := s.gridAgent e.grid die
  { g with th := thKey e.grid e.team 1024, team := e.team, tid := 1024, core := 4 * cl }

namespace State

abbrev entry? (s : State) (ck key : Nat) : Option Entry := (s.cluster ck).table.find? fun e => e.key == key

/-- Change an entry. -/
def modEntry (s : State) (ck key : Nat) (f : Entry → Entry) : State :=
  s.modCluster ck fun c => { c with table := c.table.map fun e => if e.key = key then f e else e }

/-- Free an entry. -/
def freeEntry (s : State) (ck key : Nat) : State :=
  s.modCluster ck fun c => { c with table := c.table.filter fun e => e.key ≠ key }

/-- Change the sidecar of a line. -/
def modAcc (s : State) (l : Nat) (f : Sidecar → Sidecar) : State :=
  let x := s.dirLine l
  s.setDir l { x with acc := x.acc.map f }

/-- The lines in the ACC state of a tile, by physical line number. -/
def accLines (s : State) (t : TileId) : List Nat :=
  (s.dir.filter fun p => (p.2.acc.map (·.tile)) == some t).map (·.1)

end State

/-- Translate the tile lines of a descriptor (R145): the map from virtual to physical line. -/
def mapTile (d : Desc) (kind : Nat) (g : Agent) : A (AMap Nat) :=
  (d.tileLines kind).mapM fun l => do
    let (pa, _) ← translate g (w64 (64 * l)) .w
    return (l, pa / 64)

/-! ### Tiles -/

/-- The query word of a tile (R155): status, flags, kind, expect, and the least progress over its lines. -/
def tileWord (s : State) (t : TileId) (status : Option Nat) : Word :=
  let cs := (s.accLines t).filterMap fun l => (s.dirLine l).acc
  match cs with
  | [] => w64 (15 * 2 ^ 52)
  | c :: more =>
    let f := orFlags (cs.map (·.flags))
    let st := status.getD (cs.foldl (fun m x => if m = 1 then x.status else m) c.status)
    let p := more.foldl (fun m x => min m x.progress) c.progress
    w64 (st * 2 ^ 60 + f.nibble * 2 ^ 56 + t.kind * 2 ^ 52 + c.expect * 2 ^ 32 + p)

/-- Write a status word (R139, R154): translated at the home die of the tile's first line; where that fails, a report takes its place. -/
def writeStatus (s : State) (home : Nat) (c : Sidecar) (status : Nat) (v : Word) : State :=
  if c.stword = 0 then s
  else
    let g := { s.gridAgent c.grid home with asid := c.tile.asid }
    let fail (s : State) (cause : Nat) : State :=
      s.report home c.grid c.team 1024 c.cl cause c.stword (w64 status) (w64 (2 ^ 60 + c.seq.toNat))
    match translate g c.stword .w s with
    | .ok ((pa, _), s') => s'.putWord home pa v
    | .error (.replay .., s') => fail s' cTRANSLATION
    | .error (_, s') => fail s' cPROTECTION

/-- The descriptions of ended grids that no tile names any more go. -/
def prunePast (s : State) : State :=
  if s.past = [] then s
  else { s with past := s.past.filter fun p => s.dir.any fun l => (l.2.acc.map (·.grid)) == some p.1 }

/-- A tile leaves the ACC state (R139, R154): its sidecars go, and the home of its first line, which holds element (0, 0), writes its status word. -/
def leaveAcc (s : State) (t : TileId) (status : Nat) : State :=
  let ls := s.accLines t
  match ls.filterMap fun l => (s.dirLine l).acc with
  | [] => s
  | c :: _ =>
    let v := tileWord s t (some status)
    let s1 := ls.foldl (fun s l => s.setDir l { s.dirLine l with acc := none }) s
    prunePast (writeStatus s1 (homeDie (64 * c.first)) c status v)

/-- The progress of a tile's lines is set; a complete tile leaves the ACC state. -/
def setProgress (s : State) (t : TileId) (p : Nat) : State :=
  let ls := s.accLines t
  let s1 := ls.foldl (fun s l => s.modAcc l fun c => { c with progress := p }) s
  match ls.findSome? fun l => (s1.dirLine l).acc with
  | some c => if 32 * c.expect ≤ p then leaveAcc s1 t 3 else s1
  | none => s1

/-! ### Errors and stops (R145 to R148) -/

/-- An entry ends with an error (R147): it is freed, its tile's lines and those that the pass has reached take the status unless they hold one, and the chain is told. -/
def passError (s : State) (die cl : Nat) (e : Entry) (status cause : Nat) (va : Word) : State :=
  let g := s.gridOf { noThread with grid := e.grid }
  let t := Desc.tile e.desc g.asid e.tkind
  let s1 := if e.kind = 15 then s
    else (s.accLines t ++ e.lines.map (·.2)).foldl (fun s l => s.modAcc l fun c => if c.status = 1 then { c with status := status } else c) s
  (s1.freeEntry (clusterKey die cl) e.key).report die e.grid e.team 1024 cl cause va (w64 (status + e.seq.toNat * 2 ^ 16)) e.ticket

/-- An entry ends on uncorrectable data, which are lasting (R147, R341). -/
def passLoss (s : State) (die cl : Nat) (e : Entry) (va : Word) (b : Option (Nat × Nat)) : State :=
  let s1 := passError s die cl e 11 cDATALOSS va
  match b with | some (d, n) => s1.lasting d n | none => s1

/-- How an element of a tile line continues: the physical line that follows it in the tile. -/
def nextLine (m : AMap Nat) (pl : Nat) : Nat :=
  match m.find? fun p => p.2 == pl with
  | some (vl, _) => (AMap.get? m (vl + 1)).getD (pl + 1)
  | none => pl + 1

/-- A failed access of the engine (R146, R147): a translation fault stops the entry with its record posted, another error ends it; anything else
leaves it waiting, an operand line in the ACC state among them, of which the manual does not say what an engine's read does (notes/assumptions/21.md). -/
def passFail (s : State) (die cl : Nat) (e : Entry) (code : Nat) (f : Fail) : State :=
  match f with
  | .replay l va _ =>
    let (s1, tag) := s.postReplay (engineAgent s die cl e) va l code true e.seq
    s1.modEntry (clusterKey die cl) e.key fun x =>
      { x with status := .fault (some tag), va := va, part := [], fetched := [], lines := [], since := none, aged := false }
  | .prot va _ => passError s die cl e 10 cPROTECTION va
  | .align va => passError s die cl e 10 cPROTECTION va
  | .loss va b => passLoss s die cl e va b
  | _ => s

/-! ### Readiness and grant (R123, R124) -/

/-- What the state of its tile makes of a pass (R123). -/
inductive PassState where
  | run
  | wait
  | fail (status : Nat)
  deriving DecidableEq, Repr, Inhabited

/-- The tile's lines against a pass (R123, R136, R142). -/
def passState (s : State) (e : Entry) (asid : BitVec 16) (lines : List Nat) : PassState :=
  let d := e.desc
  let t := Desc.tile d asid e.kind
  let cs := lines.map fun l => (s.dirLine l).acc
  if cs.any fun c => match c with | some x => x.tile ≠ t | none => false then .fail 7
  else if cs.any (·.isNone) then .fail 6
  else
    let xs := cs.filterMap fun c => c
    let expect := (xs.head?.map (·.expect)).getD 0
    let stopped := match e.status with | .fault _ => true | _ => false
    if e.kind = 1 then
      if expect ≤ Desc.ordinal d ∨ xs.any (fun x => decide (Desc.ordinal d < x.progress)) then .fail 5 else .run
    else
      let p := (xs.head?.map (·.progress)).getD 0
      if 32 * expect < Desc.k0 d + Desc.k d then .fail 5
      else if stopped then (if Desc.k0 d ≤ p ∧ p + 32 ≤ Desc.k0 d + Desc.k d then .run else .fail 5)
      else if Desc.k0 d < p then .fail 5
      else if p = Desc.k0 d then .run
      else .wait

/-- An entry that an engine works for: a pass in a slot, or an ACCINIT that has begun at its homes (R135, R148). -/
def Entry.working (e : Entry) : Bool := e.status == .run || (e.kind == 15 && e.doneAt.isSome)

/-- An entry waits in the table for a grant. -/
def Entry.idle (e : Entry) : Bool := e.kind != 15 && (e.status == .wait || e.status == .fault none)

/-- The cohort of an entry is being pre-empted: what has not been granted or begun is saved with it (R148). -/
def stopsEntry (s : State) (e : Entry) : Bool :=
  match s.cohort? (cohortKey e.grid (s.cohortOf e.grid e.team)) with
  | some c => match c.status with | .stopping _ => true | _ => false
  | none => false

/-- A pass is ready (R123): every ACCINIT posted earlier by its team has completed, and it can run or is bound to fail. A line that a lease granted before its
ACCINIT still covers takes no application yet (R135, R139; notes/assumptions/21.md). -/
def entryReady (s : State) (die cl : Nat) (e : Entry) : Bool :=
  let before := (s.cluster (clusterKey die cl)).table.takeWhile fun x => x.key != e.key
  e.idle && !stopsEntry s e && !(before.any fun x => x.kind == 15 && x.grid == e.grid && x.team == e.team) &&
    let g := engineAgent s die cl e
    match tryA (mapTile e.desc e.kind g) s with
    | none => true
    | some (m, _) =>
      match passState s e g.asid (m.map (·.2)) with
      | .wait => false
      | .run => m.all fun p => s.liveLeases p.2 == []
      | .fail _ => true

/-- The count of the die's clock, in tenths of a cycle, since which each entry has been ready is noted. -/
def noteReady (s : State) (die cl : Nat) : State :=
  let ck := clusterKey die cl
  (s.cluster ck).table.foldl (fun s e =>
    let r := entryReady s die cl e
    s.modEntry ck e.key fun x => { x with since := if r then some (x.since.getD (s.tenths die)) else none }) s

/-- Effective priority (R124): 7 once an entry has been ready for 65,536 cycles. -/
def effPrio (s : State) (die : Nat) (e : Entry) : Nat :=
  if e.aged || (match e.since with | some t => decide (t + 655360 ≤ s.tenths die) | none => false) then 7
  else Grid.prio (s.gridOf { noThread with grid := e.grid })

/-- The entry that the arbiter grants: highest effective priority, then oldest posting. -/
def pickEntry (s : State) (die : Nat) (xs : List Entry) : Option Entry :=
  xs.foldl (fun m e => match m with
    | some x => if effPrio s die x < effPrio s die e then some e else m
    | none => some e) none

/-- A granted pass (R132, R141, R145): its tile is translated; it starts, or stops before anything is applied. -/
def grantEntry (s : State) (die cl : Nat) (e : Entry) : State :=
  let ck := clusterKey die cl
  let g := engineAgent s die cl e
  match mapTile e.desc e.kind g s with
  | .error (f, s') => passFail s' die cl e 7 f
  | .ok (m, s1) =>
    match passState s1 e g.asid (m.map (·.2)) with
    | .fail st => passError s1 die cl { e with lines := m } st cASYNC 0
    | .wait => s1
    | .run =>
      match m.find? fun p => s1.anyBad (64 * p.2) 64 with
      | some p => passLoss s1 die cl e (w64 (64 * p.1)) (s1.badGranule? (64 * p.2) 64)
      | none =>
        let p := ((m.head?.bind fun p => (s1.dirLine p.2).acc).map (·.progress)).getD 0
        s1.modEntry ck e.key fun x =>
          { x with status := .run, since := none, aged := false, lines := m, fetched := [],
                   step := if x.kind = 1 then 0 else p - Desc.k0 x.desc,
                   part := if x.kind = 1 then List.replicate 2048 (Vf.zero (Desc.cls x.desc) false) else [] }

/-- MATRIX_GRANT (R124): with an interleave slot free, one ready entry is granted. -/
def execMatrixGrant (die : DieId) (cl : ClusterId) (s : State) : Host.Outcome State Fault Refusal :=
  let s1 := noteReady s die.toNat cl.toNat
  let tb := (s1.cluster (clusterKey die.toNat cl.toNat)).table
  if 4 ≤ (tb.filter fun e => e.status == .run && e.kind != 15).length then .next s1
  else
    match pickEntry s1 die.toNat (tb.filter (·.since.isSome)) with
    | some e => .next (grantEntry s1 die.toNat cl.toNat e)
    | none => .next s1

/-- PASS_PRIORITY_AGING (R124): an entry that has been ready for 65,536 cycles takes effective priority 7. -/
def execPassPriorityAging (die : DieId) (cl : ClusterId) (key : Nat) (s : State) : Host.Outcome State Fault Refusal :=
  let ck := clusterKey die.toNat cl.toNat
  let s1 := noteReady s die.toNat cl.toNat
  match (s1.entry? ck key).bind (·.since) with
  | some t =>
    if t + 655360 ≤ s1.tenths die.toNat then .next (s1.modEntry ck key fun e => { e with aged := true })
    else .next s1
  | none => .next s1

/-! ### Steps of a pass (R126, R128, R132, R141) -/

/-- The bytes of a block, from the lines read at their read points. -/
def blockBytes (f : AMap (List (BitVec 8))) (va : Word) : List (BitVec 8) :=
  (List.range 26).map fun i =>
    let a := (va + w64 i).toNat
    ((AMap.get? f (a / 64)).getD []).getD (a % 64) 0

/-- Addresses of the blocks j of a pass: A rows, then B columns (R126). -/
def blockVas (d : Desc) (kind j : Nat) : List Word × List Word :=
  let (r, c) := d.operands kind
  ((List.range r).map fun i => d.abase + w64 (i * d.astride + 26 * j), (List.range c).map fun i => d.bbase + w64 (i * d.bstride + 26 * j))

/-- Fetch the operand lines of block j that have not been read yet (R128, R145): each whole, at this moment. A line in the ACC state makes the pass wait
(notes/assumptions/21.md). -/
def fetchBlock (d : Desc) (kind j : Nat) (f : AMap (List (BitVec 8))) (g : Agent) : A (AMap (List (BitVec 8))) := do
  let (as, bs) := blockVas d kind j
  let need := (keySet ((as ++ bs).flatMap fun a => linesAt a 26)).filter fun l => (AMap.get? f l).isNone
  need.foldlM (fun f l => do
    let va := w64 (64 * l)
    let (pa, _) ← translate g va .r
    let s ← get
    match regionOf pa with
    | .hbm .. => pure ()
    | .tier .. => pure ()
    | _ => failA (.prot va false)
    if s.isAcc (pa / 64) then failA (.acc (pa / 64))
    if s.anyBad (pa / 64 * 64) 64 then failA (.loss va (s.badGranule? (pa / 64 * 64) 64))
    modA fun s => s.scrub (pa / 64 * 64) 64
    return AMap.put f l (s.homeRead g.die (pa / 64 * 64) 64).1) f

/-- Physical addresses of an element's bytes. -/
def elemPas (m : AMap Nat) (va : Word) (n : Nat) : List Nat :=
  (List.range n).map fun i =>
    let a := (va + w64 i).toNat
    64 * (AMap.get? m (a / 64)).getD 0 + a % 64

/-- The element at its physical addresses. -/
def readElem (s : State) (pas : List Nat) : Vf := vfOfBytes (pas.map s.homeByte)

/-- An application is one update of an element (R127), with a watch notice for what it changes. -/
def writeElem (s : State) (pas : List Nat) (v : Vf) : State :=
  let s1 := (pas.zip (vfToBytes v)).foldl (fun s p => s.homePut p.1 [p.2]) s
  (keySet (pas.map (· / 8))).foldl (fun s q => s.notify (8 * q) 8) s1

/-- acc + x by one RNE rounding at the accumulator's class (R132), with the flags that apply. -/
def accumulate (acc : Vf) (p : Num) (nal : Bool) : Vf × Flags :=
  let o := finishVf acc.cls .rne false 0 { exactFman false p nal (acc.src false) with addends := [] }
  (o.val, { o.flags with px := false })

/-- The codes of a list of blocks at local step k: tag, scale and code. -/
def codesAt (f : AMap (List (BitVec 8))) (vas : List Word) (k : Nat) : List (Nat × Int × Nat) :=
  vas.map fun a =>
    let b := Narrow.block (blockBytes f a)
    (b.tag, b.scale, b.codes.getD (k % 32) 0)

/-- The product of two operands. -/
abbrev stepProduct (a b : Nat × Int × Nat) : Num × Bool := Narrow.product a.1 a.2.2 b.1 b.2.2 (a.2.1 + b.2.1)

/-- One k step of a chain pass: every element receives one product. -/
def chainStep (s : State) (e : Entry) : State × Flags :=
  let d := e.desc
  let (vas, vbs) := blockVas d e.kind (e.step / 32)
  let as := codesAt e.fetched vas e.step
  let bs := codesAt e.fetched vbs e.step
  let (rows, cols) := Desc.shape d e.kind
  (List.range (rows * cols)).foldl (fun (acc : State × Flags) i =>
    let r := i / cols
    let n := i % cols
    let pas := elemPas e.lines (Desc.elem d r n) (Desc.esize d)
    let (p, nal) := stepProduct (as.getD r default) (bs.getD (Desc.bcol e.kind r n) default)
    let (v, f) := accumulate (readElem acc.1 pas) p nal
    ((writeElem acc.1 pas v).modAcc (pas.headD 0 / 64) fun c => { c with flags := c.flags.or f }, acc.2.or f)) (s, {})

/-- One k step of a REDUCE pass, into its partial (R141). -/
def reducePassStep (e : Entry) : List Vf × Flags :=
  let d := e.desc
  let (vas, vbs) := blockVas d e.kind (e.step / 32)
  let as := codesAt e.fetched vas e.step
  let bs := codesAt e.fetched vbs e.step
  let rs := (List.range e.part.length).map fun i =>
    let (p, nal) := stepProduct (as.getD (i / 32) default) (bs.getD (i % 32) default)
    accumulate (e.part.getD i default) p nal
  (rs.map (·.1), orFlags (rs.map (·.2)))

/-- Some element's header holds another class than the descriptor's (R134). -/
def badHeaders (s : State) (e : Entry) : Bool :=
  let d := e.desc
  let (rows, cols) := Desc.shape d e.kind
  (List.range (rows * cols)).any fun i =>
    let pas := elemPas e.lines (Desc.elem d (i / cols) (i % cols)) 2
    headerClass (ofBytes (pas.map s.homeByte)) != Desc.cls d

/-! ### Ordered partials (R142 to R144) -/

/-- The part of a partial that belongs to a tile line, by virtual line: its elements whose header lies there, with the header's offset. -/
def linePart (e : Entry) (vl : Nat) : List (Nat × Vf) :=
  (List.range e.part.length).filterMap fun i =>
    let a := Desc.elem e.desc (i / 32) (i % 32)
    if a.toNat / 64 = vl then some (a.toNat % 64, e.part.getD i default) else none

/-- Apply a partial's elements at a line (R142). -/
def applyPart (s : State) (m : AMap Nat) (pl : Nat) (elems : List (Nat × Vf)) : State :=
  let r := elems.foldl (fun (acc : State × Flags) x =>
    let n := 2 * headerClass (s.homeNat (64 * pl + x.1) 2) + 4
    let pas := (List.range n).map fun i => if x.1 + i < 64 then 64 * pl + x.1 + i else 64 * nextLine m pl + (x.1 + i - 64)
    let (v, f) := reduceVf 1 (readElem acc.1 pas) x.2
    (writeElem acc.1 pas v, acc.2.or f)) (s, {})
  r.1.modAcc pl fun c => { c with flags := c.flags.or r.2, progress := c.progress + 1 }

/-- The cluster of an entry, by its key. -/
def entryHome (s : State) (key : Nat) : Option (Nat × Entry) :=
  s.clusters.findSome? fun p => (p.2.table.find? fun e => e.key == key).map fun e => (p.1, e)

/-- A line of a sent partial has been applied: with the last, the pass completes (R143). -/
def partDone (s : State) (key pl : Nat) : State :=
  match entryHome s key with
  | none => s
  | some (ck, e) =>
    let e' := { e with unsent := e.unsent.filter (· ≠ pl), held := e.held.filter (· ≠ pl) }
    if e'.unsent = [] ∧ e'.held = [] then s.freeEntry ck key else s.modEntry ck key fun _ => e'

/-- The partial held for a line and ordinal. -/
def findPart (ds : List (Nat × Held)) (pl ord : Nat) : Option (List (Nat × Vf) × Nat) :=
  ds.findSome? fun p => match p.2 with
    | .part l o es key => if l = pl ∧ o = ord then some (es, key) else none
    | _ => none

/-- Without the partial held for a line and ordinal. -/
def dropPart (ds : List (Nat × Held)) (pl ord : Nat) : List (Nat × Held) :=
  ds.filter fun p => match p.2 with
    | .part l o _ _ => !(l == pl && o == ord)
    | _ => true

/-- A pass one of whose partials a home refuses ends with a status (R142, R147): uncorrectable data of a tile line, or of the one into which it runs on, are DATALOSS at the
line's address, and lasting (R341). -/
def partError (s : State) (key pl status : Nat) : State :=
  match entryHome s key with
  | none => s
  | some (ck, e) =>
    let vl := ((e.lines.find? fun p => p.2 == pl).map (·.1)).getD pl
    if status = 11 then
      passLoss s (ck / 32) (ck % 32) e (w64 (64 * vl)) ((s.badGranule? (64 * pl) 64).or (s.badGranule? (64 * nextLine e.lines pl) 64))
    else passError s (ck / 32) (ck % 32) e status cASYNC 0

/-- A tile line, or the line into which its last element runs on, holds a granule with bad check bits (R147). -/
def badPart (s : State) (m : AMap Nat) (pl : Nat) (es : List (Nat × Vf)) : Bool :=
  s.anyBad (64 * pl) 64 || (es.any (fun x => decide (64 < x.1 + 2 * x.2.cls + 4)) && s.anyBad (64 * nextLine m pl) 64)

/-- Held partials are applied as long as their turn comes. -/
def drainParts (m : AMap Nat) (pl : Nat) : Nat → State → State
  | 0, s => s
  | f + 1, s =>
    let h := homeDie (64 * pl)
    match (s.dirLine pl).acc with
    | none => s
    | some c =>
      match findPart (s.die h).reorder pl c.progress with
      | none => s
      | some (es, key) =>
        let s1 := s.modDie h fun d => { d with reorder := dropPart d.reorder pl c.progress }
        if badPart s m pl es then partError s1 key pl 11
        else drainParts m pl f ((partDone (applyPart s1 m pl es) key pl).payOwed h (64 * pl) c.progress (s.now h))

/-- A tile whose every line has all its ordinals leaves the ACC state (R139). -/
def settleOrdered (s : State) (t : TileId) : State :=
  let cs := (s.accLines t).filterMap fun l => (s.dirLine l).acc
  if cs ≠ [] ∧ cs.all (fun c => c.ordered && decide (c.expect ≤ c.progress)) then leaveAcc s t 3 else s

/-- What became of a partial at a line's home (R142, R144). -/
inductive PartEnd where
  | applied
  | held
  | nack
  | fail (status : Nat)
  deriving DecidableEq, Repr, Inhabited

/-- The arrival of a partial at the home of a tile line (R142, R144, R147). A line that a lease granted before its ACCINIT still covers takes none yet
(notes/assumptions/21.md). -/
def partArrive (s : State) (t : TileId) (m : AMap Nat) (pl ord : Nat) (es : List (Nat × Vf)) (key : Nat) : State × PartEnd :=
  let h := homeDie (64 * pl)
  match (s.dirLine pl).acc with
  | none => (s, .fail 6)
  | some c =>
    if c.tile ≠ t ∨ !c.ordered then (s, .fail 7)
    else if ord < c.progress ∨ c.expect ≤ ord ∨ (findPart (s.die h).reorder pl ord).isSome then (s, .fail 5)
    else if badPart s m pl es then (s, .fail 11)
    else if s.liveLeases pl ≠ [] then (s, .nack)
    else if c.progress < ord then
      let slice := sliceOf (64 * pl)
      if 16 ≤ reorderCount s h slice then (s, .nack)
      else (s.modDie h fun d => { d with reorder := d.reorder ++ [(slice, .part pl ord es key)] }, .held)
    else (drainParts m pl 16 (applyPart s m pl es), .applied)

/-- Send one line of an entry's partial. -/
def sendLine (s : State) (die cl key : Nat) (vl pl : Nat) : State :=
  let ck := clusterKey die cl
  match s.entry? ck key with
  | none => s
  | some e =>
    let g := engineAgent s die cl e
    let t := Desc.tile e.desc g.asid e.kind
    let es := linePart e vl
    let (s1, r) := partArrive s t e.lines pl (Desc.ordinal e.desc) es key
    match r with
    | .applied => settleOrdered (partDone s1 key pl) t
    | .held => s1.modEntry ck key fun x => { x with unsent := x.unsent.filter (· ≠ pl), held := x.held ++ [pl] }
    | .nack => { s1.freshen with nacked := AMap.put s1.nacked s1.fresh (s1.tenths die, .part pl (Desc.ordinal e.desc) es key) }
    | .fail st => partError s1 key pl st

/-- The partial is complete: it goes to the home of every tile line (R141). -/
def sendPart (s : State) (die cl key : Nat) : State :=
  let ck := clusterKey die cl
  match s.entry? ck key with
  | none => s
  | some e =>
    let s1 := s.modEntry ck key fun x => { x with sent := true, unsent := e.lines.map (·.2) }
    e.lines.foldl (fun s p => sendLine s die cl key p.1 p.2) s1

/-- A refused contribution has waited 64 cycles of its sender's clock (R144). -/
abbrev resendDue (s : State) (die t : Nat) : Bool := decide (t + 640 ≤ s.tenths die)

/-- PARTIAL_RESEND (R144, R352): a partial, a REDO or a request that its home refused is sent again, 64 cycles or more after the NACK. -/
def execPartialResend (key : Nat) (s : State) : Host.Outcome State Fault Refusal :=
  match AMap.get? s.nacked key with
  | none => .next s
  | some (t, h) =>
    let s0 : State := { s with nacked := AMap.del s.nacked key }
    match h with
    | .part pl ord es e =>
      match entryHome s e with
      | none => .next s0
      | some (ck, x) =>
        let die := ck / 32
        if !resendDue s die t then .next s
        else
          let tile := Desc.tile x.desc (engineAgent s die (ck % 32) x).asid x.kind
          let (s1, r) := partArrive s0 tile x.lines pl ord es e
          match r with
          | .applied => .next (settleOrdered (partDone s1 e pl) tile)
          | .held => .next (s1.modEntry ck e fun y => { y with unsent := y.unsent.filter (· ≠ pl), held := y.held ++ [pl] })
          | .nack => .next { s1 with nacked := AMap.put s1.nacked key (s1.tenths die, h) }
          | .fail st => .next (partError s1 e pl st)
    | .redo e w ord v th va =>
      let u := (s.th? th).getD { noThread with grid := th / 2048 / 2 ^ 64, team := th / 2048 % 2 ^ 64, tid := th % 2048 }
      if !resendDue s u.die t then .next s
      else
        let fin (s : State) (cause info : Nat) : State := s.report u.die u.grid u.team u.tid u.core cause va (w64 info) 0
        if s0.isAcc (e / 64) then .next (fin s0 cPROTECTION 1)
        else
          let s0 := redoReady s0 e w
          match (s0.badGranule? w 8).or (s0.badGranule? e (elementLen s0 e)) with
          | some (d, n) => .next ((fin s0 cASYNC 11).lasting d n)
          | none =>
            let (s1, r) := redoArrive s0 e w ord v th va
            match r with
            | .applied vis => .next (s1.raiseHor u.die th vis)
            | .held => .next s1
            | .nack => .next { s1 with nacked := AMap.put s1.nacked key (s1.tenths u.die, h) }
            | .order => .next (fin s1 cASYNC 5)
    | .request txn =>
      match AMap.get? s.pending txn with
      | none => .next s0
      | some p =>
        let d := p.packet.msg.src.toNat
        if !resendDue s d t then .next s
        else .next { s0.toSite p.site p.packet with pending := AMap.put s0.pending txn { p with since := s.now d } }

/-! ### K_STEP -/

/-- A pass stops at a block boundary (R148, R154): a cancelled one is freed, another stays as a stopped entry. -/
def stopPass (s : State) (die cl : Nat) (e : Entry) : State :=
  let ck := clusterKey die cl
  if e.cancelled then s.freeEntry ck e.key
  else s.modEntry ck e.key fun x => { x with status := .fault none, stop := false, part := [], fetched := [], lines := [] }

/-- The step after the operands of its block have been fetched: products are applied, and at a block's end the progress moves. -/
def finishStep (s : State) (die cl : Nat) (e : Entry) : State :=
  let ck := clusterKey die cl
  let d := e.desc
  if e.kind = 1 then
    let (part, f) := reducePassStep e
    let s1 := s.modEntry ck e.key fun _ => { e with part := part, flags := e.flags.or f, step := e.step + 1 }
    if e.step + 1 ≠ Desc.k d then s1
    -- a cancelled pass whose partial has not been sent is discarded (R154)
    else if e.cancelled then s1.freeEntry ck e.key
    else sendPart s1 die cl e.key
  else
    let (s1, f) := chainStep s e
    let p := Desc.k0 d + e.step + 1
    let ended := (e.step + 1) % 32 = 0
    let s2 := s1.modEntry ck e.key fun _ =>
      { e with flags := e.flags.or f, step := e.step + 1, prog := if ended then p else e.prog }
    let s3 := if ended then setProgress s2 (Desc.tile d (engineAgent s die cl e).asid e.kind) p else s2
    if e.step + 1 = Desc.k d then s3.freeEntry ck e.key else s3

/-- The release of a posting has been performed (R128): its time has passed, and no REDO of the conductor waits to be sent again. -/
def releasedAt (s : State) (die : Nat) (e : Entry) : Bool :=
  decide (e.rel ≤ s.now die) &&
    !(s.nacked.any fun p => match p.2.2 with | .redo _ _ _ _ th _ => th == thKey e.grid e.team 1024 | _ => false)

/-- What a chain pass finds of its tile before a step (R136, R154): MISMATCH where some line carries another tile's sidecar, NOACC where one is no longer in
the ACC state. -/
def tileLost (s : State) (e : Entry) (asid : BitVec 16) : Option Nat :=
  let t := Desc.tile e.desc asid e.kind
  let cs := e.lines.map fun p => (s.dirLine p.2).acc.map (·.tile)
  if e.kind = 1 then none
  else if cs.any fun c => c.isSome && c != some t then some 7
  else if cs.any (·.isNone) then some 6
  else none

/-- K_STEP (R132, R134, R136, R141, R145): a granted pass applies one k step. -/
def execKStep (die : DieId) (cl : ClusterId) (key : Nat) (s : State) : Host.Outcome State Fault Refusal :=
  let d := die.toNat
  let c := cl.toNat
  match s.entry? (clusterKey d c) key with
  | none => .next s
  | some e =>
    if e.status ≠ .run ∨ e.kind = 15 ∨ e.sent ∨ !releasedAt s d e then .next s
    else if e.step % 32 = 0 ∧ e.stop then .next (stopPass s d c e)
    else
      match tileLost s e (engineAgent s d c e).asid with
      | some st => .next (passError s d c e st cASYNC 0)
      | none =>
        if e.step % 32 ≠ 0 then .next (finishStep s d c e)
        else
          match e.lines.find? fun p => s.anyBad (64 * p.2) 64 with
          | some p => .next (passLoss s d c e (w64 (64 * p.1)) (s.badGranule? (64 * p.2) 64))
          | none =>
            if e.kind ≠ 1 ∧ badHeaders s e then .next (passError s d c e 9 cASYNC 0)
            else
              match fetchBlock e.desc e.kind (e.step / 32) e.fetched (engineAgent s d c e) s with
              | .error (f, s') => .next (passFail s' d c e 6 f)
              | .ok (fs, s') => .next (finishStep s' d c { e with fetched := fs })

/-- PASS_PREEMPT_STOP (R148): a granted pass of a cohort that has been asked to stop for 8 µs stops at its next block boundary. A REDUCE pass whose partial has been sent has
no block boundary left and runs on, also while a home holds or refuses its partial: its cohort's save waits for its end (notes/assumptions/21.md). -/
def execPassPreemptStop (die : DieId) (cl : ClusterId) (key : Nat) (s : State) : Host.Outcome State Fault Refusal :=
  let ck := clusterKey die.toNat cl.toNat
  match s.entry? ck key with
  | none => .next s
  | some e =>
    match (s.cohort? (cohortKey e.grid (s.cohortOf e.grid e.team))).map (·.status) with
    | some (CohortStatus.stopping t) =>
      if e.status = .run ∧ e.kind ≠ 15 ∧ !e.sent ∧ t + 8000 ≤ s.time then
        .next (s.modEntry ck key fun x => { x with stop := true })
      else .next s
    | _ => .next s

/-! ### ACCINIT (R135, R153) -/

/-- Lines in the ACC state that a die homes. -/
abbrev accHomed (s : State) (h : Nat) : Nat := (s.dir.filter fun p => p.2.acc.isSome && homeDie (64 * p.1) == h).length

/-- The writes of an ACCINIT to its tile (R135, step 2): each run of element bytes of a tile line, +0 of the class, by physical line. -/
def tileZeros (e : Entry) (m : AMap Nat) : AMap (List (Nat × List (BitVec 8))) :=
  let d := e.desc
  let (rows, cols) := Desc.shape d e.tile
  let zero := vfToBytes (Vf.zero (Desc.cls d) false)
  let cells : AMap (AMap (BitVec 8)) := (List.range (rows * cols)).foldl (fun acc i =>
    ((elemPas m (Desc.elem d (i / cols) (i % cols)) zero.length).zip zero).foldl (fun acc p =>
      AMap.put acc (p.1 / 64) (AMap.put ((AMap.get? acc (p.1 / 64)).getD []) p.1 p.2)) acc) []
  if e.keep then [] else cells.map fun l => (l.1, byteRuns l.2)

/-- The tile line, as virtual and physical line, in which an ACCINIT would cover a granule with bad check bits in part, and the granule (R342). -/
def tileSick (s : State) (e : Entry) (m : AMap Nat) : Option ((Nat × Nat) × Nat × Nat) :=
  let zs := tileZeros e m
  m.findSome? fun p => (((AMap.get? zs p.2).getD []).findSome? fun r => s.badPart? r.1 r.2.length).map fun b => (p, b)

/-- An ACCINIT enters its tile (R135): owners are recalled, elements zeroed, sidecars set. It ends when its writes are visible; with keep set, which writes nothing,
when no lease granted before covers a tile line any more, so that no copy outlives the first application (R139, R207; notes/assumptions/21.md). -/
def enterTile (s : State) (die cl : Nat) (e : Entry) (g : Agent) (m : AMap Nat) : State :=
  let d := e.desc
  let t := Desc.tile d g.asid e.tile
  let s1 := m.foldl (fun s p => s.recallSpan (64 * p.2) 64) s
  let r := ((tileZeros e m).flatMap (·.2)).foldl (fun (acc : State × Nat) p =>
    let (s', v) := acc.1.homeWrite1 die p.1 p.2
    (s', max acc.2 v)) (s1, 0)
  let side : Sidecar :=
    { tile := t, ordered := e.tile == 1, progress := 0, expect := Desc.expect d, flags := {}, status := 1, stword := Desc.stword d,
      grid := e.grid, team := e.team, seq := e.seq, cl := cl, first := (elemPas m (Desc.cbase d) 1).headD 0 / 64 }
  let clear := maxOf (m.map fun p => r.1.visTime die (64 * p.2) 64)
  let s2 := m.foldl (fun s p => s.setDir p.2 { s.dirLine p.2 with leases := s.liveLeases p.2, acc := some side }) r.1
  s2.modEntry (clusterKey die cl) e.key fun x => { x with status := .run, doneAt := some (max r.2 clear) }

/-- ACCINIT_APPLY (R135): the tile is entered, or BUSY or FULL is reported; the entry goes once its writes are visible. -/
def execAccinitApply (die : DieId) (cl : ClusterId) (key : Nat) (s : State) : Host.Outcome State Fault Refusal :=
  let d := die.toNat
  let c := cl.toNat
  let ck := clusterKey d c
  match s.entry? ck key with
  | none => .next s
  | some e =>
    if e.kind ≠ 15 then .next s
    else
      match e.doneAt with
      | some t => .next (if t ≤ s.now d then s.freeEntry ck key else s)
      | none =>
        match e.status with
        | .fault (some _) => .next s
        | _ =>
          if stopsEntry s e then .next s else
          let g := engineAgent s d c e
          match mapTile e.desc e.tile g s with
          | .error (f, s') => .next (passFail s' d c e 7 f)
          | .ok (m, s1) =>
            if m.any fun p => s1.isAcc p.2 then .next (passError s1 d c e 8 cASYNC 0)
            else if (List.range 64).any fun h =>
                let n := (m.filter fun p => homeDie (64 * p.2) == h).length
                decide (n ≠ 0) && decide (s1.accBytes h < 128 * (accHomed s1 h + n)) then
              .next (passError s1 d c e 13 cASYNC 0)
            else
              match tileSick s1 e m with
              | some (p, b) => .next (passLoss s1 d c e (w64 (64 * p.1)) (some b))
              | none => .next (enterTile s1 d c e g m)

/-! ### Instructions -/

/-- Post an entry (R128, R151, R153): the descriptor is checked and copied, and for a pass the conductor's release is begun. -/
def postEntry (d a : Spec) (kind tile : Nat) (keep : Bool) : M Unit := do
  let ds ← readOps a 6
  let desc : Desc := Vector.ofFn fun (i : Fin 6) => ds.getD i.val 0
  match (List.range 6).find? fun i => badSlot desc (if kind = 15 then tile else kind) (kind == 15) i with
  | some i => trap cDESC 0 (w64 i)
  | none => pure ()
  let t ← cur
  let s ← get
  let ck := clusterKey t.die t.cluster
  let tb := (s.cluster ck).table
  if 16 ≤ tb.length ∨ 8 ≤ (tb.filter fun e => e.grid == t.grid && e.team == t.team).length then park .reservation
  let s1 := if kind = 15 then s else s.releaseWrites s.cur
  let seq := ((s1.team? (teamKey t.grid t.team)).map (·.seq)).getD 0
  let e : Entry := { key := s1.fresh, grid := t.grid, team := t.team, seq := seq, kind := kind, tile := tile, keep := keep, desc := desc,
                     rel := if kind = 15 then 0 else s1.releaseTime s1.cur }
  let s2 := s1.freshen.modCluster ck fun c => { c with table := c.table ++ [e] }
  set (match s2.team? (teamKey t.grid t.team) with
    | some x => s2.setTeam (teamKey t.grid t.team) { x with seq := seq + 1 }
    | none => s2)
  writeOp none d e.ticket

/-- MPASS.dense (R151). -/
def execMpassDense (d src : Spec) (s : State) : Host.Outcome State Fault Refusal :=
  runWord (.mpassDense d src) (postEntry d src 0 0 false) s

/-- MPASS.reduce (R151). -/
def execMpassReduce (d src : Spec) (s : State) : Host.Outcome State Fault Refusal :=
  runWord (.mpassReduce d src) (postEntry d src 1 0 false) s

/-- MPASS.batch (R151). -/
def execMpassBatch (d src : Spec) (s : State) : Host.Outcome State Fault Refusal :=
  runWord (.mpassBatch d src) (postEntry d src 2 0 false) s

/-- MPASS.mvec (R151). -/
def execMpassMvec (d src : Spec) (s : State) : Host.Outcome State Fault Refusal :=
  runWord (.mpassMvec d src) (postEntry d src 3 0 false) s

/-- ACCINIT (R153). -/
def execAccinit (d a : Spec) (keep : Bool) (kind : BitVec 2) (s : State) : Host.Outcome State Fault Refusal :=
  runWord (.accinit d a keep kind) (postEntry d a 15 kind.toNat keep) s

/-- The query word of a ticket (R155). The progress of a chain pass that has not yet set its tile's k-progress reads 0 (notes/assumptions/21.md). -/
def ticketWord (s : State) (t : Thread) (seq : Nat) : Word :=
  match (s.cluster (clusterKey t.die t.cluster)).table.find? fun e => e.grid == t.grid && e.team == t.team && e.seq.toNat == seq with
  | none => w64 (3 * 2 ^ 60)
  | some e =>
    let st := match e.status with | .wait => 1 | .run => 2 | .fault _ => 4
    w64 (st * 2 ^ 60 + e.flags.nibble * 2 ^ 56 + e.kind * 2 ^ 52 + (if e.kind = 1 then Desc.ordinal e.desc else 0) * 2 ^ 32
      + (if e.kind = 1 ∨ e.kind = 15 then 0 else e.prog))

/-- The sequence of a pass ticket operand (R155): DESC for any other. -/
def passTicket (x : Word) : M Nat := do
  if bits x 60 4 ≠ 1 ∨ bits x 16 44 ≠ 0 then trap cDESC
  return bits x 0 16

/-- The tile in the ACC state whose cbase an address is, in the issuer's address space. -/
def tileAt (s : State) (t : Thread) (a : Word) : Option TileId :=
  s.dir.findSome? fun p => p.2.acc.bind fun c =>
    if c.tile.asid = (s.gridOf t).asid ∧ c.tile.cbase = a then some c.tile else none

/-- The query word of a tile address. -/
def tileQuery (s : State) (t : Thread) (a : Word) : Word :=
  match tileAt s t a with
  | some x => tileWord s x none
  | none => w64 (15 * 2 ^ 52)

/-- MQUERY (R155). That a ticket found done is observed (R140) needs nothing here: a line in the ACC state has no leases, so every application
to it is visible when it is made. -/
def execMquery (d a : Spec) (tile : Bool) (s : State) : Host.Outcome State Fault Refusal :=
  runWord (.mquery d a tile) (do
    let x ← readOp a
    let t ← cur
    if tile then writeOp none d (tileQuery (← get) t x)
    else
      let seq ← passTicket x
      writeOp none d (ticketWord (← get) t seq)) s

/-- Cancel a ticket (R154). -/
def cancelTicket (s : State) (t : Thread) (seq : Nat) : State :=
  let ck := clusterKey t.die t.cluster
  match (s.cluster ck).table.find? fun e => e.grid == t.grid && e.team == t.team && e.seq.toNat == seq with
  | none => s
  | some e =>
    if e.doneAt.isSome ∨ e.sent then s
    else if e.status = .run then s.modEntry ck e.key fun x => { x with stop := true, cancelled := true }
    else s.freeEntry ck e.key

/-- Cancel a tile (R154): it leaves the ACC state, and the passes whose partials its homes hold stop with NOACC. -/
def cancelTile (s : State) (x : TileId) : State :=
  let ls := s.accLines x
  let s1 := leaveAcc s x 12
  let held := s1.dies.flatMap fun p => p.2.reorder.filterMap fun h =>
    match h.2 with | .part l _ _ key => if ls.contains l then some key else none | _ => none
  let s2 : State :=
    { s1 with dies := s1.dies.map fun p => (p.1, { p.2 with reorder := p.2.reorder.filter fun h =>
        match h.2 with | .part l _ _ _ => !ls.contains l | _ => true }) }
  (keySet held).foldl (fun s key =>
    match entryHome s key with
    | some (ck, e) => passError s (ck / 32) (ck % 32) e 6 cASYNC 0
    | none => s) s2

/-- MCANCEL (R154): d takes the query word as it stands after the cancellation. -/
def execMcancel (d a : Spec) (tile : Bool) (s : State) : Host.Outcome State Fault Refusal :=
  runWord (.mcancel d a tile) (do
    let x ← readOp a
    let t ← cur
    if tile then
      match tileAt (← get) t x with
      | some y => modify fun s => cancelTile s y
      | none => pure ()
      writeOp none d (tileQuery (← get) t x)
    else
      let seq ← passTicket x
      modify fun s => cancelTicket s t seq
      writeOp none d (ticketWord (← get) t seq)) s

end Sys2Proof.Machine
end

