-- ==== Sys2Proof/Machine/System.lean ====
section
/-! DEFINITION. The remaining SYS forms (R298 to R303, R327 to R329) and the reserved opcodes (R52). -/
namespace Sys2Proof.Machine

/-! ### Saving a result queue -/

/-- SAVEQ (R327, R328). -/
def execSaveq (a : Spec) (s : State) : Host.Outcome State Fault Refusal :=
  runWord (.saveq a) (do
    let p ← readOp a
    let qs ← (List.range 16).mapM fun j => readOp (BitVec.ofNat 6 j)
    let bs := qs.flatMap fun q => toBytes 8 q.toNat
    access 1 bs (storeSpace .glob p bs 64)) s

/-- RSTQ (R327, R329): the queue takes the sixteen slots at the boundary. -/
def execRstq (a : Spec) (s : State) : Host.Outcome State Fault Refusal :=
  runWord (.rstq a) (do
    let p ← readOp a
    let x ← access 0 [] fun g => do
      let x ← loadSpace .glob p 128 64 {} g
      noteLoad g.th x.stamp x.seq
      return x
    modCur fun t => { t with rstq := some (Vector.ofFn fun (j : Fin 16) => w64 (ofBytes ((x.bytes.drop (8 * j.val)).take 8))) }) s

/-! ### System registers (R300) -/

/-- Security version of the running image (R304): the header's svn; 0 before one runs. -/
def fwSvn (s : State) : Nat := match s.running with | some img => ofBytes ((img.drop 12).take 4) | none => 0

/-- The value of a system register, if the number is assigned. -/
def sysReg (s : State) (t : Thread) (x : Nat) : Option Word :=
  let g := s.gridOf t
  match x with
  | 0x00 => some (w64 g.super.toNat)
  | 0x01 => some (w64 g.asid.toNat)
  | 0x02 => some (w64 (s.die t.die).lcstate.toNat)
  | 0x03 => some (w64 (s.die t.die).minSvn.toNat)
  | 0x04 => some (w64 (fwSvn s))
  | 0x08 => some t.cd
  | _ => none

/-- GETS (R300). -/
def execGets (d : Spec) (x : BitVec 8) (s : State) : Host.Outcome State Fault Refusal :=
  runWord (.gets d x) (do
    match sysReg (← get) (← cur) x.toNat with
    | some v => writeOp none d v
    | none => trap cILLEGAL) s

/-- SETS (R300): only the call depth can be written; it takes effect at the boundary. -/
def execSets (a : Spec) (x : BitVec 8) (s : State) : Host.Outcome State Fault Refusal :=
  runWord (.sets a x) (do
    let v ← readOp a
    if x = 0x08 then modCur fun t => t.produce none .cd v
    else trap cILLEGAL) s

/-! ### TLBI and INVL (R301, R302) -/

/-- Keep only some entries of every translation buffer of the module. -/
def State.keepTlb (s : State) (keep : Tlb → Bool) : State :=
  { s with cores := s.cores.map fun p => (p.1, { p.2 with tlb := p.2.tlb.filter keep }),
           dies := s.dies.map fun p => (p.1, { p.2 with tlb := p.2.tlb.filter keep }) }

/-- A word of a stash line stands in the page that holds an address, by the page's size as the line's fill translated it. -/
def lineInPage (w : Window) (x : StashLine) (line v : Nat) : Bool :=
  (List.range 8).any fun i =>
    x.sizes.getD i 0 != 0 && match w.wordVa (32 * line + 4 * i) with
      | some va => (va.toNat % 2 ^ 57) >>> x.sizes.getD i 0 == v >>> x.sizes.getD i 0
      | none => false

/-- Stash lines of an address space's windows whose spans lie in the page of an address are written back, and their presence is cleared; a fill that is under way
begins anew (R301). -/
def dropPageLines (s : State) (asid : BitVec 16) (v : Nat) : State :=
  s.cores.foldl (fun s p =>
    (p.2.windows.filter fun w => w.asid == asid && !w.scratch).foldl (fun s w =>
      (w.frontLines.filter fun l => lineInPage w (s.stashLine p.1 l) l v).foldl (fun s l =>
        let s1 := s.recallLine (p.1 / 128) (p.1 % 128) l
        s1.setLine p.1 l { s1.stashLine p.1 l with expiry := none, filling := none, serve := [] }) s) s) s

/-- The granted passes of the address spaces that f holds for, with a tile line for which g holds, by the keys of their entries: they use the translations of their
grant to their end (R145, R301). -/
def passesUsing (s : State) (f : BitVec 16 → Bool) (g : Nat → Bool) : List Nat :=
  s.clusters.flatMap fun c => (c.2.table.filter fun e => f (((s.gridInfo? e.grid).map (·.asid)).getD 0) && e.lines.any fun l => g l.1).map (·.key)

/-- TLBI completes when no access can use an old translation any more; its issuer waits at its boundary (R301). -/
def tlbiWait (passes : List Nat) (asid : Option (BitVec 16)) : M Unit := do
  let s ← get
  if passes ≠ [] ∨ (asid.map s.anyEnding).getD false = true then addWait (.tlbi passes (asid.map (·.toNat)))

/-- The ASID operand of TLBI (R301). -/
def tlbiAsidOf (d : Spec) : M (BitVec 16) := do
  let x ← readOp d
  if bits x 16 48 ≠ 0 then trap cDESC
  return x.setWidth 16

/-- TLBI.page (R301): the buffers acknowledge at once in this model. -/
def execTlbiPage (d a : Spec) (s : State) : Host.Outcome State Fault Refusal :=
  runWord (.tlbiPage d a) (do
    let asid ← tlbiAsidOf d
    let va ← readOp a
    release 5
    let s ← get
    let v := va.toNat % 2 ^ 57
    let gone := ((s.cores.flatMap (·.2.tlb)) ++ s.dies.flatMap (·.2.tlb)).filter fun e => e.serves asid v
    let shared := gone.any fun e => bitAt e.pte 7
    let size := maxOf (16 :: gone.map (·.bits))
    set (dropPageLines (s.keepTlb fun e => !e.serves asid v) asid v)
    tlbiWait (passesUsing s (fun x => shared || x == asid) fun l => (l % 2 ^ 51 * 64) >>> size == v >>> size) none) s

/-- TLBI.asid (R301). -/
def execTlbiAsid (d a : Spec) (s : State) : Host.Outcome State Fault Refusal :=
  runWord (.tlbiAsid d a) (do
    let asid ← tlbiAsidOf d
    let _ ← readOp a
    release 5
    let s ← get
    let s1 := s.keepTlb fun e => e.asid != asid
    set (s1.cores.foldl (fun s p => s.endMarked p.1 fun w => w.asid == asid) s1)
    tlbiWait (passesUsing s (· == asid) fun _ => true) (some asid)) s

/-- TLBI.all (R301). -/
def execTlbiAll (d a : Spec) (s : State) : Host.Outcome State Fault Refusal :=
  runWord (.tlbiAll d a) (do
    let _ ← tlbiAsidOf d
    let _ ← readOp a
    release 5
    let s ← get
    set (s.keepTlb fun _ => false)
    tlbiWait (passesUsing s (fun _ => true) fun _ => true) none) s

/-- INVL (R302): the fetch buffers of every core are emptied. -/
def execInvl (s : State) : Host.Outcome State Fault Refusal :=
  runWord .invl (do
    release 5
    modify fun s => { s with cores := s.cores.map fun p => (p.1, { p.2 with code := [] }) }) s

/-! ### WBL and WIPE (R303) -/

/-- The operands of WBL and WIPE: base and length. -/
def rangeOperands (d a : Spec) : M (Word × Nat) := do
  let base ← readOp a
  let len ← readOp d
  if base.toNat % 64 ≠ 0 then trap cALIGN base
  if len.toNat % 64 ≠ 0 then trap cALIGN base
  if 2 ^ 30 < len.toNat then trap cDESC
  return (base, len.toNat)

/-- The bytes of WBL and WIPE between two progress points. -/
abbrev rangeUnit : Nat := 65536

/-- The lines of a part of a range, each page translated (R211), as pieces at their offsets: PROTECTION for the register space. -/
def rangeLines (base : Word) (start len : Nat) (p : Perm) (g : Agent) : A (List Piece) :=
  (List.range (len / 64)).mapM fun i => do
    let off := start + 64 * i
    let (pa, _) ← translate g (base + w64 off) p
    let q : Piece := { off := off, pa := pa, len := 64 }
    if q.reg then failA (.prot (base + w64 off) false)
    return q

/-- A range is done from one 64 KiB progress point to the next (R303): the thread parks between them, where pre-emption may take it, and goes on from there. -/
def rangeStep (len : Nat) (body : Nat → Nat → M Unit) : M Unit := do
  let t ← cur
  let n := min rangeUnit (len - t.rangeDone)
  body t.rangeDone n
  if t.rangeDone + n < len then do
    modCur fun t => { t with rangeDone := t.rangeDone + n }
    park (.until ((← get).now t.die))

/-- Every dirty byte of a line goes to its backing, and the copies stay (R303). -/
def backLine (s : State) (pa : Nat) : State :=
  let l := pa / 64
  if s.isAcc l then s
  else
    let s1 := s.clusters.foldl (fun s p => (s.flushLine p.1 l).1) s
    let s2 := (s1.dirLine l).owners.foldl (fun s o => (s.writeBackLine o.die o.core o.line).1) s1
    (List.range 64).foldl (fun s i =>
      match AMap.get? s.l2 (pa + i) with
      | some b => { s with mem := writeCell s.mem (pa + i) b, l2 := AMap.del s.l2 (pa + i) }
      | none => s) s2

/-- WBL (R303). Memory of another module has no dirty byte in this one. -/
def execWbl (d a : Spec) (s : State) : Host.Outcome State Fault Refusal :=
  runWord (.wbl d a) (do
    let (base, len) ← rangeOperands d a
    rangeStep len fun start n => do
      let ls ← access 0 [] (rangeLines base start n .r)
      modify fun s => (ls.filter fun p => p.module?.isNone).foldl (fun s p => backLine s p.pa) s) s

/-- One line of WIPE (R303, R137): one write at its home, or a full-line write to another module (R352). -/
def wipeLine (g : Agent) (base : Word) (p : Piece) : A Unit := do
  checkFootprint g false (base + w64 p.off).toNat 64 true
  let s ← get
  if s.isAcc (p.pa / 64) then set (s.report g.die g.grid g.team g.tid g.core cPROTECTION (base + w64 p.off) 1 0)
  else
    let (s', v) := s.homeWrite1 g.die p.pa (List.replicate 64 0)
    set (s'.l1Update (coreKey g.die g.core) p.pa (List.replicate 64 0))
    noteStore g.die g.th 0 v

/-- WIPE (R303, R137). -/
def execWipe (d a : Spec) (s : State) : Host.Outcome State Fault Refusal :=
  runWord (.wipe d a) (do
    let (base, len) ← rangeOperands d a
    rangeStep len fun start n => access 1 [] fun g => do
      let ls ← rangeLines base start n .w g
      let rs ← (ls.filterMap fun p => p.module?.map fun md => (md, p)).mapM fun x => do
        let i ← systemPort g (base + w64 x.2.off) x.1
        refusedAt (remoteAccess g (base + w64 x.2.off) 0 x.2.pa i 0 3 (dataSlots (List.replicate 64 0)))
      let near := ls.filter fun p => p.module?.isNone
      for p in near do checkFootprint g false (base + w64 p.off).toNat 64 true
      modA fun s => s.ownFirst g (near.map fun p => (p.pa, 64))
      for p in near do wipeLine g base p
      for r in rs do reportRefused g [r]) s

/-! ### Reserved opcodes -/

/-- A word of major opcode 45 or 63 (R52): ILLEGAL. -/
def execReservedOpcode (w : Code) (s : State) : Host.Outcome State Fault Refusal :=
  runWord (.reservedOpcode w) (trap cILLEGAL) s

end Sys2Proof.Machine
end

