-- ==== Sys2Proof/Machine/Dispatcher.lean ====
section
/-! DEFINITION. The die dispatcher: queues and packets (R246 to R248, R254, R288, R293 to R296), the start and the end of a grid (R237, R251,
R252), placement (R23, R249, R250, R336), stealing (R253), pre-emption for a waiting cohort (R255, R256), and the abort of a grid (R321). -/
namespace Sys2Proof.Machine

/-! ### Sizes -/

namespace Grid

/-- Named length of a role, in slots. -/
abbrev roleLen (g : Grid) (role : Nat) : Nat := 8 * (g.lenCode role + 1)

/-- Whether a role has threads in a team (R234). -/
def hasRole (g : Grid) : Nat → Bool
  | 0 => g.hasCond
  | 1 => decide (0 < g.nprod)
  | _ => decide (g.nprod < g.ngrp)

/-- Register storage of one team (R23). -/
def teamBytes (g : Grid) : Nat :=
  g.nprod * (512 * (16 + g.roleLen 1)) + (g.ngrp - g.nprod) * (512 * (16 + g.roleLen 2)) + g.hasCond.toNat * (8 * (16 + g.roleLen 0))

/-- The teams of a cohort (R247). -/
def teamsOf (g : Grid) (c : Nat) : List Nat :=
  (List.range (min g.cohortSize (g.teams - c * g.cohortSize))).map (c * g.cohortSize + ·)

/-- Bytes of a thread record for a role, unpadded (R337). -/
abbrev recordBytes (g : Grid) (role : Nat) : Nat := 8 * (36 + g.roleLen role)

/-- The latch numbers of the grid. -/
def latches (g : Grid) : List Nat := (List.range 16).filter fun l => g.latchmask.testBit l

/-- The save area that a cohort of n teams reserves (R336). -/
def areaSize (g : Grid) (n : Nat) : Nat :=
  let cores := if g.spread then n else min n 4
  let clusters := if g.spread then n else 1
  let team := 768 + g.nprod * (192 + 64 * g.recordBytes 1) + (g.ngrp - g.nprod) * (192 + 64 * g.recordBytes 2)
    + g.hasCond.toNat * roundUp (g.recordBytes 0) 64
  64 + n * team + cores * (4096 + stashBytes g.carve + stashBytes g.carve / 8) + 64 * clusters
    + g.latches.length * (64 + roundUp (8 * cores) 64)

end Grid

/-- Teams of one shape that an empty core takes (R23, R250). -/
def Grid.perCore (g : Grid) : Nat := min (524288 / g.teamBytes) (2048 / g.threads)

namespace State

/-! ### Placement -/

/-- The dies of a die mask that are present and not retired. -/
def maskDies (s : State) (mask : Word) : List Nat := (List.range 64).filter fun d => bitAt mask d && s.alive d

/-- Hops between two dies (R372); the grid distance before discovery. -/
def hops (s : State) (a b : Nat) : Nat :=
  match AMap.get? s.pairs (64 * a + b) with
  | some p => p.1
  | none => (a % 8 - b % 8) + (b % 8 - a % 8) + (a / 8 - b / 8) + (b / 8 - a / 8)

/-- The teams on a core. -/
def teamsOn (s : State) (d c : Nat) : List Team := (s.teams.filter fun p => p.2.die == d && p.2.core == c).map (·.2)

/-- The windows of a core that do not fit the stash of a carve-out (R161). -/
abbrev outside (s : State) (k : Nat) (carve : BitVec 2) : List Window := (s.core k).windows.filter fun w => decide (stashBytes carve < w.stop)

/-- A core without teams can take a carve-out now (R161, R176, R250): no access waits in a window that would have to end. -/
def carveFree (s : State) (k : Nat) (carve : BitVec 2) : Bool :=
  (s.core k).carve == carve || (s.outside k carve).all fun w => (s.windowOp k w).isNone && !s.windowWaits k 0 w.asid.toNat w.id

/-- The lowest team slot of a core that no team on it has (R240). -/
def freeSlot (s : State) (k : Nat) : Nat :=
  let used := (s.teamsOn (k / 128) (k % 128)).map (·.slot)
  ((List.range (used.length + 1)).find? fun i => !used.contains i).getD 0

/-- How many teams of a grid a core takes as it stands (R23, R250). -/
def roomFor (s : State) (g : Grid) (d c : Nat) : Nat :=
  let ts := s.teamsOn d c
  if !s.clusterOk d (c / 4) || (s.die d).leaving.contains (c / 4) || (ts ≠ [] && (s.core (coreKey d c)).carve != g.carve)
      || !s.carveFree (coreKey d c) g.carve then 0
  else
    let gs := ts.filterMap fun t => s.grid? t.grid
    let used := (gs.map Grid.teamBytes).foldl (· + ·) 0
    let ths := (gs.map fun x => x.threads).foldl (· + ·) 0
    min ((524288 - used) / g.teamBytes) ((2048 - ths) / g.threads)

/-- Some resident cohort owns a latch number in the segment of a die (R250). -/
def latchOwned (s : State) (d l : Nat) : Bool :=
  let ds := s.segDies d l
  s.cohorts.any fun p =>
    p.2.status != .ended && p.2.status != .waiting && ((s.grid? p.2.grid).map fun g => g.latchmask.testBit l).getD false
      && p.2.cores.any fun c => ds.contains (c.2 / 128)

/-- A die may hold cores of a cohort: each of its latch numbers is free in a formed segment there (R250). -/
def latchesOk (s : State) (g : Grid) (d : Nat) : Bool := g.latches.all fun l => s.segFormed d l && !s.latchOwned d l

/-- Teams onto cores with the given room, in order. -/
def fillCores : List (Nat × Nat) → List Nat → Option (List (Nat × Nat))
  | _, [] => some []
  | [], _ :: _ => none
  | (k, n) :: rs, ts => (fillCores rs (ts.drop n)).map fun xs => (ts.take n).map (fun t => (t, k)) ++ xs

/-- Sets of teams, the largest first, each onto a core of its own (R256). -/
def fillGroups : List (Nat × Nat) → List (List Nat) → Option (List (Nat × Nat))
  | _, [] => some []
  | rs, ts :: rest =>
    match rs.find? fun r => decide (ts.length ≤ r.2) with
    | none => none
    | some r => (fillGroups (rs.filter fun x => x.1 ≠ r.1) rest).map fun xs => ts.map (fun t => (t, r.1)) ++ xs

/-- Insert a set of teams by falling size. -/
def insertGroup (x : List Nat) : List (List Nat) → List (List Nat)
  | [] => [x]
  | y :: ys => if y.length < x.length then x :: y :: ys else y :: insertGroup x ys

/-- The sets of teams that shared a core. -/
def sharedSets (old : List (Nat × Nat)) : List (List Nat) :=
  (keySet (old.map (·.2))).foldl (fun xs k => insertGroup ((old.filter fun p => p.2 == k).map (·.1)) xs) []

/-- The ways of teams onto cores that are tried in turn: as they shared them where the cohort was saved with latches (R256); else in order, then as they
shared them. -/
def fills (g : Grid) (c : Nat) (old : List (Nat × Nat)) (rs : List (Nat × Nat)) : List (List (Nat × Nat)) :=
  let shared := if old = [] then none else fillGroups rs (sharedSets old)
  [if g.latchmask ≠ 0 ∧ old ≠ [] then none else fillCores rs (g.teamsOf c), shared].filterMap id

/-- The dies of a spread cohort in the order in which they are filled (R249). -/
def spreadDies (s : State) (own : Nat) (mask : Word) : List Nat :=
  let ins (d : Nat) (ds : List Nat) : List Nat :=
    let before := ds.takeWhile fun e => decide (s.hops own e ≤ s.hops own d)
    before ++ d :: ds.drop before.length
  own :: ((s.maskDies mask).filter (· ≠ own)).foldl (fun ds d => ins d ds) []

/-- The placements that the teams of a cohort may get from its owner, in the order in which they are tried (R249, R250). -/
def plansOf (s : State) (own : Nat) (g : Grid) (c : Nat) (old : List (Nat × Nat)) : List (List (Nat × Nat)) :=
  if g.spread then
    let ds := (s.spreadDies own g.dmask).filter fun d => s.latchesOk g d
    fills g c old (ds.flatMap fun d => (List.range 128).map fun k => (coreKey d k, s.roomFor g d k))
  else if !s.latchesOk g own then []
  else
    (List.range 32).flatMap fun cl =>
      if g.cbar && (s.cluster (clusterKey own cl)).owner.isSome then []
      else fills g c old ((List.range 4).map fun i => (coreKey own (4 * cl + i), s.roomFor g own (4 * cl + i)))

/-- A free save area of a size, first fit from the lowest address of the owner's pool (R336). -/
def planArea (s : State) (own size : Nat) : Option Nat :=
  let lo := (s.die own).savepool.toNat
  let hi := lo + (s.die own).savepoolsz.toNat
  let taken := s.cohorts.filterMap fun p => p.2.area
  let fits := (lo :: taken.map fun a => a.1 + a.2).filter fun a =>
    decide (lo ≤ a) && decide (a + size ≤ hi) && taken.all fun x => decide (a + size ≤ x.1) || decide (x.1 + x.2 ≤ a)
  fits.foldl (fun b a => match b with | none => some a | some b => some (min a b)) none

/-- A core without resident teams takes another carve-out (R161, R250). -/
def changeCarve (s : State) (k : Nat) (carve : BitVec 2) : State :=
  if (s.core k).carve = carve then s
  else
    let s1 := (s.outside k carve).foldl (fun s w => (s.unmapWindow (k / 128) (k % 128) w).1) s
    s1.modCore k fun c => { c with carve := carve, l1 := [] }

/-- Excuse bits of the segments of the dies that a cohort occupies: clear on its cores, set on the others (R283). -/
def excuseOthers (s : State) (g : Grid) (cores : List Nat) : State :=
  g.latches.foldl (fun s l =>
    let ds := keySet ((keySet (cores.map (· / 128))).flatMap fun d => s.segDies d l)
    ds.foldl (fun s d =>
      (List.range 128).foldl (fun s c =>
        let k := coreKey d c
        s.setLatch k l { s.latchCore k l with excuse := !cores.contains k }) s) s) s

/-- A cohort's cores, cluster unit and area are taken (R250, R336). -/
def occupy (s : State) (own : Nat) (gid c : Nat) (g : Grid) (plan : List (Nat × Nat)) (area : Nat × Nat) : State :=
  let cores := keySet (plan.map (·.2))
  let s1 := cores.foldl (fun s k => s.changeCarve k g.carve) s
  let s2 := s1.setCohort (cohortKey gid c)
    { grid := gid, cohort := c, status := .resident, placed := s.time, owner := own, area := some area, cores := plan }
  let s3 := if g.cbar then
      (keySet (cores.map (· / 4))).foldl (fun s ck =>
        s.modCluster ck fun x => { x with owner := some (gid, c), bars := List.replicate 8 {} }) s2
    else s2
  let s4 := s3.excuseOthers g cores
  g.latches.foldl (fun s l => cores.foldl (fun s k => s.setLatch k l {}) s) s4

/-- A thread as a launch starts it (R236). -/
def freshThread (s : State) (gid : Nat) (g : Grid) (team tid die core : Nat) (base : Nat) : Thread :=
  { grid := gid, team := team, tid := tid, die := die, core := core, pc := g.entry, n := vset (Vector.replicate 48 0) 0 g.args,
    savebase := w64 base, age := s.time }

/-- The tids of a team. -/
def tidsOf (g : Grid) : List Nat := List.range (64 * g.ngrp) ++ (if g.hasCond then [1024] else [])

/-- A team with its groups, and its threads as a function gives them. -/
def putTeam (s : State) (gid : Nat) (g : Grid) (team : Nat) (k : Nat) (t : Team) (grp : Nat → Group) (th : Nat → Option Thread) : State :=
  let s1 := s.setTeam (teamKey gid team) { t with grid := gid, team := team, die := k / 128, core := k % 128, slot := s.freeSlot k }
  let s2 := (List.range g.ngrp).foldl (fun s i => s.setGroup (grpKey gid team i) (grp i)) s1
  (tidsOf g).foldl (fun s tid => match th tid with | some x => s.setTh (thKey gid team tid) x | none => s) s2

/-- The threads of a cohort acquire at MOD scope, at launch and at restore (R201). -/
def acquireAll (s : State) (gid : Nat) (teams : List Nat) : State :=
  (s.threads.filter fun p => p.2.grid == gid && teams.contains p.2.team).foldl (fun s p => s.acquire p.1 5 0) s

/-- A cohort that waits for a placement or a restore (R255). -/
structure Waiter where
  grid : Nat
  cohort : Nat
  since : Nat
  /-- it was placed before, and has an image -/
  saved : Bool
  prio : Nat
  /-- age of the grid's packet (R251) -/
  age : Nat := 0
  deriving DecidableEq, Repr

/-- The first undispatched cohort of a die's ranges (R252). -/
def nextCohort (g : Grid) (d : Nat) : Option Nat :=
  ((AMap.get? g.ranges d).getD []).foldl (fun b r => match b with | none => some r.1 | some x => some (min x r.1)) none

/-- A range without a cohort number. -/
def dropCohort (c : Nat) (rs : List (Nat × Nat)) : List (Nat × Nat) :=
  rs.flatMap fun r =>
    if r.1 ≤ c ∧ c < r.2 then (if r.1 < c then [(r.1, c)] else []) ++ (if c + 1 < r.2 then [(c + 1, r.2)] else []) else [r]

/-- Effective priority of a waiting cohort (R255). -/
abbrev waitPrio (s : State) (d : Nat) (w : Waiter) : Nat := min 7 (w.prio + (s.time - w.since) / max 1 (s.die d).quantum.toNat)

/-- The cohorts that wait at a die: the next one of each grid it has a range of, and those that it owns and has saved. -/
def waiters (s : State) (d : Nat) : List Waiter :=
  (s.grids.filterMap fun p =>
    if p.2.started && !p.2.aborted then (nextCohort p.2 d).map fun c => ⟨p.1, c, p.2.begun, false, p.2.prio, p.2.taken⟩ else none)
  ++ (s.cohorts.filterMap fun p =>
    if p.2.owner = d ∧ p.2.status = .waiting then
      some ⟨p.2.grid, p.2.cohort, p.2.since, true, ((s.grid? p.2.grid).map (·.prio)).getD 0, ((s.grid? p.2.grid).map (·.taken)).getD 0⟩
    else none)

/-- W of R256: the highest effective priority, then the longest wait; then the older packet (R251). -/
def chosen (s : State) (d : Nat) : Option Waiter :=
  (s.waiters d).foldl (fun b w =>
    match b with
    | none => some w
    | some x =>
      if s.waitPrio d x < s.waitPrio d w ∨ (s.waitPrio d x = s.waitPrio d w ∧ (w.since < x.since ∨ (w.since = x.since ∧ w.age < x.age)))
      then some w else some x) none

/-- The placements of a waiting cohort at its owner, with its area (R250, R336): none where no area is free. -/
def plansFor (s : State) (d : Nat) (w : Waiter) : List (Grid × List (Nat × Nat) × (Nat × Nat)) :=
  match s.grid? w.grid with
  | none => []
  | some g =>
    let old := s.cohort? (cohortKey w.grid w.cohort)
    let size := g.areaSize (g.teamsOf w.cohort).length
    match (old.bind (·.area)).or ((s.planArea d size).map fun a => (a, size)) with
    | none => []
    | some a => (s.plansOf d g w.cohort ((old.map (·.cores)).getD [])).map fun plan => (g, plan, a)

/-- Cores and area for a waiting cohort at its owner (R250, R336), if both are free. -/
def planWaiter (s : State) (d : Nat) (w : Waiter) : Option (Grid × List (Nat × Nat) × (Nat × Nat)) := (s.plansFor d w).head?

/-! ### Grids -/

/-- Where a completion word stands, in the grid's space: one piece that the grid may write (R248). -/
def cwordPiece (a : Agent) (va : Word) : A Piece := do
  let (ps, ptes) ← translateSpan a va 8 .w
  match ← checkPieces a va (piecesOf ps ptes) with
  | [p] => return p
  | _ => failA (.prot va false)

/-- The completion word, written in the grid's space by a die; where that fails, the report of R248. In another module it goes out by a port die (R362), and nothing
waits for the answer. Where no port reaches the module, where the word stands on a line in the ACC state, and where its translation meets uncorrectable data, the write fails too,
and the record carries PROTECTION (notes/assumptions/20.md). -/
def writeCompletion (s : State) (d : Nat) (g : Grid) (status reason : Nat) : State :=
  if g.cword = 0 then s
  else
    let word := w64 (status * 2 ^ 60 + reason)
    let bs := toBytes 8 word.toNat
    let a : Agent := { th := 0, grid := 0, team := 0, tid := 0, die := d, core := 0, asid := g.asid, root := g.root, super := g.super, unit := true, op := some 0 }
    let fail (s : State) (cause : Nat) : State :=
      s.postContext d g.cring (recordSlots 3 cause g.asid 0 g.cword word 0 0 0 0 d 0 g.cword (s.now d))
    match cwordPiece a g.cword s with
    | .ok (p, s1) =>
      match p.reg, p.module? with
      | true, _ => (match storeReg a g.cword bs p s1 with | .ok (_, s2) => s2 | .error (.answer _, s2) => s2 | .error (_, s2) => fail s2 cPROTECTION)
      | _, some md =>
        (match (systemPort a g.cword md >>= fun i => storeFar a g.cword bs 6 i p) s1 with
         | .ok (_, s2) => s2
         | .error (.answer _, s2) => s2
         | .error (_, s2) => fail s2 cPROTECTION)
      | _, none => if s1.isAcc (p.pa / 64) then fail s1 cPROTECTION else s1.putWord d p.pa word
    | .error (.replay .., s1) => fail s1 cTRANSLATION
    | .error (_, s1) => fail s1 cPROTECTION

/-- Slots of a launch packet that must be zero are (R246). -/
def packetZeros (g : Grid) : Bool :=
  !bitAt (g.slot 5) 31 && bits (g.slot 6) 56 8 == 0 && !bitAt (g.slot 6) 36 && bits (g.slot 6) 16 13 == 0 && bits (g.slot 9) 32 32 == 0
    && bits (g.slot 11) 17 47 == 0 && (List.range 4).all fun i => g.slot (12 + i) == 0

/-- The owners of cohorts with the range of each (R252): the i-th of D dies owns from ⌊iC/D⌋ up to ⌊(i+1)C/D⌋. -/
def ownRanges (s : State) (g : Grid) : AMap (Nat × Nat) :=
  let ds := s.maskDies g.dmask
  let n := ds.length
  (List.range n).filterMap fun i =>
    let r := (i * g.cohorts / n, (i + 1) * g.cohorts / n)
    if r.1 < r.2 then some (ds.getD i 0, r) else none

/-- The largest cohort of a range. -/
def largest (g : Grid) (r : Nat × Nat) : Nat := min g.cohortSize (g.teams - r.1 * g.cohortSize)

/-- A cohort of the largest size fits on empty cores (R248, reason 5). -/
def fitsEmpty (s : State) (g : Grid) : Bool :=
  let n := min g.cohortSize g.teams
  let ds := s.maskDies g.dmask
  let clusters (d : Nat) := ((List.range 32).filter fun cl => s.clusterOk d cl).length
  if g.spread then decide (n ≤ 4 * g.perCore * (ds.map clusters).foldl (· + ·) 0)
  else decide (n ≤ 4 * g.perCore) && ds.any fun d => decide (0 < clusters d)

/-- The first check of R248 that a packet fails. -/
def refusal (s : State) (g : Grid) : Option Nat :=
  if !packetZeros g then some 1
  else if g.ngrp < g.nprod || (List.range 3).any (fun r => g.hasRole r && decide (5 < g.lenCode r)) || (g.cbar && g.spread) then some 2
  else if !canonical g.entry || !canonical g.trapentry || g.entry.toNat % 12 != 0 || g.trapentry.toNat % 12 != 0
      || g.gridrec.toNat % 64 != 0 || g.teamrec.toNat % 64 != 0 || g.pbase % 8 != 0 || g.cword.toNat % 8 != 0 || g.psize % 8 != 0 then some 3
  else if s.maskDies g.dmask = [] then some 4
  else if !s.fitsEmpty g then some 5
  else if g.latches.any fun l => !((s.maskDies g.dmask).any fun d => s.segFormed d l) then some 6
  else if 2 ^ 56 < g.pbase + g.psize * g.threads * g.teams then some 7
  else if (s.ownRanges g).any fun p => decide ((s.die p.1).savepoolsz.toNat < g.areaSize (largest g p.2)) then some 8
  else none

/-- The first id from a count on that no live grid holds, trying n of them (R254). -/
def freeId (s : State) (d : Nat) : Nat → Nat → Nat
  | 0, c => c
  | n + 1, c => if (s.grid? (d * 2 ^ 26 + c % 2 ^ 26)).isSome then freeId s d n (c + 1) else c

/-- Two grids came from one queue (R251, R288). -/
def sameQueue (a b : Grid) : Bool := a.parent == b.parent && (a.parent.isSome || a.desc == b.desc)

/-- A die takes a packet whose limits have been applied: it is refused, or becomes a grid with an id (R248, R254). Either way it is the last of its queue so far. -/
def submit (s : State) (d : Nat) (g : Grid) : State :=
  let c := freeId s d (s.grids.length + 1) (s.die d).taken
  let prev := (s.grids.find? fun p => sameQueue p.2 g && !p.2.followed).map (·.2.taken)
  let s1 := s.modDie d fun x => { x with taken := (c + 1) % 2 ^ 26 }
  let s2 : State := { s1 with grids := s1.grids.map fun p => (p.1, if sameQueue p.2 g then { p.2 with followed := true } else p.2) }
  match s2.refusal g with
  | some r => s2.writeCompletion d g 5 r
  | none => s2.freshen.setGrid (d * 2 ^ 26 + c % 2 ^ 26) { g with taken := s2.fresh, prev := prev, followed := false }

/-- A grid may start: every earlier packet of its queue has been dispatched, and with `after` the one before it has ended (R246, R251). -/
def mayStart (s : State) (g : Grid) : Bool :=
  !g.started && !g.aborted
    && s.grids.all fun p => !(sameQueue p.2 g && decide (p.2.taken < g.taken)) || (p.2.dispatched && !(g.after && g.prev == some p.2.taken))

/-- The start of a grid (R251, R252, R365). The code that the cores of its dies hold goes, so that a packet it fetches holds words that were visible before (R245). -/
def startGrid (s : State) (gid : Nat) (g : Grid) : State :=
  let s1 := s.setGrid gid { g with started := true, begun := s.time, ranges := (s.ownRanges g).map fun p => (p.1, [p.2]) }
  let ds := s.maskDies g.dmask
  let s2 := ds.foldl (fun s d => (s.bumpGen d).modDie d fun x => { x with gridStarted := true }) s1
  { s2 with cores := s2.cores.map fun p => (p.1, if ds.contains (p.1 / 128) then { p.2 with code := [] } else p.2) }

/-- Start what may start, a bounded number of rounds. -/
def startGrids (s : State) : State :=
  s.grids.foldl (fun s p =>
    match s.grid? p.1 with
    | some g => if s.mayStart g then s.startGrid p.1 g else s
    | none => s) s

end State

/-- COHORT_PLACE (R236, R249, R250): the waiting cohort of the die that is served first, if it has not been placed before and every one of its teams
fits, is placed, and its threads become ready together; a packet that waited for the dispatch of its last cohort starts (R251). -/
def execCohortPlace (die : DieId) (s : State) : Host.Outcome State Fault Refusal :=
  let d := die.toNat
  match (if s.boot = .running then s.chosen d else none) with
  | none => .next s
  | some w =>
    if w.saved then .next s
    else
      match s.planWaiter d w with
      | none => .next s
      | some (g, plan, area) =>
        let g' := { g with ranges := AMap.put g.ranges d (State.dropCohort w.cohort ((AMap.get? g.ranges d).getD [])) }
        let s1 := (s.setGrid w.grid g').occupy d w.grid w.cohort g' plan area
        let s2 := plan.foldl (fun s p =>
          s.putTeam w.grid g' p.1 p.2 { grid := w.grid, team := p.1, die := 0, core := 0 } (fun _ => {})
            fun tid => some (s.freshThread w.grid g' p.1 tid (p.2 / 128) (p.2 % 128) area.1)) s1
        .next (s2.acquireAll w.grid (plan.map (·.1))).startGrids

namespace State

/-! ### Aborting (R321) -/

/-- The replies, faults and records of a thread lapse. -/
def dropThread (s : State) (u : Nat) : State :=
  let s1 : State :=
    { s with cores := s.cores.map fun p => (p.1, { p.2 with faults := p.2.faults.filter fun f => f.th != u }),
             dies := s.dies.map fun p => (p.1, { p.2 with faults := p.2.faults.filter fun f => f.2 != u }),
             pending := s.pending.filter fun p => !(p.2.th == u && p.2.op.isNone) }
  s1.endThread u

/-- A thread stands at a boundary, parks or waits: an abort ends it there (R321). -/
def endsNow (t : Thread) : Bool := t.status != .ready || (t.slot == 0 && t.runCount == 0)

/-- Step 3 of R321 for one cluster: entries that no engine works for are freed, also those that a fault has stopped; granted passes stop at their block
boundary and are freed there. -/
def abortEntries (s : State) (gid ck : Nat) : State :=
  s.modCluster ck fun c =>
    { c with table := (c.table.filter fun e => e.grid != gid || e.working).map fun e =>
        if e.grid = gid then { e with stop := true, cancelled := true } else e }

/-- An access, an entry or an operation of a die waits on a replayable record. -/
def recordWaited (s : State) (d tag : Nat) : Bool :=
  s.threads.any (fun p => p.2.die == d && p.2.status == .parked (.replay tag))
    || s.clusters.any (fun p => p.1 / 32 == d && p.2.table.any fun e => e.status == .fault (some tag))
    || s.cores.any (fun p => p.1 / 128 == d && p.2.ops.any fun o => o.tag == some tag)

/-- The replayable records on which only a grid's own accesses waited lapse with it (R321). -/
def lapseRecords (s : State) (gid : Nat) : State :=
  { s with dies := s.dies.map fun p =>
      let rs := p.2.records.map fun r => (r.1, { r.2 with saved := r.2.saved.filter fun u => u / 2048 / 2 ^ 64 != gid })
      (p.1, { p.2 with records := rs.filter fun r => r.2.saved ≠ [] || s.recordWaited p.1 r.1 }) }

/-- ABORT of a grid (R321); a second one is ignored. -/
def abortGrid (s : State) (gid : Nat) : State :=
  match s.grid? gid with
  | none => s
  | some g =>
    if g.aborted then s
    else
      let saved := s.cohorts.filter fun p => p.2.grid == gid && p.2.status == .waiting
      let s1 := s.setGrid gid { g with aborted := true, started := true, ranges := [] }
      let s2 : State := { s1 with cohorts := s1.cohorts.filter fun p => !(p.2.grid == gid && p.2.status == .waiting),
                                  dies := s1.dies.map fun d => (d.1, { d.2 with faults := d.2.faults.filter fun f =>
                                    !(saved.any fun p => decide (f.2 / 2048 / 2 ^ 64 = gid) && decide (f.2 / 2048 % 2 ^ 64 / g.cohortSize = p.2.cohort)) }) }
      let s3 := (s2.threads.filter fun p => p.2.grid == gid && endsNow p.2).foldl (fun s p => s.dropThread p.1) s2
      let s4 := s3.clusters.foldl (fun s p => s.abortEntries gid p.1) s3
      (s4.cores.foldl (fun s p =>
        (p.2.ops.filter fun o => o.grid == gid).foldl (fun s o => endAsync s (p.1 / 128) (p.1 % 128) o 0) s) s4).lapseRecords gid

/-! ### The end of a grid (R237) -/

/-- Nothing of a grid is left to run: no undispatched cohort, every placed one ended, and no ticket outstanding (R237, R266, R321). -/
def gridDone (s : State) (gid : Nat) (g : Grid) : Bool :=
  g.dispatched && (s.cohorts.all fun p => p.2.grid != gid || p.2.status == .ended)
    && (s.clusters.all fun p => p.2.table.all fun e => e.grid != gid)
    && (s.cores.all fun p => p.2.ops.all fun o => o.grid != gid)
    && s.nacked.all fun p => match p.2.2 with | .redo _ _ _ _ th _ => th / 2048 / 2 ^ 64 != gid | _ => true

/-- The SYS-scope release of a grid's end on the dies of its mask: their cluster buffers are written back, and the window words that hold its writes;
the module time by which all those writes are visible (R173, R237, step 1). -/
def gridRelease (s : State) (gid : Nat) (g : Grid) : State × Nat :=
  (s.maskDies g.dmask).foldl (fun acc d =>
    let base := (acc.1.die d).base
    let r1 := (List.range 32).foldl (fun (a : State × Nat) cl =>
      let ck := clusterKey d cl
      let (s', v) := a.1.flushLines ck ((a.1.cluster ck).buf.map (·.1))
      (s', max a.2 (v - base))) acc
    (List.range 128).foldl (fun (a : State × Nat) c =>
      ((a.1.core (coreKey d c)).windows.filter fun w => w.asid == g.asid && !w.scratch).foldl (fun (a : State × Nat) w =>
        let (s', v) := a.1.flushGrid d c gid w
        (s', max a.2 (v - base))) a) r1) (s, g.vis)

end State

/-- GRID_END (R237, R321): the release of the grid, then, once every write is visible, the generation bumps and the completion word. A tile of the grid in the
ACC state keeps its identity, for its report (R139). -/
def execGridEnd (grid : Nat) (s : State) : Host.Outcome State Fault Refusal :=
  match s.grid? grid with
  | none => .next s
  | some g =>
    if !s.gridDone grid g then .next s
    else
      match g.release with
      | none =>
        let (s1, t) := s.gridRelease grid g
        .next (s1.setGrid grid { g with release := some t })
      | some t =>
        if s.time < t then .next s
        else
          let s1 := (s.maskDies g.dmask).foldl (fun s d => s.bumpGen d) s
          let s2 := s1.writeCompletion (grid / 2 ^ 26) g (if g.aborted then 7 else 3) 0
          let named := s2.dir.any fun l => (l.2.acc.map fun x => x.grid == grid).getD false
          let s3 : State := { s2 with grids := AMap.del s2.grids grid, cohorts := s2.cohorts.filter fun p => p.2.grid != grid,
                                      past := if named then AMap.put s2.past grid g else AMap.del s2.past grid }
          .next s3.startGrids

end Sys2Proof.Machine
end

