-- ==== Sys2Proof/Machine/Queues.lean ====
section
/-! DEFINITION. User queues and their slots (R293 to R296, R366), LAUNCH (R288), stealing (R253, R254), and requests for pre-emption (R255, R256,
R330, R367). -/
namespace Sys2Proof.Machine

/-- A slot of a queue's descriptor, as copied at the map (R293). -/
abbrev QSlot.slot (q : QSlot) (i : Nat) : Word := vget q.slots i
abbrev QSlot.lsize (q : QSlot) : Nat := bits (q.slot 1) 40 8
abbrev QSlot.pcap (q : QSlot) : Nat := bits (q.slot 1) 37 3
abbrev QSlot.rdidx (q : QSlot) : Word := q.slot 4

/-- Bytes that the dispatcher reads at a virtual address, as a SYS-scope read, with their stamp (R294); from another module through a port die (R362). -/
def queueRead (a : Agent) (va : Word) (n : Nat) : A (List (BitVec 8) × Nat) := do
  let (ps, ptes) ← translateSpan a va n .r
  let qs ← checkPieces a va (piecesOf ps ptes)
  if qs.any (·.reg) then failA (.prot va false)
  let xs ← qs.mapM fun p => do
    match p.module? with
    | some md => do
      let x ← loadFar a va { scope := 6 } md p
      return (x.2.bytes, x.2.stamp)
    | none => do
      let s ← get
      match s.accLine? p.pa p.len, s.badGranule? p.pa p.len with
      | some l, _ => failA (.acc l)
      | none, some b => failA (.loss va (some b))
      | none, none => do
        modA fun s => s.scrub p.pa p.len
        return s.homeRead a.die p.pa p.len
  modA fun s => { s with pending := s.pending.filter fun p => !(p.2.op == a.op && p.2.reply.isSome) }
  return (xs.flatMap (·.1), maxOf (xs.map (·.2)))

namespace State

/-- The agent that reads for a queue slot: its address space and level; its reads are told apart by a number that no operation bears. -/
def queueAgent (d i : Nat) (q : QSlot) : Agent :=
  { th := 0, grid := 0, team := 0, tid := 0, die := d, core := 0, asid := BitVec.ofNat 16 (bits (vget q.slots 1) 48 16),
    root := (vget q.slots 2).toNat, super := bitAt (vget q.slots 1) 36, unit := true, op := some (2 ^ 64 + 64 * d + i) }

/-- A queue slot of a die. -/
abbrev qslot (s : State) (d i : Nat) : QSlot := (AMap.get? (s.die d).qslots i).getD {}
abbrev setQslot (s : State) (d i : Nat) (q : QSlot) : State := s.modDie d fun x => { x with qslots := AMap.put x.qslots i q }

/-- The words of some bytes, eight each. -/
def wordsOf (bs : List (BitVec 8)) (n : Nat) : List Word := (List.range n).map fun i => w64 (ofBytes ((bs.drop (8 * i)).take 8))

/-- Packet slots with a limit on dies and priority (R295, R288). -/
def limitPacket (ws : List Word) (dlim : Word) (pcap : Nat) : Vector Word 16 :=
  Vector.ofFn fun (i : Fin 16) =>
    let w := ws.getD i.val 0
    if i.val = 7 then w &&& dlim
    else if i.val = 6 then w64 (w.toNat - bits w 31 3 * 2 ^ 31 + min (bits w 31 3) pcap * 2 ^ 31)
    else w

/-- A read for a queue slot: what it came to, none where it failed. One that waits for an answer, or for the end of an ACC line, is made again; an uncorrectable granule
is lasting (R341). The spec gives no other consequence of a failure (notes/assumptions/20.md). -/
def readQueue (s : State) (d i : Nat) (va : Word) (n : Nat) : State × Option (List (BitVec 8) × Nat) :=
  let again (s : State) : State := s.setQslot d i { s.qslot d i with knocked := true }
  match queueRead (queueAgent d i (s.qslot d i)) va n s with
  | .ok (x, s') => (s', some x)
  | .error (.answer _, s') => (again s', none)
  | .error (.acc _, s') => (again s', none)
  | .error (.loss _ (some (e, g)), s') => (s'.lasting e g, none)
  | .error (_, s') => (s', none)

/-- Take one packet of a queue (R294, R295): it is copied whole, and rdidx rises by a SYS-scope release; whether it could be read. -/
def takePacket (s : State) (d i : Nat) : State × Bool :=
  let q := s.qslot d i
  match s.readQueue d i (q.slot 0 + w64 (128 * (q.rdidx.toNat % 2 ^ q.lsize))) 128 with
  | (s1, none) => (s1, false)
  | (s1, some (bs, _)) =>
    let a := queueAgent d i q
    let s2 := (s1.setQslot d i { q with slots := vset q.slots 4 (q.rdidx + 1) }).putWord d (q.desc + 32) (q.rdidx + 1)
    (s2.submit d { packet := limitPacket (wordsOf bs 16) (q.slot 7) q.pcap, asid := a.asid, root := a.root, super := a.super,
                   cring := (q.slot 6).toNat, qring := (q.slot 5).toNat, desc := q.desc, queue := some (d, i) }, true)

/-- Take n packets in index order. -/
def takePackets (d i : Nat) : Nat → State → State
  | 0, s => s
  | n + 1, s =>
    match s.takePacket d i with
    | (s', true) => takePackets d i n s'
    | (s', false) => s'

/-- The dispatcher acts on a value of the knocker once its acquire has waited (R198, R294): it takes the pending packets, or the queue stops with a QUEUE record. -/
def actKnock (s : State) (d i : Nat) (k : Word) : State :=
  let q := s.qslot d i
  let s2 := s.bumpGen d
  let n := (k - q.rdidx).toNat
  if 2 ^ q.lsize < n then
    (s2.setQslot d i { q with stopped := true }).postContext d (q.slot 6).toNat
      (recordSlots 4 0 (BitVec.ofNat 16 (bits (q.slot 1) 48 16)) 0 k q.rdidx 0 0 0 0 d 0 (w64 i) (s2.now d))
  else (takePackets d i n s2).startGrids

/-- The dispatcher reads a mapped queue's knocker as an acquire at SYS scope (R294), or goes on with a read whose wait is over. -/
def readKnocker (s : State) (d i : Nat) : State :=
  let q := s.qslot d i
  if q.state ≠ .mapped ∨ q.stopped then s
  else
    match q.due with
    | some (k, t) => if s.now d < t then s else (s.setQslot d i { q with due := none }).actKnock d i k
    | none =>
      match (s.setQslot d i { q with knocked := false }).readQueue d i (q.slot 3) 8 with
      | (s1, none) => s1
      | (s1, some (bs, t)) =>
        let k := w64 (ofBytes bs)
        if t ≤ s1.now d then s1.actKnock d i k else s1.setQslot d i { s1.qslot d i with due := some (k, t) }

/-- The dispatchers go on with the knocks that their watches have seen, and with the reads whose wait is over (R294). -/
def serveKnocks (s : State) : State :=
  s.dies.foldl (fun s p => p.2.qslots.foldl (fun s q => if q.2.knocked || q.2.due.isSome then s.readKnocker p.1 q.1 else s) s) s

/-- The dispatcher's watch on the knocker of a mapped queue stands at its home (R294); where none can, the writes are seen as KNOCKER_WRITE events (R278, step 3). -/
def watchKnocker (s : State) (d i : Nat) : State :=
  match tryA (translate (queueAgent d i (s.qslot d i)) ((s.qslot d i).slot 3) .r) s with
  | some ((pa, _), s1) =>
    if watchable s1 pa 8 then s1.modDie (homeDie pa) fun x => { x with watches := x.watches ++ [{ pa := pa, th := 0, cond := 0, queue := some (d, i) }] } else s1
  | none => s

/-- The watch of a queue slot is dropped (R296). -/
def dropKnocker (s : State) (d i : Nat) : State :=
  { s with dies := s.dies.map fun p => (p.1, { p.2 with watches := p.2.watches.filter fun w => w.queue != some (d, i) }) }

/-- A physical range stands in populated memory. -/
def populated (s : State) (pa n : Nat) : Bool :=
  let ok (x : Nat) : Bool := (s.paFault x).isNone && match regionOf x with | .hbm .. => true | .tier .. => true | _ => false
  ok pa && ok (pa + n - 1)

/-- The map of a descriptor is refused (R293). -/
def refusesMap (s : State) (ws : List Word) : Bool :=
  let x (i : Nat) : Word := ws.getD i 0
  bits (x 1) 0 36 != 0 || (x 0).toNat % 128 != 0 || (x 2).toNat % 2 ^ 21 != 0 || (x 3).toNat % 8 != 0 || bits (x 1) 48 16 == 0
    || decide (16 < bits (x 1) 40 8) || !s.populated (x 2).toNat (2 ^ 21) || x 6 == 0 || (x 6).toNat % 64 != 0 || !s.populated (x 6).toNat 64

end State

/-- KNOCKER_WRITE (R294): the dispatcher sees a write to the knocker of a queue slot. -/
def execKnockerWrite (die : DieId) (q : BitVec 6) (s : State) : Host.Outcome State Fault Refusal := .next (s.readKnocker die.toNat q.toNat)

/-- QSLOT_MAP (R293, R366): a free or refused slot takes the descriptor, or refuses it; a watch stands on the knocker, which is read once. -/
def execQslotMap (die : DieId) (q : BitVec 6) (desc : Word) (s : State) : Host.Outcome State Fault Refusal :=
  let d := die.toNat
  let x := s.qslot d q.toNat
  if x.state ≠ .free ∧ x.state ≠ .refused then .next s
  else
    let pa := bits desc 6 46 * 64
    let ok := s.populated pa 64
    let ws := if ok then State.wordsOf (s.homeRead d pa 64).1 8 else []
    if !ok || s.anyBad pa 64 || s.refusesMap ws then .next (s.setQslot d q.toNat { state := .refused, reg := pa, desc := pa })
    else
      .next ((s.setQslot d q.toNat
        { state := .mapped, reg := pa, desc := pa, slots := Vector.ofFn fun (i : Fin 8) => ws.getD i.val 0 }).watchKnocker d q.toNat |>.readKnocker d q.toNat)

/-- QSLOT_UNMAP (R296, R366): no packet is taken from now on. -/
def execQslotUnmap (die : DieId) (q : BitVec 6) (s : State) : Host.Outcome State Fault Refusal :=
  let x := s.qslot die.toNat q.toNat
  if x.state = .mapped then .next (s.setQslot die.toNat q.toNat { x with state := .unmapping }) else .next s

/-- QSLOT_UNMAP_COMPLETE (R296): every packet taken from the slot has been dispatched, the watch is dropped, and the slot is free. The register keeps its desc field (R366). -/
def execQslotUnmapComplete (die : DieId) (q : BitVec 6) (s : State) : Host.Outcome State Fault Refusal :=
  let x := s.qslot die.toNat q.toNat
  if x.state = .unmapping ∧ (s.grids.all fun p => p.2.queue != some (die.toNat, q.toNat) || p.2.dispatched) then
    .next ((s.dropKnocker die.toNat q.toNat).setQslot die.toNat q.toNat { reg := x.reg })
  else .next s

/-! ### LAUNCH (R288) -/

/-- LAUNCH: a release at MOD scope, the packet's 128 bytes as loads, the issuing grid's limits; the packet goes to the die's dispatcher. -/
def execLaunch (d a : Spec) (s : State) : Host.Outcome State Fault Refusal :=
  runWord (.launch d a) (do
    let p ← readOp a
    release 5
    let x ← access 0 [] fun g => do
      let x ← loadSpace .glob p 128 64 {} g
      noteLoad g.th x.stamp x.seq
      return x
    let t ← cur
    let s ← get
    let g := s.gridOf t
    if !s.parkOver t .launchFull then park .launchFull
    set ((s.submit t.die
      { packet := State.limitPacket (State.wordsOf x.bytes 16) g.dmask g.prio, asid := g.asid, root := g.root, super := g.super, cring := g.cring,
        qring := g.qring, desc := g.desc, parent := some s.cur }).startGrids)
    writeOp none d 0) s

/-! ### Stealing (R253, R254) -/

/-- Cohorts left in ranges. -/
def rangeCount (rs : List (Nat × Nat)) : Nat := (rs.map fun r => r.2 - r.1).foldl (· + ·) 0

/-- The k highest-numbered cohorts of ranges in rising order, and the rest; a bounded number of intervals. -/
def splitTop (k : Nat) : List (Nat × Nat) → List (Nat × Nat) × List (Nat × Nat)
  | [] => ([], [])
  | r :: rs =>
    let above := rangeCount rs
    if k ≤ above then
      let (low, high) := splitTop k rs
      (r :: low, high)
    else if r.2 - r.1 ≤ k - above then ([], r :: rs)
    else ([(r.1, r.2 - (k - above))], (r.2 - (k - above), r.2) :: rs)

/-- Undispatched cohorts of a grid at a die. -/
abbrev Grid.left (g : Grid) (d : Nat) : List (Nat × Nat) := (AMap.get? g.ranges d).getD []

/-- One steal, as it comes to: half of the victim's undispatched cohorts become the thief's. -/
def Grid.steal (g : Grid) (thief victim : Nat) : Grid :=
  let (low, high) := splitTop (rangeCount (g.left victim) / 2) (g.left victim)
  { g with ranges := AMap.put (AMap.put g.ranges victim low) thief (g.left thief ++ high) }

namespace State

/-- The victim of R253: the die of the mask with the most undispatched cohorts of the grid; ties go to the lower id. -/
def victimOf (s : State) (g : Grid) : Option Nat :=
  (s.maskDies g.dmask).foldl (fun b d =>
    match b with
    | none => some d
    | some x => if rangeCount (g.left x) < rangeCount (g.left d) then some d else some x) none

/-- A die is idle for a grid (R253): it has no undispatched cohort of it, and could place the one that it would take first. -/
def idleFor (s : State) (d gid : Nat) (g : Grid) (victim : Nat) : Bool :=
  (s.maskDies g.dmask).contains d && rangeCount (g.left d) == 0
    && match (g.steal d victim).left d with
       | [] => false
       | r :: _ => (s.planWaiter d ⟨gid, r.1, 0, false, 0, 0⟩).isSome

/-- The STEAL of a thief (R254, step 1): the grid id, and slot 1 zero. -/
def stealRequest (thief victim gid txn : Nat) : Packet :=
  let m : Msg := { follow := 1, scope := 0, dst := BitVec.ofNat 6 victim, src := BitVec.ofNat 6 thief, site := 0, epoch := 0, txn := BitVec.ofNat 16 txn,
                   payload := w64 gid, slots := [0] }
  ⟨5, 6, m⟩

end State

/-- IDLE_STEAL (R253, R254): an idle die asks the victim for cohorts; it asks once for a grid, until the answer has come. -/
def execIdleSteal (die : DieId) (grid : Nat) (s : State) : Host.Outcome State Fault Refusal :=
  let d := die.toNat
  match s.grid? grid with
  | none => .next s
  | some g =>
    match (if g.started && !g.aborted then s.victimOf g else none) with
    | none => .next s
    | some v =>
      if v ≠ d ∧ 2 ≤ rangeCount (g.left v) ∧ s.idleFor d grid g v = true ∧ !(s.die d).asking.contains grid then
        .next ((s.modDie d fun x => { x with asking := x.asking ++ [grid] }).freshen.send [State.stealRequest d v grid (s.fresh % 65536)])
      else .next s

/-! ### Requests for pre-emption -/

namespace State

/-- The pre-emption of a cohort is requested (R331, step 1). -/
def requestStop (s : State) (key : Nat) : State :=
  match s.cohort? key with
  | some x => if x.status = .resident then s.setCohort key { x with status := .stopping s.time } else s
  | none => s

/-- A request of R367 for some cohorts: the register is busy until each of them is saved or has ended; none makes it complete at once. -/
def preemptSet (s : State) (d : Nat) (keys : List Nat) : State :=
  if (s.die d).preemptBusy ≠ [] then s.modDie d fun x => { x with log := x.log ++ [.ignoredPreempt] }
  else if keys = [] then s.modDie d fun x => { x with preemptDone := x.preemptDone + 1 }
  else (keys.foldl (fun s k => s.requestStop k) s).modDie d fun x => { x with preemptBusy := keys }

/-- The cohorts on cores that satisfy a test. -/
def cohortsOn (s : State) (p : Cohort → Nat → Bool) : List Nat :=
  (s.cohorts.filter fun x => x.2.status != .ended && x.2.status != .waiting && x.2.cores.any fun c => p x.2 c.2).map (·.1)

/-- The cohort's grid has an ASID. -/
abbrev hasAsid (s : State) (x : Cohort) (a : BitVec 16) : Bool := ((s.grid? x.grid).map fun g => g.asid == a).getD false

end State

/-- PREEMPT_CORE (R367). -/
def execPreemptCore (die : DieId) (core : CoreId) (s : State) : Host.Outcome State Fault Refusal :=
  .next (s.preemptSet die.toNat (s.cohortsOn fun _ k => k == coreKey die.toNat core.toNat))

/-- PREEMPT_DIE (R367). -/
def execPreemptDie (die : DieId) (s : State) : Host.Outcome State Fault Refusal :=
  .next (s.preemptSet die.toNat (s.cohortsOn fun _ k => k / 128 == die.toNat))

/-- PREEMPT_ASID_DIE (R367). -/
def execPreemptAsidDie (die : DieId) (asid : BitVec 16) (s : State) : Host.Outcome State Fault Refusal :=
  .next (s.preemptSet die.toNat (s.cohortsOn fun x k => s.hasAsid x asid && k / 128 == die.toNat))

/-- PREEMPT_ASID_MODULE (R367). -/
def execPreemptAsidModule (die : DieId) (asid : BitVec 16) (s : State) : Host.Outcome State Fault Refusal :=
  .next (s.preemptSet die.toNat (s.cohortsOn fun x _ => s.hasAsid x asid))

end Sys2Proof.Machine
end

