-- ==== Sys2Proof/Machine/Threads.lean ====
section
/-! DEFINITION. What happens to threads and caches between their slots: the forced end of a run (R32), long results (R34), gangs (R240), parks (R11),
thread-fault records (R319), expiring leases (R191), write-backs (R179), stash fills (R171), held reports (R325), replay commands (R163, R164). -/
namespace Sys2Proof.Machine

/-! ### Runs, parks, gangs -/

/-- RUN_FORCED_END (R32): a run whose counter stands at 24, or whose next chain would take it past 24, ends before that chain. -/
def execRunForcedEnd (th : Nat) (s : State) : Host.Outcome State Fault Refusal :=
  match s.th? th with
  | none => .next s
  | some t =>
    if t.status ≠ .ready ∨ t.runCount = 0 then .next s
    else if 24 ≤ t.runCount then .next (forceEnd s th)
    else
      match fetchPacket t.pc { s with cur := th, word := 0, left := false } with
      | .error _ => .next s
      | .ok (packet, _) =>
        match chainAt (Prc.wc t.prc) (wordIdx t.pc) packet with
        | .error _ => .next s
        | .ok c => .next (if 24 < t.runCount + c.count then forceEnd s th else s)

/-- LONG_RESULT_RETURN (R34). -/
def execLongResultReturn (th : Nat) (s : State) : Host.Outcome State Fault Refusal := .next (checkLongs s th)

/-- PARK_RESUME (R11): an absent stash line takes its fill first. -/
def execParkResume (th : Nat) (s : State) : Host.Outcome State Fault Refusal :=
  match s.th? th with
  | none => .next s
  | some t =>
    match t.status with
    | .parked (.stashLine l) => .next (resume (finishFill s t.die t.core l) th)
    | .parked _ => .next (resume s th)
    | _ => .next s

namespace State

/-- The cohort of a thread has been asked to stop (R331). -/
def threadStopping (s : State) (t : Thread) : Bool :=
  match (s.cohort? (cohortKey t.grid (s.cohortOf t.grid t.team))).map (·.status) with
  | some (CohortStatus.stopping _) => true
  | _ => false

/-- The thread owes an access that is under way beyond its die: it has not stopped. -/
def owes (s : State) (u : Nat) : Bool := s.pending.any fun p => p.2.th == u && p.2.op.isNone

/-- A thread at a boundary of a cohort that stops (R331, step 2), with nothing under way beyond its die, takes no slot. -/
def heldBack (s : State) (u : Nat) (t : Thread) : Bool := t.runCount == 0 && !s.owes u && s.threadStopping t

/-- The wait of an acquire holds back the thread's next slot (R198). -/
def acquiring (s : State) (t : Thread) : Bool := match t.acq with | some (x, _) => decide (s.now t.die < x) | none => false

/-- A thread of an aborted grid ends at its boundary, or where it stands (R321). -/
def abortDue (s : State) (t : Thread) : Bool := (s.gridOf t).aborted && endsNow t

/-- A ready thread that can issue its next slot now. -/
def canIssue (s : State) (u : Nat) (t : Thread) : Bool :=
  t.status == .ready && !s.acquiring t && !s.heldBack u t && !s.abortDue t

/-- A thread is in a gang of its core. -/
def inGang (s : State) (t : Thread) (u : Nat) : Bool := (s.core (coreKey t.die t.core)).gangs.any fun p => p.2.members.contains u

/-- The ready threads of a core that the picker may gather (R239, R240): those that are in no gang and that nothing holds back. -/
def gatherable (s : State) (die core : Nat) : List (Nat × Thread) :=
  s.threads.filter fun p => p.2.die == die && p.2.core == core && s.canIssue p.1 p.2 && !s.inGang p.2 p.1

/-- The team slot of a thread on its core. -/
def teamSlot (s : State) (t : Thread) : Nat := ((s.team? (teamKey t.grid t.team)).map (·.slot)).getD 0

/-- t is older than u (R239, R240): it became ready earlier; of equal ages the lower team slot, then group, then lane, is the older. -/
def older (s : State) (t u : Thread) : Bool :=
  decide (t.age < u.age) || (t.age == u.age &&
    (decide (s.teamSlot t < s.teamSlot u) || (s.teamSlot t == s.teamSlot u && decide (t.tid < u.tid))))

/-- Insert by age, the oldest first. -/
def byAge (s : State) (p : Nat × Thread) (xs : List (Nat × Thread)) : List (Nat × Thread) :=
  let before := xs.takeWhile fun q => !s.older p.2 q.2
  before ++ p :: xs.drop before.length

end State

/-- FormGang of R240: the oldest ready thread, with up to 31 others of its team at the same pc and run counter. -/
def formGang (xs : List (Nat × Thread)) : List Nat :=
  match xs with
  | [] => []
  | p :: rest =>
    if p.2.isCond then [p.1]
    else
      let mates := rest.filter fun q =>
        q.2.grid == p.2.grid && q.2.team == p.2.team && !q.2.isCond && q.2.pc == p.2.pc && q.2.runCount == p.2.runCount
      p.1 :: (mates.take 31).map (·.1)

/-- A gang is formed where one of the sixteen entries of a core is free and a thread is ready (R240). -/
def State.gather (s : State) (die core : Nat) : State :=
  let k := coreKey die core
  let g := formGang ((s.gatherable die core).foldl (fun xs p => s.byAge p xs) [])
  match (List.range 16).find? fun i => (AMap.get? (s.core k).gangs i).isNone with
  | some i => if g = [] then s else s.modCore k fun c => { c with gangs := AMap.put c.gangs i { members := g } }
  | none => s

/-- The picker gathers threads until no entry is free or no thread is ready (R240). -/
def State.gatherAll (s : State) (die core : Nat) : State := (List.range 16).foldl (fun s _ => s.gather die core) s

/-- FORM_GANG (R240). -/
def execFormGang (die : DieId) (core : CoreId) (s : State) : Host.Outcome State Fault Refusal := .next (s.gather die.toNat core.toNat)

/-! ### Thread-fault records (R319) -/

/-- The record of a thread's system cause goes to the context fault ring under a new tag. -/
def postFault (s : State) (u : Nat) (t : Thread) : State :=
  let tag := (s.die t.die).freeTag
  let g := s.gridOf t
  let s1 := s.modDie t.die fun x => { x with nextTag := (tag + 1) % 2 ^ 32, faults := AMap.put x.faults tag u }
  let s2 := s1.setTh u { t with status := .awaiting (some tag) }
  s2.postContext t.die g.cring
    (State.recordSlots 2 t.trapcause.toNat g.asid tag t.trapaddr t.trapinfo t.trappc ((if t.upgraded then 4 else 0) + (if t.nested then 2 else 0))
      t.tid t.core t.die (w64 t.team) g.cword (s.now t.die))

/-- THREAD_FAULT_RECORD (R319): once the waits begun by retired slots of the run are over, the record is posted. -/
def execThreadFaultRecord (th : Nat) (s : State) : Host.Outcome State Fault Refusal :=
  match s.th? th with
  | none => .next s
  | some t =>
    if t.status ≠ .awaiting none then .next s
    else
      let s1 := (t.waits.filter (s.waitOver t)).foldl (fun s w => s.endWait th w) s
      match s1.th? th with
      | none => .next s
      | some t1 =>
        let t2 := { t1 with waits := t.waits.filter fun w => !s.waitOver t w }
        .next (if t2.waits = [] then postFault s1 th t2 else s1.setTh th t2)

/-! ### Caches -/

/-- LEASE_EXPIRY (R191): expired records of the lines that a die homes go, and with them expired copies of its cores; an expired read-only line is absent
again. -/
def execLeaseExpiry (die : DieId) (s : State) : Host.Outcome State Fault Refusal :=
  let d := die.toNat
  let now := s.now d
  let late (e : Option Nat) : Bool := match e with | some x => decide (x ≤ now) | none => false
  let s1 := (s.dir.filter fun p => homeDie (64 * p.1) == d).foldl (fun s p =>
    s.setDir p.1 { p.2 with leases := p.2.leases.filter fun r => decide (now < r.expiry) }) s
  .next { s1 with cores := s1.cores.map fun p =>
    if p.1 / 128 = d then
      (p.1, { p.2 with l1 := p.2.l1.filter fun c => !late c.2.expiry,
                       lines := p.2.lines.map fun l => (l.1, if late l.2.expiry then { l.2 with present := false, expiry := none } else l.2) })
    else p }

/-- CLUSTER_BUFFER_WRITEBACK (R179). -/
def execClusterBufferWriteback (die : DieId) (cl : ClusterId) (line : Nat) (s : State) : Host.Outcome State Fault Refusal :=
  .next (s.flushLine (clusterKey die.toNat cl.toNat) line).1

/-- STASH_FILL_COMPLETE (R171). -/
def execStashFillComplete (die : DieId) (core : CoreId) (line : Nat) (s : State) : Host.Outcome State Fault Refusal :=
  .next (finishFill s die.toNat core.toNat line)

/-- FAULT_REPORT_REOFFER (R325): each held report is offered again, in the order in which it was held. -/
def execFaultReportReoffer (die : DieId) (s : State) : Host.Outcome State Fault Refusal :=
  let held := (s.die die.toNat).heldReports
  .next (held.foldl (fun s r =>
    if s.ringRoom r.1 then s.postAt die.toNat r.1 (fun i => r.1 + 64 + 64 * i) r.2.toList
    else s.modDie die.toNat fun x => { x with heldReports := x.heldReports ++ [r] })
    (s.modDie die.toNat fun x => { x with heldReports := [] }))

/-! ### Replay commands (R163, R164, R228, R146) -/

namespace State

/-- The threads of a die that wait on a replayable record. -/
def replayWaiters (s : State) (d tag : Nat) : List (Nat × Thread) :=
  s.threads.filter fun p => p.2.die == d && p.2.status == .parked (.replay tag)

/-- The record is answered: it goes, unless saved threads still wait on it (R339). -/
def closeRecord (s : State) (d tag : Nat) : State :=
  s.modDie d fun x =>
    match AMap.get? x.records tag with
    | some r => if r.saved = [] then { x with records := AMap.del x.records tag } else x
    | none => x

/-- A thread's fault-buffer entries are freed. -/
def freeFaults (s : State) (u : Nat) : State :=
  { s with cores := s.cores.map fun p => (p.1, { p.2 with faults := p.2.faults.filter fun f => f.th != u }) }

/-- Matrix entries and operations of a die that wait on a record. -/
def stoppedEntries (s : State) (d tag : Nat) : List (Nat × Entry) :=
  (List.range 32).flatMap fun cl =>
    ((s.cluster (clusterKey d cl)).table.filter fun e => e.status == .fault (some tag)).map fun e => (cl, e)
def stoppedOps (s : State) (d tag : Nat) : List (Nat × AsyncOp) :=
  (List.range 128).flatMap fun c => ((s.core (coreKey d c)).ops.filter fun o => o.tag == some tag).map fun o => (c, o)

/-- The log of a replay command that names no record. -/
abbrev logReplay (s : State) (d tag : Nat) : State := s.modDie d fun x => { x with log := x.log ++ [.ignoredReplay tag] }

/-- TRANSLATION for a parked thread (R163, step 6): its chain traps at the word whose access faulted, that of an RFT.skip's fetch at the packet (R268). The entry
keeps what a store, atomic or reduction has captured, for a RETRY (R320). -/
def failThread (s : State) (u : Nat) (t : Thread) (f : FaultEntry) (cause : Nat := cTRANSLATION) : State :=
  let pc := if t.skip.isSome then t.trappc else t.pc
  s.setTh u { t.takeTrap (s.gridOf t) s.time cause pc f.va (w64 (f.access + f.word * 2 ^ 24)) with
    skip := t.skip, captured := if f.data = [] ∨ cause ≠ cTRANSLATION then none else some (f.word, t.sources f.word) }

/-- A thread that waited on a record issues again; one whose fault-buffer entry has bad check bits takes DATALOSS (R340, R342), and the error is lasting (R341). -/
def retryThread (s : State) (u : Nat) (t : Thread) : State :=
  match (s.core (coreKey t.die t.core)).faults.find? fun f => f.th == u && f.bad with
  | some f => (s.failThread u t f cDATALOSS).lasting t.die f.tag
  | none => (s.freeFaults u).setTh u (t.wake s.time)

end State

/-- REPLAY_RETRY (R163, R146, R228): every access that waits on the tag translates again. -/
def execReplayRetry (die : DieId) (tag : BitVec 32) (s : State) : Host.Outcome State Fault Refusal :=
  let d := die.toNat
  let n := tag.toNat
  if (AMap.get? (s.die d).records n).isNone then .next (s.logReplay d n)
  else
    let s1 := (s.replayWaiters d n).foldl (fun s p => s.retryThread p.1 p.2) s
    let s2 := (s.stoppedEntries d n).foldl (fun s e => s.modEntry (clusterKey d e.1) e.2.key fun x => { x with status := .fault none }) s1
    let s3 := (s.stoppedOps d n).foldl (fun s o => s.modOp (coreKey d o.1) o.2.key fun x => { x with tag := none }) s2
    .next (s3.closeRecord d n)

/-- FAIL of an operation (R228): it stops with TRANSLATION; a status word on the page that failed is not written. -/
def failOp (s : State) (d core : Nat) (o : AsyncOp) : State :=
  let g := asyncAgent s d core o
  let x : AsyncAt := { pos := o.progress, oor := o.oor, flags := o.flags, vis := o.vis }
  if o.swaddr ≠ 0 ∧ (tryA (translate g o.swaddr .w) s).isSome then finishAsync s d core o x 14 (some (cTRANSLATION, o.va))
  else
    endAsync (s.report d o.grid o.team o.tid core cTRANSLATION o.va (w64 (o.seq.toNat + o.kind * 2 ^ 32)) o.ticket) d core o o.vis

/-- REPLAY_FAIL (R163, R146, R228). A failing thread's entry stays in the fault buffer until its thread command (R318). -/
def execReplayFail (die : DieId) (tag : BitVec 32) (s : State) : Host.Outcome State Fault Refusal :=
  let d := die.toNat
  let n := tag.toNat
  if (AMap.get? (s.die d).records n).isNone then .next (s.logReplay d n)
  else
    let s1 := (s.replayWaiters d n).foldl (fun s p =>
      match (s.core (coreKey d p.2.core)).faults.find? fun f => f.th == p.1 with
      | some f => s.failThread p.1 p.2 f
      | none => s) s
    let s2 := (s.stoppedEntries d n).foldl (fun s e => passError s d e.1 e.2 14 cTRANSLATION e.2.va) s1
    let s3 := (s.stoppedOps d n).foldl (fun s o => failOp s d o.1 o.2) s2
    .next (s3.closeRecord d n)

end Sys2Proof.Machine
end

