-- ==== Sys2Proof/Machine/SaveRestore.lean ====
section
/-! DEFINITION. Pre-emption (R330 to R334), the save image (R335 to R337, R385, R389, R390), restore (R338) and thread commands (R320, R339). What the
image has no field for stays in the cohort (notes/assumptions/14.md). -/
namespace Sys2Proof.Machine

/-! ### A thread at its stop (R331, R332) -/

/-- A word of an image, and whether its granule has bad check bits (R342). -/
abbrev ImageWord := Word × Bool

/-- Words with good check bits. -/
abbrev plain (ws : List Nat) : List ImageWord := ws.map fun w => (w64 w, false)

/-- A target with its ring position counted from the queue's head. -/
def Target.rebase (head : Nat) : Target → Target
  | .ring r => .ring ((r + 16 - head % 16) % 16)
  | g => g

/-- A thread has stopped (R331, step 2). -/
def State.hasStopped (s : State) (u : Nat) (t : Thread) : Bool :=
  !s.owes u && (t.status != .ready || t.runCount == 0) && (t.status != .longs || t.waits.any Wait.isLong)

/-- A run that is cut before an issue slot: its earlier results stay, and the queue's head and the loop records are as they were before that chain. -/
def Thread.cut (t : Thread) (slot : Nat) (pc : Word) (head : Nat) (loops : Vector LoopRec 3) : Thread :=
  { t with run := t.run.filter fun p => decide (p.slot < slot), pc := pc, head := head, base := head, loops := loops, slot := slot }

/-- The result of a DRAIN is taken from the run; its target is none where a later slot of the run writes the same one (R36). -/
def Thread.takeDrain (t : Thread) (g : Target) (slot : Nat) : Thread × Target :=
  ({ t with run := t.run.filter fun p => !(decide (p.tgt = g) && p.slot == slot) },
   if t.run.any fun p => decide (p.tgt = g) && decide (slot < p.slot) then .place else g)

/-- A WAITC or DRAIN is abandoned (R233, R279, R332): in the run's last slot its chain issues again, whether it does (the second part). A DRAIN in an earlier
slot issues again by itself, since the slots after it have retired: its target and its tickets (notes/assumptions/14.md). -/
def Thread.abandon (t : Thread) : Thread × Bool × List (Target × List (Nat × Nat × Nat)) :=
  let last := match t.waitc with
    | some w => some (w.slot, w.chain, w.head, w.loops)
    | none => t.waits.findSome? fun w =>
      match w with | .drain _ _ pc slot head ls => if slot + 1 = t.slot then some (slot, pc, head, ls) else none | _ => none
  let t' := { t with waitc := none, waits := t.waits.filter fun w => match w with | .drain .. => false | _ => true }
  let t'' := match last with | some (slot, pc, head, ls) => t'.cut slot pc head ls | none => t'
  let early := t.waits.filterMap fun w =>
    match w with | .drain ts g _ slot _ _ => if (last.map (·.1)) = some slot then none else some (g, slot, ts) | _ => none
  let r := early.foldl (fun (acc : Thread × List (Target × List (Nat × Nat × Nat))) x =>
    let (u, g) := acc.1.takeDrain x.1 x.2.1
    (u, acc.2 ++ [(g, x.2.2)])) (t'', [])
  (r.1, last.isSome, r.2)

/-- The wait that a record names: a collective first (R332), and no TLBI, WBL or WIPE, for which a record has no code. -/
def mainWait (ws : List Wait) : Option Wait :=
  if ws.contains .collective then some .collective
  else ws.find? fun w => match w with | .tlbi .. => false | .time _ => false | _ => true

/-- Slots 1 and 18 of a record (R332, R337): entry, wait, phase, tag and which. -/
def waitFields (t : Thread) (again : Bool) : Nat × Nat × Nat :=
  let entry := match t.status with | .awaiting _ => t.trapcause.toNat % 256 | _ => 0x3F
  match t.status with
  | .awaiting (some tag) => (entry, 7, tag * 2 ^ 16)
  | _ =>
    match mainWait t.waits with
    | some (.tbar n p) => (entry, 2, p.toNat * 2 ^ 48 + n)
    | some (.cbar n p) => (entry, 3, p.toNat * 2 ^ 48 + n)
    | some (.latch n p) => (entry, 4, p.toNat * 2 ^ 48 + n)
    | some (.mask k j _) => (entry, 5, k + j * 16)
    | some .collective => (entry, 6, 0)
    | _ => (entry, if again then 1 else 0, 0)

/-- A thread's record (R337), and what is kept beside it; the thread has been cut where it was abandoned. With `again` its run has ended before a chain that
issues again, and F has fallen at that boundary if a slot of the run had retired (R316). A slot with bad check bits is saved with them (R342). -/
def threadRecord (t : Thread) (len : Nat) (again : Bool) (drains : List (Target × List (Nat × Nat × Nat))) : List ImageWord × Kept :=
  let coll := t.waits.contains .collective
  let f := { t with rstq := if coll then none else t.rstq }.land
  let (entry, code, slot18) := waitFields t again
  let preds := f.preds.toNat / 2
  let loops := (List.range 3).flatMap fun i =>
    let r := vget f.loops i
    if r.order = 0 then [0, 0] else [r.start.toNat, r.last.toNat]
  let named (j : Nat) : Nat := if f.dead.getLsbD j then 0 else (vget f.n j).toNat
  (plain ([f.pc.toNat, entry * 2 ^ 56 + code * 2 ^ 52 + (t.first && !(again && t.slot != 0)).toNat * 2 ^ 51 + preds * 2 ^ 44, f.cd.toNat, f.prc.toNat]
      ++ (List.range 3).map (fun i => (vget f.lc i).toNat) ++ loops
      ++ [f.trapcause.toNat, f.trappc.toNat, f.trapaddr.toNat, f.trapinfo.toNat, f.dead.toNat, slot18, f.aseq.toNat])
    ++ (List.range 16).map (fun j => (vget f.q ((f.head + j) % 16), f.badQ.getLsbD ((f.head + j) % 16)))
    ++ (List.range len).map (fun j => (w64 (named j), f.badN.getLsbD j && !f.dead.getLsbD j)),
   { run := if coll then t.run.map fun p => { p with tgt := p.tgt.rebase t.head } else [],
     rstq := if coll then t.rstq else none,
     waits := match mainWait t.waits with | some w => t.waits.erase w | none => t.waits
     drains := drains.map fun d => (d.1.rebase t.head, d.2)
     order := match mainWait t.waits with | some (.mask _ _ o) => o | _ => 0
     nested := t.nested, skip := t.skip, rangeDone := t.rangeDone, collDone := t.collDone })

/-! ### Sections of the image -/

/-- A barrier's word (R335): phase, expect, count. -/
abbrev barWord (b : Barrier) : Nat := b.phase.toNat * 2 ^ 48 + b.expect * 2 ^ 16 + b.count

/-- Little-endian words of bytes, padded with zero bytes to a whole 64 (R385). -/
def byteWords (bs : List (BitVec 8)) : List Nat :=
  (List.range (8 * ((bs.length + 63) / 64))).map fun i => ofBytes ((bs.drop (8 * i)).take 8)

/-- The part of a group beside its threads (R335): masks, remap table, open collective. -/
def groupWords (g : Group) : List Nat :=
  (List.range 12).map (fun k => (g.mask k).toNat)
    ++ (List.range 8).map (fun i => ofBytes ((List.range 8).map fun j => (g.remap.getD (8 * i + j) 0).setWidth 8))
    ++ (match g.opens.head? with
        | some c => [(((encodeBody c.instr).map (·.1.toNat)).getD 0) * 2 ^ 58 + c.pc.toNat % 2 ^ 58, c.mask.toNat,
                     (c.arrived.map fun x => 2 ^ x.lane).foldl (· + ·) 0, 0]
        | none => [0, 0, 0, 0])

/-- A saved matrix entry (R389). -/
def entryWords (e : Entry) (rank : Nat) : List Nat :=
  let st := match e.status with | .fault _ => 4 | _ => 1
  (List.range 6).map (fun i => (vget e.desc i).toNat)
    ++ [rank * 2 ^ 32 + e.seq.toNat * 2 ^ 16 + st * 2 ^ 8 + e.keep.toNat * 16 + e.kind, 0]

/-- A saved operation (R335): descriptor, ticket, progress. -/
def opWords (o : AsyncOp) : List Nat := (List.range 6).map (fun i => (vget o.desc i).toNat) ++ [o.ticket.toNat, o.progress]

/-- The stash range of a window that is saved with it, and whether a byte mask follows (R177): a shadow bank, or a scratch window. -/
def savedRange (w : Window) : Option (Nat × Nat × Bool) :=
  if w.shutter then some (w.soff + w.bank, w.bank, true) else if w.scratch then some (w.soff, w.bank, false) else none

/-- A saved window (R177, R335): descriptor, team, and its saved bytes. -/
def windowWords (c : Core) (w : Window) : List ImageWord :=
  plain [w.d0.toNat, w.d1.toNat, w.d2.toNat, 0, w.team, 0, 0, 0] ++
  match savedRange w with
  | none => []
  | some (off, n, mask) =>
    let words := byteWords (readCells c.stash off n)
    (List.range words.length).map (fun i => (w64 (words.getD i 0), c.bad.contains (off / 8 + i))) ++
    (if mask then
      plain (byteWords ((List.range (n / 32)).flatMap fun i => toBytes 4 ((AMap.get? c.lines (off / 32 + i)).getD {}).shadow.toNat))
     else [])

/-- A latch part (R390): header, and the word of each core. -/
def latchWords (s : State) (l : Nat) (cores : List Nat) : List Nat :=
  let phase := match cores with | k :: _ => (s.latchPhase (k / 128) l).toNat | [] => 0
  [cores.length * 2 ^ 20 + l * 2 ^ 16 + phase, 0, 0, 0, 0, 0, 0, 0] ++
  (List.range (8 * ((cores.length + 7) / 8))).map fun i =>
    match cores[i]? with
    | some k =>
      let x := s.latchCore k l
      (k / 128) * 2 ^ 56 + (k % 128) * 2 ^ 49 + x.ncount * 2 ^ 37 + x.nexpect * 2 ^ 25 + x.raised.toNat * 2 ^ 24 + x.count * 2 ^ 12 + x.expect
    | none => 0

/-! ### Saving a cohort -/

/-- What is gathered of a cohort while its image is laid out. -/
structure Saving where
  words : List ImageWord := []
  recs : AMap Nat := []
  kept : AMap Kept := []
  groups : AMap Group := []
  entries : List Entry := []

namespace State

/-- One thread of the cohort: its record follows; an ended thread's is all zero. -/
def saveThread (s : State) (gid : Nat) (g : Grid) (base team tid : Nat) (x : Saving) : Saving :=
  let u := thKey gid team tid
  let len := g.len tid
  match s.th? u with
  | none => { x with words := x.words ++ plain (List.replicate (36 + len) 0) }
  | some t =>
    let (t', again, drains) := t.abandon
    let parked := match t'.status with | .parked _ => true | _ => false
    let (ws, k) := threadRecord t' len (again || parked) drains
    { x with words := x.words ++ ws, recs := AMap.put x.recs u (base + 8 * x.words.length), kept := AMap.put x.kept u k }

/-- The group as it is kept: arrivals with their ring positions counted from each queue's head. -/
def keptGroup (s : State) (gid team i : Nat) : Group :=
  let g := s.group (grpKey gid team i)
  { g with opens := g.opens.map fun c =>
      { c with arrived := c.arrived.map fun a =>
          match s.th? (thKey gid team (64 * i + a.lane)) with
          | some t => { a with tgt := a.tgt.map (Target.rebase t.abandon.1.head) }
          | none => a } }

/-- Words padded with zeros to a whole 64 bytes. -/
def padWords (ws : List ImageWord) : List ImageWord := ws ++ plain (List.replicate ((8 - ws.length % 8) % 8) 0)

/-- One team of the cohort: header, groups, conductor, matrix entries (R335). -/
def saveTeam (s : State) (gid : Nat) (g : Grid) (base team : Nat) (x : Saving) : Saving :=
  match s.team? (teamKey gid team) with
  | none => x
  | some t =>
    let es := (s.cluster (clusterKey t.die (t.core / 4))).table.filter fun e => e.grid == gid && e.team == team
    let head := [team, t.seq.toNat] ++ (List.range 16).map (fun b => barWord (t.bars.getD b {}))
      ++ [es.length, t.die * 256 + t.core] ++ List.replicate 12 0
    let x1 := { x with words := x.words ++ plain head }
    let x2 := (List.range g.ngrp).foldl (fun (x : Saving) i =>
      let k := s.keptGroup gid team i
      let x' := { x with words := x.words ++ plain (groupWords k), groups := AMap.put x.groups (grpKey gid team i) k }
      (List.range 64).foldl (fun x l => s.saveThread gid g base team (64 * i + l) x) x') x1
    let x3 := if g.hasCond then s.saveThread gid g base team 1024 x2 else x2
    let x4 := { x3 with words := padWords x3.words }
    { x4 with words := x4.words ++ ((List.range es.length).flatMap fun i =>
                match es[i]? with | some e => plain (entryWords e i) | none => []),
              entries := x4.entries ++ es }

/-- A cohort's live teams with their cores, its operations and its windows, each with its core. -/
def liveTeams (s : State) (x : Cohort) : List (Nat × Nat) := x.cores.filter fun p => (s.team? (teamKey x.grid p.1)).isSome
def cohortOps (s : State) (gid : Nat) (ts : List (Nat × Nat)) : List (Nat × AsyncOp) :=
  (keySet (ts.map (·.2))).flatMap fun k =>
    ((s.core k).ops.filter fun o => o.grid == gid && ts.any fun p => p.1 == o.team).map fun o => (k, o)
def cohortWindows (s : State) (gid : Nat) (ts : List (Nat × Nat)) : List (Nat × Window) :=
  (keySet (ts.map (·.2))).flatMap fun k =>
    ((s.core k).windows.filter fun w => w.grid == gid && ts.any fun p => p.1 == w.team).map fun w => (k, w)

/-- The image of a cohort that has stopped (R335), for an address. -/
def layout (s : State) (g : Grid) (x : Cohort) (base : Nat) : Saving :=
  let ts := s.liveTeams x
  let cores := keySet (ts.map (·.2))
  let y0 : Saving := { words := plain (List.replicate 8 0) }
  let y1 := (keySet (ts.map (·.1))).foldl (fun y t => s.saveTeam x.grid g base t y) y0
  let bars : List Nat := if g.cbar then
      match cores with
      | k :: _ => (List.range 8).map fun b => barWord ((s.cluster (k / 4)).bars.getD b {})
      | [] => List.replicate 8 0
    else List.replicate 8 0
  let words := y1.words ++ ((s.cohortOps x.grid ts).flatMap fun o => plain (opWords o.2))
    ++ ((s.cohortWindows x.grid ts).flatMap fun w => windowWords (s.core w.1) w.2)
    ++ plain bars ++ (g.latches.flatMap fun l => plain (latchWords s l cores))
  let header := plain [0x4C56585341564531, 8 * words.length, x.cohort, g.cword.toNat, ts.length, s.now x.owner, 0, 0]
  { y1 with words := header ++ words.drop 8 }

/-- An image goes to memory; a granule with bad check bits keeps them (R342). -/
def putImage (s : State) (d base : Nat) (ws : List ImageWord) : State :=
  (List.range ws.length).foldl (fun s i =>
    let w := ws.getD i (0, false)
    let s1 := s.putWord d (base + 8 * i) w.1
    if w.2 then { s1 with bad := (base / 8 + i) :: s1.bad } else s1) s

/-- A cohort leaves its cores (R331, step 7): threads, groups, teams, entries, operations and faults go, and the windows of its teams end. -/
def vacate (s : State) (gid : Nat) (ts : List (Nat × Nat)) (g : Grid) : State :=
  let mine (grid team : Nat) : Bool := grid == gid && ts.any fun p => p.1 == team
  let cores := keySet (ts.map (·.2))
  let gone (u : Nat) : Bool := mine (u / 2048 / 2 ^ 64) (u / 2048 % 2 ^ 64)
  let s0 := (s.cohortOps gid ts).foldl (fun s o => freeLines s o.1 o.2) s
  let s1 := (s0.cohortWindows gid ts).foldl (fun s w => (s.unmapWindow (w.1 / 128) (w.1 % 128) w.2).1) s
  let s2 : State :=
    { s1 with
      threads := s1.threads.filter fun p => !mine p.2.grid p.2.team
      groups := s1.groups.filter fun p => !gone (p.1 / 16 * 2048)
      teams := s1.teams.filter fun p => !mine p.2.grid p.2.team
      clusters := s1.clusters.map fun p => (p.1,
        { p.2 with table := p.2.table.filter fun e => !mine e.grid e.team,
                   owner := if g.cbar && (cores.map (· / 4)).contains p.1 then none else p.2.owner })
      cores := s1.cores.map fun p => (p.1,
        { p.2 with ops := p.2.ops.filter fun o => !mine o.grid o.team, faults := p.2.faults.filter fun f => !gone f.th,
                   gangs := (p.2.gangs.map fun q => (q.1, q.2.without gone)).filter fun q => q.2.members ≠ [] })
      dies := s1.dies.map fun p => (p.1, { p.2 with watches := p.2.watches.filter fun w => w.remote || !gone w.th }) }
  g.latches.foldl (fun s l => cores.foldl (fun s k => s.setLatch k l { excuse := true }) s) s2

/-- The threads of a cohort. -/
def cohortThreads (s : State) (gid : Nat) (ts : List (Nat × Nat)) : List (Nat × Thread) :=
  s.threads.filter fun p => p.2.grid == gid && ts.any fun q => q.1 == p.2.team

/-- A saved thread stays a waiter of the replayable record on which it was parked (R339). -/
def noteSaved (s : State) (u : Nat) (t : Thread) : State :=
  match t.status with
  | .parked (.replay tag) =>
    s.modDie t.die fun x =>
      match AMap.get? x.records tag with
      | some r => { x with records := AMap.put x.records tag { r with saved := u :: r.saved } }
      | none => x
  | _ => s

/-- A release of a latch number is decided on some die of the cohort's cores, and lands before the latch is frozen (R287, R334). -/
def latchLanding (s : State) (g : Grid) (ts : List (Nat × Nat)) : Bool :=
  g.latches.any fun l => ts.any fun p => s.segFormed (p.2 / 128) l && s.latchReady (s.segDies (p.2 / 128) l) l

/-- An access of another cohort to a window of this one, issued before its end, is still to be performed (R176). -/
def othersWait (s : State) (gid : Nat) (ts : List (Nat × Nat)) : Bool :=
  let mine (g t : Nat) : Bool := g == gid && ts.any fun q => q.1 == t
  (s.cohortWindows gid ts).any fun x =>
    (s.threads.any fun p =>
      !mine p.2.grid p.2.team && coreKey p.2.die p.2.core == x.1 && (s.gridOf p.2).asid == x.2.asid
        && p.2.lineWait.any fun l => decide (x.2.soff ≤ 32 * l) && decide (32 * l < x.2.soff + x.2.bank))
      || (s.core x.1).ops.any fun o =>
        !mine o.grid o.team && ((s.grid? o.grid).map (·.asid)) == some x.2.asid
          && o.footprints.any fun f => f.stash && decide (x.2.soff < f.hi) && decide (f.lo < x.2.soff + x.2.bank)

/-- Every thread has stopped, no pass of the cohort is granted, no ACCINIT has begun at its homes, each operation stands at a progress point (R229), no latch release
is in flight, and no other cohort's access waits in a window (R148, R176, R287, R331). -/
def readyToSave (s : State) (gid : Nat) (g : Grid) (ts : List (Nat × Nat)) : Bool :=
  (s.cohortThreads gid ts).all (fun p => s.hasStopped p.1 p.2) && !s.latchLanding g ts && !s.othersWait gid ts && ((s.cohortOps gid ts).all fun o => o.2.suspended)
    && (s.clusters.all fun c => c.2.table.all fun e =>
      !(e.grid == gid && ts.any fun p => p.1 == e.team) || e.idle || (e.kind == 15 && e.doneAt.isNone) || (match e.status with | .fault _ => true | _ => false))
    && (s.nacked.all fun p => match p.2.2 with | .redo _ _ _ _ th _ => !(ts.any fun q => q.1 == th / 2048 % 2 ^ 64 && th / 2048 / 2 ^ 64 == gid) | _ => true)

/-- The address of a cohort's image: the savebase of its first thread, which a supervisor thread may have set (R335), where memory stands there; else the
area of its placement. -/
def imageBase (s : State) (x : Cohort) (ths : List (Nat × Thread)) (n : Nat) : Nat :=
  let area := (x.area.map (·.1)).getD 0
  match ths with
  | p :: _ =>
    let b := p.2.savebase.toNat
    if b % 64 = 0 && s.populated b n then b else area
  | [] => area

end State

/-- COHORT_SAVED (R331 to R337). Where a thread still runs, a pass is granted, a release waits or a lease holds the image back, the event is not due, and
only the releases have been begun. -/
def execCohortSaved (grid cohort : Nat) (s : State) : Host.Outcome State Fault Refusal :=
  match s.cohort? (cohortKey grid cohort), s.grid? grid with
  | some x, some g =>
    match x.status with
    | .stopping _ =>
      let ts := s.liveTeams x
      let s1 := (s.cohortThreads grid ts).foldl (fun s p => checkWaits (checkLongs s p.1) p.1) s
      if !s1.readyToSave grid g ts then .next s1
      else
        -- step 5: the MOD-scope release of every thread
        let s2 := (s1.cohortThreads grid ts).foldl (fun s p => s.releaseWrites p.1) s1
        let ths := s2.cohortThreads grid ts
        if ths.any fun p => decide (s2.now p.2.die < s2.releaseTime p.1) then .next s2
        else
          -- a system cause whose waits are over has its record posted before the save
          let s3 := ths.foldl (fun s p =>
            match s.th? p.1 with
            | some t => if t.status = .awaiting none ∧ t.waits = [] then postFault s p.1 t else s
            | none => s) s2
          let base := s3.imageBase x ths (g.areaSize (g.teamsOf cohort).length)
          let y := s3.layout g x base
          let lines := (List.range (y.words.length / 8 + 1)).map (base / 64 + ·)
          if lines.any fun l => s3.liveLeases l ≠ [] then .next s3
          else
            let ops := (s3.cohortOps grid ts).map (·.2)
            let wins := (s3.cohortWindows grid ts).length
            let s4 := (s3.cohortThreads grid ts).foldl (fun s p => s.noteSaved p.1 p.2) s3
            let s5 := (s4.vacate grid ts g).putImage x.owner base y.words
            .next ((s5.setCohort (cohortKey grid cohort)
              { x with status := .waiting, since := s.time, cores := ts, image := base, recs := y.recs, kept := y.kept, groups := y.groups,
                       entries := y.entries, ops := ops, windows := wins }).preemptOver (cohortKey grid cohort))
    | _ => .next s
  | _, _ => .next s

/-! ### Thread commands (R320) -/

/-- Where SKIP resumes: the word after the trapping chain, as RFT.skip finds it (R268); where the packet cannot be fetched now, the word after the
chain's first. -/
def skipTo (s : State) (u : Nat) (t : Thread) : Word :=
  if fetchTrap t then packetOf t.trappc + 12
  else
    match fetchPacket t.trappc { s with cur := u, word := 0, left := false } with
    | .ok (packet, _) => t.trappc + w64 (4 * (takeChain (packet.drop (wordIdx t.trappc))).length)
    | .error _ => t.trappc + 4

/-- A thread command acts on a thread that awaits it (R320): after an acquire fence at SYS scope, RETRY, SKIP or UPCALL. At a RETRY a store, atomic or reduction
whose translation failed is performed from what its fault-buffer entry captured. -/
def obey (s : State) (u : Nat) (verdict : Nat) : State :=
  let s0 := s.acquire u 6 (((s.th? u).map (·.obs)).getD 0)
  match s0.th? u with
  | none => s
  | some t =>
    let s1 := s0.freeFaults u
    let t1 := t.wake s.time
    match verdict with
    | 0 => s1.setTh u (match t.skip with
        | some k => { t1.retrySkip k with pc := k.pc, trapcause := k.cause }
        | none => { t1 with pc := t.trappc })
    | 1 => s1.setTh u { t1 with pc := skipTo s u t, skip := none, captured := none }
    | 2 => s1.setTh u { t1 with pc := (s.gridOf t).trapentry, first := true, captured := none }
    | _ => s1.abortGrid t.grid

namespace State

/-- The log of a thread command that is ignored. -/
abbrev logCommand (s : State) (d tag : Nat) : State := s.modDie d fun x => { x with log := x.log ++ [.ignoredCommand tag] }

/-- The record of a tag is answered. -/
abbrev closeFault (s : State) (d tag : Nat) : State := s.modDie d fun x => { x with faults := AMap.del x.faults tag }

/-- The held and hv fields of a saved thread's record (R339). -/
def holdCommand (s : State) (d : Nat) (u verdict : Nat) : State :=
  match s.cohorts.findSome? fun p => AMap.get? p.2.recs u with
  | none => s
  | some pa =>
    let w := s.homeNat (pa + 8) 8
    s.putWord d (pa + 8) (w64 (w - (w / 2 ^ 41 % 8) * 2 ^ 41 + verdict * 2 ^ 42 + 2 ^ 41))

/-- The grid of a thread's key. -/
abbrev gridOfKey (u : Nat) : Nat := u / 2048 / 2 ^ 64

/-- A thread command (R320, R321, R339). -/
def command (s : State) (d tag verdict : Nat) : State :=
  match AMap.get? (s.die d).faults tag with
  | none => s.logCommand d tag
  | some u =>
    let entry := ((s.grid? (gridOfKey u)).map Grid.trapentry).getD 0
    if verdict = 2 ∧ entry = 0 then s.logCommand d tag
    else
      let s1 := s.closeFault d tag
      if (s1.th? u).isSome then obey s1 u verdict
      else if verdict = 3 then s1.abortGrid (gridOfKey u)
      else s1.holdCommand d u verdict

end State

/-- THREADCMD_RETRY (R320). -/
def execThreadcmdRetry (die : DieId) (tag : BitVec 32) (s : State) : Host.Outcome State Fault Refusal := .next (s.command die.toNat tag.toNat 0)

/-- THREADCMD_SKIP (R320). -/
def execThreadcmdSkip (die : DieId) (tag : BitVec 32) (s : State) : Host.Outcome State Fault Refusal := .next (s.command die.toNat tag.toNat 1)

/-- THREADCMD_UPCALL (R320): with trapentry 0 it is ignored and logged. -/
def execThreadcmdUpcall (die : DieId) (tag : BitVec 32) (s : State) : Host.Outcome State Fault Refusal := .next (s.command die.toNat tag.toNat 2)

/-- THREADCMD_ABORT (R321). -/
def execThreadcmdAbort (die : DieId) (tag : BitVec 32) (s : State) : Host.Outcome State Fault Refusal := .next (s.command die.toNat tag.toNat 3)

/-! ### Restore (R338) -/

namespace State

/-- The words of an image at an address. -/
def imageWords (s : State) (d pa n : Nat) : List Word := (List.range n).map fun i => w64 (ofBytes (s.homeRead d (pa + 8 * i) 8).1)

/-- The loop records of an image; a record's rank follows the start of its body, the outermost first. -/
def loopsOf (ws : List Word) : Vector LoopRec 3 :=
  Vector.ofFn fun (i : Fin 3) =>
    let start := ws.getD (7 + 2 * i.val) 0
    let last := ws.getD (8 + 2 * i.val) 0
    if start = 0 ∧ last = 0 then {}
    else
      let before := (List.range 3).filter fun j =>
        let b := ws.getD (7 + 2 * j) 0
        decide (b ≠ 0) && (decide (b.toNat < start.toNat) || (b == start && decide (j < i.val)))
      { start := start, last := last, order := before.length + 1 }

/-- The wait of a record (R332, R337). -/
def waitOf (code : Nat) (x : Word) (rank : Nat) : List Wait :=
  let phase := BitVec.ofNat 16 (bits x 48 16)
  match code with
  | 2 => [.tbar (bits x 0 16) phase]
  | 3 => [.cbar (bits x 0 16) phase]
  | 4 => [.latch (bits x 0 16) phase]
  | 5 => [.mask (bits x 0 4) (bits x 4 4) rank]
  | 6 => [.collective]
  | _ => []

/-- A thread of its record (R337, R338). One that took a trap in an open collective has no run left, and waits at its handler's entry (R315); one whose run
waits for a collective, or whose DRAINs issue again, has its long results to come. -/
def threadOf (s : State) (g : Grid) (gid team tid die core base : Nat) (ws : List Word) (k : Kept) : Thread :=
  let w (i : Nat) : Word := ws.getD i 0
  let entry := bits (w 1) 56 8
  let code := bits (w 1) 52 4
  let waits := waitOf code (w 18) k.order ++ k.waits ++ k.drains.map fun d => .drain d.2 d.1 (w 0) 0 0 (loopsOf ws)
  { grid := gid, team := team, tid := tid, die := die, core := core, pc := w 0, rangeDone := k.rangeDone,
    q := Vector.ofFn fun (i : Fin 16) => w (20 + i.val), n := Vector.ofFn fun (i : Fin 48) => if i.val < g.len tid then w (36 + i.val) else 0,
    dead := BitVec.ofNat 48 (bits (w 17) 0 48), preds := BitVec.ofNat 8 (bits (w 1) 44 7 * 2 + 1),
    lc := Vector.ofFn fun (i : Fin 3) => w (4 + i.val), loops := loopsOf ws, prc := w 3 &&& prcMask, trapcause := w 13, trappc := w 14,
    trapaddr := w 15, trapinfo := w 16, first := bitAt (w 1) 51, cd := w 2, aseq := BitVec.ofNat 32 (bits (w 19) 0 32), savebase := w64 base,
    run := k.drains.map (fun d => { slot := 0, dist := none, tgt := d.1, val := w64 d.2.length }) ++ k.run, rstq := k.rstq, waits := waits, age := s.time,
    slot := if k.run = [] ∧ k.drains = [] then 0 else 25, skip := k.skip, collDone := k.collDone,
    upgraded := entry != 0x3F && isUserCause entry && g.trapentry == 0, nested := entry != 0x3F && k.nested,
    status :=
      if code = 7 then .awaiting (some (bits (w 18) 16 32))
      else if entry ≠ 0x3F then .awaiting none
      else if k.run ≠ [] ∨ k.drains ≠ [] then .longs
      else if waits ≠ [] then .waiting
      else .ready }

/-- Where the next section of an image stands, as it is read. -/
abbrev Cursor := State × Nat

/-- One thread is loaded; granules that stand with bad check bits make their register slots bad (R342). -/
def loadThread (g : Grid) (x : Cohort) (base team k tid : Nat) (c : Cursor) : Cursor :=
  let len := g.len tid
  let (s, pa) := c
  let next := pa + 8 * (36 + len)
  let ws := s.imageWords x.owner pa (36 + len)
  if ws.getD 1 0 = 0 then (s, next)
  else
    let u := thKey x.grid team tid
    let t := s.threadOf g x.grid team tid (k / 128) (k % 128) base ws ((AMap.get? x.kept u).getD {})
    let bad (at_ n : Nat) : Nat := ((List.range n).map fun j => if s.bad.contains (pa / 8 + at_ + j) then 2 ^ j else 0).sum
    (s.freshen.setTh u { t with badQ := BitVec.ofNat 16 (bad 20 16), badN := BitVec.ofNat 48 (bad 36 len) }, next)

/-- One group: masks and remap table, with the collective that is kept (R238, R332). -/
def loadGroup (g : Grid) (x : Cohort) (base team k i : Nat) (c : Cursor) : Cursor :=
  let (s, pa) := c
  let ws := s.imageWords x.owner pa 24
  let gk := grpKey x.grid team i
  let old := (AMap.get? x.groups gk).getD {}
  let s1 := s.setGroup gk
    { old with m := Vector.ofFn fun (j : Fin 12) => ws.getD j.val 0,
               remap := (List.range 64).map fun l => BitVec.ofNat 6 (bits (ws.getD (12 + l / 8) 0) (8 * (l % 8)) 6) }
  (List.range 64).foldl (fun c l => loadThread g x base team k (64 * i + l) c) (s1, pa + 192)

/-- A barrier of its word. -/
abbrev barOf (w : Word) : Barrier := { phase := BitVec.ofNat 16 (bits w 48 16), expect := bits w 16 12, count := bits w 0 12 }

/-- A saved entry is posted again (R148, R389). -/
def loadEntry (x : Cohort) (ck : Nat) (c : Cursor × Nat) : Cursor × Nat :=
  let ((s, pa), i) := c
  let ws := s.imageWords x.owner pa 7
  let h := ws.getD 6 0
  match x.entries[i]? with
  | none => ((s, pa + 64), i + 1)
  | some e =>
    let e' : Entry := { e with key := s.fresh, desc := Vector.ofFn fun (j : Fin 6) => ws.getD j.val 0, seq := BitVec.ofNat 16 (bits h 16 16),
                               keep := bitAt h 4, kind := bits h 0 4, status := if bits h 8 4 = 4 then .fault none else .wait,
                               since := none, aged := false, stop := false, part := [], fetched := [], lines := [], rel := 0 }
    ((s.freshen.modCluster ck fun y => { y with table := y.table ++ [e'] }, pa + 64), i + 1)

/-- One team: header, groups, conductor, entries. -/
def loadTeam (g : Grid) (x : Cohort) (base : Nat) (plan : List (Nat × Nat)) (c : Cursor × Nat) : Cursor × Nat :=
  let ((s, pa), i) := c
  let ws := s.imageWords x.owner pa 32
  let team := (ws.getD 0 0).toNat
  match plan.find? fun p => p.1 == team with
  | none => ((s, pa), i)
  | some (_, k) =>
    let t : Team := { grid := x.grid, team := team, die := k / 128, core := k % 128, slot := s.freeSlot k, seq := BitVec.ofNat 16 (bits (ws.getD 1 0) 0 16),
                      bars := (List.range 16).map fun b => barOf (ws.getD (2 + b) 0) }
    let s1 := s.setTeam (teamKey x.grid team) t
    let c1 := (List.range g.ngrp).foldl (fun c j => loadGroup g x base team k j c) (s1, pa + 256)
    let c2 := if g.hasCond then loadThread g x base team k 1024 c1 else c1
    (List.range (ws.getD 18 0).toNat).foldl (fun c _ => loadEntry x (k / 4) c) ((c2.1, roundUp c2.2 64), i)

/-- An operation resumes from its progress on its team's core (R229), and its status word waits as before for the writes that it has made (R227); the stash lines
that it still writes are absent again. -/
def loadOp (x : Cohort) (plan : List (Nat × Nat)) (c : Cursor) (o : AsyncOp) : Cursor :=
  let (s, pa) := c
  let ws := s.imageWords x.owner pa 8
  match plan.find? fun p => p.1 == o.team with
  | none => (s, pa + 64)
  | some (_, k) =>
    let old := ((x.cores.find? fun p => p.1 == o.team).map (·.2 / 128)).getD (k / 128)
    let o' := { o with key := s.fresh, desc := Vector.ofFn fun (j : Fin 6) => ws.getD j.val 0, tid := bits (ws.getD 6 0) 32 11,
                       seq := BitVec.ofNat 32 (bits (ws.getD 6 0) 0 32), progress := (ws.getD 7 0).toNat, tag := none, waits := false,
                       vis := o.vis + (s.die (k / 128)).base - (s.die old).base }
    (s.freshen.modCore k fun y => { y with ops := y.ops ++ [o'] }, pa + 64)

/-- The stash lines that an operation still writes are absent until it completes (R171, R229). -/
def holdLines (s : State) (k : Nat) (o : AsyncOp) : State :=
  o.leftLines.foldl (fun s l => s.setLine k l { s.stashLine k l with present := false, copying := some o.key }) s

/-- A saved window's descriptor. -/
def windowOf (g : Grid) (gid : Nat) (ws : List Word) : Window :=
  { d0 := ws.getD 0 0, d1 := ws.getD 1 0, d2 := ws.getD 2 0, asid := g.asid, root := g.root, super := g.super, grid := gid,
    team := (ws.getD 4 0).toNat, teams := [(gid, (ws.getD 4 0).toNat)] }

/-- Bytes of an image. -/
def imageBytes (s : State) (d pa n : Nat) : List (BitVec 8) := (s.imageWords d pa ((n + 7) / 8)).flatMap (fun w => toBytes 8 w.toNat) |>.take n

/-- A window is mapped again on its team's core, with its saved bytes (R177). -/
def loadWindow (g : Grid) (x : Cohort) (plan : List (Nat × Nat)) (c : Cursor) : Cursor :=
  let (s, pa) := c
  let w := windowOf g x.grid (s.imageWords x.owner pa 5)
  let k := ((plan.find? fun p => p.1 == w.team).map (·.2)).getD 0
  let s1 := enterWindow (reclaim (k / 128) (k % 128) w 32 s) (k / 128) (k % 128) w
  match savedRange w with
  | none => (s1, pa + 64)
  | some (off, n, mask) =>
    let m := pa + 64 + roundUp n 64
    let s2 := s1.stashPut k off (s1.imageBytes x.owner (pa + 64) n)
    let s3 := s2.modCore k fun y =>
      { y with bad := ((List.range (n / 8)).filter fun i => s.bad.contains ((pa + 64) / 8 + i)).map (off / 8 + ·) ++ y.bad }
    if mask then
      let bs := s.imageBytes x.owner m (n / 8)
      ((List.range (n / 32)).foldl (fun s i =>
        s.setLine k (off / 32 + i) { s.stashLine k (off / 32 + i) with shadow := BitVec.ofNat 32 (ofBytes ((bs.drop (4 * i)).take 4)) }) s3,
       m + roundUp (n / 8) 64)
    else (s3, m)

/-- The latch state of one number (R334, R390): the saved phase, and each old core's state on the core that its teams took. -/
def loadLatch (x : Cohort) (plan : List (Nat × Nat)) (c : Cursor) (l : Nat) : Cursor :=
  let (s, pa) := c
  let h := s.homeNat pa 8
  let n := h / 2 ^ 20 % 2 ^ 16
  let ds := keySet ((keySet (plan.map (·.2 / 128))).flatMap fun d => s.segDies d l)
  let s1 := ds.foldl (fun s d => s.modDie d fun y => { y with phases := AMap.put y.phases l (BitVec.ofNat 16 (h % 2 ^ 16)) }) s
  let s2 := (List.range n).foldl (fun s i =>
    let w := w64 (s.homeNat (pa + 64 + 8 * i) 8)
    let old := coreKey (bits w 56 6) (bits w 49 7)
    match x.cores.find? fun p => p.2 == old with
    | none => s
    | some (team, _) =>
      match plan.find? fun p => p.1 == team with
      | none => s
      | some (_, k) =>
        s.setLatch k l { expect := bits w 0 12, count := bits w 12 12, raised := bitAt w 24, nexpect := bits w 25 12, ncount := bits w 37 12 }) s1
  (s2, pa + 64 + roundUp (8 * n) 64)

/-- The windows of an image, with the cursor that stands after them. -/
def loadWindows (g : Grid) (x : Cohort) (plan : List (Nat × Nat)) (c : Cursor) : Cursor :=
  (List.range x.windows).foldl (fun c _ => loadWindow g x plan c) c

/-- The image of a cohort is loaded onto cores (R338, steps 2 and 3). -/
def loadImage (s : State) (g : Grid) (x : Cohort) (plan : List (Nat × Nat)) : State :=
  let base := x.image
  let nteams := s.homeNat (base + 32) 8
  let c1 := (List.range nteams).foldl (fun c _ => loadTeam g x base plan c) ((s, base + 64), 0)
  let before := c1.1.1.fresh
  let c2 := x.ops.foldl (fun c o => loadOp x plan c o) c1.1
  let c3 := loadWindows g x plan c2
  let (s3, pa) := c3
  let s4 := if g.cbar then
      (keySet (plan.map (·.2 / 4))).foldl (fun s ck =>
        s.modCluster ck fun y => { y with bars := (List.range 8).map fun b => barOf (w64 (s.homeNat (pa + 8 * b) 8)) }) s3
    else s3
  let (s5, _) := g.latches.foldl (fun c l => loadLatch x plan c l) (s4, pa + 64)
  (keySet (plan.map (·.2))).foldl (fun s k =>
    ((s.core k).ops.filter fun o => decide (before ≤ o.key)).foldl (fun s o => s.holdLines k o) s) s5

/-- No window of the cohort's entries on a core clashes with another's (R169): a restore waits for such a core. -/
def noClash (s : State) (plan : List (Nat × Nat)) : Bool :=
  (keySet (plan.map (·.2))).all fun k =>
    let ws := (s.core k).windows
    decide (ws.length ≤ 32) && decide ((s.core k).ops.length ≤ 32)
      && (List.range ws.length).all fun i => (List.range i).all fun j =>
        match ws[i]?, ws[j]? with
        | some v, some w => !v.clash w && !(v.asid == w.asid && v.id == w.id)
        | _, _ => true

/-- A saved cohort, loaded onto a placement. -/
abbrev restored (s : State) (x : Cohort) (p : Grid × List (Nat × Nat) × (Nat × Nat)) : State :=
  (s.occupy x.owner x.grid x.cohort p.1 p.2.1 p.2.2).loadImage p.1 x p.2.1

/-- The first placement of a saved cohort that its windows, its operations and its entries find room on (R169, R250, R338). -/
def planRestore (s : State) (x : Cohort) (w : Waiter) : Option (Grid × List (Nat × Nat) × (Nat × Nat)) :=
  (s.plansFor x.owner w).find? fun p =>
    (s.restored x p).noClash p.2.1 && (keySet (p.2.1.map (·.2 / 4))).all fun ck => decide (((s.restored x p).cluster ck).table.length ≤ 16)

end State

/-- COHORT_RESTORE (R334, R338): the cohort that its owner serves first is placed on cores that satisfy R250; its image is loaded, its threads acquire and
become ready together, and held commands act. It waits where no placement has room for it. -/
def execCohortRestore (grid cohort : Nat) (s : State) : Host.Outcome State Fault Refusal :=
  match s.cohort? (cohortKey grid cohort) with
  | none => .next s
  | some x =>
    match (if x.status = .waiting ∧ s.boot = .running then s.chosen x.owner else none) with
    | none => .next s
    | some w =>
      if w.grid ≠ grid ∨ w.cohort ≠ cohort then .next s
      else
        match s.planRestore x w with
        | none => .next s
        | some p =>
          let s1 := s.restored x p
          let us := x.recs.map (·.1)
          let s2 : State :=
            { s1 with dies := s1.dies.map fun d => (d.1, { d.2 with records := d.2.records.map fun r =>
                (r.1, { r.2 with saved := r.2.saved.filter fun u => !us.contains u }) }) }
          let s3 := s2.acquireAll grid (p.2.1.map (·.1))
          .next (x.recs.foldl (fun s r =>
            let h := w64 (s1.homeNat (r.2 + 8) 8)
            if bitAt h 41 then obey s r.1 (bits h 42 2) else s) s3)

/-! ### Pre-emption by the dispatcher (R256) -/

namespace State

/-- The machine as it would stand with some cohorts saved off their cores (R331). -/
def without (s : State) (keys : List Nat) : State :=
  keys.foldl (fun s k =>
    match s.cohort? k with
    | none => s
    | some x => (((s.grid? x.grid).map fun g => s.vacate x.grid (s.liveTeams x) g).getD s).setCohort k { x with status := .waiting }) s

/-- A waiting cohort finds room on its owner's cores, its windows and entries too where it was saved (R250, R338). -/
def hasRoom (s : State) (d : Nat) (w : Waiter) : Bool :=
  if w.saved then ((s.cohort? (cohortKey w.grid w.cohort)).bind fun x => s.planRestore x w).isSome else (s.planWaiter d w).isSome

/-- The dies on which a cohort can stand in the way of a waiting one: its owner's, for a spread cohort those of its mask, and those of the segments of its latch
numbers there (R249, R250). -/
def contested (s : State) (d : Nat) (w : Waiter) : List Nat :=
  match s.grid? w.grid with
  | none => [d]
  | some g =>
    let ds := if g.spread then d :: s.maskDies g.dmask else [d]
    ds ++ ds.flatMap fun e => g.latches.flatMap fun l => s.segDies e l

/-- The cohorts that W may displace at a die, in the order of R256: the lowest priority first, then the longest resident. A spread cohort of another owner is one of
them, where it stands on a core that W might take. -/
def displaceable (s : State) (d : Nat) (w : Waiter) : List (Nat × Cohort) :=
  let prioOf (c : Cohort) : Nat := ((s.grid? c.grid).map (·.prio)).getD 0
  let ds := s.contested d w
  let xs := s.cohorts.filter fun p =>
    p.2.status == .resident && decide (p.2.placed + (s.die d).quantum.toNat ≤ s.time) && decide (prioOf p.2 ≤ s.waitPrio d w)
      && p.2.cores.any fun c => ds.contains (c.2 / 128)
  let ins (x : Nat × Cohort) (ys : List (Nat × Cohort)) : List (Nat × Cohort) :=
    let before := ys.takeWhile fun y =>
      decide (prioOf y.2 < prioOf x.2) || (prioOf y.2 == prioOf x.2 && decide (y.2.placed ≤ x.2.placed))
    before ++ x :: ys.drop before.length
  xs.foldl (fun ys x => ins x ys) []

/-- The shortest part of the candidates, in order, that makes room with those that stop already. -/
def enough (s : State) (d : Nat) (w : Waiter) : List Nat → List Nat → Option (List Nat)
  | acc, [] => if (s.without acc).hasRoom d w then some acc else none
  | acc, x :: xs => if (s.without acc).hasRoom d w then some acc else enough s d w (acc ++ [x]) xs

/-- Those without which there is no room, of cohorts that together make it: only as many as W needs (R256). -/
def needed (s : State) (d : Nat) (w : Waiter) (stopping ks : List Nat) : List Nat :=
  ks.reverse.foldl (fun ks k => if stopping.contains k || !((s.without (ks.filter (· ≠ k))).hasRoom d w) then ks else ks.filter (· ≠ k)) ks

end State

/-- DISPATCHER_PREEMPT (R256): where the cohort that is served first cannot be placed, as many eligible cohorts as it needs are pre-empted; those that
stop already count. -/
def execDispatcherPreempt (die : DieId) (s : State) : Host.Outcome State Fault Refusal :=
  let d := die.toNat
  match s.chosen d with
  | none => .next s
  | some w =>
    let stopping := (s.cohorts.filter fun p => match p.2.status with | .stopping _ => true | _ => false).map (·.1)
    match s.enough d w stopping ((s.displaceable d w).map (·.1)) with
    | none => .next s
    | some ks => .next ((s.needed d w stopping ks).foldl (fun s k => s.requestStop k) s)

end Sys2Proof.Machine
end

