-- ==== Sys2Proof/Machine/Mailbox.lean ====
section
/-! DEFINITION. Reset and its wipe (R21, R309), and the management mailbox: CHALLENGE, QUOTE, CERT and COMMAND (R306 to R311). -/
namespace Sys2Proof.Machine

/-! ### Reset -/

/-- The built resources that are neither retired nor failed, as the logical ones in ascending order (R21). -/
def logicalMap (built active : Nat) (dead : List Nat) : List (Option Nat) :=
  let live := (List.range built).filter fun i => !dead.contains i
  (List.range active).map fun i => live[i]?

/-- The die manager builds the three maps; a die with too few resources is degraded (R21). -/
def Die.remap (x : Die) : Die :=
  let y : Die := { x with slices := logicalMap 34 32 (x.deadSlices ++ x.failSlices), clusters := logicalMap 34 32 (x.deadClusters ++ x.failClusters),
                          loops := logicalMap 18 16 (x.deadLoops ++ x.failLoops) }
  { y with life := if x.life = .dead then .dead
                   else if y.slices.contains none ∨ y.clusters.contains none ∨ y.loops.contains none then .degraded else .live }

/-- A die after reset (R21, R309): fuses, serial, counter and retirement records stay. -/
def Die.reset (x : Die) : Die :=
  Die.remap
    { base := x.base, lcstate := x.lcstate, serial := x.serial, deadSlices := x.deadSlices, deadClusters := x.deadClusters, deadLoops := x.deadLoops,
      deadRows := x.deadRows, keyHash := x.keyHash, testHash := x.testHash, minSvn := x.minSvn, idMod := x.idMod, idExp := x.idExp, cert := x.cert }

/-- A site after reset: what the panel holds stays; it has not answered yet, and its memory has not reported its wipe. -/
def Site.reset (x : Site) : Site := { x with answered := false, wiped := false, portst := 0, portmods := List.replicate 4 0 }

/-- The module after a reset or a change of life-cycle state (R309): every storage zero, no context; second-tier memory stands until its site wipes it. -/
def State.restart (s : State) : State :=
  { State.reset with
    time := s.time, dies := s.dies.map fun p => (p.1, p.2.reset), sites := s.sites.map fun p => (p.1, p.2.reset),
    mem := s.mem.filter fun c => c.1 >>> 48 == 1, agenda := s.agenda, freeCtr := s.freeCtr, fresh := s.fresh }

/-- The self-test of a die at reset has found built resources to fail: the maps leave them out (R21). Once the cores run, no self-test is made. -/
def State.selfTest (s : State) (d : Nat) (clusters slices loops : List Nat) : State :=
  if s.boot ≠ .starting then s
  else s.modDie d fun x => { x with failClusters := clusters, failSlices := slices, failLoops := loops }.remap

/-- MODULE_RESET (R309). -/
def execModuleReset (s : State) : Host.Outcome State Fault Refusal := .next s.restart

/-! ### The mailbox (R310) -/

/-- The request block's slots as a die manager reads them. -/
structure Request where
  block : Nat
  arg : Word
  input : Nat
  output : Nat
  outcap : Nat
  deriving DecidableEq, Repr

namespace State

/-- Bytes that the die manager reads at a physical address, as SYS-scope reads. -/
def managerRead (s : State) (d pa n : Nat) : List (BitVec 8) := (State.linePieces (n / 64 + 2) pa n).flatMap fun p => (s.homeRead d p.1 p.2).1

/-- A request ends with a result and a number of bytes written (R310). -/
def finishRequest (s : State) (d : Nat) (r : Request) (result : Nat) (out : List (BitVec 8)) : State :=
  let s1 := if out = [] then s else (s.homeWrite d r.output out).1
  (s1.putWord d (r.block + 40) (w64 out.length)).modDie d fun x =>
    { x with mgmtDone := (x.mgmtDone + 1) % 2 ^ 48, mgmtResult := BitVec.ofNat 8 result, mgmtBusy := none }

/-- The request of a block, if its command is one of those asked for: malformed, or its slots. -/
def requestAt (s : State) (d : Nat) (block : Word) (cmds : Nat → Bool) : Option (Nat × Option Request) :=
  let pa := block.toNat
  if !s.populated pa 64 then (if cmds 0 then some (0, none) else none)
  else
    let ws := State.wordsOf (s.managerRead d pa 64) 8
    let w (i : Nat) : Word := ws.getD i 0
    let cmd := bits (w 0) 56 8
    if !cmds cmd then none
    else
      let bad := bits (w 0) 0 56 != 0 || (cmd != 3 && w 1 != 0) || (w 2).toNat % 64 != 0 || (w 3).toNat % 64 != 0 || w 6 != 0 || w 7 != 0
        || cmd == 0 || decide (4 < cmd)
        || (cmd == 2 && !s.populated (w 2).toNat 64) || (cmd == 4 && !s.populated (w 2).toNat 1152)
        || ((cmd == 1 || cmd == 2 || cmd == 3) && !s.populated (w 3).toNat 64)
      some (cmd, if bad then none else some ⟨pa, w 1, (w 2).toNat, (w 3).toNat, (w 4).toNat⟩)

/-- A write to MGMTREQ is one that the die manager cannot take: reserved bits are nonzero, or another request is being served (R310). -/
def mailboxRefuses (s : State) (d : Nat) (block : Word) : Bool :=
  bits block 52 12 != 0 || bits block 0 6 != 0 || (s.cmdRun.isSome) || (match (s.die d).mgmtBusy with | some b => b != block | none => false)

/-- A request is served (R310): ignored on a die that is not the anchor, ignored and logged where its write could not be taken. -/
def mailbox (s : State) (d : Nat) (block : Word) (cmds : Nat → Bool) (serve : State → Request → State) : State :=
  if s.anchor ≠ some d then s
  else if s.mailboxRefuses d block then
    if cmds 0 ∨ (bits block 52 12 = 0 ∧ bits block 0 6 = 0) then s.modDie d fun x => { x with log := x.log ++ [.ignoredMailbox] } else s
  else
    match s.requestAt d block cmds with
    | none => s
    | some (_, none) => s.finishRequest d ⟨block.toNat, 0, 0, 0, 0⟩ 3 []
    | some (_, some r) => serve s r

/-- An answer, where the output area holds it. -/
def answer (s : State) (d : Nat) (r : Request) (out : List (BitVec 8)) : State :=
  if r.outcap < out.length then s.finishRequest d r 4 [] else s.finishRequest d r 0 out

/-- Random bytes of the die managers: free values (notes/assumptions/4.md). -/
def randomBytes (s : State) (n : Nat) : State × List (BitVec 8) :=
  ({ s with freeCtr := s.freeCtr + n }, (List.range n).map fun i => Config.randomByte (s.freeCtr + i))

end State

/-- CHALLENGE (R310, R311). -/
def execChallenge (die : DieId) (block : Word) (s : State) : Host.Outcome State Fault Refusal :=
  .next (s.mailbox die.toNat block (· == 1) fun s r =>
    if r.outcap < 64 then s.finishRequest die.toNat r 4 []
    else
      let (s1, bs) := s.randomBytes 64
      { s1 with challenge := some bs }.finishRequest die.toNat r 0 bs)

/-- The signed part of a quote (R307). -/
def quoteBytes (s : State) (d : Nat) (nonce : List (BitVec 8)) : List (BitVec 8) :=
  let image := s.running.getD []
  let certs := (List.range 64).flatMap fun e => if s.alive e then (s.die e).cert else List.replicate 64 0
  [0x4C, 0x56, 0x58, 0x2D, 0x51, 0x55, 0x4F, 0x54] ++ [(s.die d).lcstate] ++ [0, 0, 0] ++ toBytes 4 (fwSvn s) ++ toBytes 8 (deadMask s)
    ++ toBytes 8 (s.now d) ++ sha512 image ++ sha512 certs ++ sha512 (s.managerRead d s.topo topoLen) ++ nonce

/-- QUOTE (R307, R310): in PROVISIONED and DEPLOYED only. -/
def execQuote (die : DieId) (block : Word) (s : State) : Host.Outcome State Fault Refusal :=
  let d := die.toNat
  .next (s.mailbox d block (· == 2) fun s r =>
    if (s.die d).lcstate ≠ 1 ∧ (s.die d).lcstate ≠ 2 then s.finishRequest d r 1 []
    else if r.outcap < 800 then s.finishRequest d r 4 []
    else
      let q := quoteBytes s d (s.managerRead d r.input 64)
      let (s1, salt) := s.randomBytes 64
      s1.finishRequest d r 0 (q ++ pssSign (s.die d).idMod (s.die d).idExp q salt))

/-- CERT (R306, R310): a dead die, or a number that names none, ends with result 5. -/
def execCert (die : DieId) (block : Word) (s : State) : Host.Outcome State Fault Refusal :=
  .next (s.mailbox die.toNat block (· == 3) fun s r =>
    if 64 ≤ r.arg.toNat ∨ !s.alive r.arg.toNat then s.finishRequest die.toNat r 5 []
    else s.answer die.toNat r (s.die r.arg.toNat).cert)

/-- A signed command's fields (R311). -/
structure Signed where
  cmd : Nat
  svn : Nat
  challenge : List (BitVec 8)
  serials : List Nat
  signature : List (BitVec 8)
  deriving DecidableEq, Repr

/-- The fields of a command's bytes, if it is well formed. -/
def parseSigned (bs : List (BitVec 8)) : Option Signed :=
  let cmd := ofBytes ((bs.drop 8).take 4)
  let svn := ofBytes ((bs.drop 12).take 4)
  if bs.take 8 ≠ [0x4C, 0x56, 0x58, 0x2D, 0x43, 0x4D, 0x44, 0x31] ∨ cmd = 0 ∨ 3 < cmd ∨ (cmd ≠ 1 ∧ svn ≠ 0)
      ∨ ((bs.drop 592).take 48).any (· != 0) then none
  else
    some { cmd := cmd, svn := svn, challenge := (bs.drop 16).take 64,
           serials := (List.range 64).map fun i => ofBytes ((bs.drop (80 + 8 * i)).take 8), signature := (bs.drop 640).take 512 }

/-- The dies that a command names. -/
def Signed.named (c : Signed) : List Nat := (List.range 64).filter fun i => c.serials.getD i 0 ≠ 0

/-- A die's own check of a command (R311): its state, and the bounds of the new minimum. -/
def Signed.allowed (c : Signed) (s : State) (d : Nat) : Bool :=
  let x := s.die d
  match c.cmd with
  | 1 => decide (x.minSvn.toNat ≤ c.svn) && decide (c.svn ≤ fwSvn s)
  | 2 => x.lcstate == 1
  | _ => x.lcstate == 1 || x.lcstate == 2

/-- The effect of an accepted command on a die (R308, R311). -/
def Signed.apply (c : Signed) (x : Die) : Die :=
  match c.cmd with
  | 1 => { x with minSvn := BitVec.ofNat 32 c.svn }
  | 2 => { x with lcstate := 2 }
  | _ => { x with lcstate := 3, idMod := 0, idExp := 0 }

/-- A named die's check of the command's bytes (R311): form, serial number, signature under the running image's key, and its own state. -/
def State.checksCommand (s : State) (d : Nat) (bs : List (BitVec 8)) : Bool :=
  let image := s.running.getD []
  match parseSigned bs with
  | none => false
  | some c =>
    (s.die d).serial.toNat == c.serials.getD d 0 && c.allowed s d
      && pssVerify (beNat ((image.drop 64).take 512)) (ofBytes ((image.drop 576).take 4)) (bs.take 640) c.signature

/-- Every named die has checked the command: it takes effect on all of them, or on none (R308, R311). -/
def State.endCommand (s : State) (d : Nat) (r : CmdRun) : State :=
  let req : Request := ⟨r.request.1, r.request.2.1, r.request.2.2.1, r.request.2.2.2.1, r.request.2.2.2.2⟩
  match (if r.ok then parseSigned r.bytes else none) with
  | none => { s with cmdRun := none }.finishRequest d req 1 []
  | some c =>
    let s1 := c.named.foldl (fun s e => s.modDie e c.apply) { s with cmdRun := none }
    if c.cmd = 1 then s1.finishRequest d req 0 [] else s1.restart

/-- A named die has checked the command that is under way, and allows it or not. -/
def State.judge (s : State) (d : Nat) (ok : Bool) : State :=
  match s.cmdRun with
  | none => s
  | some r =>
    let r' := { r with left := r.left.filter (· ≠ d), ok := r.ok && ok }
    if r'.left = [] then s.endCommand (s.anchor.getD 0) r' else { s with cmdRun := some r' }

/-- The messages that carry a signed command to a die (R311, R352): its eighteen chunks, with bit 63 of the offset set. -/
def commandChunks (a d : Nat) (bs : List (BitVec 8)) : List Packet :=
  (List.range 18).map fun k =>
    let m : Msg := { follow := 4, dst := BitVec.ofNat 6 d, src := BitVec.ofNat 6 a, payload := w64 (2 ^ 63 + 64 * k), slots := dataSlots ((bs.drop (64 * k)).take 64) }
    ⟨5, 7, m⟩

/-- COMMAND (R308, R309, R311): what the anchor accepts goes to every named die, which checks it again; on every named die or on none. A change of life-cycle state
wipes the module. -/
def execCommand (die : DieId) (block : Word) (s : State) : Host.Outcome State Fault Refusal :=
  let d := die.toNat
  .next (s.mailbox d block (· == 4) fun s r =>
    let bs := s.managerRead d r.input 1152
    match parseSigned bs with
    | none => s.finishRequest d r 3 []
    | some c =>
      let image := s.running.getD []
      let ok := s.challenge == some c.challenge
        && pssVerify (beNat ((image.drop 64).take 512)) (ofBytes ((image.drop 576).take 4)) (bs.take 640) c.signature
      let s0 := { s with challenge := none }
      if !ok then s0.finishRequest d r 2 []
      else if c.named.any fun e => !s.alive e || (s.die e).serial.toNat != c.serials.getD e 0 then s0.finishRequest d r 5 []
      else if c.named.any fun e => !c.allowed s e then s0.finishRequest d r 1 []
      else
        let run : CmdRun := { request := (r.block, r.arg, r.input, r.output, r.outcap), bytes := bs, left := c.named.filter (· ≠ d), ok := true }
        if run.left = [] then s0.endCommand d run
        else ({ s0 with cmdRun := some run }.modDie d fun x => { x with mgmtBusy := some block }).send (run.left.flatMap fun e => commandChunks d e bs))

/-- MALFORMED_REQUEST (R310): cmd 0 or 5 to 255, refused with result 3; a write to MGMTREQ with nonzero reserved bits is logged here too. -/
def execMalformedRequest (die : DieId) (block : Word) (s : State) : Host.Outcome State Fault Refusal :=
  .next (s.mailbox die.toNat block (fun c => c == 0 || decide (4 < c)) fun s r => s.finishRequest die.toNat r 3 [])

end Sys2Proof.Machine
end

