-- ==== Sys2Proof/Machine/Registers.lean ====
section
/-! DEFINITION. Writes to a die's register block (R310, R364 to R368). -/
namespace Sys2Proof.Machine

namespace State

/-- A cohort that is resident owns a latch number that covers a die (R250, R368). -/
abbrev numberOwned (s : State) (d l : Nat) : Bool :=
  s.latchOwned d l || s.cohorts.any fun p =>
    p.2.status != .ended && p.2.status != .waiting && ((s.grid? p.2.grid).map fun g => g.latchmask.testBit l).getD false
      && p.2.cores.any fun c => c.2 / 128 == d

end State

/-- QUANTUM_WRITE (R255, R365): values outside 100,000 to 2^32 − 1 are ignored. -/
def execQuantumWrite (die : DieId) (v : Word) (s : State) : Host.Outcome State Fault Refusal :=
  .next (if 100000 ≤ v.toNat ∧ v.toNat < 2 ^ 32 then s.modDie die.toNat fun x => { x with quantum := v } else s)

/-- RDCSIZE_WRITE (R181, R365): 0 to 8 GiB, before the first grid. -/
def execRdcsizeWrite (die : DieId) (v : Word) (s : State) : Host.Outcome State Fault Refusal :=
  .next (if v.toNat ≤ 8 ∧ !(s.die die.toNat).gridStarted then s.modDie die.toNat fun x => { x with rdcsize := v } else s)

/-- POWERCAP_WRITE (R365): 100 to 330 W. -/
def execPowercapWrite (die : DieId) (v : Word) (s : State) : Host.Outcome State Fault Refusal :=
  .next (if 100 ≤ v.toNat ∧ v.toNat ≤ 330 then s.modDie die.toNat fun x => { x with powercap := v } else s)

/-- MODID_WRITE (R365): the anchor sets it on every die; bits outside 5:0 and 8 read as zero. -/
def execModidWrite (_die : DieId) (v : Word) (s : State) : Host.Outcome State Fault Refusal :=
  .next ((List.range 64).foldl (fun s d => s.modDie d fun x => { x with modid := v &&& 0x13F }) s)

/-- ACCAREA_WRITE (R138, R365): 0 to 4,096 MiB, before the first grid. -/
def execAccareaWrite (die : DieId) (v : Word) (s : State) : Host.Outcome State Fault Refusal :=
  .next (if v.toNat ≤ 4096 ∧ !(s.die die.toNat).gridStarted then s.modDie die.toNat fun x => { x with accarea := v } else s)

/-- LSEG_WRITE (R368): ignored while a cohort owns the number. -/
def execLsegWrite (die : DieId) (l : BitVec 4) (v : Word) (s : State) : Host.Outcome State Fault Refusal :=
  let g : Seg := { seg := BitVec.ofNat 8 (bits v 16 8), root := BitVec.ofNat 6 (bits v 8 6), member := bitAt v 0 }
  .next (if s.numberOwned die.toNat l.toNat then s
    else s.modDie die.toNat fun x => { x with segs := AMap.put x.segs l.toNat g })

/-- LEXC_WRITE (R283, R365, R368): excuse bits of cores 0 to 63, or 64 to 127. -/
def execLexcWrite (die : DieId) (l : BitVec 4) (high : Bool) (v : Word) (s : State) : Host.Outcome State Fault Refusal :=
  let d := die.toNat
  .next (if s.numberOwned d l.toNat then s
    else (List.range 64).foldl (fun s i =>
      let k := coreKey d ((if high then 64 else 0) + i)
      s.setLatch k l.toNat { s.latchCore k l.toNat with excuse := bitAt v i }) s)

/-- REGISTER_WRITE (R364, R365): TOPOVA, SAVEPOOL and SAVEPOOLSZ take the value; read-only and unlisted offsets ignore it. -/
def execRegisterWrite (die : DieId) (off : BitVec 16) (v : Word) (s : State) : Host.Outcome State Fault Refusal :=
  let d := die.toNat
  .next (match off.toNat with
    | 0x0038 => s.modDie d fun x => { x with topova := v }
    | 0x0060 => s.modDie d fun x => { x with savepool := v &&& ~~~0x3F }
    | 0x0068 => s.modDie d fun x => { x with savepoolsz := v }
    | _ => s)

/-- A write to MGMTREQ (R310): the request is taken, and served in a turn of the die manager; one that it cannot take is ignored and logged, and one on a die that is not
the anchor is ignored. -/
def takeRequest (d : Nat) (v : Word) (s : State) : State :=
  if s.anchor ≠ some d then s
  else if s.mailboxRefuses d v ∨ (s.die d).mgmtBusy.isSome then s.modDie d fun x => { x with log := x.log ++ [.ignoredMailbox] }
  else { s.modDie d fun x => { x with mgmtBusy := some v } with agenda := s.agenda ++ [⟨0, .serve d⟩] }

/-- The die manager serves the request that it has taken (R310). -/
def serveRequest (d : Nat) (s : State) : Host.Outcome State Fault Refusal :=
  match (s.die d).mgmtBusy with
  | none => .next s
  | some v =>
    let die := BitVec.ofNat 6 d
    match (if bits v 52 12 = 0 ∧ bits v 0 6 = 0 then s.requestAt d v (fun _ => true) else none) with
    | some (1, _) => execChallenge die v s
    | some (2, _) => execQuote die v s
    | some (3, _) => execCert die v s
    | some (4, _) => execCommand die v s
    | _ => execMalformedRequest die v s

/-- Which event a write to a register is (R364 to R368, R164, R320, R310). -/
def writeRegister (d : DieId) (off : Nat) (v : Word) (s : State) : Host.Outcome State Fault Refusal :=
  let low := BitVec.ofNat 32 (bits v 0 32)
  if off = 0x0010 then
    if bits v 33 31 ≠ 0 then .next (s.logReplay d.toNat low.toNat)
    else if bitAt v 32 then execReplayFail d low s else execReplayRetry d low s
  else if off = 0x0018 then
    if bits v 34 30 ≠ 0 then .next (s.logCommand d.toNat low.toNat)
    else match bits v 32 2 with
      | 0 => execThreadcmdRetry d low s
      | 1 => execThreadcmdSkip d low s
      | 2 => execThreadcmdUpcall d low s
      | _ => execThreadcmdAbort d low s
  else if off = 0x0020 then execQuantumWrite d v s
  else if off = 0x0028 then
    match bits v 8 2 with
    | 0 => execPreemptCore d (BitVec.ofNat 7 (bits v 0 7)) s
    | 1 => execPreemptDie d s
    | 2 => execPreemptAsidDie d (BitVec.ofNat 16 (bits v 48 16)) s
    | _ => execPreemptAsidModule d (BitVec.ofNat 16 (bits v 48 16)) s
  else if off = 0x0040 then execRdcsizeWrite d v s
  else if off = 0x0048 then execPowercapWrite d v s
  else if off = 0x0070 then execModidWrite d v s
  else if off = 0x0078 then execAccareaWrite d v s
  else if off = 0x0080 then .next (takeRequest d.toNat v s)
  else if 0x0100 ≤ off ∧ off < 0x0300 ∧ off % 8 = 0 then
    let q := BitVec.ofNat 6 ((off - 0x0100) / 8)
    -- the desc field takes the value whatever the command (R366)
    let s1 := s.setQslot d.toNat q.toNat { s.qslot d.toNat q.toNat with reg := bits v 6 46 * 64 }
    match bits v 0 2 with
    | 1 => execQslotMap d q v s1
    | 2 => execQslotUnmap d q s1
    | _ => .next s1
  else if 0x0400 ≤ off ∧ off < 0x0480 ∧ off % 8 = 0 then execLsegWrite d (BitVec.ofNat 4 ((off - 0x0400) / 8)) v s
  else if 0x0480 ≤ off ∧ off < 0x0580 ∧ off % 8 = 0 then
    execLexcWrite d (BitVec.ofNat 4 ((off - 0x0480) / 16)) (off % 16 = 8) v s
  else execRegisterWrite d (BitVec.ofNat 16 off) v s

end Sys2Proof.Machine
end

