-- ==== Sys2Proof/Machine/Messages.lean ====
section
/-! DEFINITION. Hinge messages as they arrive (R349 to R364): requests at a home and at the register space, probes, answers, remote reductions and
partials, notices and steals. -/
namespace Sys2Proof

open Sys2Proof.Machine

/-! ### Messages -/

/-- The follow count announced is another than the opcode's, or than the slots that came (R352). -/
abbrev Msg.malformed (m : Msg) (follow : Nat) : Bool := m.follow.toNat != follow || m.slots.length != follow

/-- Slot i of a message, from 1 on, as a number. -/
abbrev Msg.slot (m : Msg) (i : Nat) : Nat := (m.slots.getD (i - 1) 0).toNat

/-- Bits of a slot of a message. -/
abbrev Msg.field (m : Msg) (i lo n : Nat) : Nat := (m.slot i >>> lo) % 2 ^ n

/-- The bytes of the slots from slot i on. -/
def Msg.bytesFrom (m : Msg) (i : Nat) : List (BitVec 8) := (m.slots.drop (i - 1)).flatMap fun x => toBytes 16 x.toNat

/-- The sender of a message is an edge die's agent. -/
abbrev Msg.edge (m : Msg) : Bool := decide (32 ≤ m.site.toNat)

/-- A compute die's answer to a message, with source and destination exchanged and its transaction (R351). -/
def Msg.answer (m : Msg) (cls : BitVec 3) (op : BitVec 5) (payload : Nat) (slots : List (BitVec 128)) (epoch : Nat := 0) : Packet :=
  let a : Msg := { follow := BitVec.ofNat 3 slots.length, scope := m.scope, dst := m.src, src := m.dst, site := 0,
                   epoch := BitVec.ofNat 16 epoch, txn := m.txn, payload := BitVec.ofNat 64 payload, slots := slots }
  ⟨cls, op, a⟩

/-- ERR with a cause code (R352). -/
abbrev Msg.errAnswer (m : Msg) (cause : Nat) : Packet := m.answer 2 4 cause []

/-- ACK (R194, R352): the home's counter at the application and the residual wait; a port die's acknowledgement carries the wait alone (R362). -/
def Msg.ack (m : Msg) (s : State) (vis : Nat) : Packet :=
  let a := s.now m.dst.toNat
  let port := m.edge && (s.site (m.site.toNat - 32)).type == 1
  m.answer 2 0 (if port then 0 else a) [BitVec.ofNat 128 (vis - a)]

/-- DATA (R195, R352): a line, the stamp and the expiry as offsets from the home's counter. -/
def Msg.dataAnswer (m : Msg) (s : State) (line : List (BitVec 8)) (stamp expiry : Nat) : Packet :=
  let a := s.now m.dst.toNat
  m.answer 3 0 (a % 2 ^ 48 * 2 ^ 16 + (stamp - a) % 2 ^ 16) (dataSlots line) (expiry - a)

end Sys2Proof

namespace Sys2Proof.Machine

/-! ### Arrival -/

namespace State

/-- Messages of one class from one agent to one destination arrive in the order sent (R353): this one stands behind another. -/
def arrivesLater (s : State) (p : Packet) : Bool :=
  s.wire.contains p &&
    ((s.wire.takeWhile fun q => decide (q ≠ p)).any fun q =>
      q.cls == p.cls && q.msg.src == p.msg.src && q.msg.site == p.msg.site && q.msg.dst == p.msg.dst)

/-- A message that the receiver drops and its die manager logs (R352). -/
def dropMessage (s : State) (d : Nat) (cls op : Nat) : State := s.modDie d fun x => { x with log := x.log ++ [.droppedMessage cls op] }

/-- A message leaves the links. -/
abbrev unsend (s : State) (p : Packet) : State := { s with wire := s.wire.erase p }

end State

/-- A message of class and opcode arrives at its destination die: dropped with a wrong follow count (R352), lost at a dead die; else `f` is what it does. -/
def receive (cls : BitVec 3) (op : BitVec 5) (follow : Nat) (m : Msg) (s : State) (f : State → State) : Host.Outcome State Fault Refusal :=
  let p : Packet := ⟨cls, op, m⟩
  if s.arrivesLater p then .next s
  else
    let s1 := s.unsend p
    if m.malformed follow then .next (s1.dropMessage m.dst.toNat cls.toNat op.toNat)
    else if !s.alive m.dst.toNat then .next s1
    else .next (f s1)

/-- What a request leads to: it is served with answers or passed on, or it stays on the link until the line leaves the ACC state (R137). -/
inductive Served1 where
  | done (s : State) (answers : List Packet)
  | wait
  deriving Repr

/-- An answer that sends the request back: NACK or REMAP. Such a request has not been served (R184, R353). -/
abbrev Packet.refuses (p : Packet) : Bool := p.cls == 2 && (p.op == 1 || p.op == 2)

/-- What a request leads to goes out: an answer to the agent that sent it, a request that is passed on to the site that its address names (R362, R364). -/
def State.reply (s : State) (m : Msg) (p : Packet) : State :=
  if p.cls = 2 ∨ p.cls = 3 then s.toAgent m.site.toNat p
  else
    match regionOf p.msg.payload.toNat with
    | .siteReg i _ => s.toSite i p
    | .system md _ => match s.portFor p.msg.dst.toNat md with | some i => s.toSite i p | none => s.sendOne p
    | _ => s.sendOne p

/-- The answers to a request, and the requests passed on, go out in order. -/
def State.replies (s : State) (m : Msg) (ps : List Packet) : State := ps.foldl (fun s p => s.reply m p) s

/-- A request of class REQ or RED arrives (R353): one served within the last 65,536 ticks is answered again and not applied. -/
def request (cls : BitVec 3) (op : BitVec 5) (follow : Nat) (m : Msg) (s : State) (f : State → Served1) : Host.Outcome State Fault Refusal :=
  let d := m.dst.toNat
  receive cls op follow m s fun s1 =>
    match (s1.die d).served.find? fun x => decide (x.src = m.src.toNat) && decide (x.site = m.site.toNat) && decide (x.txn = m.txn.toNat)
        && decide (s1.now d ≤ x.time + 65536) with
    | some x => s1.replies m x.answer
    | none =>
      match f s1 with
      | .wait => if s.wire.contains ⟨cls, op, m⟩ then s else { s with wire := s.wire ++ [⟨cls, op, m⟩] }
      | .done s2 ps =>
        if ps.any Packet.refuses then s2.replies m ps
        else
          let entry : Served := ⟨m.src.toNat, m.site.toNat, m.txn.toNat, s2.now d, ps⟩
          (s2.modDie d fun x =>
            { x with served := (x.served.filter fun y => decide (s2.now d ≤ y.time + 65536)
                && !(y.src == entry.src && y.site == entry.site && y.txn == entry.txn)) ++ [entry] }).replies m ps

/-! ### Where a request goes -/

/-- What an address of a request names. -/
inductive Place1 where
  | mem (pa : Nat)
  | dieReg (d off : Nat)
  | siteReg (i off : Nat)
  /-- memory of another module, reached through a port die -/
  | away
  | bad (cause : Nat)
  deriving DecidableEq, Repr

/-- The opcodes that a host-interface die may send (R360): RDN, RD served as RDN, WR, WRM, ATM, WATCH, UNWATCH and REDU. -/
def hostMay (cls op : Nat) : Bool :=
  (cls == 0 && (op == 0 || op == 1 || op == 3 || op == 4 || op == 5 || op == 6 || op == 7)) || (cls == 4 && op == 0)

/-- The requests that carry a system-scope access of another module through a port die (R362, R363). -/
def portMay (cls op : Nat) : Bool :=
  (cls == 0 && (op == 0 || op == 1 || op == 3 || op == 4 || op == 5)) || (cls == 4 && (op == 0 || op == 1))

/-- Where the address of a request leads (R165, R360 to R364): what its sender may not reach is answered ERR with PROTECTION. -/
def placeOf (s : State) (m : Msg) (cls op : Nat) : Place1 :=
  let type := (s.site (m.site.toNat - 32)).type
  let host := m.edge && (type == 2 || type == 4)
  let port := m.edge && type == 1
  let pa := m.payload.toNat
  let memory (pa : Nat) : Place1 := match s.paFault pa with | some c => .bad c | none => .mem pa
  if 2 ^ 52 ≤ pa then .bad cPROTECTION
  else if m.edge && !(host && hostMay cls op) && !(port && portMay cls op) then .bad cPROTECTION
  else
    match regionOf pa with
    | .hbm .. => memory pa
    | .tier .. => if port then .bad cPROTECTION else memory pa
    | .system md a => if s.moduleId = some md then memory a else if port then .bad cPROTECTION else .away
    | .dieReg d off => if port ∨ off % 8 ≠ 0 then .bad cPROTECTION else if !s.alive d then .bad cDATALOSS else .dieReg d off
    | .siteReg i off => if port ∨ off % 8 ≠ 0 then .bad cPROTECTION else .siteReg i off
    | .absent => .bad cPROTECTION

/-- A request is answered REMAP with the current epoch (R183, R184, R355): one routed by an older map than the home's and the one before it, one by the map before once
the home no longer keeps that, and one by that map for a line that it gives to the retiring slice. -/
def remapDue (s : State) (m : Msg) (pa : Nat) : Bool :=
  let x := s.die (homeDie pa)
  m.epoch != x.epoch && !(m.epoch == x.epoch - 1 && (match x.retiring with | some (i, _) => i != sliceOf pa | none => false))

/-- An uncorrectable granule that a request reads, or covers in part: ERR with DATALOSS, and the error is lasting (R341, R342). -/
def Served1.loss (m : Msg) (s : State) (pa n : Nat) : Served1 :=
  .done (match (s.badGranule? pa n).or (s.badPart? pa n) with | some (d, g) => s.lasting d g | none => s) [m.errAnswer cDATALOSS]

/-- Serve a request at memory, in the epoch it carries, with what `f` does at the physical address; `reg` serves the register space. -/
def atPlace (cls op : Nat) (m : Msg) (s : State) (reg : Place1 → State → Served1) (f : Nat → State → Served1) : Served1 :=
  match placeOf s m cls op with
  | .bad c => .done s [m.errAnswer c]
  | .mem pa =>
    if remapDue s m pa then .done s [m.answer 2 2 (s.die (homeDie pa)).epoch.toNat []]
    else f pa s
  | .away =>
    match s.portFor m.dst.toNat (m.payload.toNat >>> 42 % 64) with
    | some i => .done s [⟨BitVec.ofNat 3 cls, BitVec.ofNat 5 op, { m with dst := BitVec.ofNat 6 (abutting i) }⟩]
    | none => .done s [m.errAnswer cPROTECTION]
  | p => reg p s

/-- The register space takes no other request. -/
def noReg (m : Msg) (_ : Place1) (s : State) : Served1 := .done s [m.errAnswer cPROTECTION]

/-- A read of a register (R364): its eight bytes in their line. A block of an open site is forwarded to its edge die. -/
def readReg (cls op : Nat) (m : Msg) (p : Place1) (s : State) : Served1 :=
  let line (off : Nat) (v : Word) : List (BitVec 8) := patch (List.replicate 64 0) (off % 64) (toBytes 8 v.toNat)
  match p with
  | .dieReg d off => .done s [m.dataAnswer s (line off (s.dieRegister d off)) 0 0]
  | .siteReg i off =>
    if i % 2 = 0 then .done s [m.dataAnswer s (line off (s.siteRegister i off)) 0 0]
    else .done s [⟨BitVec.ofNat 3 cls, BitVec.ofNat 5 op, { m with dst := BitVec.ofNat 6 (abutting i) }⟩]
  | _ => .done s [m.errAnswer cPROTECTION]

/-- Maximal runs of the bytes of a line that a mask selects, with their addresses. -/
def maskRuns (pa : Nat) (mask : Nat) (line : List (BitVec 8)) : List (Nat × List (BitVec 8)) :=
  byteRuns ((List.range 64).filterMap fun i => if mask.testBit i then some (pa / 64 * 64 + i, line.getD i 0) else none)

/-- A write of a register (R364): exactly its eight aligned bytes, of the line that a WR carries or that a WRM masks; the write itself is the register's own event. A block of
an open site is forwarded to its edge die as WR. -/
def writeReg (m : Msg) (mask : Nat) (line : List (BitVec 8)) (p : Place1) (s : State) : Served1 :=
  let off := m.payload.toNat % 64
  if mask ≠ 255 * 2 ^ off then .done s [m.errAnswer cPROTECTION]
  else
    match p with
    | .dieReg d o =>
      .done (s.first [⟨0, .regWrite d o (w64 (ofBytes ((line.drop off).take 8)))⟩]) [m.ack s 0]
    | .siteReg i _ =>
      if i % 2 = 0 then .done s [m.ack s 0]
      else .done s [⟨0, 3, { m with dst := BitVec.ofNat 6 (abutting i), follow := 4, slots := dataSlots line }⟩]
    | _ => .done s [m.errAnswer cPROTECTION]

/-! ### Reads at a home -/

/-- A line as a request reads it, with its stamp in home ticks. -/
def homeLine (s : State) (pa : Nat) : List (BitVec 8) × Nat := s.homeRead (homeDie pa) (pa / 64 * 64) 64

/-- A read of a line without a lease (R181, R355). -/
def serveRdn (m : Msg) (pa : Nat) (s : State) : Served1 :=
  if s.isAcc (pa / 64) then .wait
  else if s.anyBad (pa / 64 * 64) 64 then .loss m s (pa / 64 * 64) 64
  else
    let s1 := s.scrub (pa / 64 * 64) 64
    let (line, stamp) := homeLine s1 pa
    .done s1 [m.dataAnswer s1 line stamp 0]

/-- A read with a lease over the line (R191): none where a window owns some of its words. -/
def serveRd (m : Msg) (pa : Nat) (s : State) : Served1 :=
  let h := homeDie pa
  let l := pa / 64
  if m.edge ∨ s.anyOwned (64 * l) 64 then serveRdn m pa s
  else if s.isAcc l then .wait
  else if s.anyBad (64 * l) 64 then .loss m s (64 * l) 64
  else
    let s1 := s.scrub (64 * l) 64
    let (line, stamp) := homeLine s1 pa
    let (e, rs) := grantLease (s1.liveLeases l) (s1.now h) 0 15
    .done (s1.setDir l { s1.dirLine l with leases := rs }) [m.dataAnswer s1 line stamp e]

/-- RD (R191, R352). -/
def execRd (m : Msg) (s : State) : Host.Outcome State Fault Refusal :=
  request 0 0 0 m s fun s => atPlace 0 0 m s (readReg 0 1 m) (serveRd m)

/-- RDN (R181, R352). -/
def execRdn (m : Msg) (s : State) : Host.Outcome State Fault Refusal :=
  request 0 1 0 m s fun s => atPlace 0 1 m s (readReg 0 1 m) (serveRdn m)

/-- RDO (R171, R172): the words of the mask are claimed for a window of the source die, whose core and stash line stand in slot 1 above the mask
(notes/assumptions/16.md). -/
def execRdo (m : Msg) (s : State) : Host.Outcome State Fault Refusal :=
  request 0 2 1 m s fun s => atPlace 0 2 m s (noReg m) fun pa s =>
    let l := pa / 64
    if m.edge then .done s [m.errAnswer cPROTECTION]
    else if s.isAcc l then .wait
    else if s.anyBad (64 * l) 64 then .loss m s (64 * l) 64
    else
      let s0 := s.scrub (64 * l) 64
      let s1 := ((List.range 16).filter fun i => (m.slot 1).testBit i).foldl (fun s i =>
        s.claimWord m.src.toNat (m.field 1 16 7) (m.field 1 32 32) (64 * l + 4 * i)) s0
      .done s1 [m.dataAnswer s1 (s1.homeBytes (64 * l) 64) (s1.spanExpiry l 0 15) 0]

/-! ### Writes at a home -/

/-- Runs of bytes written at their home as one request (R193): the state and the visibility time in home ticks. -/
def writeRuns (s : State) (runs : List (Nat × List (BitVec 8))) : State × Nat :=
  runs.foldl (fun acc r =>
    let (s', v) := acc.1.homeWrite1 (homeDie r.1) r.1 r.2
    (s', max acc.2 v)) (s, 0)

/-- Serve a write of the bytes of a line that a mask selects: a line in the ACC state refuses it (R137), and so does a granule with bad check bits
that it covers in part (R342). -/
def serveWrite (m : Msg) (mask : Nat) (line : List (BitVec 8)) (pa : Nat) (s : State) : Served1 :=
  let runs := maskRuns pa mask line
  if s.isAcc (pa / 64) then .done s [m.errAnswer cPROTECTION]
  else
    match runs.find? fun r => (s.badPart? r.1 r.2.length).isSome with
    | some r => .loss m s r.1 r.2.length
    | none =>
      let (s1, vis) := writeRuns s runs
      .done s1 [m.ack s1 vis]

/-- WR (R193, R352). -/
def execWr (m : Msg) (s : State) : Host.Outcome State Fault Refusal :=
  let line := m.bytesFrom 1
  request 0 3 4 m s fun s => atPlace 0 3 m s (writeReg m (255 * 2 ^ (m.payload.toNat % 64)) line) (serveWrite m (2 ^ 64 - 1) line)

/-- WRM (R193, R352). -/
def execWrm (m : Msg) (s : State) : Host.Outcome State Fault Refusal :=
  let line := m.bytesFrom 2
  let mask := m.field 1 0 64
  request 0 4 5 m s fun s => atPlace 0 4 m s (writeReg m mask line) (serveWrite m mask line)

/-- WB (R173): the words come from the window that owns them, so nothing is recalled. Words of an ACC line are discarded, and reported for the window (R137). -/
def execWb (m : Msg) (s : State) : Host.Outcome State Fault Refusal :=
  let line := m.bytesFrom 2
  request 0 8 5 m s fun s => atPlace 0 8 m s (noReg m) fun pa s =>
    let ws := (List.range 16).filter fun i => (m.slot 1).testBit i
    if m.edge then .done s [m.errAnswer cPROTECTION]
    else if s.isAcc (pa / 64) then
      .done (match ws.findSome? fun i => (s.ownerOf (pa / 64) i).map fun o => (o, i) with
        | some (o, i) => (s.lineWindow (coreKey o.die o.core) o.line).elim s fun w =>
            let at_ := State.wordIndex (s.stashLine (coreKey o.die o.core) o.line).pas (pa / 64 * 64 + 4 * i)
            s.first [⟨0, .discard o.die o.core w.grid w.team ((w.wordVa (32 * o.line + 4 * at_)).getD 0)⟩]
        | none => s) [m.ack s 0]
    else
      let (s1, vis) := ws.foldl (fun (acc : State × Nat) i =>
        let (s', v) := acc.1.applyAtHome (homeDie pa) (pa / 64 * 64 + 4 * i) ((line.drop (4 * i)).take 4)
        (s', max acc.2 v)) (s, 0)
      .done s1 [m.ack s1 vis]

/-- ATM (R218, R352): slot 2 holds the operation in bits 2:0, ATOMC in bit 3 and the 32-bit width in bit 4; the answer is the line before it, with the residual wait of
the write where a leased line has its expiry (R194; notes/assumptions/16.md). -/
def execAtm (m : Msg) (s : State) : Host.Outcome State Fault Refusal :=
  request 0 5 2 m s fun s => atPlace 0 5 m s (noReg m) fun pa s =>
    let w32 := (m.slot 2).testBit 4
    let n := if w32 then 4 else 8
    if s.isAcc (pa / 64) then .wait
    else if pa % n ≠ 0 then .done s [m.errAnswer cPROTECTION]
    else
      let s0 := (s.scrub (pa / 64 * 64) 64).recallSpan pa n
      if s0.anyBad (pa / 64 * 64) 64 then .loss m s0 (pa / 64 * 64) 64
      else
      let (line, stamp) := homeLine s0 pa
      let old := (line.drop (pa % 64)).take n
      let (s1, vis) :=
        match atomUpdate (m.field 2 0 4) w32 (w64 (m.field 1 0 64)) (w64 (m.field 1 64 64)) old with
        | some new => s0.homeWrite1 (homeDie pa) pa new
        | none => (s0, 0)
      .done s1 [m.dataAnswer s1 line stamp vis]

/-! ### Watches -/

/-- WATCH (R278): the home keeps the watch, and every later write to the word sends a WATCHV; the width stands in slot 1 bit 67 (notes/assumptions/16.md). -/
def execWatch (m : Msg) (s : State) : Host.Outcome State Fault Refusal :=
  request 0 6 1 m s fun s => atPlace 0 6 m s (noReg m) fun pa s =>
    let w : Watch := { pa := pa, th := 0, cond := 0, src := m.src.toNat, site := m.site.toNat, txn := m.txn.toNat, remote := true, w32 := (m.slot 1).testBit 67 }
    .done (s.modDie (homeDie pa) fun x => { x with watches := x.watches ++ [w] }) []

/-- UNWATCH (R352). -/
def execUnwatch (m : Msg) (s : State) : Host.Outcome State Fault Refusal :=
  request 0 7 0 m s fun s => atPlace 0 7 m s (noReg m) fun pa s =>
    .done (s.modDie (homeDie pa) fun x =>
      { x with watches := x.watches.filter fun w => !(w.remote && w.pa == pa && w.src == m.src.toNat && w.site == m.site.toNat) })
      [m.answer 2 3 0 []]

/-- WATCHV (R278, R350): the word's new value reaches the condition whose watch bears the transaction. -/
def execWatchv (m : Msg) (s : State) : Host.Outcome State Fault Refusal :=
  receive 5 5 0 m s fun s =>
    match (s.die m.src.toNat).watches.find? fun w => !w.remote && w.txn == m.txn.toNat
        && decide (((s.th? w.th).getD noThread).die = m.dst.toNat) with
    | none => s
    | some w =>
      let d := ((s.th? w.th).getD noThread).die
      let i := w.pa % 64 / 4
      checkWaitc (s.deliverWatch w.th w.cond m.payload (s.stampFor (w.pa / 64) (s.spanStamp (w.pa / 64) i i) d)) w.th

/-! ### Owning dies -/

/-- The words of a line that stashes of a die own, among those of a mask. -/
def ownedWords (s : State) (die l mask : Nat) : List Nat :=
  (List.range 16).filter fun i => mask.testBit i && ((s.ownerOf l i).map (·.die)) == some die

/-- PROBE (R172): the owning die returns the owned words of the mask; it keeps them. -/
def execProbe (m : Msg) (s : State) : Host.Outcome State Fault Refusal :=
  receive 1 0 1 m s fun s =>
    let l := m.payload.toNat % 2 ^ 52 / 64
    let ws := ownedWords s m.dst.toNat l (m.field 1 0 16)
    let line := (List.range 64).map fun b => if ws.contains (b / 4) then s.probeByte (64 * l + b) else 0
    s.send [m.answer 3 1 0 (dataSlots line)]

/-- RECALL (R172): the stash lines that own words of the mask write back, release their ownership and lose their presence. -/
def execRecall (m : Msg) (s : State) : Host.Outcome State Fault Refusal :=
  receive 1 1 1 m s fun s =>
    let l := m.payload.toNat % 2 ^ 52 / 64
    let s1 := (ownedWords s m.dst.toNat l (m.field 1 0 16)).foldl (fun s i =>
      match s.ownerOf l i with
      | some o => if o.die = m.dst.toNat then s.recallLine o.die o.core o.line else s
      | none => s) s
    s1.send [m.answer 2 3 0 []]

/-! ### Answers at the requester -/

/-- The request that an answer is for: it bears the transaction, its die is the answer's destination, and it went to the answer's source. -/
def pendingFor (s : State) (m : Msg) : Option Pending :=
  match AMap.get? s.pending m.txn.toNat with
  | some p => if p.packet.msg.src = m.dst ∧ p.packet.msg.dst = m.src ∧ p.reply = none then some p else none
  | none => none

/-- An answer comes back: the access that waits for it can complete. For the write of a completion word nothing waits (R248). -/
def giveReply (s : State) (txn : Nat) (p : Pending) (data : List (BitVec 8)) (err : Option Nat) (stamp : Nat := 0) : State :=
  if p.op = some 0 then { s with pending := AMap.del s.pending txn }
  else { s with pending := AMap.put s.pending txn { p with reply := some ⟨p.pa, data, err, stamp⟩ } }

/-- The request went beyond the module or to an edge die, whose times are not those of a home (R194, R360 to R362). -/
def Pending.beyond (p : Pending) : Bool := match regionOf p.pa with | .system .. => true | .siteReg .. => true | _ => false

/-- A time of a home whose low 48 bits are a, in ticks of die d, where it lies nearest to the present one (R352). -/
def widen (s : State) (h a : Nat) : Nat :=
  let now := s.now h
  let b := now / 2 ^ 48 * 2 ^ 48 + a % 2 ^ 48
  let far (x : Nat) : Nat := (now - x) + (x - now)
  [b - 2 ^ 48, b + 2 ^ 48].foldl (fun m x => if far x < far m then x else m) b

/-- A write of an agent whose answer has come is visible by a time of its die (R194): its thread's horizon rises, or its operation's (R209). -/
def noteAnswered (s : State) (p : Pending) (d vis : Nat) : State :=
  match p.op with
  | none => s.raiseHor d p.th vis
  | some k => { s with cores := s.cores.map fun c => (c.1, { c.2 with ops := c.2.ops.map fun o => if o.key = k then { o with vis := max o.vis vis } else o }) }

/-- ACK (R194): the write is visible from the acknowledgement's arrival, or Conv of the home's counter with the residual wait; beyond the module, the residual wait after
the arrival. -/
def execAck (m : Msg) (s : State) : Host.Outcome State Fault Refusal :=
  receive 2 0 1 m s fun s =>
    match pendingFor s m with
    | none => s
    | some p =>
      let d := m.dst.toNat
      let r := m.field 1 0 32
      let vis := if p.beyond then s.now d + r else max (s.now d) (s.conv m.payload.toNat m.src.toNat d + r)
      noteAnswered (giveReply s m.txn.toNat p [] none) p d vis

/-- NACK (R144): the request is sent again after at least 64 cycles. -/
def execNack (m : Msg) (s : State) : Host.Outcome State Fault Refusal :=
  receive 2 1 0 m s fun s =>
    match pendingFor s m with
    | none => s
    | some _ => { s.freshen with nacked := AMap.put s.nacked s.fresh (s.tenths m.dst.toNat, .request m.txn.toNat) }

/-- REMAP (R184): the requester takes the new epoch and sends the request again under it. -/
def execRemap (m : Msg) (s : State) : Host.Outcome State Fault Refusal :=
  receive 2 2 0 m s fun s =>
    let e := BitVec.ofNat 16 m.payload.toNat
    let s1 := s.modDie m.dst.toNat fun x => { x with known := AMap.put x.known m.src.toNat e }
    match pendingFor s1 m with
    | none => s1
    | some p =>
      let q : Packet := { p.packet with msg := { p.packet.msg with epoch := e } }
      { s1 with pending := AMap.put s1.pending m.txn.toNat { p with packet := q } }.toSite p.site q

/-- DONE (R352). -/
def execDone (m : Msg) (s : State) : Host.Outcome State Fault Refusal :=
  receive 2 3 0 m s fun s =>
    match pendingFor s m with
    | none => s
    | some p => giveReply s m.txn.toNat p [] none

/-- ERR (R352): the access takes its cause. -/
def execErr (m : Msg) (s : State) : Host.Outcome State Fault Refusal :=
  receive 2 4 0 m s fun s =>
    match pendingFor s m with
    | none => s
    | some p => giveReply s m.txn.toNat p [] (some (m.payload.toNat % 256))

/-- DATA (R195, R352): the line, with its stamp in the requester's ticks; beyond the module, as far after the arrival as the answer says (R360). An answer to RDN brings no
lease (R355), and one to ATM the residual wait of its write (R194). -/
def execData (m : Msg) (s : State) : Host.Outcome State Fault Refusal :=
  receive 3 0 4 m s fun s =>
    match pendingFor s m with
    | none => s
    | some p =>
      let d := m.dst.toNat
      let h := m.src.toNat
      let off := m.payload.toNat % 2 ^ 16
      let stamp := if off = 0 then 0 else if p.beyond then s.now d + off else s.conv (widen s h (m.payload.toNat / 2 ^ 16) + off) h d
      let s1 := giveReply s m.txn.toNat p (m.bytesFrom 1) none stamp
      if p.packet.cls = 0 ∧ p.packet.op = 5 then
        let r := m.epoch.toNat
        noteAnswered s1 p d (if p.beyond then s.now d + r else max (s.now d) (s.conv (widen s h (m.payload.toNat / 2 ^ 16)) h d + r))
      else s1

/-- PDATA (R172, R352). -/
def execPdata (m : Msg) (s : State) : Host.Outcome State Fault Refusal :=
  receive 3 1 4 m s fun s =>
    match pendingFor s m with
    | none => s
    | some p => giveReply s m.txn.toNat p (m.bytesFrom 1) none

/-! ### Reductions of other agents -/

/-- REDU (R219, R352): operand, operation and width as redRequest lays them out. -/
def execRedu (m : Msg) (s : State) : Host.Outcome State Fault Refusal :=
  request 4 0 2 m s fun s => atPlace 4 0 m s (noReg m) fun pa s =>
    let op := m.field 2 0 4
    let fl := redIsVf op
    let operand := toBytes 16 (m.slot 1) ++ toBytes 8 (m.field 2 64 64)
    let n := if fl then 2 * headerClass (ofBytes (s.homeRead (homeDie pa) pa 2).1) + 4 else if (m.slot 2).testBit 4 then 4 else 8
    if s.isAcc (pa / 64) then .done s [m.errAnswer cPROTECTION]
    else if pa % (if fl then 2 else n) ≠ 0 then .done s [m.errAnswer cPROTECTION]
    else
      let ps := State.linePieces (n / 64 + 2) pa n
      let s0 := s.readyRmw ps
      if s0.anyBad pa n then .loss m s0 pa n
      else
      let new := (reduceBytes op (s0.homeBytes pa n) (vfOfBytes operand) (w64 (m.field 1 0 64))).1
      let (s1, vis) := writeRuns s0 (ps.map fun p => (p.1, (new.drop (p.1 - pa)).take p.2))
      .done s1 [m.ack s1 vis]

/-- REDW (R144, R220): applied and acknowledged, held until its turn, refused for want of an entry, or out of order. -/
def execRedw (m : Msg) (s : State) : Host.Outcome State Fault Refusal :=
  request 4 1 2 m s fun s => atPlace 4 1 m s (noReg m) fun pa s =>
    let ord := m.field 2 0 16
    let w := pa / 64 * 64 + m.field 2 16 6
    let v := vfOfBytes (toBytes 16 (m.slot 1) ++ toBytes 8 (m.field 2 64 64))
    let n := 2 * headerClass (ofBytes (s.homeRead (homeDie pa) pa 2).1) + 4
    if s.isAcc (pa / 64) then .done s [m.errAnswer cPROTECTION]
    else if pa % 2 ≠ 0 ∨ w % 8 ≠ 0 ∨ 64 < pa % 64 + n ∨ (pa < w + 8 ∧ w < pa + n) then .done s [m.errAnswer cPROTECTION]
    else
      let s := redoReady s pa w
      if s.anyBad (pa / 64 * 64) 64 then .loss m s (pa / 64 * 64) 64
      else
      let (s1, r) := redoArrive s pa w ord v noIssuer 0
      match r with
      | .applied vis => .done s1 [m.ack s1 vis]
      | .held => .done (s1.modDie (homeDie pa) fun x => { x with owed := x.owed ++ [(w, ord, m.site.toNat, m.ack s1 0)] }) []
      | .nack => .done s1 [m.answer 2 1 0 []]
      | .order => .done s1 [m.errAnswer cASYNC]

/-- The elements that a partial message carries for a line of a tile (R142): each stands at its own place of the line; of one that runs over the line's end
the rest stands in slot 1 from bit 64 on (notes/assumptions/16.md). -/
def partElems (t : TileId) (vl : Nat) (m : Msg) : List (Nat × Vf) :=
  let desc : Desc := #v[0, 0, t.cbase, 0, w64 (t.cls * 2 ^ 48 + t.cstride.toNat), 0]
  let line := m.bytesFrom 2 ++ toBytes 8 (m.field 1 64 64)
  (List.range 2048).filterMap fun i =>
    let a := Desc.elem desc (i / 32) (i % 32)
    if a.toNat / 64 = vl then some (a.toNat % 64, vfOfBytes ((line.drop (a.toNat % 64)).take (2 * t.cls + 4))) else none

/-- PART (R142, R144): applied in ordinal order, held, or refused. -/
def execPart (m : Msg) (s : State) : Host.Outcome State Fault Refusal :=
  request 4 2 5 m s fun s => atPlace 4 2 m s (noReg m) fun pa s =>
    let pl := pa / 64
    match (s.dirLine pl).acc with
    | none => .done s [m.errAnswer cPROTECTION]
    | some c =>
      let g := { s.gridAgent c.grid m.dst.toNat with asid := c.tile.asid }
      let desc : Desc := #v[0, 0, c.tile.cbase, 0, w64 (c.tile.cls * 2 ^ 48 + c.tile.cstride.toNat), 0]
      match tryA (mapTile desc c.tile.kind g) s with
      | none => .done s [m.errAnswer cPROTECTION]
      | some (lines, s0) =>
        match lines.find? fun p => p.2 == pl with
        | none => .done s [m.errAnswer cPROTECTION]
        | some (vl, _) =>
          let ord := m.field 1 0 16
          let (s1, r) := partArrive s0 c.tile lines pl ord (partElems c.tile vl m) 0
          match r with
          | .applied => .done (settleOrdered s1 c.tile) [m.ack s1 0]
          | .held => .done (s1.modDie (homeDie pa) fun x => { x with owed := x.owed ++ [(64 * pl, ord, m.site.toNat, m.ack s1 0)] }) []
          | .nack => .done s1 [m.answer 2 1 0 []]
          | .fail _ => .done s1 [m.errAnswer cASYNC]

/-! ### Epochs and steals -/

/-- EPOCH (R184, step 2): the receiver learns the sender's new epoch. -/
def execEpoch (m : Msg) (s : State) : Host.Outcome State Fault Refusal :=
  receive 5 4 0 m s fun s =>
    s.modDie m.dst.toNat fun x => { x with known := AMap.put x.known m.src.toNat (BitVec.ofNat 16 m.payload.toNat) }

/-- A STEAL that answers, one interval of cohorts each: first, and one past the last. -/
def stealAnswer (m : Msg) (r : Nat × Nat) : Packet :=
  m.answer 5 6 (m.payload.toNat % 2 ^ 32) [BitVec.ofNat 128 (r.1 + r.2 * 2 ^ 64)]

/-- The victim of a steal, in one step: the highest-numbered half of its undispatched cohorts leaves its range for the thief's (R254, step 2). -/
def giveCohorts (s : State) (gid d thief : Nat) : State × List (Nat × Nat) :=
  match (s.grid? gid).filter fun g => g.started && !g.aborted && bitAt g.dmask d with
  | none => (s, [])
  | some g =>
    let (low, high) := splitTop (rangeCount (g.left d) / 2) (g.left d)
    if high = [] then (s, [])
    else (s.setGrid gid { g with ranges := AMap.put g.ranges d low, moving := g.moving ++ high.map fun r => (thief, r) }, high)

/-- The thief takes a range that is on its way to it (R254, step 3); with the last one of a grid, or an empty one, its question is answered. -/
def takeCohorts (s : State) (gid d : Nat) (r : Nat × Nat) : State :=
  let answered (s : State) : State := s.modDie d fun x => { x with asking := x.asking.filter (· ≠ gid) }
  match s.grid? gid with
  | none => answered s
  | some g =>
    let s1 := if g.moving.contains (d, r) then
        s.setGrid gid { g with ranges := if g.aborted then g.ranges else AMap.put g.ranges d (g.left d ++ [r]), moving := g.moving.erase (d, r) }
      else s
    if (((s1.grid? gid).map (·.moving)).getD []).any fun x => x.1 == d then s1 else answered s1

/-- STEAL (R253, R254): a request makes the victim give up half of its undispatched cohorts; an answer adds its range to the thief's. -/
def execSteal (m : Msg) (s : State) : Host.Outcome State Fault Refusal :=
  receive 5 6 1 m s fun s1 =>
    let gid := m.payload.toNat % 2 ^ 32
    let d := m.dst.toNat
    if m.slot 1 = 0 then
      let (s2, high) := giveCohorts s1 gid d m.src.toNat
      s2.send (if high = [] then [stealAnswer m (1, 1)] else high.map (stealAnswer m))
    else takeCohorts s1 gid d (m.field 1 0 64, m.field 1 64 64)

/-- DROPPED_MESSAGE (R352): an undefined opcode, or another follow count than the one listed, is dropped and logged. -/
def execDroppedMessage (die : DieId) (cls : BitVec 3) (op : BitVec 5) (follow : BitVec 3) (s : State) : Host.Outcome State Fault Refusal :=
  let listed : Option Nat :=
    match cls.toNat with
    | 0 => [0, 0, 1, 4, 5, 2, 1, 0, 5][op.toNat]?
    | 1 => [1, 1][op.toNat]?
    | 2 => [1, 0, 0, 0, 0][op.toNat]?
    | 3 => [4, 4][op.toNat]?
    | 4 => [2, 2, 5][op.toNat]?
    | 5 => [2, 0, 0, 0, 0, 0, 1, 4, 0, 0, 0][op.toNat]?
    | _ => none
  .next (if listed = some follow.toNat then s else s.dropMessage die.toNat cls.toNat op.toNat)

/-! ### Requests that are not answered -/

/-- A site fails (R358, R361): its entry is marked, and what waits for it takes DATALOSS: a request's own access from its answer, an access that its home slice's request
holds back when it comes to the range again. -/
def failSite (s : State) (i : Nat) : State :=
  let s1 := s.setSite i { s.site i with type := 15, queued := [] }
  { s1 with pending := (s1.pending.filter fun p => !(p.2.site == i && p.2.op == some 0)).map fun p =>
      (p.1, if p.2.site = i ∧ p.2.reply = none then { p.2 with reply := some ⟨p.2.pa, [], some cDATALOSS, 0⟩ } else p.2) }

/-- MCAST_TIMEOUT (R363): a system-scope access without an answer for 1 ms raises MCAST. -/
def execMcastTimeout (th : Nat) (s : State) : Host.Outcome State Fault Refusal :=
  .next { s with pending := s.pending.map fun p =>
    (p.1, match regionOf p.2.pa with
      | .system .. =>
        if p.2.th = th ∧ p.2.reply = none ∧ p.2.since + 1000000 ≤ s.now p.2.packet.msg.src.toNat then
          { p.2 with reply := some ⟨p.2.pa, [], some cMCAST, 0⟩ }
        else p.2
      | _ => p.2) }

end Sys2Proof.Machine
end

