-- ==== Sys2Proof/Machine/Discovery.lean ====
section
/-! DEFINITION. Discovery and boot: HELLO, the anchor's election, coordinates, counter offsets, routes, the firmware image, the wipe of second-tier memory
and the topology table (R305, R309, R312, R354, R357 to R361, R370 to R373). -/
namespace Sys2Proof.Machine

/-! ### Links and routes (R354) -/

namespace State

/-- The link in a direction carries traffic to a live die. -/
def openLink (s : State) (d dir : Nat) : Option Nat :=
  (neighbour d dir).bind fun e => if s.alive d && s.alive e && s.linkLive d e then some e else none

/-- The live dies. -/
abbrev liveDies (s : State) : List Nat := (List.range 64).filter fun d => s.alive d

end State

/-- The direction that a message takes first along x and then along y (R354). -/
def xyDir (a d : Nat) : Option Nat :=
  if a % 8 < d % 8 then some 1
  else if d % 8 < a % 8 then some 3
  else if a / 8 < d / 8 then some 2
  else if d / 8 < a / 8 then some 0
  else none

/-- The directions from die a to die d along x, then y; none where a link or die on the way is dead. -/
def xyRoute (s : State) (d : Nat) : Nat → Nat → Option (List Nat)
  | 0, _ => none
  | f + 1, a =>
    match xyDir a d with
    | none => some []
    | some dir => (s.openLink a dir).bind fun e => (xyRoute s d f e).map (dir :: ·)

/-- One more round of distances to a die over west-first paths: without a west hop, and with west hops still allowed. -/
def spreadDists (s : State) (free west : List (Option Nat)) : List (Option Nat) × List (Option Nat) :=
  let least (old : Option Nat) (new : Option Nat) : Option Nat :=
    match old, new with
    | some a, some b => some (min a (b + 1))
    | none, some b => some (b + 1)
    | a, none => a
  let via (table : List (Option Nat)) (a dir : Nat) : Option Nat := (s.openLink a dir).bind fun e => table.getD e none
  let free' := (List.range 64).map fun a => [0, 2, 1].foldl (fun m dir => least m (via free a dir)) (free.getD a none)
  let west' := (List.range 64).map fun a =>
    least ([0, 2, 1].foldl (fun m dir => least m (via free a dir)) (west.getD a none)) (via west a 3)
  (free', west')

/-- Distances to die d after n rounds. -/
def distsTo (s : State) (d : Nat) : Nat → List (Option Nat) × List (Option Nat)
  | 0 => ((List.range 64).map fun a => if a = d then some 0 else none, (List.range 64).map fun a => if a = d then some 0 else none)
  | n + 1 =>
    let (f, w) := distsTo s d n
    spreadDists s f w

/-- The shortest west-first route from a to d, with the first live link in the order W, N, S, E that stays on one (R354). -/
def detour (s : State) (d : Nat) (free west : List (Option Nat)) : Nat → Bool → Nat → List Nat
  | 0, _, _ => []
  | f + 1, mayWest, a =>
    if a = d then []
    else
      let here := (if mayWest then west else free).getD a none
      let on (dir : Nat) : Bool :=
        match s.openLink a dir with
        | none => false
        | some e =>
          let there := (if dir = 3 then west else free).getD e none
          (dir != 3 || mayWest) && (match here, there with | some x, some y => decide (y + 1 = x) | _, _ => false)
      match [3, 0, 2, 1].find? on with
      | none => []
      | some dir => dir :: detour s d free west f (mayWest && dir == 3) ((s.openLink a dir).getD a)

/-- The dies that a route passes, from its source on. -/
def routeDies : Nat → List Nat → List Nat
  | a, [] => [a]
  | a, dir :: rest => a :: routeDies ((neighbour a dir).getD a) rest

/-- The worst one-way latency of a route (R372): the measured link times, and 8 ticks for each die that a hop crosses into, as R377's run has it: 32 + 8 for one hop. -/
def routeLatency (ds : List Nat) : Nat :=
  ((ds.zip (ds.drop 1)).map fun p => Config.linkTime p.1 p.2).foldl (· + ·) 0 + 8 * (ds.length - 1)

/-- A route of a pair: its directions and whether it is a detour; none where no west-first path is left. -/
def routeOf (s : State) (a d : Nat) (free west : List (Option Nat)) : Option (List Nat × Bool) :=
  match xyRoute s d 16 a with
  | some r => some (r, false)
  | none => if (west.getD a none).isNone then none else some (detour s d free west 64 true a, true)

/-- The die that a live die cannot reach: first one that the anchor cannot reach, or that cannot reach the anchor (notes/assumptions/16.md). -/
def cutOff (s : State) (anchor : Nat) : Option Nat :=
  let live := s.liveDies
  let reach (a d : Nat) : Bool := (xyRoute s d 16 a).isSome || ((distsTo s d 64).2.getD a none).isSome
  match live.find? fun d => d != anchor && !(reach anchor d && reach d anchor) with
  | some d => some d
  | none => live.find? fun d => d != anchor && live.any fun a => !reach a d

namespace State

/-- Every grid with a thread on a dead die ends as under ABORT (R357), and the die's threads run no further. -/
def loseDie (s : State) (d : Nat) : State :=
  let s1 := s.modDie d fun x => { x with life := .dead }
  let here := s1.threads.filter fun p => p.2.die == d && p.2.status != .ended
  let s2 := (here.map fun p => p.2.grid).foldl (fun s g => s.abortGrid g) s1
  here.foldl (fun s p => s.dropThread p.1) s2

/-- Dies that are cut off are marked dead, one after another. -/
def loseCutOff (s : State) (anchor : Nat) : Nat → State
  | 0 => s
  | n + 1 =>
    match cutOff s anchor with
    | some d => loseCutOff (s.loseDie d) anchor n
    | none => s

/-- The anchor computes the routes and the pair table (R354, R370, R372). -/
def computeRoutes (s : State) (anchor : Nat) : State :=
  let s1 := s.loseCutOff anchor 64
  let live := s1.liveDies
  let all := live.flatMap fun d =>
    let broken := live.any fun a => (xyRoute s1 d 16 a).isNone
    let (free, west) := if broken then distsTo s1 d 64 else ([], [])
    live.filterMap fun a => (routeOf s1 a d free west).map fun r => (64 * a + d, r, routeLatency (routeDies a r.1))
  { s1 with pairs := all.foldl (fun m x => AMap.put m x.1 (x.2.1.1.length, x.2.1.2, x.2.2)) [],
            routes := (all.filter fun x => x.2.1.2).foldl (fun m x => AMap.put m x.1 x.2.1.1) [] }

end State

/-! ### The firmware image (R304, R305, R312) -/

/-- The first check of R305 that an image fails on a die; none where it passes all. -/
def imageFault (s : State) (d : Nat) (img : List (BitVec 8)) : Option Nat :=
  let x := s.die d
  let num (lo n : Nat) : Nat := ofBytes ((img.drop lo).take n)
  let key := beNat (sha512 ((img.drop 64).take 576))
  if img.take 8 ≠ [0x4C, 0x56, 0x58, 0x2D, 0x36, 0x34, 0x30, 0x38] ∨ num 8 4 ≠ 1 then some 1
  else if num 16 8 % 64 ≠ 0 ∨ 2 ^ 26 < num 16 8 ∨ img.length ≠ 1152 + num 16 8 ∨ num 24 40 ≠ 0 ∨ num 580 60 ≠ 0 then some 2
  else if key ≠ x.keyHash.toNat ∧ ¬(x.lcstate = 0 ∧ key = x.testHash.toNat) then some 3
  else if num 576 4 ≠ 65537 then some 4
  else if !pssVerify (beNat ((img.drop 64).take 512)) 65537 (img.take 640 ++ img.drop 1152) ((img.drop 640).take 512) then some 5
  else if num 12 4 < x.minSvn.toNat then some 6
  else none

namespace State

/-- The chunks fetched, in ascending offset. -/
def fetchedImage (s : State) : List (BitVec 8) := s.image.flatMap (·.2)

/-- How many chunks from offset 0 on have come without a gap. -/
def imagePrefix (m : AMap (List (BitVec 8))) : Nat → Nat
  | k =>
    match m with
    | [] => k
    | (o, _) :: rest => if o = 64 * k then imagePrefix rest (k + 1) else k

/-- The odd site that a die abuts. -/
def oddSite (d : Nat) : Nat := ((List.range 32).find? fun i => i % 2 == 1 && abutting i == d).getD 32

/-- An IMGREQ to the anchor's host die (R312). -/
def imgRequest (a off : Nat) : Packet :=
  let m : Msg := { dst := BitVec.ofNat 6 a, src := BitVec.ofNat 6 a, payload := BitVec.ofNat 64 off }
  ⟨5, 10, m⟩

/-- Requests go out in ascending offset, at most 16 outstanding: the header first, then the body (R312, step 2). -/
def pumpImage (a : Nat) : Nat → State → State
  | 0, s => s
  | f + 1, s =>
    if s.imgNext / 64 - s.image.length < 16 ∧ s.imgNext < s.imgLen.getD 1152 then
      pumpImage a f { s.toSite (oddSite a) (imgRequest a s.imgNext) with imgNext := s.imgNext + 64, imgTries := AMap.put s.imgTries s.imgNext (0, s.time) }
    else s

/-- The fetch begins from offset 0 (R312). -/
def startFetch (s : State) (a : Nat) : State :=
  pumpImage a 16
    { s with image := [], imgNext := 0, imgLen := none, imgTries := [], boot := .starting,
             dies := s.dies.map fun p => (p.1, { p.2 with imageCheck := none }) }

/-- A die has the whole image and checks it: the die manager reports the check that fails (R305). -/
def checkImage (s : State) (d : Nat) : State :=
  let n := (imageFault s d s.fetchedImage).getD 0
  s.modDie d fun x => { x with imageCheck := some n, log := if n = 0 then x.log else x.log ++ [.imageCheck n] }

/-- A live die's counter has been measured against a neighbour of the tree (R370, step 5; R371). -/
def measured (s : State) (anchor d : Nat) : Bool :=
  d == anchor || (List.range 64).any fun e => decide (1024 ≤ ((AMap.get? (s.die e).timex d).getD []).length)

/-- The median of a list of exchanges: the element with as many below it as above (R371). Of an even number of them it is the upper one of the middle (notes/assumptions/16.md). -/
def median (xs : List Int) : Int :=
  (xs.find? fun x => decide ((xs.filter (· < x)).length ≤ xs.length / 2) && decide (xs.length / 2 < (xs.filter (· ≤ x)).length)).getD 0

/-- How far a die's counter stands from the anchor's: the medians of the tree edges from the anchor on (R371). -/
def measuredOff (s : State) (anchor : Nat) : Nat → Nat → Int
  | 0, _ => 0
  | f + 1, d =>
    if d = anchor then 0
    else
      match (List.range 64).find? fun e => decide (1024 ≤ ((AMap.get? (s.die e).timex d).getD []).length) with
      | some e => measuredOff s anchor f e + median ((AMap.get? (s.die e).timex d).getD [])
      | none => 0

/-- The offsets that the topology table shows (R371, R372). -/
def keepOffs (s : State) (anchor : Nat) : State :=
  { s with dies := s.dies.map fun p => (p.1, { p.2 with off := s.measuredOff anchor 17 p.1 }) }

/-- An ASSIGN is on its way. -/
def assigning (s : State) : Bool :=
  let isAssign (p : Packet) : Bool := p.cls == 5 && p.op == 3
  s.wire.any isAssign || s.dies.any fun p => p.2.links.any fun l => l.2.queued.any isAssign

/-- Discovery is done (R370): every site has answered or timed out, no coordinates are on their way, and the dies that have some are measured. -/
def discovered (s : State) (anchor : Nat) : Bool :=
  !s.assigning && ((List.range 32).all fun i => (s.site i).answered)
    && s.liveDies.all fun d => (s.die d).assigned.isNone || s.measured anchor d

/-- Every memory site has reported its wipe (R361, R370, step 5). -/
def sitesWiped (s : State) : Bool := (List.range 32).all fun i => decide ((s.site i).type ≠ 3 ∧ (s.site i).type ≠ 4) || (s.site i).wiped

/-- The next stage of boot (R305, R309, R312, R370). With discovery done the image is fetched. Once every die's image check and the wipes are done too, offsets and routes are
computed, the table is written at the start of the anchor's home stack (notes/assumptions/16.md), and the cores are released. A failed check puts the module
into recovery. -/
def tryBoot (s : State) : State :=
  match s.anchor with
  | none => s
  | some a =>
    if s.boot ≠ .starting then s
    else if s.liveDies.any fun d => match (s.die d).imageCheck with | some n => n != 0 | none => false then { s with boot := .recovery }
    else if !s.discovered a then s
    else
      -- a grid position that no die has taken is dead
      let s1 := ((List.range 64).filter fun d => (s.die d).assigned.isNone).foldl (fun s d => s.modDie d fun x => { x with life := .dead }) s
      if s1.imgNext = 0 then s1.startFetch a
      else if !s1.hbmWiped || !s1.sitesWiped || s1.liveDies.any fun d => (s1.die d).imageCheck != some 0 then s1
      else { (s1.keepOffs a).computeRoutes a with boot := .running, running := some s.fetchedImage, topo := a * 2 ^ 36 }.publish

/-- The module enters recovery (R305): the cores are held in reset. -/
abbrev recover (s : State) : State := { s with boot := .recovery }

end State

/-- The header's lengths allow the fetch to go on (R305, step 2; R312, step 2): the length of the whole image. -/
def imageLength (header : List (BitVec 8)) : Option Nat :=
  let n := ofBytes ((header.drop 16).take 8)
  if n % 64 = 0 ∧ n ≤ 2 ^ 26 then some (1152 + n) else none

/-- A chunk that the anchor asked for has come: it is kept and forwarded in ascending offset, and the next requests go out; with the last, the image is
complete and checked (R312, R305). A header whose lengths do not allow the fetch fails its check there. -/
def takeChunk (s : State) (a off : Nat) (bs : List (BitVec 8)) : State :=
  let before := State.imagePrefix s.image 0
  let s1 : State := { s with image := AMap.put s.image off bs, imgTries := AMap.del s.imgTries off }
  let after := State.imagePrefix s1.image 0
  let chunk (d k : Nat) : Packet :=
    let m : Msg := { follow := 4, dst := BitVec.ofNat 6 d, src := BitVec.ofNat 6 a, payload := BitVec.ofNat 64 (64 * k),
                     slots := dataSlots ((AMap.get? s1.image (64 * k)).getD []) }
    ⟨5, 7, m⟩
  let s2 := s1.send (((List.range (after - before)).map (before + ·)).flatMap fun k => (s1.liveDies.filter (· ≠ a)).map fun d => chunk d k)
  let s3 : Option State :=
    if s2.imgLen.isNone ∧ 18 ≤ after then (imageLength s2.fetchedImage).map fun n => { s2 with imgLen := some n } else some s2
  match s3 with
  | none => (s2.checkImage a).recover
  | some s4 => if s4.imgLen = some (64 * after) then (s4.checkImage a).tryBoot else s4.pumpImage a 16

/-- A chunk of a signed command has come to a named die, which checks the command with the last one (R311). -/
def takeCommand (s : State) (d off : Nat) (bs : List (BitVec 8)) : State :=
  match s.cmdRun with
  | none => s
  | some r =>
    if !r.left.contains d then s
    else if bs ≠ (r.bytes.drop off).take 64 then s.judge d false
    else if off + 64 = 1152 then s.judge d (s.checksCommand d r.bytes)
    else s

/-- IMG (R305, R312, R311): a chunk from the host at the anchor, an offer of a new image in recovery, a chunk that the anchor forwards, or, with bit 63 of the offset, a
chunk of a signed command. -/
def execImg (m : Msg) (s : State) : Host.Outcome State Fault Refusal :=
  receive 5 7 4 m s fun s =>
    let d := m.dst.toNat
    let off := m.payload.toNat
    if m.payload.getLsbD 63 then (if m.edge ∨ s.anchor ≠ some m.src.toNat then s else takeCommand s d (off - 2 ^ 63) (m.bytesFrom 1))
    else if m.edge then
      if s.anchor ≠ some d then s
      else if s.boot = .recovery then (if off = 0 then s.startFetch d else s)
      else if s.boot = .starting ∧ off % 64 = 0 ∧ off < s.imgNext ∧ (AMap.get? s.image off).isNone then takeChunk s d off (m.bytesFrom 1)
      else s
    else if s.boot = .starting ∧ s.imgLen = some (off + 64) then (s.checkImage d).tryBoot
    else s

/-- IMGREQ (R312): the request reaches the host die, which answers with IMG. -/
def execImgreq (m : Msg) (s : State) : Host.Outcome State Fault Refusal := receive 5 10 0 m s fun s => s

/-- IMGREQ_TIMEOUT (R312, step 3): each request without an answer for 1 ms is sent again, up to three times; then the module enters recovery. -/
def execImgreqTimeout (s : State) : Host.Outcome State Fault Refusal :=
  match s.anchor with
  | none => .next s
  | some a =>
    let due := s.imgTries.filter fun r => decide (r.2.2 + 1000000 ≤ s.time)
    if s.boot ≠ .starting ∨ due = [] then .next s
    else if due.any fun r => decide (3 ≤ r.2.1) then .next s.recover
    else
      let tries := due.foldl (fun m r => AMap.put m r.1 (r.2.1 + 1, s.time)) s.imgTries
      .next (due.foldl (fun s r => s.toSite (State.oddSite a) (State.imgRequest a r.1)) { s with imgTries := tries })

/-- HBM_WIPE_COMPLETE (R309): the cores may be released once all else is done. -/
def execHbmWipeComplete (s : State) : Host.Outcome State Fault Refusal :=
  .next (if s.boot = .running then s else { s with hbmWiped := true }.tryBoot)

/-! ### HELLO and the election (R359, R370) -/

/-- A message of the CTL class from a die to its neighbours over live links. -/
def toNeighbours (s : State) (d : Nat) (op : BitVec 5) (payload : Nat → Nat) : List Packet :=
  (List.range 4).filterMap fun dir => (s.openLink d dir).map fun e =>
    let m : Msg := { dst := BitVec.ofNat 6 e, src := BitVec.ofNat 6 d, payload := BitVec.ofNat 64 (payload e) }
    ⟨5, op, m⟩

/-- A die learns a host site: a lower one than before is passed on (R370, step 2). -/
def learnSite (s : State) (d i : Nat) : State :=
  if ((s.die d).best.map fun b => decide (b ≤ i)) = some true then s
  else (s.modDie d fun x => { x with best := some i, bestAt := s.now d }).send (toNeighbours s d 2 fun _ => 256 + i)

/-- The wipe request of a die to the memory site that it abuts (R309, R361): a compute die's message, whose site field is 0 (R351). -/
def wipeRequest (i : Nat) : Packet :=
  let d := BitVec.ofNat 6 (abutting i)
  let m : Msg := { dst := d, src := d }
  ⟨5, 8, m⟩

/-- The six credit counts of a HELLO or a flit header, by class (R348, R359). -/
def creditList (x : Nat) : List Nat := (List.range 6).map fun c => (x >>> (8 * c)) % 256

/-- The HELLO of a compute die in a direction (R359), to the die or the edge dies there: its link direction, life-cycle state, self-test results and credits. -/
def hello (s : State) (d dir e : Nat) : Packet :=
  let x := s.die d
  let tests := (Config.selfTestField x.failClusters x.failSlices x.failLoops).toNat
  let credits := (List.range 6).foldl (fun n c => n + 32 * 2 ^ (8 * c)) 0
  let m : Msg := { follow := 2, dst := BitVec.ofNat 6 e, src := BitVec.ofNat 6 d, payload := x.serial,
                   slots := [BitVec.ofNat 128 (credits * 2 ^ 16 + tests * 2 ^ 8 + x.lcstate.toNat % 16 * 16 + dir), 0] }
  ⟨5, 0, m⟩

/-- The HELLO of a compute die to its neighbour in a direction. -/
def helloTo (s : State) (d dir : Nat) : Option Packet := (neighbour d dir).map (hello s d dir)

/-- The sites that a die abuts. -/
def State.sitesOf (d : Nat) : List Nat := (List.range 32).filter fun i => abutting i == d

/-- A die manager has tested its resources and trained its links and edge interfaces (R21, R370, step 1): it builds its maps, and sends HELLO to its neighbours and to the
edge dies of its sites. -/
def State.trainDie (s : State) (d : Nat) (clusters slices loops : List Nat) : State :=
  if s.boot ≠ .starting ∨ !s.alive d then s
  else
    let s1 := s.selfTest d clusters slices loops
    (State.sitesOf d).foldl (fun s i => s.toSite i (hello s1 d (i / 8) d)) (s1.send ((List.range 4).filterMap (helloTo s1 d)))

/-- Change a link record of a die, and send what its credits now allow. -/
def State.creditLink (s : State) (d dir : Nat) (f : Link → Link) : State :=
  let l := f ((AMap.get? (s.die d).links dir).getD {})
  let (wait, credits, out) := releaseCredits l.queued l.credits
  { s.modDie d fun x => { x with links := AMap.put x.links dir { l with queued := wait, credits := credits } } with wire := s.wire ++ out }

/-- Change the credits of an edge interface, and send what they now allow. -/
def State.creditSite (s : State) (i : Nat) (f : List Nat → List Nat) : State :=
  let x := s.site i
  let (wait, credits, out) := releaseCredits x.queued (f x.credits)
  (s.setSite i { x with queued := wait, credits := credits }).send out

/-- HELLO (R16, R359): what a neighbour says of itself and its credits, or an edge die's type, serial number and credits. A version that the contract does not
know, or a type that the site's parity does not allow, is recorded as empty (notes/assumptions/16.md). -/
def execHello (m : Msg) (s : State) : Host.Outcome State Fault Refusal :=
  receive 5 0 2 m s fun s =>
    let d := m.dst.toNat
    let credits := creditList (m.field 1 16 48)
    if m.edge then
      let i := m.site.toNat - 32
      let x := s.site i
      if abutting i ≠ d ∨ x.answered then s
      else
        let t := m.field 1 0 4
        let known := if i % 2 = 0 then t = 1 else 2 ≤ t ∧ t ≤ 4
        let type := if m.field 1 8 8 = 0 ∧ known then t else 0
        let s1 := (s.setSite i { x with type := type, serial := m.payload, answered := true }).creditSite i fun _ => credits
        let s2 := if i % 2 = 1 ∧ (type = 2 ∨ type = 4) then learnSite s1 d i else s1
        (if type = 3 ∨ type = 4 then s2.toSite i (wipeRequest i) else s2).tryBoot
    else
      match State.dirTo d m.src.toNat with
      | none => s
      | some dir => s.creditLink d dir fun l => { l with credits := credits, peer := some (m.field 1 0 4, m.field 1 4 4, m.field 1 8 8) }

/-- HELLO_TIMEOUT (R359): a site that has not answered is recorded as empty. -/
def execHelloTimeout (site : SiteId) (s : State) : Host.Outcome State Fault Refusal :=
  let i := site.toNat
  .next (if (s.site i).answered then s
    else (s.setSite i { s.site i with type := 0, answered := true }).tryBoot)

/-- ELECT (R370, step 2). -/
def execElect (m : Msg) (s : State) : Host.Outcome State Fault Refusal :=
  receive 5 2 0 m s fun s =>
    if m.payload.getLsbD 8 then learnSite s m.dst.toNat (m.payload.toNat % 32) else s

/-- ASSIGN with coordinates to the neighbours of a die that stands at them (R370, step 3): y − 1, x + 1, y + 1 or x − 1 through N, E, S or W. -/
def assignOut (s : State) (d at_ : Nat) : List Packet :=
  (List.range 4).filterMap fun dir =>
    (s.openLink d dir).bind fun e => (neighbour at_ dir).map fun c =>
      let m : Msg := { dst := BitVec.ofNat 6 e, src := BitVec.ofNat 6 d, payload := BitVec.ofNat 64 c }
      ⟨5, 3, m⟩

/-- ELECT_QUIET (R370, steps 2 and 3): 20 µs without a lower number on any die, the anchor is chosen; it takes its coordinates and sends
ASSIGN. With no host die the module waits. -/
def execElectQuiet (s : State) : Host.Outcome State Fault Refusal :=
  let live := s.liveDies
  let known := live.filterMap fun d => (s.die d).best
  let quiet := live.all fun d => (s.die d).best.isNone || decide ((s.die d).bestAt + 20000 ≤ s.now d)
  match known with
  | [] => .next s
  | b :: bs =>
    if s.boot ≠ .starting ∨ s.anchor.isSome ∨ !quiet then .next s
    else
      let a := abutting (bs.foldl min b)
      let s1 := { s with anchor := some a }.modDie a fun x => { x with assigned := some (BitVec.ofNat 6 a), depth := 0 }
      .next (s1.send (assignOut s1 a a)).tryBoot

/-- One TIMEX message with the sender's counter (R371). -/
def timexTo (s : State) (a b : Nat) : Packet :=
  let m : Msg := { dst := BitVec.ofNat 6 b, src := BitVec.ofNat 6 a, payload := BitVec.ofNat 64 (s.now a) }
  ⟨5, 1, m⟩

/-- ASSIGN (R370, steps 3 and 4): the die takes the coordinates and passes on its neighbours'; it is marked dead where a second ASSIGN or its sites
contradict them, its life-cycle state differs from the anchor's, or it lies deeper than 16. Its parent then measures it (R371). -/
def execAssign (m : Msg) (s : State) : Host.Outcome State Fault Refusal :=
  receive 5 3 0 m s fun s =>
    let d := m.dst.toNat
    let c := BitVec.ofNat 6 m.payload.toNat
    let x := s.die d
    let kill (s : State) : State := s.modDie d fun x => { x with life := .dead }
    match x.assigned with
    | some c' => (if c' = c then s else kill s).tryBoot
    | none =>
      let depth := (s.die m.src.toNat).depth + 1
      let s1 := s.modDie d fun x => { x with assigned := some c, depth := depth }
      let edge := (List.range 32).any fun i => abutting i == d
      if (edge && decide (c.toNat ≠ d)) || decide (x.lcstate ≠ (s.die (s.anchor.getD 0)).lcstate) || decide (16 < depth) then (kill s1).tryBoot
      else
        let out := (assignOut s1 d c.toNat).filter fun p => (s1.die p.msg.dst.toNat).assigned.isNone
        (s1.send (out ++ [timexTo s1 m.src.toNat d])).tryBoot

/-- TIMEX (R371): the deeper die notes how far its counter stands from the sender's and replies; the reply completes an exchange, and the next one follows until
there are 1,024. -/
def execTimex (m : Msg) (s : State) : Host.Outcome State Fault Refusal :=
  receive 5 1 0 m s fun s =>
    let d := m.dst.toNat
    let e := m.src.toNat
    let diff : Int := (s.now d : Int) - (m.payload.toNat : Int)
    if (s.die e).depth < (s.die d).depth then
      let s1 := s.modDie d fun x => { x with timex := AMap.put x.timex e [diff] }
      s1.send [timexTo s1 d e]
    else
      let there := ((AMap.get? (s.die e).timex d).getD []).headD 0
      let seen := (AMap.get? (s.die d).timex e).getD []
      if 1024 ≤ seen.length then s
      else
        let s1 := s.modDie d fun x => { x with timex := AMap.put x.timex e (seen ++ [(there - diff) / 2]) }
        (if seen.length + 1 < 1024 then s1.send [timexTo s1 d e] else s1).tryBoot

/-! ### Sites -/

/-- HINGE_WIPE (R361): the memory site that the destination die abuts zeroes its whole range; its answer is WIPED. -/
def execHingeWipe (m : Msg) (s : State) : Host.Outcome State Fault Refusal :=
  receive 5 8 0 m s fun s =>
    let i := State.oddSite m.dst.toNat
    let inside (pa : Nat) : Bool := match regionOf pa with | .tier j _ => j == i | _ => false
    if (s.site i).type ≠ 3 ∧ (s.site i).type ≠ 4 then s
    else
      { s with mem := s.mem.filter fun c => !inside c.1, l2 := s.l2.filter fun c => !inside c.1, bad := s.bad.filter fun g => !inside (8 * g),
               soft := s.soft.filter fun g => !inside (8 * g) }

/-- WIPED (R309, R361): the site's range is published with its populated size, a multiple of 1 GiB and at most 128 GB. -/
def execWiped (m : Msg) (s : State) : Host.Outcome State Fault Refusal :=
  receive 5 9 0 m s fun s =>
    let i := m.site.toNat - 32
    let n := min m.payload.toNat 128000000000 / 2 ^ 30 * 2 ^ 30
    if !m.edge ∨ ((s.site i).type ≠ 3 ∧ (s.site i).type ≠ 4) then s
    else (s.setSite i { s.site i with wiped := true, populated := n }).publish.tryBoot

/-- A read that a home slice has sent to the memory die of its site (R361), under its die's own epoch (R351). -/
def tierRequest (s : State) (i : Nat) (txn : BitVec 16) : Packet :=
  let d := BitVec.ofNat 6 (abutting i)
  let m : Msg := { dst := d, src := d, epoch := (s.die (abutting i)).epoch, txn := txn, payload := BitVec.ofNat 64 (2 ^ 48 + i / 2 * 2 ^ 37) }
  ⟨0, 1, m⟩

/-- EDGE_REQUEST_TIMEOUT (R361): resent once after 20 µs; the next time the consumer takes DATALOSS and the site is marked failed. A home slice's own request to
a memory site is first seen here, as the model serves second-tier memory at its home; until its answer, or the site's failure, no access to the range is served
(notes/assumptions/16.md). -/
def execEdgeRequestTimeout (site : SiteId) (txn : BitVec 16) (s : State) : Host.Outcome State Fault Refusal :=
  match AMap.get? s.pending txn.toNat with
  | none =>
    let i := site.toNat
    let p := tierRequest s i txn
    if (s.site i).type ≠ 3 ∧ (s.site i).type ≠ 4 then .next s
    else
      let q : Pending := { th := 0, pa := p.msg.payload.toNat, since := s.now (abutting i), packet := p, site := i, resent := true, op := some 0 }
      .next ({ s with pending := AMap.put s.pending txn.toNat q }.toSite i p)
  | some p =>
    let now := s.now p.packet.msg.src.toNat
    if p.site ≠ site.toNat ∨ site.toNat % 2 = 0 ∨ p.reply ≠ none ∨ now < p.since + 20000 then .next s
    else if p.resent then .next (failSite s site.toNat).publish
    else .next ({ s with pending := AMap.put s.pending txn.toNat { p with resent := true, since := now } }.toSite p.site p.packet)

/-- SITE_POWER_CUT (R358). -/
def execSitePowerCut (site : SiteId) (s : State) : Host.Outcome State Fault Refusal := .next (failSite s site.toNat).publish

/-- PORT_LIVE_CHANGE (R362): the ports that are live, and the module ids that each newly live one reaches, which it learns at training: free values
(notes/assumptions/4.md). -/
def execPortLiveChange (site : SiteId) (live : BitVec 4) (s : State) : Host.Outcome State Fault Refusal :=
  let i := site.toNat
  let x := s.site i
  if x.type ≠ 1 then .next s
  else
    let mods := (List.range 4).map fun j =>
      if live.getLsbD j && !x.portst.getLsbD j then Config.portModules (s.freeCtr + j) else x.portmods.getD j 0
    .next ({ s with freeCtr := s.freeCtr + 4 }.setSite i { x with portst := live, portmods := mods }).publish

/-! ### Links (R341, R346 to R348, R357) -/

/-- Change a link record of a die. -/
def State.modLink (s : State) (d dir : Nat) (f : Link → Link) : State :=
  s.modDie d fun x => { x with links := AMap.put x.links dir (f ((AMap.get? x.links dir).getD {})) }

/-- FLIT_CREDITS (R348, R349): the slots that the receiver freed can be used again, first by the messages that wait for them; in a direction without a neighbour, the
edge die's. -/
def execFlitCredits (die : DieId) (dir : BitVec 2) (credits : BitVec 48) (s : State) : Host.Outcome State Fault Refusal :=
  let add (xs : List Nat) : List Nat := (xs.zip (creditList credits.toNat)).map fun p => p.1 + p.2
  let d := die.toNat
  match neighbour d dir.toNat, (State.sitesOf d).find? fun i => i / 8 == dir.toNat with
  | none, some i => .next ((s.creditLink d dir.toNat fun l => { l with seq := l.seq + 1 }).creditSite i add)
  | _, _ => .next (s.creditLink d dir.toNat fun l => { l with seq := l.seq + 1, credits := add l.credits })

/-- LINK_ERROR_RETRY (R341): a flit that the adapter sends again is a transient error, counted and logged. -/
def execLinkErrorRetry (die : DieId) (dir : BitVec 2) (s : State) : Host.Outcome State Fault Refusal :=
  .next ((s.modLink die.toNat dir.toNat fun l => { l with retries := l.retries + 1 }).modDie die.toNat fun x =>
    { x with log := x.log ++ [.linkError dir.toNat] })

/-- After a link or die is lost (R357): routes anew, every request without an answer again, and the table. -/
def State.rerouted (s : State) : State :=
  match s.anchor with
  | none => s
  | some a =>
    let s1 := if s.boot = .running then s.computeRoutes a else s
    ((s1.pending.filter fun p => p.2.reply.isNone && !s1.wire.contains p.2.packet && !(s1.site p.2.site).queued.contains p.2.packet).foldl (fun s p => s.toSite p.2.site p.2.packet) s1).publish

/-- UCIE_MODULE_ERROR (R357): the module is retrained once; at its next failure it is dropped at both ends, and a link without modules is dead. A dead edge
interface fails its site. -/
def execUcieModuleError (die : DieId) (dir m : BitVec 2) (s : State) : Host.Outcome State Fault Refusal :=
  let d := die.toNat
  let k := dir.toNat
  let l := (AMap.get? (s.die d).links k).getD {}
  let seen := (l.retrained.filter (· = m.toNat)).length
  if 2 ≤ seen then .next s
  else if seen = 0 then
    .next (s.modLink d k fun l => { l with retrained := l.retrained ++ [m.toNat] })
  else
    let dropOne (l : Link) : Link := { l with modules := l.modules - 1, queued := if l.modules ≤ 1 then [] else l.queued, retrained := l.retrained ++ [m.toNat] }
    let s1 := (s.modLink d k dropOne).modDie d fun x => { x with log := x.log ++ [.lasting] }
    match neighbour d k with
    | some e =>
      let s2 := s1.modLink e ((k + 2) % 4) fun y =>
        { y with modules := y.modules - 1, queued := if y.modules ≤ 1 then [] else y.queued, retrained := y.retrained.filter (· ≠ m.toNat) ++ [m.toNat, m.toNat] }
      .next (if l.modules ≤ 1 then s2.rerouted else s2.publish)
    | none =>
      let sites := (List.range 32).filter fun i => abutting i == d && i / 8 == k
      .next (if l.modules ≤ 1 then (sites.foldl failSite s1).publish else s1.publish)

end Sys2Proof.Machine
end

