-- ==== Sys2Proof/Machine/Integer.lean ====
section
/-! DEFINITION. Integer instructions and special registers (R86 to R98). -/
namespace Sys2Proof.Machine

/-! ### IALU (R87, R88) -/

/-- An integer operation on two operands (R87): on the 64-bit slots, or on their low 32 bits with the result sign-extended. -/
def ialu2 (f : (n : Nat) → BitVec n → BitVec n → BitVec n) (d a b : Spec) (w : Bool) : M Unit := do
  let x ← readOp a
  let y ← readOp b
  writeOp (some 3) d (if w then (f 32 (x.setWidth 32) (y.setWidth 32)).signExtend 64 else f 64 x y)

/-- An integer operation on one operand (R87). -/
def ialu1 (f : (n : Nat) → BitVec n → BitVec n) (d a : Spec) (w : Bool) : M Unit := do
  let x ← readOp a
  writeOp (some 3) d (if w then (f 32 (x.setWidth 32)).signExtend 64 else f 64 x)

/-- High half of the signed product (R87). -/
def mulHigh (n : Nat) (x y : BitVec n) : BitVec n := BitVec.ofInt n (x.toInt * y.toInt / 2 ^ n)
/-- High half of the unsigned product (R87). -/
def mulHighN (n : Nat) (x y : BitVec n) : BitVec n := BitVec.ofNat n (x.toNat * y.toNat / 2 ^ n)
/-- Signed quotient towards zero (R87, R88). -/
def quotS (n : Nat) (x y : BitVec n) : BitVec n := if y = 0 then BitVec.allOnes n else BitVec.ofInt n (x.toInt.tdiv y.toInt)
/-- Unsigned quotient (R87, R88). -/
def quotN (n : Nat) (x y : BitVec n) : BitVec n := if y = 0 then BitVec.allOnes n else BitVec.ofNat n (x.toNat / y.toNat)
/-- Signed remainder, with the sign of the dividend (R87, R88). -/
def remS (n : Nat) (x y : BitVec n) : BitVec n := if y = 0 then x else BitVec.ofInt n (x.toInt.tmod y.toInt)
/-- Unsigned remainder (R87, R88). -/
def remN (n : Nat) (x y : BitVec n) : BitVec n := if y = 0 then x else BitVec.ofNat n (x.toNat % y.toNat)
/-- Signed and unsigned minimum and maximum (R87). -/
def minS (n : Nat) (x y : BitVec n) : BitVec n := if x.slt y then x else y
def maxS (n : Nat) (x y : BitVec n) : BitVec n := if y.slt x then x else y
def minN (n : Nat) (x y : BitVec n) : BitVec n := if x.ult y then x else y
def maxN (n : Nat) (x y : BitVec n) : BitVec n := if y.ult x then x else y
/-- The amount of a shift: b[5:0] or b[4:0] (R87). -/
def amount (n : Nat) (y : BitVec n) : Nat := y.toNat % n
def shiftL (n : Nat) (x y : BitVec n) : BitVec n := x <<< amount n y
def shiftR (n : Nat) (x y : BitVec n) : BitVec n := x >>> amount n y
def shiftA (n : Nat) (x y : BitVec n) : BitVec n := x.sshiftRight (amount n y)
def rotR (n : Nat) (x y : BitVec n) : BitVec n := x.rotateRight (amount n y)
/-- Leading zeros within the width; the width for 0 (R87). -/
def leadingZeros (n : Nat) (x : BitVec n) : BitVec n := BitVec.ofNat n (if x = 0 then n else n - 1 - x.toNat.log2)
/-- Count of ones (R87). -/
def onesCount (n : Nat) (x : BitVec n) : BitVec n := BitVec.ofNat n (((List.range n).filter x.getLsbD).length)
/-- The bits in reverse order (R87). -/
def reverseBits (n : Nat) (x : BitVec n) : BitVec n := x.reverse
/-- Absolute value, wrapping (R87). -/
def absS (n : Nat) (x : BitVec n) : BitVec n := if x.msb then -x else x

/-- ADD (R87). -/
def execAdd (d a b : Spec) (w : Bool) (s : State) : Host.Outcome State Fault Refusal :=
  runWord (.add d a b w) (ialu2 (fun _ x y => x + y) d a b w) s

/-- SUB (R87). -/
def execSub (d a b : Spec) (w : Bool) (s : State) : Host.Outcome State Fault Refusal :=
  runWord (.sub d a b w) (ialu2 (fun _ x y => x - y) d a b w) s

/-- MUL (R87). -/
def execMul (d a b : Spec) (w : Bool) (s : State) : Host.Outcome State Fault Refusal :=
  runWord (.mul d a b w) (ialu2 (fun _ x y => x * y) d a b w) s

/-- MULH (R87). -/
def execMulh (d a b : Spec) (w : Bool) (s : State) : Host.Outcome State Fault Refusal :=
  runWord (.mulh d a b w) (ialu2 mulHigh d a b w) s

/-- MULHN (R87). -/
def execMulhn (d a b : Spec) (w : Bool) (s : State) : Host.Outcome State Fault Refusal :=
  runWord (.mulhn d a b w) (ialu2 mulHighN d a b w) s

/-- DIV (R87, R88). -/
def execDiv (d a b : Spec) (w : Bool) (s : State) : Host.Outcome State Fault Refusal :=
  runWord (.div d a b w) (ialu2 quotS d a b w) s

/-- DIVN (R87, R88). -/
def execDivn (d a b : Spec) (w : Bool) (s : State) : Host.Outcome State Fault Refusal :=
  runWord (.divn d a b w) (ialu2 quotN d a b w) s

/-- REM (R87, R88). -/
def execRem (d a b : Spec) (w : Bool) (s : State) : Host.Outcome State Fault Refusal :=
  runWord (.rem d a b w) (ialu2 remS d a b w) s

/-- REMN (R87, R88). -/
def execRemn (d a b : Spec) (w : Bool) (s : State) : Host.Outcome State Fault Refusal :=
  runWord (.remn d a b w) (ialu2 remN d a b w) s

/-- MIN (R87). -/
def execMin (d a b : Spec) (w : Bool) (s : State) : Host.Outcome State Fault Refusal :=
  runWord (.min d a b w) (ialu2 minS d a b w) s

/-- MAX (R87). -/
def execMax (d a b : Spec) (w : Bool) (s : State) : Host.Outcome State Fault Refusal :=
  runWord (.max d a b w) (ialu2 maxS d a b w) s

/-- MINN (R87). -/
def execMinn (d a b : Spec) (w : Bool) (s : State) : Host.Outcome State Fault Refusal :=
  runWord (.minn d a b w) (ialu2 minN d a b w) s

/-- MAXN (R87). -/
def execMaxn (d a b : Spec) (w : Bool) (s : State) : Host.Outcome State Fault Refusal :=
  runWord (.maxn d a b w) (ialu2 maxN d a b w) s

/-- AND (R87). -/
def execAnd (d a b : Spec) (w : Bool) (s : State) : Host.Outcome State Fault Refusal :=
  runWord (.and d a b w) (ialu2 (fun _ x y => x &&& y) d a b w) s

/-- OR (R87). -/
def execOr (d a b : Spec) (w : Bool) (s : State) : Host.Outcome State Fault Refusal :=
  runWord (.or d a b w) (ialu2 (fun _ x y => x ||| y) d a b w) s

/-- XOR (R87). -/
def execXor (d a b : Spec) (w : Bool) (s : State) : Host.Outcome State Fault Refusal :=
  runWord (.xor d a b w) (ialu2 (fun _ x y => x ^^^ y) d a b w) s

/-- ANDN (R87). -/
def execAndn (d a b : Spec) (w : Bool) (s : State) : Host.Outcome State Fault Refusal :=
  runWord (.andn d a b w) (ialu2 (fun _ x y => x &&& ~~~y) d a b w) s

/-- SHL (R87). -/
def execShl (d a b : Spec) (w : Bool) (s : State) : Host.Outcome State Fault Refusal :=
  runWord (.shl d a b w) (ialu2 shiftL d a b w) s

/-- SHR (R87). -/
def execShr (d a b : Spec) (w : Bool) (s : State) : Host.Outcome State Fault Refusal :=
  runWord (.shr d a b w) (ialu2 shiftR d a b w) s

/-- SAR (R87). -/
def execSar (d a b : Spec) (w : Bool) (s : State) : Host.Outcome State Fault Refusal :=
  runWord (.sar d a b w) (ialu2 shiftA d a b w) s

/-- ROT (R87). -/
def execRot (d a b : Spec) (w : Bool) (s : State) : Host.Outcome State Fault Refusal :=
  runWord (.rot d a b w) (ialu2 rotR d a b w) s

/-- CLZ (R87). -/
def execClz (d a : Spec) (w : Bool) (s : State) : Host.Outcome State Fault Refusal :=
  runWord (.clz d a w) (ialu1 leadingZeros d a w) s

/-- POPC (R87). -/
def execPopc (d a : Spec) (w : Bool) (s : State) : Host.Outcome State Fault Refusal :=
  runWord (.popc d a w) (ialu1 onesCount d a w) s

/-- BREV (R87). -/
def execBrev (d a : Spec) (w : Bool) (s : State) : Host.Outcome State Fault Refusal :=
  runWord (.brev d a w) (ialu1 reverseBits d a w) s

/-- ABS (R87). -/
def execAbs (d a : Spec) (w : Bool) (s : State) : Host.Outcome State Fault Refusal :=
  runWord (.abs d a w) (ialu1 absS d a w) s

/-- NEG (R87). -/
def execNeg (d a : Spec) (w : Bool) (s : State) : Host.Outcome State Fault Refusal :=
  runWord (.neg d a w) (ialu1 (fun _ x => -x) d a w) s

/-- MOV (R87). -/
def execMov (d a : Spec) (w : Bool) (s : State) : Host.Outcome State Fault Refusal :=
  runWord (.mov d a w) (ialu1 (fun _ x => x) d a w) s

/-- SEXT.w (R87). -/
def execSext (d a : Spec) (s : State) : Host.Outcome State Fault Refusal :=
  runWord (.sext d a) (do writeOp (some 3) d (((← readOp a).setWidth 32).signExtend 64)) s

/-- ZEXT.w (R87). -/
def execZext (d a : Spec) (s : State) : Host.Outcome State Fault Refusal :=
  runWord (.zext d a) (do writeOp (some 3) d (((← readOp a).setWidth 32).setWidth 64)) s

/-! ### Immediates (R89 to R91) -/

/-- ADDI (R89). -/
def execAddi (d a : Spec) (i : BitVec 12) (s : State) : Host.Outcome State Fault Refusal :=
  runWord (.addi d a i) (do writeOp (some 3) d ((← readOp a) + i.signExtend 64)) s

/-- ANDI (R90). -/
def execAndi (d a : Spec) (i : BitVec 10) (s : State) : Host.Outcome State Fault Refusal :=
  runWord (.andi d a i) (do writeOp (some 3) d ((← readOp a) &&& i.setWidth 64)) s

/-- ORI (R90). -/
def execOri (d a : Spec) (i : BitVec 10) (s : State) : Host.Outcome State Fault Refusal :=
  runWord (.ori d a i) (do writeOp (some 3) d ((← readOp a) ||| i.setWidth 64)) s

/-- XORI (R90). -/
def execXori (d a : Spec) (i : BitVec 10) (s : State) : Host.Outcome State Fault Refusal :=
  runWord (.xori d a i) (do writeOp (some 3) d ((← readOp a) ^^^ i.setWidth 64)) s

/-- ANDNI (R90). -/
def execAndni (d a : Spec) (i : BitVec 10) (s : State) : Host.Outcome State Fault Refusal :=
  runWord (.andni d a i) (do writeOp (some 3) d ((← readOp a) &&& ~~~(i.setWidth 64))) s

/-- A shift by an immediate amount (R91). -/
def shiftImm (f : (n : Nat) → BitVec n → BitVec n → BitVec n) (d a : Spec) (w : Bool) (n : Spec) : M Unit :=
  ialu1 (fun k x => f k x (BitVec.ofNat k n.toNat)) d a w


/-- SHLI (R91). -/
def execShli (d a : Spec) (w : Bool) (n : Spec) (s : State) : Host.Outcome State Fault Refusal :=
  runWord (.shli d a w n) (shiftImm shiftL d a w n) s

/-- SHRI (R91). -/
def execShri (d a : Spec) (w : Bool) (n : Spec) (s : State) : Host.Outcome State Fault Refusal :=
  runWord (.shri d a w n) (shiftImm shiftR d a w n) s

/-- SARI (R91). -/
def execSari (d a : Spec) (w : Bool) (n : Spec) (s : State) : Host.Outcome State Fault Refusal :=
  runWord (.sari d a w n) (shiftImm shiftA d a w n) s

/-- ROTI (R91). -/
def execRoti (d a : Spec) (w : Bool) (n : Spec) (s : State) : Host.Outcome State Fault Refusal :=
  runWord (.roti d a w n) (shiftImm rotR d a w n) s

/-! ### Comparisons (R92) -/

/-- ICMP (R92). -/
def execIcmp (cond p : BitVec 3) (a b : Spec) (comb : BitVec 3) (w : Bool) (s : State) : Host.Outcome State Fault Refusal :=
  runWord (.icmp cond p a b comb w) (do
    let x ← readOp a
    let y ← readOp b
    let t := if w then icmpHolds cond.toNat (x.setWidth 32) (y.setWidth 32) else icmpHolds cond.toNat x y
    writePred p.toNat (combinePred comb.toNat (← readPred p.toNat) t)) s

/-- ICMPI (R92). -/
def execIcmpi (cond p : BitVec 3) (a immHi : Spec) (comb immLo : BitVec 3) (s : State) : Host.Outcome State Fault Refusal :=
  runWord (.icmpi cond p a immHi comb immLo) (do
    let x ← readOp a
    let t := icmpHolds cond.toNat x ((immHi ++ immLo).signExtend 64)
    writePred p.toNat (combinePred comb.toNat (← readPred p.toNat) t)) s

/-! ### BITS (R93) -/

/-- SEL (R93). -/
def execSel (d a b : Spec) (k : BitVec 3) (s : State) : Host.Outcome State Fault Refusal :=
  runWord (.sel d a b k) (do
    let x ← readOp a
    let y ← readOp b
    writeOp (some 3) d (if ← readPred k.toNat then x else y)) s

/-- The mask of len low bits. -/
abbrev lowMask (len : Nat) : Word := w64 (2 ^ len - 1)

/-- The field of BFX (R93): bits of a beyond 63 read as zero (notes/assumptions/7.md). -/
def bitField (x : Word) (pos len : Nat) (signed : Bool) : Word :=
  let f := x.toNat >>> pos % 2 ^ len
  if signed && decide (len ≠ 0) && f.testBit (len - 1) then w64 f ||| ~~~lowMask len else w64 f

/-- BFX (R93). -/
def execBfx (d a b : Spec) (sx : Bool) (s : State) : Host.Outcome State Fault Refusal :=
  runWord (.bfx d a b sx) (do
    let x ← readOp a
    let y ← readOp b
    writeOp (some 3) d (bitField x (bits y 0 6) (bits y 8 7) sx)) s

/-- The value of BFI (R93): bits beyond 63 are dropped. -/
def bitInsert (old x : Word) (pos len : Nat) : Word :=
  let m := lowMask len <<< pos
  (old &&& ~~~m) ||| ((x <<< pos) &&& m)

/-- BFI (R93). -/
def execBfi (d a b : Spec) (s : State) : Host.Outcome State Fault Refusal :=
  runWord (.bfi d a b) (do
    let x ← readOp a
    let y ← readOp b
    let old ← readOp d
    writeOp (some 3) d (bitInsert old x (bits y 0 6) (bits y 8 7))) s

/-- PMOV (R93). -/
def execPmov (d : Spec) (s : State) : Host.Outcome State Fault Refusal :=
  runWord (.pmov d) (do
    let t ← cur
    writeOp (some 3) d (w64 ((List.range 8).foldl (fun m i => m + (t.predVal i).toNat * 2 ^ i) 0))) s

/-- SETP (R93). -/
def execSetp (a : Spec) (s : State) : Host.Outcome State Fault Refusal :=
  runWord (.setp a) (do
    let x ← readOp a
    for i in [1, 2, 3, 4, 5, 6, 7] do
      writePred i (bitAt x i)) s

/-- The bytes of BPERM (R93). -/
def permuteBytes (x y : Word) : Word :=
  w64 (ofBytes ((List.range 8).map fun i =>
    let k := bits y (4 * i) 4
    if k < 8 then BitVec.ofNat 8 (bits x (8 * k) 8) else 0))

/-- BPERM (R93). -/
def execBperm (d a b : Spec) (s : State) : Host.Outcome State Fault Refusal :=
  runWord (.bperm d a b) (do writeOp (some 3) d (permuteBytes (← readOp a) (← readOp b))) s

/-! ### LDLIT and ADDR (R94, R96) -/

/-- LDLIT (R94). -/
def execLdlit (d : Spec) (off : BitVec 18) (s : State) : Host.Outcome State Fault Refusal :=
  runWord (.ldlit d off) (do
    let t ← cur
    let bs ← fetchBytes (packetOf t.pc + off.signExtend 64 * 4) 8
    let h (k : Nat) : Nat := ofBytes ((bs.drop (2 * k)).take 2)
    writeOp (some 4) d (w64 (h 0 * 2 ^ 48 + h 1 * 2 ^ 32 + h 2 * 2 ^ 16 + h 3))) s

/-- ADDR (R96). -/
def execAddr (d a b : Spec) (scale : BitVec 3) (s : State) : Host.Outcome State Fault Refusal :=
  runWord (.addr d a b scale) (do writeOp (some 3) d ((← readOp a) + ((← readOp b) <<< scale.toNat))) s

/-! ### Special registers (R97, R98) -/

/-- The core's cycle counter (R98). -/
def State.cycleCount (s : State) (die core : Nat) : Nat := (s.core (coreKey die core)).cycles + s.tenths die / 10

/-- The value that GET and SWAP return (R97, R98). -/
def sprValue (s : State) (t : Thread) (n : Nat) : Word :=
  let g := s.gridOf t
  match n with
  | 0x000 => w64 t.tid
  | 0x001 => w64 t.lane
  | 0x002 => w64 (if t.isCond then 16 else t.grp)
  | 0x003 => w64 g.ngrp
  | 0x004 => w64 (g.role t.tid)
  | 0x008 => w64 (t.team % g.nteamx)
  | 0x009 => w64 (t.team / g.nteamx % g.nteamy)
  | 0x00A => w64 (t.team / g.nteamx / g.nteamy)
  | 0x00C => w64 g.nteamx
  | 0x00D => w64 g.nteamy
  | 0x00E => w64 g.nteamz
  | 0x010 => w64 t.core
  | 0x011 => w64 t.cluster
  | 0x012 => w64 t.die
  | 0x013 => w64 (t.die % 8 + 8 * (t.die / 8 % 8))
  | 0x018 => w64 (s.now t.die)
  | 0x019 => w64 (s.cycleCount t.die t.core)
  | 0x020 => t.prc
  | 0x021 => t.lcVal 0
  | 0x022 => t.lcVal 1
  | 0x023 => t.lcVal 2
  | 0x030 => t.trapcause
  | 0x031 => t.trappc
  | 0x032 => t.trapaddr
  | 0x033 => t.trapinfo
  | 0x040 => (s.die t.die).topova
  | _ => t.savebase

/-- The special register of the running thread. -/
def readSpr (n : Nat) : M Word := fun s => .ok (sprValue s ((s.th? s.cur).getD noThread) n, s)

/-- A SET or SWAP takes effect at the boundary (R37, R70, R97). -/
def writeSpr (n : Nat) (v : Word) : M Unit :=
  modCur fun t => t.produce none (match n with
    | 0x020 => .prc
    | 0x021 => .lc 0
    | 0x022 => .lc 1
    | 0x023 => .lc 2
    | _ => .savebase) v

/-- SPR.get (R97). -/
def execSprGet (x : Spec) (num : BitVec 12) (s : State) : Host.Outcome State Fault Refusal :=
  runWord (.sprGet x num) (do writeOp none x (← readSpr num.toNat)) s

/-- SPR.set (R97). -/
def execSprSet (x : Spec) (num : BitVec 12) (s : State) : Host.Outcome State Fault Refusal :=
  runWord (.sprSet x num) (do writeSpr num.toNat (← readOp x)) s

/-- SPR.swap (R97): q0 is read where x = 0, and the old register value is pushed. -/
def execSprSwap (x : Spec) (num : BitVec 12) (s : State) : Host.Outcome State Fault Refusal :=
  runWord (.sprSwap x num) (do
    let v ← readOp x
    let old ← readSpr num.toNat
    writeOp none x old
    writeSpr num.toNat v) s

end Sys2Proof.Machine
end

