-- ==== Sys2Proof/Machine/Repair.lean ====
section
/-! DEFINITION. Storage errors, self-repair and the core clock (R184, R341 to R345, R369). -/
namespace Sys2Proof.Machine

/-- STORAGE_ERROR (R340 to R342): the granule's next read finds it. A correctable or transient one is put right and logged then; an uncorrectable one faults its
consumer. One of L1, of a cluster buffer or of the fault buffer that can be put right is logged at once, and one of a directory stands in the line's data
(notes/assumptions/22.md). -/
def execStorageError (place : Place) (soft : Bool) (s : State) : Host.Outcome State Fault Refusal :=
  let add (xs : List Nat) (g : Nat) : List Nat := if xs.contains g then xs else xs ++ [g]
  let eight (l : Nat) : List Nat := (List.range 8).map (8 * l + ·)
  let note (s : State) (d g : Nat) : State := s.modDie d fun x => { x with log := x.log ++ [.transient g] }
  let memory (gs : List Nat) : State :=
    if soft then { s with soft := (gs.take 1).foldl add s.soft } else { s with bad := gs.foldl add s.bad }
  .next (match place with
    | .mem g => memory [g]
    | .line l => memory (eight l)
    | .directory l => memory (eight l)
    | .stash die core g =>
      s.modCore (coreKey die.toNat core.toNat) fun c => if soft then { c with soft := add c.soft g } else { c with bad := add c.bad g }
    | .slot th j =>
      s.modTh th fun t => if soft then { t with softN := t.softN ||| (1#48 <<< j) } else { t with badN := t.badN ||| (1#48 <<< j) }
    | .ring th r =>
      s.modTh th fun t => if soft then { t with softQ := t.softQ ||| (1#16 <<< r) } else { t with badQ := t.badQ ||| (1#16 <<< r) }
    | .l1 die core l g =>
      if soft then note s die.toNat (8 * l + g % 8)
      else s.modCore (coreKey die.toNat core.toNat) fun c =>
        { c with l1 := AMap.set c.l1 l ((AMap.get? c.l1 l).map fun x => { x with bad := add x.bad (8 * l + g % 8) }) }
    | .buffer die cl l g =>
      if soft then note s die.toNat (8 * l + g % 8)
      else s.modCluster (clusterKey die.toNat cl.toNat) fun c =>
        { c with buf := AMap.set c.buf l ((AMap.get? c.buf l).map fun x => { x with bad := add x.bad (8 * l + g % 8) }) }
    | .faults th =>
      match s.th? th with
      | none => s
      | some t =>
        if soft then note s t.die th
        else s.modCore (coreKey t.die t.core) fun c => { c with faults := c.faults.map fun f => if f.th = th then { f with bad := true } else f })

namespace State

/-- EPOCH to every other die (R184, step 2). -/
def sendEpochs (s : State) (d : Nat) : State :=
  let e := (s.die d).epoch.toNat
  s.send ((s.liveDies.filter (· ≠ d)).map fun x =>
    let m : Msg := { dst := BitVec.ofNat 6 x, src := BitVec.ofNat 6 d, payload := BitVec.ofNat 64 e }
    ⟨5, 4, m⟩)

/-- A slice begins to retire (R184, steps 1 and 2): the new map moves its logical slice to a spare, or to the lowest surviving slice (notes/assumptions/16.md), and
the epoch rises. One retirement of a die runs at a time. -/
def retireSlice (s : State) (d i : Nat) : State :=
  let x := s.die d
  match x.retiring, x.slices.getD i none with
  | none, some b =>
    let spare := spareOf 34 x.slices (x.deadSlices ++ x.failSlices) b
    let heir := match spare with
      | some n => some n
      | none => (x.slices.filterMap fun y => y).find? (· ≠ b)
    (s.modDie d fun x =>
      { x with slices := listSet x.slices i heir, retiring := some (i, b), epoch := x.epoch + 1,
               life := if spare.isNone then .degraded else x.life }).sendEpochs d
  | _, _ => s

/-- A loop is retired (R345): its pairs move to a spare or surviving loop. -/
def retireLoop (s : State) (d i : Nat) : State :=
  let x := s.die d
  match x.loops.getD i none with
  | none => s
  | some b =>
    let spare := spareOf 18 x.loops (x.deadLoops ++ x.failLoops) b
    (s.modDie d fun x =>
      { x with loops := listSet x.loops i spare, deadLoops := x.deadLoops ++ [b], life := if spare.isNone then .degraded else x.life }).publish

/-- A cluster is to be retired (R344): the cohorts on it are pre-empted, and it leaves as soon as they are saved. -/
def startRetireCluster (s : State) (d cl : Nat) : State :=
  if (s.die d).leaving.contains cl ∨ !s.clusterOk d cl then s
  else
    let keys := s.cohortsOn fun _ k => k / 4 == 32 * d + cl
    let s1 := keys.foldl (fun s k => s.requestStop k) s
    let s2 := s1.modDie d fun x => { x with leaving := x.leaving ++ [cl] }
    if s2.clusterBusy d cl (2 ^ 200) then s2 else s2.retireCluster d cl

end State

/-- LASTING_ERROR (R341, R343): a row is replaced by a spare row, which leaves data and bad check bits as they stood; where no spare row is left the event names the slice
or cluster, which is retired, as is a loop. -/
def execLastingError (die : DieId) (unit : FailedUnit) (s : State) : Host.Outcome State Fault Refusal :=
  let d := die.toNat
  let s1 := s.modDie d fun x => { x with log := x.log ++ [.lasting] }
  .next (match unit with
    | .row n => (s1.modDie d fun x => { x with deadRows := if x.deadRows.contains n then x.deadRows else x.deadRows ++ [n] }).publish
    | .slice i => s1.retireSlice d i.toNat
    | .cluster i => s1.startRetireCluster d i.toNat
    | .loop i => s1.retireLoop d i.toNat)

/-- SLICE_RETIREMENT_COMPLETE (R184, step 5): every line has moved, with its directory state, so the old slice is retired, recorded and shown. -/
def execSliceRetirementComplete (die : DieId) (slice : BitVec 5) (s : State) : Host.Outcome State Fault Refusal :=
  let d := die.toNat
  .next (match (s.die d).retiring with
    | some (i, b) =>
      if i = slice.toNat then (s.modDie d fun x => { x with retiring := none, deadSlices := x.deadSlices ++ [b] }).publish else s
    | none => s)

/-- CLOCK_ADJUST (R369): steps of 100 MHz, from 1.0 to 2.7 GHz. Cycle counts run on at the new clock. -/
def execClockAdjust (die : DieId) (steps : BitVec 5) (s : State) : Host.Outcome State Fault Refusal :=
  .next (if 10 ≤ steps.toNat ∧ steps.toNat ≤ 27 then
    s.modDie die.toNat fun x =>
      { x with clock := steps.toNat, cycleOff := x.cycleOff + (s.time : Int) * ((x.clock : Int) - (steps.toNat : Int)) }
    else s)

end Sys2Proof.Machine
end

