-- ==== Sys2Proof/Machine/Sfu.lean ====
section
/-! DEFINITION. The special functions (R110 to R112): exact rationals and roots, and for the transcendental functions a computation in integers
that narrows f(a) to one cell between neighbouring breakpoints of the rounding, so that one rounding of a point of that cell is the
correct rounding of f(a) (R111). -/
namespace Sys2Proof.Machine

namespace Sfu

/-! ### Series, in units of 2^-w. Every sum is short of the true value by less than one unit for each term. -/

/-- The rest of the exponential series from a term on. -/
def expSum (w x : Nat) : Nat → Nat → Nat → Nat
  | 0, _, _ => 0
  | f + 1, n, t => if t = 0 then 0 else t + expSum w x f (n + 1) (((t * x) >>> w) / (n + 1))

/-- e^x for x at least 0. -/
def exp (w x : Nat) : Nat := expSum w x (w + 8) 0 (2 ^ w)

/-- The rest of an alternating sine or cosine series from a term on; y is the square of the argument. -/
def altSum (w y : Nat) : Nat → Nat → Nat → Int
  | 0, _, _ => 0
  | f + 1, n, t => if t = 0 then 0 else (t : Int) - altSum w y f (n + 2) (((t * y) >>> w) / ((n + 1) * (n + 2)))

/-- sin x and cos x for x at least 0. -/
def sin (w x : Nat) : Int := altSum w ((x * x) >>> w) (w + 8) 1 x
def cos (w x : Nat) : Int := altSum w ((x * x) >>> w) (w + 8) 0 (2 ^ w)

/-- The inverse tangent of 1/q: `alt` gives the circular one, otherwise the hyperbolic one. -/
def atanInvSum (q : Nat) (alt : Bool) : Nat → Nat → Nat → Int
  | 0, _, _ => 0
  | f + 1, n, p => if p = 0 then 0 else ((p / n : Nat) : Int) + (if alt then -1 else 1) * atanInvSum q alt f (n + 2) (p / (q * q))

/-- atan(1/q) or artanh(1/q). -/
def atanInv (w q : Nat) (alt : Bool) : Int := atanInvSum q alt (w + 8) 1 (2 ^ w / q)

/-- π, by 16 atan(1/5) - 4 atan(1/239). -/
def pi (w : Nat) : Nat := (16 * atanInv w 5 true - 4 * atanInv w 239 true).toNat

/-- ln 2, by 18 artanh(1/26) - 2 artanh(1/4801) + 8 artanh(1/8749). -/
def ln2 (w : Nat) : Nat := (18 * atanInv w 26 false - 2 * atanInv w 4801 false + 8 * atanInv w 8749 false).toNat

/-- The series of artanh z for z at least 0; y is the square of z. -/
def artanhSum (w y : Nat) : Nat → Nat → Nat → Nat
  | 0, _, _ => 0
  | f + 1, n, p => if p = 0 then 0 else p / n + artanhSum w y f (n + 2) ((p * y) >>> w)

/-- artanh z. -/
def artanh (w z : Nat) : Nat := artanhSum w ((z * z) >>> w) (w + 8) 1 z

/-- m · 2^e in units of 2^-w, towards zero. -/
def fixed (w m : Nat) (e : Int) : Nat := if 0 ≤ e + w then m <<< (e + w).toNat else m >>> (-(e + w)).toNat

/-! ### The functions in units of 2^-w, to within 2^104 units for the w that are used -/

/-- sin or cos of m · 2^e: the quadrant of the reduced argument selects (R112: the reduction is exact to the working precision). -/
def trig (isCos : Bool) (m : Nat) (e : Int) (w : Nat) : Int :=
  let x := fixed w m e
  let p := pi w
  let j := (2 * x + p / 2) / p
  let r : Int := ((2 * x : Nat) - (j * p : Nat) : Int) / 2
  let a := r.natAbs
  let sn : Int := if r < 0 then -sin w a else sin w a
  match (j + isCos.toNat) % 4 with
  | 0 => sn
  | 1 => cos w a
  | 2 => -sn
  | _ => -cos w a

/-- log2 of m · 2^e. -/
def log2 (m : Nat) (e : Int) (w : Nat) : Int :=
  let l := m.log2
  let t := fixed w m (-(l : Int))
  let z := ((t - 2 ^ w) <<< w) / (t + 2 ^ w)
  ((l : Int) + e) * 2 ^ w + ((2 * artanh w z <<< w) / ln2 w : Nat)

/-- 2^r for the fraction r of a value, from 0 up to 1. -/
def exp2 (r w : Nat) : Int := (exp w ((r * ln2 w) >>> w) : Nat)

/-- tanh of m · 2^e. -/
def tanh (m : Nat) (e : Int) (w : Nat) : Int :=
  let y := 2 * fixed w m e
  let l := ln2 w
  let j := y / l
  let t := exp w (y - j * l) <<< j
  (((t - 2 ^ w) <<< w) / (t + 2 ^ w) : Nat)

/-- The middle of cell n of the cells of width 2^-k. -/
def cell (neg : Bool) (n : Nat) (k : Int) : Num := .fin neg (2 * n + 1) (-(k + 1))

/-- The cell of an irrational f(a), from approximations at rising precision: narrow enough for a rounding to p bits. -/
def narrow (p : Nat) (approx : Nat → Int) : List Nat → Option Num
  | [] => none
  | w :: ws =>
    let v := (approx w).natAbs
    if v < 2 ^ 108 then narrow p approx ws
    else
      let k : Int := (p : Int) + 4 - ((v.log2 : Int) - w)
      if (w : Int) < k + 108 then narrow p approx ws
      else
        let sh := ((w : Int) - k).toNat
        let lo := (v - 2 ^ 104) >>> sh
        if (v + 2 ^ 104) >>> sh = lo then some (cell (decide (approx w < 0)) lo k) else narrow p approx ws

/-- The working precisions: from 512 bits up to 2^64. The functions' errors stay below 2^104 units for each of them. -/
abbrev steps : List Nat := (List.range 56).map fun i => 2 ^ (9 + i)

/-- The cell that an approximation at w bits falls in. -/
def cellAt (p : Nat) (approx : Nat → Int) (w : Nat) : Num :=
  let v := (approx w).natAbs
  let k : Int := (p : Int) + 4 - ((v.log2 : Int) - w)
  cell (decide (approx w < 0)) (v >>> ((w : Int) - k).toNat) k

/-- The value of an irrational f(a) for one rounding to p bits (R111): the cell of the first precision that tells it from its neighbours. The proven
lower bounds on the distance of f(a) from a breakpoint lie far above the error of the last precision, so that its cell, which stands where none
tells them apart, is f(a)'s as well (notes/assumptions/7.md). -/
def settle (p : Nat) (approx : Nat → Int) : Num := (narrow p approx steps).getD (cellAt p approx (2 ^ 64))

/-- A magnitude just below that of m · 2^e, in a cell for p bits. -/
def justBelow (p : Nat) (neg : Bool) (m : Nat) (e : Int) : Num :=
  let l : Int := (m.log2 : Int) + e
  let k : Int := max (-e) ((p : Int) + 3 - l)
  cell neg (m <<< (k + e).toNat - 1) k

/-- Just above 1, and just below 1, in a cell for p bits. -/
def aboveOne (p : Nat) : Num := cell false (2 ^ (p + 3)) (p + 3)
def belowOne (p : Nat) (neg : Bool) : Num := cell neg (2 ^ (p + 3) - 1) (p + 3)

end Sfu

/-! ### The eight functions with their special operands (R111, R112) -/

/-- √(m · 2^e) with a sticky bit. -/
def exactSqrt (m : Nat) (e : Int) : Num :=
  let k : Nat := 2 * guardBits + (if e % 2 = 0 then 0 else 1)
  let x := m <<< k
  let r := x.sqrt
  .fin false (2 * r + (if r * r = x then 0 else 1)) ((e - k) / 2 - 1)

/-- 1/√(m · 2^e) with a sticky bit. -/
def exactRsqrt (m : Nat) (e : Int) : Num :=
  let (m, e) := if e % 2 = 0 then (m, e) else (2 * m, e - 1)
  let k := guardBits + m.log2
  let r := (2 ^ (2 * k) / m).sqrt
  .fin false (2 * r + (if r * r * m = 2 ^ (2 * k) then 0 else 1)) (-(e / 2) - k - 1)

/-- The invalid result of a special function. -/
abbrev sfuInvalid : Exact := { x := madeNan, flags := { inv := true } }

/-- RCP (R111). -/
def sfuRcp (x : Num) : Exact := exactDiv (.fin false 1 0) x

/-- RSQ (R111). -/
def sfuRsq : Num → Exact
  | .inf n => if n then sfuInvalid else { x := .zero false }
  | .fin n m e =>
    if m = 0 then { x := .inf n, flags := { div0 := true } } else if n then sfuInvalid else { x := exactRsqrt m e }
  | x => { x := x, flags := snanFlag [x] }

/-- SQRT (R111). -/
def sfuSqrt : Num → Exact
  | .inf n => if n then sfuInvalid else { x := .inf false }
  | .fin n m e => if m = 0 then { x := .zero n } else if n then sfuInvalid else { x := exactSqrt m e }
  | x => { x := x, flags := snanFlag [x] }

/-- EXP2 (R111): an integer operand is exact; operands far beyond the range stand for any such magnitude. -/
def sfuExp2 (p : Nat) : Num → Exact
  | .inf n => { x := if n then .zero false else .inf false }
  | .fin n m e =>
    let l : Int := (m.log2 : Int) + e
    if m = 0 then { x := .fin false 1 0 }
    else if 13 ≤ l then { x := if n then .fin false 1 (-16384) else .fin false 3 16384 }
    else if l < -140 then { x := if n then Sfu.belowOne p false else Sfu.aboveOne p }
    else
      -- 4,096 fraction bits hold the operand exactly
      let v : Int := Num.scaled n m (e + 4096) 0
      let i := v / 2 ^ 4096
      let r := (v % 2 ^ 4096).toNat
      if r = 0 then { x := .fin false 1 i }
      else
        match Sfu.settle p (fun w => Sfu.exp2 (Sfu.fixed w r (-4096)) w) with
        | .fin _ m' e' => { x := .fin false m' (e' + i) }
        | y => { x := y }
  | x => { x := x, flags := snanFlag [x] }

/-- LOG2 (R111): a power of two is exact. -/
def sfuLog2 (p : Nat) : Num → Exact
  | .inf n => if n then sfuInvalid else { x := .inf false }
  | .fin n m e =>
    if m = 0 then { x := .inf true, flags := { div0 := true } }
    else if n then sfuInvalid
    else if m = 2 ^ m.log2 then { x := Num.ofInt ((m.log2 : Int) + e) }
    else { x := Sfu.settle p (Sfu.log2 m e) }
  | x => { x := x, flags := snanFlag [x] }

/-- SIN and COS (R111, R112). -/
def sfuTrig (isCos : Bool) (p : Nat) : Num → Exact
  | .inf _ => sfuInvalid
  | .fin n m e =>
    let l : Int := (m.log2 : Int) + e
    if m = 0 then { x := if isCos then .fin false 1 0 else .zero n }
    else if 30 ≤ l then { x := madeNan, flags := { range := true } }
    else if l < -70 then { x := if isCos then Sfu.belowOne p false else Sfu.justBelow p n m e }
    else
      let y := Sfu.settle p (Sfu.trig isCos m e)
      { x := if n && !isCos then y.negate else y }
  | x => { x := x, flags := snanFlag [x] }

/-- TANH (R111). -/
def sfuTanh (p : Nat) : Num → Exact
  | .inf n => { x := .fin n 1 0 }
  | .fin n m e =>
    let l : Int := (m.log2 : Int) + e
    if m = 0 then { x := .zero n }
    else if 7 ≤ l then { x := Sfu.belowOne p n }
    else if l < -70 then { x := Sfu.justBelow p n m e }
    else
      let y := Sfu.settle p (Sfu.tanh m e)
      { x := if n then y.negate else y }
  | x => { x := x, flags := snanFlag [x] }

/-- An SFU word (R110): long, whatever its class. `f` is given the precision of the result. -/
def sfuOp (f : Nat → Num → Exact) (d a : Spec) (rnd : BitVec 2) (cls : BitVec 4) : M Unit := do
  let prc ← readPrc
  let x ← readVf a
  let c := resultClass prc cls
  deliver d c (roundMode prc rnd) none (f (precOf c) (x.src (Prc.ftz prc)))

/-- RCP (R111). -/
def execRcp (d a : Spec) (rnd : BitVec 2) (cls : BitVec 4) (s : State) : Host.Outcome State Fault Refusal :=
  runWord (.rcp d a rnd cls) (sfuOp (fun _ x => sfuRcp x) d a rnd cls) s

/-- RSQ (R111). -/
def execRsq (d a : Spec) (rnd : BitVec 2) (cls : BitVec 4) (s : State) : Host.Outcome State Fault Refusal :=
  runWord (.rsq d a rnd cls) (sfuOp (fun _ x => sfuRsq x) d a rnd cls) s

/-- SQRT (R111). -/
def execSqrt (d a : Spec) (rnd : BitVec 2) (cls : BitVec 4) (s : State) : Host.Outcome State Fault Refusal :=
  runWord (.sqrt d a rnd cls) (sfuOp (fun _ x => sfuSqrt x) d a rnd cls) s

/-- EXP2 (R111). -/
def execExp2 (d a : Spec) (rnd : BitVec 2) (cls : BitVec 4) (s : State) : Host.Outcome State Fault Refusal :=
  runWord (.exp2 d a rnd cls) (sfuOp sfuExp2 d a rnd cls) s

/-- LOG2 (R111). -/
def execLog2 (d a : Spec) (rnd : BitVec 2) (cls : BitVec 4) (s : State) : Host.Outcome State Fault Refusal :=
  runWord (.log2 d a rnd cls) (sfuOp sfuLog2 d a rnd cls) s

/-- SIN (R111, R112). -/
def execSin (d a : Spec) (rnd : BitVec 2) (cls : BitVec 4) (s : State) : Host.Outcome State Fault Refusal :=
  runWord (.sin d a rnd cls) (sfuOp (sfuTrig false) d a rnd cls) s

/-- COS (R111, R112). -/
def execCos (d a : Spec) (rnd : BitVec 2) (cls : BitVec 4) (s : State) : Host.Outcome State Fault Refusal :=
  runWord (.cos d a rnd cls) (sfuOp (sfuTrig true) d a rnd cls) s

/-- TANH (R111). -/
def execTanh (d a : Spec) (rnd : BitVec 2) (cls : BitVec 4) (s : State) : Host.Outcome State Fault Refusal :=
  runWord (.tanh d a rnd cls) (sfuOp sfuTanh d a rnd cls) s

end Sys2Proof.Machine
end

