-- ==== Sys2Proof/Machine/Dispatch.lean ====
section
/-! DEFINITION. The one dispatch from an instruction to its meaning. -/
namespace Sys2Proof.Machine

/-- The meaning of each instruction. -/
def exec (i : Instr) (s : State) : Host.Outcome State Fault Refusal :=
  match i with
  | .nop => Sys2Proof.Machine.execNop s
  | .pool count => Sys2Proof.Machine.execPool count s
  | .exit => Sys2Proof.Machine.execExit s
  | .ret => Sys2Proof.Machine.execRet s
  | .yield => Sys2Proof.Machine.execYield s
  | .rft => Sys2Proof.Machine.execRft s
  | .rftSkip => Sys2Proof.Machine.execRftSkip s
  | .brkpt code => Sys2Proof.Machine.execBrkpt code s
  | .last x y z => Sys2Proof.Machine.execLast x y z s
  | .add d a b w => Sys2Proof.Machine.execAdd d a b w s
  | .sub d a b w => Sys2Proof.Machine.execSub d a b w s
  | .mul d a b w => Sys2Proof.Machine.execMul d a b w s
  | .mulh d a b w => Sys2Proof.Machine.execMulh d a b w s
  | .mulhn d a b w => Sys2Proof.Machine.execMulhn d a b w s
  | .div d a b w => Sys2Proof.Machine.execDiv d a b w s
  | .divn d a b w => Sys2Proof.Machine.execDivn d a b w s
  | .rem d a b w => Sys2Proof.Machine.execRem d a b w s
  | .remn d a b w => Sys2Proof.Machine.execRemn d a b w s
  | .min d a b w => Sys2Proof.Machine.execMin d a b w s
  | .max d a b w => Sys2Proof.Machine.execMax d a b w s
  | .minn d a b w => Sys2Proof.Machine.execMinn d a b w s
  | .maxn d a b w => Sys2Proof.Machine.execMaxn d a b w s
  | .and d a b w => Sys2Proof.Machine.execAnd d a b w s
  | .or d a b w => Sys2Proof.Machine.execOr d a b w s
  | .xor d a b w => Sys2Proof.Machine.execXor d a b w s
  | .andn d a b w => Sys2Proof.Machine.execAndn d a b w s
  | .shl d a b w => Sys2Proof.Machine.execShl d a b w s
  | .shr d a b w => Sys2Proof.Machine.execShr d a b w s
  | .sar d a b w => Sys2Proof.Machine.execSar d a b w s
  | .rot d a b w => Sys2Proof.Machine.execRot d a b w s
  | .clz d a w => Sys2Proof.Machine.execClz d a w s
  | .popc d a w => Sys2Proof.Machine.execPopc d a w s
  | .brev d a w => Sys2Proof.Machine.execBrev d a w s
  | .abs d a w => Sys2Proof.Machine.execAbs d a w s
  | .neg d a w => Sys2Proof.Machine.execNeg d a w s
  | .sext d a => Sys2Proof.Machine.execSext d a s
  | .zext d a => Sys2Proof.Machine.execZext d a s
  | .mov d a w => Sys2Proof.Machine.execMov d a w s
  | .addi d a k => Sys2Proof.Machine.execAddi d a k s
  | .andi d a k => Sys2Proof.Machine.execAndi d a k s
  | .ori d a k => Sys2Proof.Machine.execOri d a k s
  | .xori d a k => Sys2Proof.Machine.execXori d a k s
  | .andni d a k => Sys2Proof.Machine.execAndni d a k s
  | .shli d a w src => Sys2Proof.Machine.execShli d a w src s
  | .shri d a w src => Sys2Proof.Machine.execShri d a w src s
  | .sari d a w src => Sys2Proof.Machine.execSari d a w src s
  | .roti d a w src => Sys2Proof.Machine.execRoti d a w src s
  | .icmp cond p a b comb w => Sys2Proof.Machine.execIcmp cond p a b comb w s
  | .icmpi cond p a immHi comb immLo => Sys2Proof.Machine.execIcmpi cond p a immHi comb immLo s
  | .sel d a b k => Sys2Proof.Machine.execSel d a b k s
  | .bfx d a b sx => Sys2Proof.Machine.execBfx d a b sx s
  | .bfi d a b => Sys2Proof.Machine.execBfi d a b s
  | .pmov d => Sys2Proof.Machine.execPmov d s
  | .setp a => Sys2Proof.Machine.execSetp a s
  | .bperm d a b => Sys2Proof.Machine.execBperm d a b s
  | .ldlit d off => Sys2Proof.Machine.execLdlit d off s
  | .addr d a b scale => Sys2Proof.Machine.execAddr d a b scale s
  | .sprGet x num => Sys2Proof.Machine.execSprGet x num s
  | .sprSet x num => Sys2Proof.Machine.execSprSet x num s
  | .sprSwap x num => Sys2Proof.Machine.execSprSwap x num s
  | .redo a base b scope => Sys2Proof.Machine.execRedo a base b scope s
  | .fadd d a b rnd cls => Sys2Proof.Machine.execFadd d a b rnd cls s
  | .fsub d a b rnd cls => Sys2Proof.Machine.execFsub d a b rnd cls s
  | .fmul d a b rnd cls => Sys2Proof.Machine.execFmul d a b rnd cls s
  | .fmin d a b cls => Sys2Proof.Machine.execFmin d a b cls s
  | .fmax d a b cls => Sys2Proof.Machine.execFmax d a b cls s
  | .fminm d a b cls => Sys2Proof.Machine.execFminm d a b cls s
  | .fmaxm d a b cls => Sys2Proof.Machine.execFmaxm d a b cls s
  | .ffma d a b e => Sys2Proof.Machine.execFfma d a b e s
  | .ffms d a b e => Sys2Proof.Machine.execFfms d a b e s
  | .fnma d a b e => Sys2Proof.Machine.execFnma d a b e s
  | .fabs d a rnd cls => Sys2Proof.Machine.execFabs d a rnd cls s
  | .fneg d a rnd cls => Sys2Proof.Machine.execFneg d a rnd cls s
  | .frnd d a rnd cls => Sys2Proof.Machine.execFrnd d a rnd cls s
  | .gete d a => Sys2Proof.Machine.execGete d a s
  | .getm d a rnd cls => Sys2Proof.Machine.execGetm d a rnd cls s
  | .fclass d a => Sys2Proof.Machine.execFclass d a s
  | .reclass d a rnd cls => Sys2Proof.Machine.execReclass d a rnd cls s
  | .fcmp cond p a b comb sig => Sys2Proof.Machine.execFcmp cond p a b comb sig s
  | .twosum d a b cls => Sys2Proof.Machine.execTwosum d a b cls s
  | .twoprod d a b cls => Sys2Proof.Machine.execTwoprod d a b cls s
  | .cvtin d a ty rnd cls => Sys2Proof.Machine.execCvtin d a ty rnd cls s
  | .cvtout d a ty rnd => Sys2Proof.Machine.execCvtout d a ty rnd s
  | .fscl d a b rnd cls => Sys2Proof.Machine.execFscl d a b rnd cls s
  | .rcp d a rnd cls => Sys2Proof.Machine.execRcp d a rnd cls s
  | .rsq d a rnd cls => Sys2Proof.Machine.execRsq d a rnd cls s
  | .sqrt d a rnd cls => Sys2Proof.Machine.execSqrt d a rnd cls s
  | .exp2 d a rnd cls => Sys2Proof.Machine.execExp2 d a rnd cls s
  | .log2 d a rnd cls => Sys2Proof.Machine.execLog2 d a rnd cls s
  | .sin d a rnd cls => Sys2Proof.Machine.execSin d a rnd cls s
  | .cos d a rnd cls => Sys2Proof.Machine.execCos d a rnd cls s
  | .tanh d a rnd cls => Sys2Proof.Machine.execTanh d a rnd cls s
  | .xpull d a b k => Sys2Proof.Machine.execXpull d a b k s
  | .xrank d a b k => Sys2Proof.Machine.execXrank d a b k s
  | .xsegb d a b k => Sys2Proof.Machine.execXsegb d a b k s
  | .xrev d a b k => Sys2Proof.Machine.execXrev d a b k s
  | .xcount d neg j k => Sys2Proof.Machine.execXcount d neg j k s
  | .xfirst d neg j k => Sys2Proof.Machine.execXfirst d neg j k s
  | .xmask d neg j k => Sys2Proof.Machine.execXmask d neg j k s
  | .gbcast d a k => Sys2Proof.Machine.execGbcast d a k s
  | .gred d a op k => Sys2Proof.Machine.execGred d a op k s
  | .gscan d a op excl k => Sys2Proof.Machine.execGscan d a op excl k s
  | .pack6 d a b => Sys2Proof.Machine.execPack6 d a b s
  | .unpk6 d a cls => Sys2Proof.Machine.execUnpk6 d a cls s
  | .xpr in0 in1 in2 in3 => Sys2Proof.Machine.execXpr in0 in1 in2 in3 s
  | .cmma d a b k => Sys2Proof.Machine.execCmma d a b k s
  | .ld d base space size reuse off => Sys2Proof.Machine.execLd d base space size reuse off s
  | .st src base space size reuse off => Sys2Proof.Machine.execSt src base space size reuse off s
  | .lda d base space size reuse peek scope => Sys2Proof.Machine.execLda d base space size reuse peek scope s
  | .strl src base space size reuse scope => Sys2Proof.Machine.execStrl src base space size reuse scope s
  | .pref base space reuse off => Sys2Proof.Machine.execPref base space reuse off s
  | .prefL1 base space reuse off => Sys2Proof.Machine.execPrefL1 base space reuse off s
  | .prefHome die => Sys2Proof.Machine.execPrefHome die s
  | .wmap d a => Sys2Proof.Machine.execWmap d a s
  | .wunmap d a => Sys2Proof.Machine.execWunmap d a s
  | .wflush d a => Sys2Proof.Machine.execWflush d a s
  | .wdrop d a => Sys2Proof.Machine.execWdrop d a s
  | .wquery d a => Sys2Proof.Machine.execWquery d a s
  | .atom d base b scope op => Sys2Proof.Machine.execAtom d base b scope op s
  | .red a base scope op w => Sys2Proof.Machine.execRed a base scope op w s
  | .fenceRel scope => Sys2Proof.Machine.execFenceRel scope s
  | .fenceAcq scope => Sys2Proof.Machine.execFenceAcq scope s
  | .fenceFull scope => Sys2Proof.Machine.execFenceFull scope s
  | .cpya a t sspace dspace => Sys2Proof.Machine.execCpya a t sspace dspace s
  | .gath a t mode i64 istash dstash => Sys2Proof.Machine.execGath a t mode i64 istash dstash s
  | .scat a t mode i64 istash dstash => Sys2Proof.Machine.execScat a t mode i64 istash dstash s
  | .scatReduce a t mode i64 istash dstash op scope => Sys2Proof.Machine.execScatReduce a t mode i64 istash dstash op scope s
  | .drain d a => Sys2Proof.Machine.execDrain d a s
  | .drainAll d => Sys2Proof.Machine.execDrainAll d s
  | .drainPass d => Sys2Proof.Machine.execDrainPass d s
  | .atomw d base b scope op => Sys2Proof.Machine.execAtomw d base b scope op s
  | .atomc d base b scope w => Sys2Proof.Machine.execAtomc d base b scope w s
  | .bra neg p u off => Sys2Proof.Machine.execBra neg p u off s
  | .call neg p u off => Sys2Proof.Machine.execCall neg p u off s
  | .jmpr neg p u a => Sys2Proof.Machine.execJmpr neg p u a s
  | .callr neg p u a => Sys2Proof.Machine.execCallr neg p u a s
  | .loop k n len => Sys2Proof.Machine.execLoop k n len s
  | .join k => Sys2Proof.Machine.execJoin k s
  | .leave k => Sys2Proof.Machine.execLeave k s
  | .waitm k j => Sys2Proof.Machine.execWaitm k j s
  | .mget d k => Sys2Proof.Machine.execMget d k s
  | .mset a k => Sys2Proof.Machine.execMset a k s
  | .msave k j => Sys2Proof.Machine.execMsave k j s
  | .mrst k => Sys2Proof.Machine.execMrst k s
  | .waitc d a n all t => Sys2Proof.Machine.execWaitc d a n all t s
  | .latchArrive d num count => Sys2Proof.Machine.execLatchArrive d num count s
  | .latchSync d num count => Sys2Proof.Machine.execLatchSync d num count s
  | .latchWait d num => Sys2Proof.Machine.execLatchWait d num s
  | .latchX d num => Sys2Proof.Machine.execLatchX d num s
  | .tbarArrive d num count => Sys2Proof.Machine.execTbarArrive d num count s
  | .tbarSync d num count => Sys2Proof.Machine.execTbarSync d num count s
  | .tbarWait d num => Sys2Proof.Machine.execTbarWait d num s
  | .cbarArrive d num count => Sys2Proof.Machine.execCbarArrive d num count s
  | .cbarSync d num count => Sys2Proof.Machine.execCbarSync d num count s
  | .cbarWait d num => Sys2Proof.Machine.execCbarWait d num s
  | .launch d a => Sys2Proof.Machine.execLaunch d a s
  | .mpassDense d src => Sys2Proof.Machine.execMpassDense d src s
  | .mpassReduce d src => Sys2Proof.Machine.execMpassReduce d src s
  | .mpassBatch d src => Sys2Proof.Machine.execMpassBatch d src s
  | .mpassMvec d src => Sys2Proof.Machine.execMpassMvec d src s
  | .accinit d a keep kind => Sys2Proof.Machine.execAccinit d a keep kind s
  | .mcancel d a tile => Sys2Proof.Machine.execMcancel d a tile s
  | .mquery d a tile => Sys2Proof.Machine.execMquery d a tile s
  | .fdiv d a b rnd cls => Sys2Proof.Machine.execFdiv d a b rnd cls s
  | .fman d a b e => Sys2Proof.Machine.execFman d a b e s
  | .trap x => Sys2Proof.Machine.execTrap x s
  | .svc a x => Sys2Proof.Machine.execSvc a x s
  | .saveq a => Sys2Proof.Machine.execSaveq a s
  | .rstq a => Sys2Proof.Machine.execRstq a s
  | .gets d x => Sys2Proof.Machine.execGets d x s
  | .sets a x => Sys2Proof.Machine.execSets a x s
  | .tlbiPage d a => Sys2Proof.Machine.execTlbiPage d a s
  | .tlbiAsid d a => Sys2Proof.Machine.execTlbiAsid d a s
  | .tlbiAll d a => Sys2Proof.Machine.execTlbiAll d a s
  | .invl => Sys2Proof.Machine.execInvl s
  | .wbl d a => Sys2Proof.Machine.execWbl d a s
  | .wipe d a => Sys2Proof.Machine.execWipe d a s
  | .reservedOpcode w => Sys2Proof.Machine.execReservedOpcode w s
  | .waitcPoll th c => Sys2Proof.Machine.execWaitcPoll th c s
  | .waitcTimeout th => Sys2Proof.Machine.execWaitcTimeout th s
  | .latchRelease num die => Sys2Proof.Machine.execLatchRelease num die s
  | .runForcedEnd th => Sys2Proof.Machine.execRunForcedEnd th s
  | .longResultReturn th => Sys2Proof.Machine.execLongResultReturn th s
  | .formGang die core => Sys2Proof.Machine.execFormGang die core s
  | .parkResume th => Sys2Proof.Machine.execParkResume th s
  | .threadFaultRecord th => Sys2Proof.Machine.execThreadFaultRecord th s
  | .leaseExpiry die => Sys2Proof.Machine.execLeaseExpiry die s
  | .clusterBufferWriteback die cl line => Sys2Proof.Machine.execClusterBufferWriteback die cl line s
  | .stashFillComplete die core line => Sys2Proof.Machine.execStashFillComplete die core line s
  | .accinitApply die cl key => Sys2Proof.Machine.execAccinitApply die cl key s
  | .matrixGrant die cl => Sys2Proof.Machine.execMatrixGrant die cl s
  | .passPriorityAging die cl key => Sys2Proof.Machine.execPassPriorityAging die cl key s
  | .kStep die cl key => Sys2Proof.Machine.execKStep die cl key s
  | .partialResend key => Sys2Proof.Machine.execPartialResend key s
  | .passPreemptStop die cl key => Sys2Proof.Machine.execPassPreemptStop die cl key s
  | .asyncOpComplete die core key => Sys2Proof.Machine.execAsyncOpComplete die core key s
  | .knockerWrite die q => Sys2Proof.Machine.execKnockerWrite die q s
  | .cohortPlace die => Sys2Proof.Machine.execCohortPlace die s
  | .dispatcherPreempt die => Sys2Proof.Machine.execDispatcherPreempt die s
  | .idleSteal die grid => Sys2Proof.Machine.execIdleSteal die grid s
  | .cohortSaved grid cohort => Sys2Proof.Machine.execCohortSaved grid cohort s
  | .cohortRestore grid cohort => Sys2Proof.Machine.execCohortRestore grid cohort s
  | .gridEnd grid => Sys2Proof.Machine.execGridEnd grid s
  | .faultReportReoffer die => Sys2Proof.Machine.execFaultReportReoffer die s
  | .lastingError die unit => Sys2Proof.Machine.execLastingError die unit s
  | .clockAdjust die steps => Sys2Proof.Machine.execClockAdjust die steps s
  | .moduleReset => Sys2Proof.Machine.execModuleReset s
  | .electQuiet => Sys2Proof.Machine.execElectQuiet s
  | .helloTimeout site => Sys2Proof.Machine.execHelloTimeout site s
  | .imgreqTimeout => Sys2Proof.Machine.execImgreqTimeout s
  | .edgeRequestTimeout site txn => Sys2Proof.Machine.execEdgeRequestTimeout site txn s
  | .mcastTimeout th => Sys2Proof.Machine.execMcastTimeout th s
  | .ucieModuleError die dir m => Sys2Proof.Machine.execUcieModuleError die dir m s
  | .sitePowerCut site => Sys2Proof.Machine.execSitePowerCut site s
  | .rd m => Sys2Proof.Machine.execRd m s
  | .rdn m => Sys2Proof.Machine.execRdn m s
  | .rdo m => Sys2Proof.Machine.execRdo m s
  | .wr m => Sys2Proof.Machine.execWr m s
  | .wrm m => Sys2Proof.Machine.execWrm m s
  | .atm m => Sys2Proof.Machine.execAtm m s
  | .watch m => Sys2Proof.Machine.execWatch m s
  | .unwatch m => Sys2Proof.Machine.execUnwatch m s
  | .wb m => Sys2Proof.Machine.execWb m s
  | .probe m => Sys2Proof.Machine.execProbe m s
  | .recall m => Sys2Proof.Machine.execRecall m s
  | .ack m => Sys2Proof.Machine.execAck m s
  | .nack m => Sys2Proof.Machine.execNack m s
  | .remap m => Sys2Proof.Machine.execRemap m s
  | .done m => Sys2Proof.Machine.execDone m s
  | .err m => Sys2Proof.Machine.execErr m s
  | .data m => Sys2Proof.Machine.execData m s
  | .pdata m => Sys2Proof.Machine.execPdata m s
  | .redu m => Sys2Proof.Machine.execRedu m s
  | .redw m => Sys2Proof.Machine.execRedw m s
  | .part m => Sys2Proof.Machine.execPart m s
  | .hello m => Sys2Proof.Machine.execHello m s
  | .timex m => Sys2Proof.Machine.execTimex m s
  | .elect m => Sys2Proof.Machine.execElect m s
  | .assign m => Sys2Proof.Machine.execAssign m s
  | .epoch m => Sys2Proof.Machine.execEpoch m s
  | .watchv m => Sys2Proof.Machine.execWatchv m s
  | .steal m => Sys2Proof.Machine.execSteal m s
  | .img m => Sys2Proof.Machine.execImg m s
  | .hingeWipe m => Sys2Proof.Machine.execHingeWipe m s
  | .wiped m => Sys2Proof.Machine.execWiped m s
  | .imgreq m => Sys2Proof.Machine.execImgreq m s
  | .replayRetry die tag => Sys2Proof.Machine.execReplayRetry die tag s
  | .replayFail die tag => Sys2Proof.Machine.execReplayFail die tag s
  | .threadcmdRetry die tag => Sys2Proof.Machine.execThreadcmdRetry die tag s
  | .threadcmdSkip die tag => Sys2Proof.Machine.execThreadcmdSkip die tag s
  | .threadcmdUpcall die tag => Sys2Proof.Machine.execThreadcmdUpcall die tag s
  | .threadcmdAbort die tag => Sys2Proof.Machine.execThreadcmdAbort die tag s
  | .qslotMap die q desc => Sys2Proof.Machine.execQslotMap die q desc s
  | .qslotUnmap die q => Sys2Proof.Machine.execQslotUnmap die q s
  | .qslotUnmapComplete die q => Sys2Proof.Machine.execQslotUnmapComplete die q s
  | .preemptCore die core => Sys2Proof.Machine.execPreemptCore die core s
  | .preemptDie die => Sys2Proof.Machine.execPreemptDie die s
  | .preemptAsidDie die asid => Sys2Proof.Machine.execPreemptAsidDie die asid s
  | .preemptAsidModule die asid => Sys2Proof.Machine.execPreemptAsidModule die asid s
  | .quantumWrite die v => Sys2Proof.Machine.execQuantumWrite die v s
  | .rdcsizeWrite die v => Sys2Proof.Machine.execRdcsizeWrite die v s
  | .powercapWrite die v => Sys2Proof.Machine.execPowercapWrite die v s
  | .modidWrite die v => Sys2Proof.Machine.execModidWrite die v s
  | .accareaWrite die v => Sys2Proof.Machine.execAccareaWrite die v s
  | .lsegWrite die l v => Sys2Proof.Machine.execLsegWrite die l v s
  | .lexcWrite die l high v => Sys2Proof.Machine.execLexcWrite die l high v s
  | .challenge die block => Sys2Proof.Machine.execChallenge die block s
  | .quote die block => Sys2Proof.Machine.execQuote die block s
  | .cert die block => Sys2Proof.Machine.execCert die block s
  | .command die block => Sys2Proof.Machine.execCommand die block s
  | .registerWrite die off v => Sys2Proof.Machine.execRegisterWrite die off v s
  | .droppedMessage die cls op follow => Sys2Proof.Machine.execDroppedMessage die cls op follow s
  | .malformedRequest die block => Sys2Proof.Machine.execMalformedRequest die block s
  | .flitCredits die dir credits => Sys2Proof.Machine.execFlitCredits die dir credits s
  | .linkErrorRetry die dir => Sys2Proof.Machine.execLinkErrorRetry die dir s
  | .storageError place soft => Sys2Proof.Machine.execStorageError place soft s
  | .hbmWipeComplete => Sys2Proof.Machine.execHbmWipeComplete s
  | .sliceRetirementComplete die slice => Sys2Proof.Machine.execSliceRetirementComplete die slice s
  | .portLiveChange site live => Sys2Proof.Machine.execPortLiveChange site live s

end Sys2Proof.Machine
end

