-- ==== Sys2Proof/Machine/Turn.lean ====
section
/-! DEFINITION. Who acts at a step: a core's picker, which gathers ready threads and issues the slots of its oldest gang (R239 to R242), a thread that waits
(R11, R34), an event, a write to a register, or a unit that goes on with its work; what comes due while time passes (R179, R278), and what follows every turn. -/
namespace Sys2Proof.Machine

/-- An acquire's wait is over (R198): the generation is bumped where one is owed. -/
def passAcquire (s : State) (u : Nat) : State :=
  match s.th? u with
  | none => s
  | some t =>
    match t.acq with
    | none => s
    | some (_, bump) =>
      let s1 := s.setTh u { t with acq := none }
      if bump then s1.bumpGen t.die else s1

/-! ### The picker -/

/-- The condition of a branch with U = 1 (R261, R262): its predicate and negation. -/
def uniformBranch : Instr → Option (Bool × BitVec 3)
  | .bra neg p true _ => some (neg, p)
  | .call neg p true _ => some (neg, p)
  | .jmpr neg p true _ => some (neg, p)
  | .callr neg p true _ => some (neg, p)
  | _ => none

/-- What each member of a gang computes for a uniform branch in its next chain; empty where there is none (R262). -/
def gangVotes (s : State) (us : List Nat) : List (Nat × Bool) :=
  us.filterMap fun u =>
    match s.th? u with
    | none => none
    | some t =>
      match fetchPacket t.pc { s with cur := u, word := 0, left := false } with
      | .error _ => none
      | .ok (packet, _) =>
        match chainAt (Prc.wc t.prc) (wordIdx t.pc) packet with
        | .error _ => none
        | .ok c => (c.words.findSome? uniformBranch).map fun b => (u, t.predVal b.2.toNat != b.1)

namespace State

/-- A thread that exists and can issue its next slot. -/
def issues (s : State) (u : Nat) : Bool := match s.th? u with | some t => s.canIssue u t | none => false

/-- The oldest member of a gang (R241). -/
def eldest (s : State) (g : Gang) : Thread :=
  match g.members.filterMap s.th? with
  | [] => noThread
  | t :: ts => ts.foldl (fun a b => if s.older b a then b else a) t

/-- The older of two gangs by their oldest members. -/
def elderGang (s : State) (best : Option (Nat × Gang)) (p : Nat × Gang) : Option (Nat × Gang) :=
  match best with
  | none => some p
  | some q => if s.older (s.eldest p.2) (s.eldest q.2) then some p else some q

/-- The gang whose slot a core issues, by its entry, with the members that have still to issue it (R241): the one that is in its slot, else the oldest whose
members can all issue. -/
def picked (s : State) (die core : Nat) : Option (Nat × List Nat) :=
  let gs := (s.core (coreKey die core)).gangs
  match gs.find? fun p => p.2.pending.any s.issues with
  | some p => some (p.1, p.2.pending)
  | none => ((gs.filter fun p => p.2.members.all s.issues).foldl s.elderGang none).map fun p => (p.1, p.2.members)

/-- Member u of a gang goes out with the gang's slot; the votes of the members are noted at the slot's start. -/
def sendOut (s : State) (die core idx : Nat) (us : List Nat) (u : Nat) : State :=
  s.modCore (coreKey die core) fun c =>
    match AMap.get? c.gangs idx with
    | none => c
    | some g =>
      let g' := { g with pending := us.filter (· ≠ u), votes := if g.pending = [] then gangVotes s g.members else g.votes }
      { c with gangs := AMap.put c.gangs idx g' }

end State

/-- The picker of a core issues: threads are gathered, and a member of the gang that is due issues the gang's slot, thread `want` where one is named. Where
no gang can issue, or `want` is not a member of the gang that is due, nothing does. -/
def pickTurn (s : State) (die core : Nat) (want : Option Nat) : Host.Outcome State Fault Refusal :=
  let s1 := s.gatherAll die core
  match s1.picked die core with
  | none => .next s1
  | some (idx, us) =>
    match us.find? fun u => s1.issues u && (match want with | some w => w == u | none => true) with
    | none => .next s1
    | some u => issueSlot exec (passAcquire (s1.sendOut die core idx us u) u) u

/-- A thread's turn. -/
def threadTurn (s : State) (u : Nat) : Host.Outcome State Fault Refusal :=
  match s.th? u with
  | none => .next s
  | some t =>
    if s.boot ≠ .running then .next s
    else if s.abortDue t then .next (s.dropThread u)
    else
      match t.status with
      | .ready => pickTurn s t.die t.core (some u)
      | .longs => execLongResultReturn u s
      | .waiting => .next (checkWaits s u)
      | .waitc => .next (checkWaitc s u)
      | .parked _ => execParkResume u s
      | .awaiting none => execThreadFaultRecord u s
      | .awaiting (some _) => .next s
      | .ended => .next s

/-- What an act does. -/
def act (a : Act) (s : State) : Host.Outcome State Fault Refusal :=
  match a with
  | .issue u => threadTurn s u
  | .pick d c => if s.boot = .running then pickTurn s d c none else .next s
  | .event i => if i.isEvent then exec i s else .next s
  | .regWrite d off v => writeRegister (BitVec.ofNat 6 d) off v s
  | .record d pa slots => .next (s.putRecord d pa slots)
  | .evict d c l => .next (s.modCore (coreKey d c) fun x => { x with l1 := AMap.del x.l1 l })
  | .evictRdc d l => .next (s.modDie d fun x => { x with rdc := AMap.del x.rdc l })
  | .selfTest d clusters slices loops => .next (s.trainDie d clusters slices loops)
  | .discard d c g t va => .next (s.report d g t 0 c cPROTECTION va 1 0)
  | .serve d => serveRequest d s

/-! ### The passing of time -/

/-- What comes due at a time without a turn of its own. -/
inductive Due where
  /-- a line of a cluster buffer has been dirty for 2,048 ticks (R179, R190) -/
  | line (ck l : Nat)
  /-- a WAITC's time is over (R278, step 5) -/
  | waitc (th : Nat)
  /-- the topology table is visible, and its even generation follows (R373) -/
  | topo
  deriving DecidableEq, Repr

namespace State

/-- Insert by time, the earliest first. -/
def insertDue (p : Nat × Due) : List (Nat × Due) → List (Nat × Due)
  | [] => [p]
  | q :: qs => if p.1 < q.1 then p :: q :: qs else q :: insertDue p qs

/-- What comes due by a module time, in its order. -/
def dues (s : State) (upto : Nat) : List (Nat × Due) :=
  let lines := s.clusters.flatMap fun c => c.2.buf.map fun l => (l.2.since + 2048 - (s.die (c.1 / 32)).base, Due.line c.1 l.1)
  let waits := s.threads.filterMap fun p =>
    match p.2.waitc with
    | some w => w.deadline.map fun t => (t - (s.die p.2.die).base, Due.waitc p.1)
    | none => none
  let topo := match s.anchor, s.topoDue with | some a, some v => [(v - (s.die a).base, Due.topo)] | _, _ => []
  ((lines ++ waits ++ topo).filter fun x => decide (x.1 ≤ upto)).foldl (fun xs x => insertDue x xs) []

/-- Every WAITC at its boundary is evaluated (R278, step 4). -/
def checkWaitcs (s : State) : State := s.threads.foldl (fun s p => if p.2.status = .waitc then checkWaitc s p.1 else s) s

/-- What is due happens, at its time; a WAITC that a line's write-back has made true completes before its own time is over. -/
def happen (s : State) (x : Nat × Due) : State :=
  let s1 := { s with time := max s.time x.1 }
  match x.2 with
  | .line ck l => (s1.flushLine ck l).1.checkWaitcs
  | .waitc u => checkWaitc s1 u
  | .topo => s1.finishTopo

/-- Ticks pass: what comes due in them happens in its order. -/
def passTime (dt : Nat) (s : State) : State :=
  { (s.dues (s.time + dt)).foldl happen s with time := s.time + dt }

/-! ### After a turn -/

/-- A thread's next issue accesses a stash line on which it has parked. -/
def waitsForLine (s : State) (k line u : Nat) : Bool :=
  match s.th? u with | some t => coreKey t.die t.core == k && t.lineWait.contains line | none => false

/-- A fill that a translation fault has stopped lasts as long as its starter comes back to it, and a fill serves a thread as long as that does (R171). -/
def settleLine (s : State) (k line : Nat) (x : StashLine) : StashLine :=
  { x with filling := match x.filling with | some u => if x.pas = [] ∧ !s.waitsForLine k line u then none else some u | none => none
           serve := x.serve.filter fun u => s.waitsForLine k line u }

/-- What follows every turn: windows whose life is to end do so where nothing waits in them (R176), dispatchers go on with knocks (R294), the arbiters note the
entries that have become ready (R124), and every WAITC at its boundary is evaluated (R278, step 4). -/
def afterTurn (s : State) : State :=
  let s1 : State := { s with cores := s.cores.map fun p => (p.1, { p.2 with lines := p.2.lines.map fun l => (l.1, s.settleLine p.1 l.1 l.2) }) }
  let s2 := s1.cores.foldl (fun s p => if p.2.windows.any (·.ending) then s.endDue p.1 else s) s1
  let s3 := s2.serveKnocks
  let s4 := s3.clusters.foldl (fun s p => if p.2.table = [] then s else noteReady s (p.1 / 32) (p.1 % 32)) s3
  s4.checkWaitcs

end State

end Sys2Proof.Machine
end

