-- ==== Sys2Proof/Machine/Step.lean ====
section
/-! DEFINITION. One step of the module, and the placing of an instruction where the next step fetches. -/
namespace Sys2Proof.Machine

/-- The turn that comes next: the first of the agenda, else the running thread's, one tick later. -/
def State.nextTurn (s : State) : Turn × List Turn :=
  match s.agenda with
  | t :: ts => (t, ts)
  | [] => (⟨1, .issue s.cur⟩, [])

/-- One step: the ticks before the turn pass, the agent of the turn acts, and what follows from it happens. -/
def step (s : State) : Host.Outcome State Fault Refusal :=
  match act s.nextTurn.1.act (State.passTime s.nextTurn.1.dt { s with agenda := s.nextTurn.2 }) with
  | .next s' => .next s'.afterTurn
  | o => o

namespace Fetch

/-- A launch packet of one team of one group and a conductor, with 48 named slots each and 4,096 private bytes, on die 0, with cluster barriers and
every latch number. -/
def packet : Vector Word 16 :=
  #v[0x3000, 0, 0, 0, 0, 0, 0x00006DA040000000, 1, 0x100000, 4096, 0, 0xFFFF, 0, 0, 0, 0]

/-- The grid that the placed instruction runs in: supervisor level, root table at 2 MiB of die 0. -/
def grid : Grid :=
  { packet := packet, asid := 1, root := 0x200000, super := true, cring := 0x800000, qring := 0, ranges := [], started := true }

/-- The tid that issues an instruction: a conductor's forms run on the conductor, all others on lane 0. -/
def tidFor (i : Option Instr) : Nat := match i with | some x => if needsCond x then 1024 else 0 | none => 0

/-- The word of a packet where an instruction stands: LOOP is the last of its packet (R270). -/
def slotFor (i : Option Instr) : Nat := match i with | some (.loop ..) => 2 | _ => 0

/-- Translation tables for 1 GiB at virtual and physical address 0 of die 0 (R291, R292): readable, writable, executable, for both levels. -/
def tables (m : List Host.Cell) : List Host.Cell :=
  writeCells (writeCells m 0x200000 (toBytes 8 0x1003)) 0x1000 (toBytes 8 0x79)

/-- Where a LOOP finds the last word of its body, which must carry B (R33, R270): placed with it. -/
def bodyEnd (m : List Host.Cell) (i : Option Instr) : List Host.Cell :=
  match i with
  | some (.loop _ _ len) => if len = 0 then m else writeCells m (0x3008 + 12 * len.toNat) (toBytes 4 0x40000000)
  | _ => m

end Fetch

/-- The state in which the next step fetches and runs an instruction whose bits are w: boot is done, a grid's one team is resident on core 0 of die 0, and its thread
stands at the packet that holds the word, with zeros in the other words (notes/assumptions/2.md). -/
def State.withFetchWord (s : State) (_nbits w : Nat) : State :=
  let i := (decodeWord (BitVec.ofNat 32 w)).map (·.instr)
  let tid := Fetch.tidFor i
  let k := Fetch.slotFor i
  let u := thKey 1 0 tid
  let t : Thread := { grid := 1, team := 0, tid := tid, die := 0, core := 0, pc := 0x3000 + w64 (4 * k) }
  let m := writeCells (Fetch.tables s.mem) 0x3000 (List.replicate 12 0)
  { s with
    mem := writeCells (Fetch.bodyEnd m i) (0x3000 + 4 * k) (toBytes 4 (w % 2 ^ 32))
    l2 := s.l2.filter fun p => !(decide (0x1000 ≤ p.1) && decide (p.1 < 0x400000))
    boot := .running
    hbmWiped := true
    agenda := []
    cur := u
    threads := AMap.put s.threads u t
    teams := AMap.put s.teams (teamKey 1 0) { grid := 1, team := 0, die := 0, core := 0 }
    groups := AMap.put s.groups (grpKey 1 0 0) {}
    grids := AMap.put s.grids 1 Fetch.grid
    cohorts := AMap.put s.cohorts (cohortKey 1 0) { grid := 1, cohort := 0, cores := [(0, 0)] }
    clusters := AMap.put s.clusters 0 { s.cluster 0 with owner := some (1, 0) }
    cores := AMap.put s.cores 0 { s.core 0 with code := [], tlb := [] }
    dies := AMap.put s.dies 0 { s.die 0 with tlb := [] } }

end Sys2Proof.Machine
end

