-- ==== Sys2Proof/Safety.lean ====
section
/-! DEFINITION. What claims mean by a well-formed state, by an instruction that completes, and by a run that is safe. -/
namespace Sys2Proof

open Sys2Proof.Machine

/-- The canonical forms of a state's memories: the backing bytes list rising addresses and no empty byte, and the slices' dirty bytes rise. -/
def Machine.State.memoryInv (s : State) : Bool := Memory.wf s.mem && risesFrom 0 s.l2

/-- The canonical form of every stash. -/
def Machine.State.stashInv (s : State) : Bool := s.cores.all fun c => Memory.wf c.2.stash

/-- A step that goes on. -/
def Safe (s : State) : Prop := ∃ t, step s = .next t

/-- A run of n steps that never stops. -/
def SafeRun : Nat → State → Prop
  | 0, _ => True
  | n + 1, s => ∃ t, step s = .next t ∧ SafeRun n t

/-- An instruction completes in a state: its meaning answers a next state in which the running thread has not left its slot by a trap or a park. -/
def Completes (i : Instr) (s : State) : Prop := ∃ t, exec i s = .next t ∧ t.left = s.left

namespace Machine

/-! ### The step (R239 to R241) -/

/-- The state one tick later, when an empty agenda lets the running thread issue. -/
abbrev State.nextTick (s : State) : State := { s with time := s.time + 1 }

/-- The running thread can issue its next slot, it is the only one of its core that can, the core has no gang, and nothing comes due with the tick. -/
def State.issuesAlone (s : State) (t : Thread) : Prop :=
  s.agenda = [] ∧ s.boot = .running ∧ s.th? s.cur = some t ∧ risesFrom 0 s.threads = true ∧ s.dues (s.time + 1) = [] ∧
    t.status = .ready ∧ t.acq = none ∧ s.nextTick.heldBack s.cur t = false ∧ s.nextTick.abortDue t = false ∧
    (s.core (coreKey t.die t.core)).gangs = [] ∧
    ∀ p ∈ s.threads, p.1 ≠ s.cur → p.2.die = t.die → p.2.core = t.core → s.nextTick.canIssue p.1 p.2 = false

/-- The state in which that thread's packet is fetched: it stands alone in the first entry of the picker, and issues the gang's slot. -/
def State.pickedAlone (s : State) (t : Thread) : State :=
  let s1 := s.nextTick.modCore (coreKey t.die t.core) fun c => { c with gangs := [(0, { members := [s.cur] })] }
  { s1.sendOut t.die t.core 0 [s.cur] s.cur with word := 0, left := false, released := false }

/-- What follows every turn closes a step that goes on. -/
def turnEnd : Host.Outcome State Fault Refusal → Host.Outcome State Fault Refusal
  | .next s => .next s.afterTurn
  | o => o

end Machine

end Sys2Proof
end

