-- ==== Sys2Proof/Safety/Operands.lean ====
section
/-! DEFINITION. The words in which claims speak of one issued instruction word: when a thread issues it, what its operands are and when they can be
read, and what the thread is once results have been recorded. -/
namespace Sys2Proof.Machine

/-- Thread t, the running one, issues word i: it stands and no decode-time cause holds (R48). -/
abbrev Issues (i : Instr) (s : State) (t : Thread) : Prop :=
  s.th? s.cur = some t ∧ t.status ≠ .ended ∧ decodeCause (s.gridOf t) t i = none

/-- The specifier i slots after sp (R40). -/
abbrev slotAfter (sp : Spec) (i : Nat) : Spec := BitVec.ofNat 6 (sp.toNat + i)

/-- The slot that a source specifier returns (R36, R38, R39). -/
def Thread.value (t : Thread) (sp : Spec) : Word :=
  if sp.toNat < 16 then t.queueVal sp.toNat else t.namedVal (sp.toNat - 16)

/-- Consecutive slots from a specifier on (R40). -/
def Thread.values (t : Thread) (sp : Spec) (k : Nat) : List Word := (List.range k).map fun i => t.value (slotAfter sp i)

/-- The VF value at a specifier, its slots given by the header's class (R40, R62). -/
def Thread.vfValue (t : Thread) (sp : Spec) : Vf := vfOfSlots (t.values sp (slotsOf (slotClass (t.value sp))))

/-- A source slot can be read: a queue slot, or a named one below the role's length (R38), and where it is read from register storage no storage error stands
there (R341, R342). -/
def State.reads (s : State) (t : Thread) (sp : Spec) : Bool :=
  (decide (sp.toNat < 16) || decide (sp.toNat - 16 < (s.gridOf t).len t.tid)) && !((t.badAt sp.toNat || t.softAt sp.toNat) && t.fromStore sp.toNat)

/-- k consecutive source slots can be read (R38, R40). -/
def State.readsAll (s : State) (t : Thread) (sp : Spec) (k : Nat) : Bool :=
  (if sp.toNat < 16 then decide (sp.toNat + k ≤ 16) else decide (sp.toNat - 16 + k ≤ (s.gridOf t).len t.tid))
    && (List.range k).all fun i => s.reads t (slotAfter sp i)

/-- A VF source can be read (R40). -/
def State.readsVf (s : State) (t : Thread) (sp : Spec) : Bool :=
  s.reads t sp && s.readsAll t sp (slotsOf (slotClass (t.value sp)))

/-- k result slots at a destination stay within the role's named length (R38). -/
def State.reaches (s : State) (t : Thread) (d : Spec) (k : Nat) : Bool :=
  decide (d.toNat < 16) || decide (d.toNat - 16 + k ≤ (s.gridOf t).len t.tid)

/-- The targets of k slots at a destination: ring places of a push, youngest age first, or consecutive named slots (R39). -/
def Thread.targets (t : Thread) (d : Spec) (k : Nat) : List Target :=
  if d.toNat < 16 then (List.range k).map fun i => .ring (((t.head + 32 - k) % 16 + i) % 16)
  else (List.range k).map fun i => .named (d.toNat - 16 + i)

/-- The thread with targets reserved: a push of k slots moves the ages (R39). -/
def Thread.reserved (t : Thread) (d : Spec) (k : Nat) : Thread :=
  if d.toNat < 16 then { t with head := (t.head + 32 - k) % 16 } else t

/-- The thread once values are recorded as results at a distance (R35). -/
def Thread.filled (t : Thread) (dist : Option Nat) (gs : List Target) (vs : List Word) : Thread :=
  (gs.zip vs).foldl (fun t gv => t.produce dist gv.1 gv.2) t

/-- The thread once the slots vs are recorded at destination d. -/
def Thread.wrote (t : Thread) (dist : Option Nat) (d : Spec) (vs : List Word) : Thread :=
  (t.reserved d vs.length).filled dist (t.targets d vs.length) vs

/-- The thread with an instruction's flags on their way to the sticky fields (R70). -/
def Thread.flagged (t : Thread) (f : Flags) : Thread := if f = {} then t else t.produce none .sticky (w64 f.bits)

/-- The thread once a predicate is recorded as a short result (R37). -/
def Thread.wrotePred (t : Thread) (k : Nat) (v : Bool) : Thread := t.produce (some 3) (.pred k) (w64 v.toNat)

/-- What a VF result leads to (R71, R99): the first enabled flag traps with the thread as before the slot, else flags and slots are recorded. -/
def State.delivered (s : State) (t : Thread) (d : Spec) (dist : Option Nat) (c : Nat) (o : VfOut) : State :=
  match trapCause t.prc o.flags with
  | some cause => s.trapCur cause 0 (arithInfo o.flags c o.kept)
  | none => s.setTh s.cur ((t.flagged o.flags).wrote dist d (vfToSlots o.val))

end Sys2Proof.Machine
end

