-- ==== Sys2Proof/Safety/Results.lean ====
section
/-! DEFINITION. The results that the spec's tables give to groups of instructions, one row for each instruction, written from the tables and apart from
the meanings. -/
namespace Sys2Proof.Machine

/-! ### Integer instructions (R87 to R93) -/

/-- High half of a product of extended operands (R87). -/
def highHalf (n : Nat) (x y : BitVec (2 * n)) : BitVec n := (x * y).extractLsb' n n

/-- The two-operand forms of IALU with their results at a width (R87, R88). -/
def integerTwo : List ((Spec → Spec → Spec → Bool → Instr) × ((n : Nat) → BitVec n → BitVec n → BitVec n)) :=
  [(.add, fun _ x y => x + y), (.sub, fun _ x y => x - y), (.mul, fun _ x y => x * y),
   (.mulh, fun n x y => highHalf n (x.signExtend (2 * n)) (y.signExtend (2 * n))),
   (.mulhn, fun n x y => highHalf n (x.setWidth (2 * n)) (y.setWidth (2 * n))),
   (.div, fun n x y => if y = 0 then BitVec.allOnes n else x.sdiv y), (.divn, fun n x y => if y = 0 then BitVec.allOnes n else x / y),
   (.rem, fun _ x y => x - y * x.sdiv y), (.remn, fun _ x y => x - y * (x / y)),
   (.min, fun _ x y => if x.toInt ≤ y.toInt then x else y), (.max, fun _ x y => if x.toInt ≤ y.toInt then y else x),
   (.minn, fun _ x y => if x.toNat ≤ y.toNat then x else y), (.maxn, fun _ x y => if x.toNat ≤ y.toNat then y else x)]
  ++ [(.and, fun _ x y => x &&& y), (.or, fun _ x y => x ||| y), (.xor, fun _ x y => x ^^^ y), (.andn, fun _ x y => x &&& ~~~y),
      (.shl, fun n x y => x <<< (y.toNat % n)), (.shr, fun n x y => x >>> (y.toNat % n)),
      (.sar, fun n x y => x.sshiftRight (y.toNat % n)), (.rot, fun n x y => x.rotateRight (y.toNat % n))]

/-- The one-operand forms of IALU that have both widths, with their results (R87). -/
def integerOne : List ((Spec → Spec → Bool → Instr) × ((n : Nat) → BitVec n → BitVec n)) :=
  [(.clz, fun _ x => x.clz), (.popc, fun _ x => x.cpop), (.brev, fun _ x => x.reverse),
   (.abs, fun n x => BitVec.ofInt n |x.toInt|), (.neg, fun _ x => 0 - x), (.mov, fun _ x => x)]

/-- SHI's forms, with the amount as b (R91). -/
def integerShift : List ((Spec → Spec → Bool → Spec → Instr) × ((n : Nat) → BitVec n → Nat → BitVec n)) :=
  [(.shli, fun n x k => x <<< (k % n)), (.shri, fun n x k => x >>> (k % n)), (.sari, fun n x k => x.sshiftRight (k % n)),
   (.roti, fun n x k => x.rotateRight (k % n))]

/-- A result at the width of `.w` (R87): computed on the low 32 bits and sign-extended, or on the whole slots. -/
def atWidth2 (w : Bool) (f : (n : Nat) → BitVec n → BitVec n → BitVec n) (x y : Word) : Word :=
  if w then (f 32 (x.extractLsb' 0 32) (y.extractLsb' 0 32)).signExtend 64 else f 64 x y

/-- The same with one operand. -/
def atWidth1 (w : Bool) (f : (n : Nat) → BitVec n → BitVec n) (x : Word) : Word :=
  if w then (f 32 (x.extractLsb' 0 32)).signExtend 64 else f 64 x

/-- One operand and an immediate, or no width: SEXT.w, ZEXT.w, ADDI and LOGI, with their results (R87, R89, R90). -/
def integerImmediate (d a : Spec) (i12 : BitVec 12) (i10 : BitVec 10) : List (Instr × (Word → Word)) :=
  [(.sext d a, fun x => (x.extractLsb' 0 32).signExtend 64), (.zext d a, fun x => (x.extractLsb' 0 32).setWidth 64),
   (.addi d a i12, fun x => x + i12.signExtend 64), (.andi d a i10, fun x => x &&& i10.setWidth 64),
   (.ori d a i10, fun x => x ||| i10.setWidth 64), (.xori d a i10, fun x => x ^^^ i10.setWidth 64),
   (.andni d a i10, fun x => x &&& ~~~i10.setWidth 64)]

/-- A condition of ICMP on operands of one width (R92). -/
def comparison (cond : BitVec 3) {n : Nat} (x y : BitVec n) : Prop :=
  match cond.toNat with
  | 0 => x = y
  | 1 => x ≠ y
  | 2 => x.toInt < y.toInt
  | 3 => x.toInt ≤ y.toInt
  | 4 => y.toInt < x.toInt
  | 5 => y.toInt ≤ x.toInt
  | 6 => x.toNat < y.toNat
  | _ => y.toNat ≤ x.toNat

/-- What a combine code makes of the old predicate and the condition's truth (R92). -/
def combined (comb : BitVec 3) (old c : Prop) : Prop :=
  match comb.toNat with
  | 0 => c
  | 1 => old ∧ c
  | _ => old ∨ c

/-! ### Special and system registers (R97, R98, R300) -/

/-- The special registers with what GET returns of each (R98). -/
def specialRegisters : List (Nat × (State → Thread → Word)) :=
  [(0x000, fun _ t => w64 t.tid), (0x001, fun _ t => w64 (if t.tid = 1024 then 0 else t.tid % 64)),
   (0x002, fun _ t => w64 (if t.tid = 1024 then 16 else t.tid / 64)), (0x003, fun s t => w64 (s.gridOf t).ngrp),
   (0x004, fun s t => if t.tid = 1024 then 0 else if t.tid / 64 < (s.gridOf t).nprod then 1 else 2),
   (0x008, fun s t => w64 (t.team % (s.gridOf t).nteamx)), (0x009, fun s t => w64 (t.team / (s.gridOf t).nteamx % (s.gridOf t).nteamy)),
   (0x00A, fun s t => w64 (t.team / ((s.gridOf t).nteamx * (s.gridOf t).nteamy))), (0x00C, fun s t => w64 (s.gridOf t).nteamx),
   (0x00D, fun s t => w64 (s.gridOf t).nteamy), (0x00E, fun s t => w64 (s.gridOf t).nteamz)]
  ++ [(0x010, fun _ t => w64 t.core), (0x011, fun _ t => w64 (t.core / 4)), (0x012, fun _ t => w64 t.die),
      (0x013, fun _ t => w64 t.die &&& 63), (0x018, fun s t => w64 (s.time + (s.die t.die).base)),
      (0x019, fun s t => w64 (s.cycleCount t.die t.core)), (0x020, fun _ t => t.prc), (0x021, fun _ t => t.lcVal 0),
      (0x022, fun _ t => t.lcVal 1), (0x023, fun _ t => t.lcVal 2), (0x030, fun _ t => t.trapcause), (0x031, fun _ t => t.trappc),
      (0x032, fun _ t => t.trapaddr), (0x033, fun _ t => t.trapinfo), (0x040, fun s t => (s.die t.die).topova), (0x041, fun _ t => t.savebase)]

/-- The registers that SET and SWAP write, with the target of the result (R97, R98). -/
def writableRegisters : List (Nat × Target) :=
  [(0x020, .prc), (0x021, .lc 0), (0x022, .lc 1), (0x023, .lc 2), (0x041, .savebase)]

/-- The system registers with what GETS returns of each (R300). -/
def systemRegisters : List (BitVec 8 × (State → Thread → Word)) :=
  [(0x00, fun s t => if (s.gridOf t).super = true then 1 else 0), (0x01, fun s t => (s.gridOf t).asid.setWidth 64),
   (0x02, fun s t => (s.die t.die).lcstate.setWidth 64), (0x03, fun s t => (s.die t.die).minSvn.setWidth 64),
   (0x04, fun s _ => w64 (fwSvn s)), (0x08, fun _ t => t.cd)]

/-! ### VF instructions (R99 to R117) -/

/-- R35's distance of an F-pipe instruction, by the classes of its result and VF sources. -/
def fDistance (cs : List Nat) : Option Nat :=
  if cs.all (fun c => decide (c ≤ 1)) then some 3 else if cs.all (fun c => decide (c ≤ 2)) then some 5 else none

/-- Word i raises flags f (class c): it traps by the first enabled one, or the thread becomes t'. -/
def RaisesOr (i : Instr) (s : State) (t : Thread) (c : Nat) (f : Flags) (t' : Thread) : Prop :=
  (trapCause t.prc f = none → exec i s = .next (s.setTh s.cur t')) ∧
  (∀ cause, trapCause t.prc f = some cause → exec i s = .next (s.trapCur cause 0 (arithInfo f c 0)))

/-- Word i delivers a VF result at d: it traps by its first enabled flag, or its flags and slots are recorded. -/
def Delivers (i : Instr) (s : State) (t : Thread) (d : Spec) (dist : Option Nat) (c : Nat) (o : VfOut) : Prop :=
  (trapCause t.prc o.flags = none → exec i s = .next (s.setTh s.cur ((t.flagged o.flags).wrote dist d (vfToSlots o.val)))) ∧
  (∀ cause, trapCause t.prc o.flags = some cause → exec i s = .next (s.trapCur cause 0 (arithInfo o.flags c o.kept)))

/-- FADD, FSUB, FMUL and FDIV: the exact result of two values under RD or another mode (R99, R102), and whether the form is long (R35). -/
def floatTwo : List ((Spec → Spec → Spec → BitVec 2 → BitVec 4 → Instr) × (Bool → Num → Num → Exact) × Bool) :=
  [(.fadd, fun rd x y => exactAdd rd x y, false), (.fsub, fun rd x y => exactAdd rd x (if y.isNan then y else y.negate), false),
   (.fmul, fun _ x y => exactMul x y, false), (.fdiv, fun _ x y => exactDiv x y, true)]

/-- FMIN and its kin (R101): whether the greater operand is chosen, and whether magnitudes are compared. -/
def floatChoice : List ((Spec → Spec → Spec → BitVec 4 → Instr) × Bool × Bool) :=
  [(.fmin, false, false), (.fmax, true, false), (.fminm, false, true), (.fmaxm, true, true)]

/-- The fused forms (R99). -/
def floatFused : List ((Spec → Spec → Spec → Spec → Instr) × (Bool → Num → Num → Num → Exact)) :=
  [(.ffma, fun rd x y w => exactFma rd x y w false), (.ffms, fun rd x y w => exactFma rd x y (if w.isNan then w else w.negate) false),
   (.fnma, fun rd x y w => exactFma rd x y w true)]

/-- One-operand forms with a VF result, given its class and the mode, and whether they are long (R104, R111). -/
def floatOne : List ((Spec → Spec → BitVec 2 → BitVec 4 → Instr) × (Nat → Rnd → Num → Exact) × Bool) :=
  [(.frnd, fun _ md x => exactRound md x, false), (.getm, fun _ _ x => exactSignificand x, false),
   (.reclass, fun _ _ x => { x := x, flags := { inv := x.isSnan } }, false), (.rcp, fun _ _ x => sfuRcp x, true),
   (.rsq, fun _ _ x => sfuRsq x, true), (.sqrt, fun _ _ x => sfuSqrt x, true), (.exp2, fun c _ x => sfuExp2 (16 * c + 17) x, true),
   (.log2, fun c _ x => sfuLog2 (16 * c + 17) x, true), (.sin, fun c _ x => sfuTrig false (16 * c + 17) x, true),
   (.cos, fun c _ x => sfuTrig true (16 * c + 17) x, true), (.tanh, fun c _ x => sfuTanh (16 * c + 17) x, true)]

/-- FABS and FNEG. -/
def floatSign : List ((Spec → Spec → BitVec 2 → BitVec 4 → Instr) × (Num → Num)) := [(.fabs, Num.abs), (.fneg, Num.negate)]

/-- TWOSUM and TWOPROD with their exact results (R107). -/
def floatPair : List ((Spec → Spec → Spec → BitVec 4 → Instr) × (Num → Num → Exact)) :=
  [(.twosum, fun x y => exactAdd false x y), (.twoprod, fun x y => exactMul x y)]

/-- A narrow operand slot has its reserved bits zero (R113). -/
def narrowOk (y : Word) : Bool := y.extractLsb' 28 36 == 0 && y.extractLsb' 10 6 == 0 && y.extractLsb' 6 2 == 0

/-! ### Control transfers (R28, R53, R260 to R272) -/

/-- The address of the packet that holds a word address: a multiple of 12 (R28). -/
def packetStart (pc : Word) : Word := BitVec.ofNat 64 (pc.toNat / 12 * 12)

/-- The thread once a taken jump has chosen its target: loop records whose body does not hold it are cleared (R272). -/
def Thread.jumped (t : Thread) (a : Word) : Thread :=
  { t with next := some a,
           loops := t.loops.map fun r => if r.order ≠ 0 ∧ r.start.toNat ≤ a.toNat ∧ a.toNat ≤ r.last.toNat then r else {} }

/-- The trap of a transfer to a target that is no packet address: PROTECTION where it is not canonical, ALIGN where it is no multiple of 12 (R28, R260). -/
def targetTrap (a : Word) : Option Nat :=
  if canonical a = false then some cPROTECTION else if a.toNat % 12 ≠ 0 then some cALIGN else none

/-! ### Collectives (R118 to R121, R157) -/

/-- The operand slots that a floating operand brings, or the one slot of an integer (R40, R120). -/
def treeOperands (t : Thread) (a : Spec) (vf : Bool) : List Word :=
  if vf then t.values a (slotsOf (slotClass (t.value a))) else [t.value a]

/-- What a thread brings to a collective, with the mask's index (R119 to R121, R157). -/
def arrivalOf (t : Thread) : Instr → Option (Nat × Arrival)
  | .xpull _ a b k => some (k.toNat, { bare with a := [t.value a], b := [t.value b] })
  | .xrank _ a b k => some (k.toNat, { bare with a := [t.value a], b := [t.value b] })
  | .xsegb _ a b k => some (k.toNat, { bare with a := [t.value a], b := [t.value b] })
  | .xrev _ a b k => some (k.toNat, { bare with a := [t.value a], b := [t.value b] })
  | .xcount _ neg j k => some (k.toNat, { bare with pred := t.predVal j.toNat != neg })
  | .xfirst _ neg j k => some (k.toNat, { bare with pred := t.predVal j.toNat != neg })
  | .xmask _ neg j k => some (k.toNat, { bare with pred := t.predVal j.toNat != neg })
  | .gbcast _ a k => some (k.toNat, { bare with a := [t.value a] })
  | .gred _ a op k => some (k.toNat, { bare with a := treeOperands t a (decide (8 ≤ op.toNat)) })
  | .gscan _ a op _ k => some (k.toNat, { bare with a := treeOperands t a (decide (8 ≤ op.toNat)) })
  | .cmma d a b k => some (k.toNat, { bare with a := treeOperands t a true, b := treeOperands t b true, c := treeOperands t d true })
  | _ => none

/-- Its operands can be read. -/
def collectiveReads (s : State) (t : Thread) : Instr → Bool
  | .xpull _ a b _ => s.reads t a && s.reads t b
  | .xrank _ a b _ => s.reads t a && s.reads t b
  | .xsegb _ a b _ => s.reads t a && s.reads t b
  | .xrev _ a b _ => s.reads t a && s.reads t b
  | .gbcast _ a _ => s.reads t a
  | .gred _ a op _ => if 8 ≤ op.toNat then s.readsVf t a else s.reads t a
  | .gscan _ a op _ _ => if 8 ≤ op.toNat then s.readsVf t a else s.reads t a
  | .cmma d a b _ => s.readsVf t a && s.readsVf t b && s.readsVf t d
  | _ => true

/-- Whether a collective's result is a VF value at the class of the lowest participant (R120, R157). -/
def collectiveVf : Instr → Bool
  | .gred _ _ op _ => decide (8 ≤ op.toNat)
  | .gscan _ _ op _ _ => decide (8 ≤ op.toNat)
  | .cmma .. => true
  | _ => false

/-- The participants of a collective over mk of a group (R118). -/
abbrev Group.participants (g : Group) (k : Nat) : Word := g.mask k &&& g.mask 0

/-- The thread's group, by its key. -/
abbrev Thread.groupKey (t : Thread) : Nat := grpKey t.grid t.team t.grp

/-- A lane's thread of a group stands where its key says. -/
abbrev LaneThread (s : State) (t : Thread) : Prop := s.cur = t.key ∧ t.tid < 1024

end Sys2Proof.Machine
end

