-- ==== Sys2Proof/Safety/Effects.lean ====
section
/-! DEFINITION. The words in which claims speak of memory instructions, synchronisation, matrix work and events: sizes, forms, and what one of them brings
to the state, written from the spec's tables. -/
namespace Sys2Proof.Machine

/-! ### Loads and stores (R44, R59, R78) -/

/-- Bytes that a size code names; of a VF value only its header is of a fixed size (R44). -/
def accessBytes (size : BitVec 3) : Nat :=
  match size.toNat with
  | 0 => 1
  | 1 => 2
  | 2 => 4
  | 3 => 8
  | 4 => 2
  | 5 => 1
  | 6 => 2
  | _ => 4

/-- The address of format M (R44): the base and the offset scaled by the access's size. -/
abbrev offsetAddress (base : Word) (off : BitVec 5) (scale : Nat) : Word := base + off.signExtend 64 * BitVec.ofNat 64 scale

/-- The slots that a load makes of its bytes (R44, R78): sizes 0 to 3 zero-extended, 4 a VF value, 5 to 7 sign-extended. -/
def loadedSlots (size : BitVec 3) (bs : List (BitVec 8)) : List Word :=
  let x : Word := BitVec.ofNat 64 (ofBytes bs)
  match size.toNat with
  | 4 => vfToSlots (vfOfBytes bs)
  | 5 => [(x.extractLsb' 0 8).signExtend 64]
  | 6 => [(x.extractLsb' 0 16).signExtend 64]
  | 7 => [(x.extractLsb' 0 32).signExtend 64]
  | _ => [x]

/-- The bytes that a store takes from its source (R44, R78). -/
def Thread.storedBytes (t : Thread) (src : Spec) (size : BitVec 3) : List (BitVec 8) :=
  if size = 4 then vfToBytes (t.vfValue src) else toBytes (accessBytes size) (t.value src).toNat

/-- A store's source can be read. -/
def State.readsStored (s : State) (t : Thread) (src : Spec) (size : BitVec 3) : Bool :=
  if size = 4 then s.readsVf t src else s.reads t src

/-- Steps 1 and 2 of R211: an address of global space that is not canonical raises PROTECTION, then a misaligned one ALIGN, with the access code. -/
def AddressTraps (i : Instr) (s : State) (glob : Prop) (a : Word) (align code : Nat) : Prop :=
  (glob → canonical a = false → exec i s = .next (s.trapCur cPROTECTION a (BitVec.ofNat 64 code))) ∧
  ((glob → canonical a = true) → a.toNat % align ≠ 0 → exec i s = .next (s.trapCur cALIGN a (BitVec.ofNat 64 code)))

/-! ### Order -/

/-- No REDO of the running thread waits to be sent again, so that a release need not wait for one (R144, R197). -/
def State.nothingRefused (s : State) : Bool :=
  s.nacked.all fun p => match p.2.2 with | .redo _ _ _ _ th _ => th != s.cur | _ => true

/-- A release of the running thread at a scope has nothing to wait for and nothing to write back (R197). -/
def State.releasesNow (s : State) (t : Thread) (scope : Nat) : Prop :=
  s.nothingRefused = true ∧ (scope ≤ 3 ∨ (s.cluster (clusterKey t.die t.cluster)).buf = [] ∧
    (∀ w ∈ (s.core (coreKey t.die t.core)).windows, ¬(w.grid = t.grid ∧ w.team = t.team)) ∧ max t.hor t.obs ≤ s.now t.die)

/-! ### Atomics (R218) -/

/-- New(op, old, b) at a width. -/
def atomicResult (op : Nat) {n : Nat} (old b : BitVec n) : BitVec n :=
  match op with
  | 0 => old + b
  | 1 => if old.toInt ≤ b.toInt then old else b
  | 2 => if old.toInt ≤ b.toInt then b else old
  | 3 => old &&& b
  | 4 => old ||| b
  | 5 => old ^^^ b
  | 6 => b
  | _ => if old.toNat ≤ b.toNat then old else b

/-- The bytes that an atomic leaves in place of old ones, with operand b and q0; code 8 is ATOMC, which may leave them as they are. -/
def atomicBytes (code n : Nat) (b nv : Word) (old : List (BitVec 8)) : Option (List (BitVec 8)) :=
  let o : Word := BitVec.ofNat 64 (ofBytes old)
  let same := if n = 4 then o.extractLsb' 0 32 = b.extractLsb' 0 32 else o = b
  if code = 8 then (if same then some (toBytes n nv.toNat) else none)
  else if n = 4 then some (toBytes 4 (atomicResult code (o.extractLsb' 0 32) (b.extractLsb' 0 32)).toNat)
  else some (toBytes 8 (atomicResult code o b).toNat)

/-- The bytes that RED leaves in place of an element's, with a VF operand or a slot (R219): floating codes 1 to 3 round once at the element's class, to nearest
even and with FTZ 0; the integer codes are those of R218's table. -/
def reducedBytes (op : Nat) (old : List (BitVec 8)) (v : Vf) (x : Word) : List (BitVec 8) :=
  let e := vfOfBytes old
  let sum := exactAdd false (e.src false) (v.src false)
  let choice := exactMinMax (decide (op = 3)) false (e.src false) (v.src false)
  if op = 1 ∨ op = 2 ∨ op = 3 then vfToBytes (finishVf e.cls .rne false 0 { (if op = 1 then sum else choice) with addends := [] }).val
  else
    let code := if op = 0 then 0 else op - 3
    let o : Word := BitVec.ofNat 64 (ofBytes old)
    if old.length = 4 then toBytes 4 (atomicResult code (o.extractLsb' 0 32) (x.extractLsb' 0 32)).toNat else toBytes 8 (atomicResult code o x).toNat

/-- ATOM, ATOMW and ATOMC with operands: code of the operation, bytes of the word. -/
def atomicForms (d base b : Spec) (scope op : BitVec 3) : List (Instr × Nat × Nat) :=
  [(.atom d base b scope op, op.toNat, 8), (.atomw d base b scope op, op.toNat, 4), (.atomc d base b scope false, 8, 8),
   (.atomc d base b scope true, 8, 4)]

/-! ### Asynchronous operations (R225 to R231) -/

/-- The forms that post an operation: kind, descriptor slots, control bits. -/
def asyncForms (a tk : Spec) (mode ss ds : BitVec 2) (i64 istash dstash : Bool) (op scope : BitVec 3) :
    List (Instr × Nat × Nat × BitVec 12) :=
  [(.cpya a tk ss ds, 1, 5, ss ++ ds ++ (0 : BitVec 8)),
   (.gath a tk mode i64 istash dstash, 2, 6, mode ++ BitVec.ofBool i64 ++ BitVec.ofBool istash ++ BitVec.ofBool dstash ++ (0 : BitVec 7)),
   (.scat a tk mode i64 istash dstash, 3, 6, mode ++ BitVec.ofBool i64 ++ BitVec.ofBool istash ++ BitVec.ofBool dstash ++ (0 : BitVec 7)),
   (.scatReduce a tk mode i64 istash dstash op scope, 3, 6,
    mode ++ BitVec.ofBool i64 ++ BitVec.ofBool istash ++ BitVec.ofBool dstash ++ op ++ (1 : BitVec 1) ++ scope)]

/-- The operation that a thread posts with a descriptor. -/
def Thread.posts (t : Thread) (key kind : Nat) (desc : List Word) (control : BitVec 12) : AsyncOp :=
  { key := key, grid := t.grid, team := t.team, tid := t.tid, seq := t.aseq, kind := kind,
    desc := Vector.ofFn fun (i : Fin 6) => desc.getD i.val 0, control := control }

/-! ### Barriers (R281) -/

/-- A barrier once an arrival with count k has been counted: the phase completes with the last. -/
def Barrier.counted (b : Barrier) (k : Nat) : Barrier :=
  if b.count + 1 = k then { phase := b.phase + 1, expect := 0, count := 0 } else { b with expect := k, count := b.count + 1 }

/-- An arrival with count k agrees with the phase's first. -/
abbrev Barrier.agrees (b : Barrier) (k : Nat) : Prop := b.expect = 0 ∨ b.expect = k

/-! ### WAITC (R277) -/

/-- A condition of WAITC that starts without an access: a ticket or a mask, a stash offset that a window holds, a latch number of the grid's mask. -/
def State.startsPlainly (s : State) (t : Thread) (c : Cond) : Prop :=
  c.kind = 3 ∨ c.kind = 5 ∨
    (c.kind = 2 ∧ (s.windowAt (coreKey t.die t.core) (s.gridOf t).asid c.operand.toNat 1 false).isSome) ∨
    (c.kind = 4 ∧ bits ((s.gridOf t).slot 11) c.operand.toNat 1 = 1 ∧ c.operand.toNat < 16)

/-! ### Matrix work (R151, R153) -/

/-- The forms that post an entry: kind, kind of ACCINIT's tile, whether elements are kept. -/
def matrixForms (d a : Spec) (keep : Bool) (kind : BitVec 2) : List (Instr × Nat × Nat × Bool) :=
  [(.mpassDense d a, 0, 0, false), (.mpassReduce d a, 1, 0, false), (.mpassBatch d a, 2, 0, false), (.mpassMvec d a, 3, 0, false),
   (.accinit d a keep kind, 15, kind.toNat, keep)]

/-- Room in the reservation table of a thread's cluster (R151). -/
def State.tableRoom (s : State) (t : Thread) : Bool :=
  let tb := (s.cluster (clusterKey t.die t.cluster)).table
  decide (tb.length < 16) && decide ((tb.filter fun e => e.grid == t.grid && e.team == t.team).length < 8)

/-! ### Messages (R351 to R353) -/

/-- A message arrives now: nothing of its class and pair is before it, its follow count is right, and its die answers. -/
def Arrives (s : State) (p : Packet) (follow : Nat) : Prop :=
  s.arrivesLater p = false ∧ p.msg.follow.toNat = follow ∧ p.msg.slots.length = follow ∧ s.alive p.msg.dst.toNat = true

/-- A request that its destination has not served within the last 65,536 ticks (R353). -/
def Unserved (s : State) (m : Msg) : Prop :=
  ∀ x ∈ (s.die m.dst.toNat).served,
    ¬(x.src = m.src.toNat ∧ x.site = m.site.toNat ∧ x.txn = m.txn.toNat ∧ s.now m.dst.toNat ≤ x.time + 65536)

/-- A request that is served now, at physical memory that its sender may reach, under a map that it knows. -/
def Serves (s : State) (p : Packet) (follow pa : Nat) : Prop :=
  Arrives s p follow ∧ Unserved s p.msg ∧ placeOf (s.unsend p) p.msg p.cls.toNat p.op.toNat = .mem pa ∧
    remapDue (s.unsend p) p.msg pa = false

/-- What serving a request leads to: the state with its effect, the request noted, and its answers on the links (R353). -/
def servedState (m : Msg) (s : State) (answers : List Packet) : State :=
  let d := m.dst.toNat
  let entry : Served := ⟨m.src.toNat, m.site.toNat, m.txn.toNat, s.now d, answers⟩
  (s.modDie d fun x => { x with served := (x.served.filter fun y => decide (s.now d ≤ y.time + 65536) && !(y.src == entry.src && y.site == entry.site && y.txn == entry.txn)) ++ [entry] }).replies m answers

/-- The requests with their packets and follow counts (R352). -/
def requestForms (m : Msg) : List (Instr × Packet × Nat) :=
  [(.rd m, ⟨0, 0, m⟩, 0), (.rdn m, ⟨0, 1, m⟩, 0), (.rdo m, ⟨0, 2, m⟩, 1), (.wr m, ⟨0, 3, m⟩, 4), (.wrm m, ⟨0, 4, m⟩, 5),
   (.atm m, ⟨0, 5, m⟩, 2), (.watch m, ⟨0, 6, m⟩, 1), (.unwatch m, ⟨0, 7, m⟩, 0), (.wb m, ⟨0, 8, m⟩, 5), (.redu m, ⟨4, 0, m⟩, 2),
   (.redw m, ⟨4, 1, m⟩, 2), (.part m, ⟨4, 2, m⟩, 5)]

/-- A line with nothing in the way of a plain access at its home: no owner, not in the ACC state, no bad granule. -/
abbrev State.plainLine (s : State) (l : Nat) : Prop :=
  (s.dirLine l).owners = [] ∧ (s.dirLine l).acc = none ∧ s.bad = [] ∧ s.soft = []

/-- A die manager has logged something. -/
abbrev State.logged (s : State) (d : Nat) (e : LogEntry) : State := s.modDie d fun x => { x with log := x.log ++ [e] }

/-! ### Explicit conditions of an access (R160, R162, R170, R211) -/

/-- The page of an address is in the running core's translation buffer with a right, and pa, where the address lies, is populated HBM of a live die. -/
def State.mapped (s : State) (t : Thread) (va : Word) (p : Perm) (pa : Nat) : Prop :=
  canonical va = true ∧ s.paFault pa = none ∧ (∃ d off, regionOf pa = .hbm d off) ∧
    ∃ e : Tlb, ((s.core (coreKey t.die t.core)).tlb.find? fun e => e.serves (s.gridOf t).asid (va.toNat % 2 ^ 57)) = some e ∧ 16 ≤ e.bits ∧
      permits (s.gridOf t).super e.pte p = true ∧ leafPa e.pte e.bits (va.toNat % 2 ^ 57) = pa

/-- Nothing of the thread's own core or cluster stands between it and the home: no asynchronous operation, no buffered store, no L1 copy. -/
def State.coreQuiet (s : State) (t : Thread) : Prop :=
  s.cur = t.key ∧ (s.core (coreKey t.die t.core)).ops = [] ∧ (s.core (coreKey t.die t.core)).l1 = [] ∧
    (s.cluster (clusterKey t.die t.cluster)).buf = []

/-- The line of pa lies at its home on the thread's own die, plain and unwatched. -/
def State.homeQuiet (s : State) (t : Thread) (pa : Nat) : Prop :=
  homeDie pa = t.die ∧ s.plainLine (pa / 64) ∧ (s.die t.die).watches = []

/-- A window of the thread's address space holds n bytes at a stash offset, and every line of them is present without a storage error. -/
def State.stashHolds (s : State) (t : Thread) (off n : Nat) (w : Window) : Prop :=
  let k := coreKey t.die t.core
  s.windowAt k (s.gridOf t).asid off n (t.lineWait != []) = some w ∧ (s.core k).bad = [] ∧ (s.core k).soft = [] ∧ ∀ l ∈ touchedLines off n, s.linePresent k l = true

/-- A stash byte lies in a line of a read-only window, whose words follow what the core reads and writes of them elsewhere (R188). -/
def State.readOnlyAt (s : State) (k x : Nat) : Prop :=
  ∃ p ∈ (s.core k).lines, p.2.present = true ∧ p.2.expiry.isSome = true ∧ 32 * p.1 ≤ x ∧ x < 32 * p.1 + 4 * p.2.pas.length

/-- The stash of a core holds given cells, but for read-only lines, which may follow. -/
def State.stashIs (s : State) (k : Nat) (m : List Host.Cell) (s' : State) : Prop :=
  (∀ x, ¬s.readOnlyAt k x → readCell (s'.core k).stash x = readCell m x) ∧ ((∀ x, ¬s.readOnlyAt k x) → (s'.core k).stash = m)

/-- Every other thread is as it was, and so is every home copy. -/
def State.sameElsewhere (s s' : State) : Prop := (∀ u, u ≠ s.cur → s'.th? u = s.th? u) ∧ ∀ a, s'.homeByte a = s.homeByte a

/-- A thread as it was but for what it has observed: its horizon, mark and prefetch hint. -/
def Thread.observed (t t' : Thread) : Prop := ({ t' with obs := t.obs, mark := t.mark, hint := t.hint } : Thread) = t

/-- A thread as it was but for what it has written and observed. -/
def Thread.stored (t t' : Thread) : Prop := ({ t' with obs := t.obs, mark := t.mark, own := t.own, hor := t.hor } : Thread) = t

/-- What a store of bytes at a plain line leaves: the thread as it was but for what it has written, every other thread and every home copy as they were, and
the bytes in the cluster buffer. -/
def State.storedAt (s : State) (t : Thread) (s' : State) (t' : Thread) (pa : Nat) (bs : List (BitVec 8)) : Prop :=
  t.stored t' ∧ s'.th? s.cur = some t' ∧ s.sameElsewhere s' ∧
    ∃ x : DirtyLine, (s'.cluster (clusterKey t.die t.cluster)).buf = [(pa / 64, x)] ∧
      ∀ j, AMap.get? x.bytes j = if pa % 64 ≤ j ∧ j < pa % 64 + bs.length then bs[j - pa % 64]? else none

/-- An 8-byte stack slot at an offset of thread-private space lies at pa, with nothing in the way of an access to it. -/
def State.stackReady (s : State) (t : Thread) (off : Word) (p : Perm) (pa : Nat) : Prop :=
  let va := privAddr (s.gridOf t) t off.toNat
  off.toNat % 8 = 0 ∧ va.toNat % 8 = 0 ∧ s.mapped t va p pa ∧ s.coreQuiet t ∧ s.homeQuiet t pa

/-- The 128 bytes of a saved queue at an address lie in one page, on two lines with nothing in the way of an access to them (R327 to R329). -/
def State.spanReady (s : State) (t : Thread) (va : Word) (p : Perm) (pa : Nat) : Prop :=
  va.toNat % 64 = 0 ∧ va.toNat % 65536 + 128 ≤ 65536 ∧ s.mapped t va p pa ∧ s.paFault (pa + 127) = none ∧ s.coreQuiet t ∧
    s.homeQuiet t pa ∧ s.homeQuiet t (pa + 64)

/-- The fetch buffer of the thread's core holds a code word at an address that the thread may execute (R245). -/
def State.coded (s : State) (t : Thread) (va : Word) (w : Code) : Prop :=
  ∃ pa, s.mapped t va .x pa ∧ AMap.get? (s.core (coreKey t.die t.core)).code pa = some w

/-- It holds the three words of the packet of a word address (R28). -/
def State.codedPacket (s : State) (t : Thread) (pc : Word) (packet : List Code) : Prop :=
  packet.length = 3 ∧ ∀ k < 3, s.coded t (packetStart pc + BitVec.ofNat 64 (4 * k)) (packet.getD k 0)

/-- The eight bytes of a literal lie in one executable page, on plain lines at their home. -/
def State.literalReady (s : State) (t : Thread) (va : Word) (bs : List (BitVec 8)) : Prop :=
  ∃ pa, s.mapped t va .x pa ∧ va.toNat % 65536 + 8 ≤ 65536 ∧ s.paFault (pa + 7) = none ∧ s.plainLine (pa / 64) ∧ s.plainLine ((pa + 7) / 64) ∧ bs = s.homeBytes pa 8

/-- The lines of a part of a range (R303), as pieces at their offsets, each in a buffered page with a right. -/
def State.linesMapped (s : State) (t : Thread) (base : Word) (start n : Nat) (p : Perm) (ls : List Piece) : Prop :=
  ls.length = n / 64 ∧ ∀ i < n / 64, ∃ pa, s.mapped t (base + BitVec.ofNat 64 (start + 64 * i)) p pa ∧
    ls[i]? = some { off := start + 64 * i, pa := pa, len := 64 }

/-! ### Group masks (R37, R243) -/

/-- The thread once it has written mask mk in its run: it goes on seeing the mask as it was. -/
def Thread.keptMask (t : Thread) (k : Nat) (v : Word) : Thread :=
  if (AMap.get? t.views k).isSome then t else { t with views := AMap.put t.views k v }

/-- No other thread has written a mask in its present run. -/
def State.soleWriter (s : State) (t : Thread) : Prop := ∀ p ∈ s.threads, p.2.views = [] ∨ p = (s.cur, t)

/-! ### Frames -/

/-- The instructions that work on registers alone: integer, special-register, VF, SFU, narrow-format and plain control forms, and those that only trap. -/
def isRegisterOnly : Instr → Bool
  | .nop | .yield | .pool .. | .prefHome .. | .rft | .last .. | .brkpt .. | .trap .. | .svc .. | .reservedOpcode .. => true
  | .add .. | .sub .. | .mul .. | .mulh .. | .mulhn .. | .div .. | .divn .. | .rem .. | .remn .. | .min .. | .max .. | .minn .. | .maxn .. => true
  | .and .. | .or .. | .xor .. | .andn .. | .shl .. | .shr .. | .sar .. | .rot .. | .clz .. | .popc .. | .brev .. | .abs .. | .neg .. => true
  | .sext .. | .zext .. | .mov .. | .addi .. | .andi .. | .ori .. | .xori .. | .andni .. | .shli .. | .shri .. | .sari .. | .roti .. => true
  | .icmp .. | .icmpi .. | .sel .. | .bfx .. | .bfi .. | .pmov .. | .setp .. | .bperm .. | .addr .. => true
  | .sprGet .. | .sprSet .. | .sprSwap .. | .gets .. | .sets .. => true
  | .fadd .. | .fsub .. | .fmul .. | .fmin .. | .fmax .. | .fminm .. | .fmaxm .. | .ffma .. | .ffms .. | .fnma .. | .fabs .. | .fneg .. => true
  | .frnd .. | .gete .. | .getm .. | .fclass .. | .reclass .. | .fcmp .. | .twosum .. | .twoprod .. | .cvtin .. | .cvtout .. | .fscl .. => true
  | .rcp .. | .rsq .. | .sqrt .. | .exp2 .. | .log2 .. | .sin .. | .cos .. | .tanh .. | .pack6 .. | .unpk6 .. | .fdiv .. | .fman .. => true
  | _ => false

/-! ### Discovery -/

/-- The follow counts that the messages of each class and opcode carry (R352). -/
def listedFollow : List (Nat × Nat × Nat) :=
  [(0, 0, 0), (0, 1, 0), (0, 2, 1), (0, 3, 4), (0, 4, 5), (0, 5, 2), (0, 6, 1), (0, 7, 0), (0, 8, 5), (1, 0, 1), (1, 1, 1), (2, 0, 1), (2, 1, 0),
   (2, 2, 0), (2, 3, 0), (2, 4, 0), (3, 0, 4), (3, 1, 4), (4, 0, 2), (4, 1, 2), (4, 2, 5), (5, 0, 2), (5, 1, 0), (5, 2, 0), (5, 3, 0), (5, 4, 0),
   (5, 5, 0), (5, 6, 1), (5, 7, 4), (5, 8, 0), (5, 9, 0), (5, 10, 0)]

/-- A physical address in the range of second-tier site i. -/
def inSite (i pa : Nat) : Prop := ∃ off, regionOf pa = .tier i off

/-- A link of a die. -/
abbrev State.link (s : State) (d dir : Nat) : Link := (AMap.get? (s.die d).links dir).getD {}

end Sys2Proof.Machine
end

