-- ==== Sys2Proof/Certificates/Slice0/Obligations.lean ====
section
/-! DEFINITION. The statements about the model that are handed to the provers. -/
open Sys2Proof Sys2Proof.Machine

/-! ### Integer instructions -/

/-- R87, R88: each two-operand form of IALU writes its table's result, at the width of `.w`, as a result of distance 3, and nothing else of the state changes.
-/
def Obligations.IntegerTwoOperandResult : Prop :=
  ∀ p ∈ integerTwo, ∀ (s : State) (t : Thread) (d a b : Spec) (w : Bool),
    Issues (p.1 d a b w) s t → s.reads t a = true → s.reads t b = true → s.reaches t d 1 = true →
    exec (p.1 d a b w) s = .next (s.setTh s.cur (t.wrote (some 3) d [atWidth2 w p.2 (t.value a) (t.value b)]))

/-- R87, R89 to R91: the one-operand forms of IALU, SHI, ADDI and LOGI write their tables' results, and ADDI and LOGI are encoded in their formats. -/
def Obligations.IntegerOneOperandResult : Prop :=
  (∀ p ∈ integerOne, ∀ (s : State) (t : Thread) (d a : Spec) (w : Bool),
    Issues (p.1 d a w) s t → s.reads t a = true → s.reaches t d 1 = true →
    exec (p.1 d a w) s = .next (s.setTh s.cur (t.wrote (some 3) d [atWidth1 w p.2 (t.value a)]))) ∧
  (∀ p ∈ integerShift, ∀ (s : State) (t : Thread) (d a k : Spec) (w : Bool),
    Issues (p.1 d a w k) s t → s.reads t a = true → s.reaches t d 1 = true →
    exec (p.1 d a w k) s = .next (s.setTh s.cur (t.wrote (some 3) d [atWidth1 w (fun n x => p.2 n x k.toNat) (t.value a)]))) ∧
  (∀ (s : State) (t : Thread) (d a : Spec) (i12 : BitVec 12) (i10 : BitVec 10), ∀ p ∈ integerImmediate d a i12 i10,
    Issues p.1 s t → s.reads t a = true → s.reaches t d 1 = true →
    exec p.1 s = .next (s.setTh s.cur (t.wrote (some 3) d [p.2 (t.value a)]))) ∧
  (∀ (c e : Bool) (d a : Spec) (i12 : BitVec 12) (i10 : BitVec 10),
    encode ⟨c, e, .addi d a i12⟩ = some (BitVec.ofBool c ++ BitVec.ofBool e ++ 2#6 ++ d ++ a ++ i12) ∧
    ∀ p ∈ ([(.andi d a i10, 0), (.ori d a i10, 1), (.xori d a i10, 2), (.andni d a i10, 3)] : List (Instr × BitVec 2)),
      encode ⟨c, e, p.1⟩ = some (BitVec.ofBool c ++ BitVec.ofBool e ++ 3#6 ++ d ++ a ++ p.2 ++ i10))

/-- R92, R106: ICMP and ICMPI record in p the combination of its old value with the truth of their condition. -/
def Obligations.IntegerCompareSetsPredicate : Prop :=
  (∀ (s : State) (t : Thread) (cond p comb : BitVec 3) (a b : Spec) (w : Bool),
    Issues (.icmp cond p a b comb w) s t → s.reads t a = true → s.reads t b = true →
    ∃ v : Bool,
      (v = true ↔ combined comb (t.predVal p.toNat = true)
        (if w = true then comparison cond ((t.value a).extractLsb' 0 32) ((t.value b).extractLsb' 0 32)
         else comparison cond (t.value a) (t.value b))) ∧
      exec (.icmp cond p a b comb w) s = .next (s.setTh s.cur (t.wrotePred p.toNat v))) ∧
  (∀ (s : State) (t : Thread) (cond p comb lo : BitVec 3) (a hi : Spec),
    Issues (.icmpi cond p a hi comb lo) s t → s.reads t a = true →
    ∃ v : Bool,
      (v = true ↔ combined comb (t.predVal p.toNat = true) (comparison cond (t.value a) ((hi ++ lo).signExtend 64))) ∧
      exec (.icmpi cond p a hi comb lo) s = .next (s.setTh s.cur (t.wrotePred p.toNat v)))

/-- R93, R96: SEL, BFX, BFI, PMOV, BPERM and ADDR write their slot, bit by bit; SETP records p1 to p7. BFX's bits beyond bit 63 of a, and its sign where the
field is cut, follow notes/assumptions/7.md. -/
def Obligations.BitInstructionResult : Prop :=
  (∀ (s : State) (t : Thread) (d a b : Spec) (k : BitVec 3),
    Issues (.sel d a b k) s t → s.reads t a = true → s.reads t b = true → s.reaches t d 1 = true →
    exec (.sel d a b k) s = .next (s.setTh s.cur (t.wrote (some 3) d [if t.predVal k.toNat = true then t.value a else t.value b]))) ∧
  (∀ (s : State) (t : Thread) (d a b : Spec) (k : BitVec 3),
    Issues (.addr d a b k) s t → s.reads t a = true → s.reads t b = true → s.reaches t d 1 = true →
    exec (.addr d a b k) s = .next (s.setTh s.cur (t.wrote (some 3) d [t.value a + t.value b <<< k.toNat]))) ∧
  (∀ (s : State) (t : Thread) (d a b : Spec) (sx : Bool),
    Issues (.bfx d a b sx) s t → s.reads t a = true → s.reads t b = true → s.reaches t d 1 = true →
    ∃ v : Word,
      (let pos := ((t.value b).extractLsb' 0 6).toNat
       let len := ((t.value b).extractLsb' 8 7).toNat
       ∀ i < 64, v.getLsbD i =
         if i < len then (t.value a).getLsbD (pos + i) else sx && decide (len ≠ 0) && (t.value a).getLsbD (pos + len - 1)) ∧
      exec (.bfx d a b sx) s = .next (s.setTh s.cur (t.wrote (some 3) d [v]))) ∧
  (∀ (s : State) (t : Thread) (d a b : Spec),
    Issues (.bfi d a b) s t → s.reads t a = true → s.reads t b = true → s.reads t d = true → s.reaches t d 1 = true →
    ∃ v : Word,
      (let pos := ((t.value b).extractLsb' 0 6).toNat
       let len := ((t.value b).extractLsb' 8 7).toNat
       ∀ i < 64, v.getLsbD i = if pos ≤ i ∧ i < pos + len then (t.value a).getLsbD (i - pos) else (t.value d).getLsbD i) ∧
      exec (.bfi d a b) s = .next (s.setTh s.cur (t.wrote (some 3) d [v]))) ∧
  (∀ (s : State) (t : Thread) (d a b : Spec),
    Issues (.bperm d a b) s t → s.reads t a = true → s.reads t b = true → s.reaches t d 1 = true →
    ∃ v : Word,
      (∀ i < 8, v.extractLsb' (8 * i) 8 =
        (let k := ((t.value b).extractLsb' (4 * i) 4).toNat
         if k < 8 then (t.value a).extractLsb' (8 * k) 8 else 0)) ∧
      exec (.bperm d a b) s = .next (s.setTh s.cur (t.wrote (some 3) d [v]))) ∧
  (∀ (s : State) (t : Thread) (d : Spec),
    Issues (.pmov d) s t → s.reaches t d 1 = true →
    ∃ v : Word, (∀ i < 64, v.getLsbD i = (decide (i < 8) && t.predVal i)) ∧
      exec (.pmov d) s = .next (s.setTh s.cur (t.wrote (some 3) d [v]))) ∧
  (∀ (s : State) (t : Thread) (a : Spec),
    Issues (.setp a) s t → s.reads t a = true →
    exec (.setp a) s =
      .next (s.setTh s.cur ([1, 2, 3, 4, 5, 6, 7].foldl (fun t k => t.wrotePred k ((t.value a).getLsbD k)) t)))

/-! ### Special registers -/

/-- R97, R98: GET returns every special register by its number. R97, R98: SET records the slot for a writable register as a long result; SWAP also records the
old value at its specifier, with q0 as the source where that is 0. -/
def Obligations.SpecialRegisterEffect : Prop :=
  (∀ p ∈ specialRegisters, ∀ (s : State) (t : Thread) (x : Spec),
    Issues (.sprGet x (BitVec.ofNat 12 p.1)) s t → s.reaches t x 1 = true →
    exec (.sprGet x (BitVec.ofNat 12 p.1)) s = .next (s.setTh s.cur (t.wrote none x [p.2 s t]))) ∧
  (∀ p ∈ writableRegisters, ∀ (s : State) (t : Thread) (x : Spec), s.reads t x = true →
    (Issues (.sprSet x (BitVec.ofNat 12 p.1)) s t →
      exec (.sprSet x (BitVec.ofNat 12 p.1)) s = .next (s.setTh s.cur (t.produce none p.2 (t.value x)))) ∧
    (∀ old ∈ specialRegisters, old.1 = p.1 → Issues (.sprSwap x (BitVec.ofNat 12 p.1)) s t → s.reaches t x 1 = true →
      exec (.sprSwap x (BitVec.ofNat 12 p.1)) s =
        .next (s.setTh s.cur ((t.wrote none x [old.2 s t]).produce none p.2 (t.value x)))))

/-- R298, R300: GETS returns the system registers and raises ILLEGAL on an unassigned number; SETS records the call depth and raises ILLEGAL on every other
number; in user mode both raise PRIV before anything else of them is done. -/
def Obligations.SystemRegisterAccess : Prop :=
  (∀ p ∈ systemRegisters, ∀ (s : State) (t : Thread) (d : Spec),
    Issues (.gets d p.1) s t → s.reaches t d 1 = true → exec (.gets d p.1) s = .next (s.setTh s.cur (t.wrote none d [p.2 s t]))) ∧
  (∀ (s : State) (t : Thread) (d : Spec) (x : BitVec 8), x ∉ systemRegisters.map Prod.fst →
    s.th? s.cur = some t → t.status ≠ .ended → exec (.gets d x) s = .next (s.trapCur cILLEGAL 0 0)) ∧
  (∀ (s : State) (t : Thread) (a : Spec),
    Issues (.sets a 0x08) s t → s.reads t a = true → exec (.sets a 0x08) s = .next (s.setTh s.cur (t.produce none .cd (t.value a)))) ∧
  (∀ (s : State) (t : Thread) (a : Spec) (x : BitVec 8), x ≠ 0x08 →
    s.th? s.cur = some t → t.status ≠ .ended → exec (.sets a x) s = .next (s.trapCur cILLEGAL 0 0)) ∧
  (∀ (s : State) (t : Thread) (a : Spec) (x : BitVec 8), s.th? s.cur = some t → t.status ≠ .ended → (s.gridOf t).super = false →
    (Instr.wf (.gets a x) = true → exec (.gets a x) s = .next (s.trapCur cPRIV 0 0)) ∧
    (Instr.wf (.sets a x) = true → exec (.sets a x) s = .next (s.trapCur cPRIV 0 0)))

/-! ### Software traps and the entry of an exception -/

/-- R269, R299, R52: BRKPT, TRAP, SVC and the reserved opcodes raise their causes with their trap registers. The cause of TRAP is a user cause, and that of
SVC a system cause. -/
def Obligations.TrapInstructionsRaise : Prop :=
  isUserCause cTRAP = true ∧ isUserCause cSVC = false ∧ ∀ (s : State) (t : Thread) (a : Spec) (x : BitVec 8) (code : BitVec 20) (w : Code),
    (Issues (.trap x) s t → exec (.trap x) s = .next (s.trapCur cTRAP 0 (x.setWidth 64))) ∧
    (Issues (.brkpt code) s t → exec (.brkpt code) s = .next (s.trapCur cTRAP 0 (code.setWidth 64 + 2 ^ 20))) ∧
    (Issues (.svc a x) s t → s.reads t a = true → exec (.svc a x) s = .next (s.trapCur cSVC (t.value a) (x.setWidth 64))) ∧
    (Issues (.reservedOpcode w) s t → exec (.reservedOpcode w) s = .next (s.trapCur cILLEGAL 0 0))

/-- R12, R314 to R316, R319: what taking an exception leaves. The trap registers take cause, the chain's address, addr, and info with the word's index in bits
25:24; the results of the retired slots are written, the trapping chain's pushes are undone, and queue, named file, predicates, prc, loop counters and call
depth stand as those results leave them. A user cause with a nonzero trapentry and F clear enters the handler with F set; any other cause leaves the thread
waiting for system software, with F fallen at this boundary and kept as the mark of a nested cause. Nothing else of the state changes but the marker that the
slot was left and the thread's answered requests. That the requests go with the slot is the model's choice (notes/assumptions/18.md), F at a system cause follows
notes/assumptions/9.md, and the chain's first word as the pc saved notes/assumptions/20.md. -/
def Obligations.ExceptionEntry : Prop :=
  ∀ (s : State) (t : Thread) (cause : Nat) (addr info : Word), s.th? s.cur = some t → s.word < 4 → info.toNat < 2 ^ 24 →
    ∃ t' : Thread,
      s.trapCur cause addr info =
        { s with threads := AMap.put s.threads s.cur t', left := true, pending := (s.dropReplies s.cur).pending } ∧
      t'.trapcause = w64 cause ∧ t'.trappc = t.pc ∧ t'.trapaddr = addr ∧ t'.trapinfo = info + w64 (s.word * 2 ^ 24) ∧
      t'.run = [] ∧ t'.head = t.base ∧ t'.q = ({ t with head := t.base } : Thread).land.q ∧ t'.n = t.land.n ∧ t'.preds = t.land.preds ∧ t'.prc = t.land.prc ∧ t'.lc = t.land.lc ∧
      t'.cd = t.land.cd ∧ t'.loops = t.loops ∧ t'.savebase = t.land.savebase ∧
      (isUserCause cause = true → (s.gridOf t).trapentry ≠ 0 → t.first = false →
        t'.pc = (s.gridOf t).trapentry ∧ t'.first = true ∧ (t'.status = .ready ∨ t'.status = .waiting)) ∧
      (isUserCause cause = false ∨ (s.gridOf t).trapentry = 0 ∨ t.first = true →
        t'.pc = t.pc ∧ t'.first = false ∧ t'.status = .awaiting none ∧ (t'.nested = t.first))

/-- R48, R52: a word that meets decode-time causes raises the first of ILLEGAL, PRIV, ROLE and WINDOW, with info 0 or R313's window fields, whatever the word
is. -/
def Obligations.DecodeCauseOrder : Prop :=
  ∀ (i : Instr) (s : State) (t : Thread), i.isEvent = false → s.th? s.cur = some t → t.status ≠ .ended →
    (i.wf = false → exec i s = .next (s.trapCur cILLEGAL 0 0)) ∧
    (i.wf = true → isPrivileged i = true → (s.gridOf t).super = false → exec i s = .next (s.trapCur cPRIV 0 0)) ∧
    (i.wf = true → (isPrivileged i = true → (s.gridOf t).super = true) →
      (needsCond i = true ∧ t.isCond = false ∨ needsGroup i = true ∧ t.isCond = true) → exec i s = .next (s.trapCur cROLE 0 0)) ∧
    (i.wf = true → (isPrivileged i = true → (s.gridOf t).super = true) → (needsCond i = true → t.isCond = true) →
      (needsGroup i = true → t.isCond = false) →
      ∀ x ∈ wordRegs i, 16 ≤ x.1.toNat → (s.gridOf t).len t.tid < x.1.toNat - 16 + x.2 →
        ∃ sp : Nat, (∃ y ∈ wordRegs i, y.1.toNat = sp ∧ 16 ≤ sp ∧ (s.gridOf t).len t.tid < sp - 16 + y.2) ∧
          exec i s = .next (s.trapCur cWINDOW 0 (w64 (sp * 2 ^ 8))))

/-! ### VF arithmetic -/

/-- R71, R99: the two-operand VF forms deliver the exact result rounded once at the instruction's class and mode, unless an enabled flag traps. R99: the fused
forms deliver a · b + c, a · b − c and −(a · b) + c rounded once at prc.wc and prc.rm. -/
def Obligations.FloatOperandsResult : Prop :=
  ((∀ p ∈ floatTwo, ∀ (s : State) (t : Thread) (d a b : Spec) (rnd : BitVec 2) (cls : BitVec 4),
    let c := resultClass t.prc cls
    let md := roundMode t.prc rnd
    let z := Prc.ftz t.prc
    let o := finishVf c md z (Prc.floor t.prc) (p.2.1 (decide (md = .rd)) ((t.vfValue a).src z) ((t.vfValue b).src z))
    Issues (p.1 d a b rnd cls) s t → s.readsVf t a = true → s.readsVf t b = true → s.reaches t d (slotsOf c) = true →
    Delivers (p.1 d a b rnd cls) s t d (if p.2.2 then none else fDistance [c, (t.vfValue a).cls, (t.vfValue b).cls]) c o) ∧
  (∀ p ∈ floatChoice, ∀ (s : State) (t : Thread) (d a b : Spec) (cls : BitVec 4),
    let c := resultClass t.prc cls
    let z := Prc.ftz t.prc
    let o := finishVf c (Rnd.ofPrc (Prc.rm t.prc)) z (Prc.floor t.prc) (exactMinMax p.2.1 p.2.2 ((t.vfValue a).src z) ((t.vfValue b).src z))
    Issues (p.1 d a b cls) s t → s.readsVf t a = true → s.readsVf t b = true → s.reaches t d (slotsOf c) = true →
    Delivers (p.1 d a b cls) s t d (fDistance [c, (t.vfValue a).cls, (t.vfValue b).cls]) c o)) ∧
  (∀ p ∈ floatFused, ∀ (s : State) (t : Thread) (d a b e : Spec),
    let c := Prc.wc t.prc
    let md := Rnd.ofPrc (Prc.rm t.prc)
    let z := Prc.ftz t.prc
    let o := finishVf c md z (Prc.floor t.prc)
      (p.2 (decide (md = .rd)) ((t.vfValue a).src z) ((t.vfValue b).src z) ((t.vfValue e).src z))
    Issues (p.1 d a b e) s t → s.readsVf t a = true → s.readsVf t b = true → s.readsVf t e = true →
    s.reaches t d (slotsOf c) = true →
    Delivers (p.1 d a b e) s t d (fDistance [c, (t.vfValue a).cls, (t.vfValue b).cls, (t.vfValue e).cls]) c o)

/-- R103, R104, R109 to R111: FRND, GETM, RECLASS, the SFU forms, FSCL and CVTIN deliver their exact results rounded once. The sign of a zero of FRND follows
notes/assumptions/7.md, and the SFU forms are free values where notes/assumptions/4.md says so. -/
def Obligations.FloatOneOperandResult : Prop :=
  (∀ p ∈ floatOne, ∀ (s : State) (t : Thread) (d a : Spec) (rnd : BitVec 2) (cls : BitVec 4),
    let c := resultClass t.prc cls
    let md := roundMode t.prc rnd
    let z := Prc.ftz t.prc
    let o := finishVf c md z (Prc.floor t.prc) (p.2.1 c md ((t.vfValue a).src z))
    Issues (p.1 d a rnd cls) s t → s.readsVf t a = true → s.reaches t d (slotsOf c) = true →
    Delivers (p.1 d a rnd cls) s t d (if p.2.2 then none else fDistance [c, (t.vfValue a).cls]) c o) ∧
  (∀ (s : State) (t : Thread) (d a b : Spec) (rnd : BitVec 2) (cls : BitVec 4),
    let c := resultClass t.prc cls
    let z := Prc.ftz t.prc
    let o := finishVf c (roundMode t.prc rnd) z (Prc.floor t.prc) (exactScale ((t.vfValue a).src z) (t.value b).toInt)
    Issues (.fscl d a b rnd cls) s t → s.readsVf t a = true → s.reads t b = true → s.reaches t d (slotsOf c) = true →
    Delivers (.fscl d a b rnd cls) s t d (fDistance [c, (t.vfValue a).cls]) c o) ∧
  (∀ (s : State) (t : Thread) (d a : Spec) (ty : BitVec 4) (rnd : BitVec 2) (cls : BitVec 4),
    let c := resultClass t.prc cls
    let o := finishVf c (roundMode t.prc rnd) (Prc.ftz t.prc) (Prc.floor t.prc) (convertSource ty.toNat (t.value a))
    Issues (.cvtin d a ty rnd cls) s t → s.reads t a = true → s.reaches t d (slotsOf c) = true →
    Delivers (.cvtin d a ty rnd cls) s t d (fDistance [c]) c o)

/-- R104: FABS and FNEG clear and invert the sign; a NaN keeps its payload and quiet bit and raises no flag, any other value is rounded. How a kept NaN is cut
to a narrower class follows notes/assumptions/7.md. -/
def Obligations.SignInstructionResult : Prop :=
  ∀ p ∈ floatSign, ∀ (s : State) (t : Thread) (d a : Spec) (rnd : BitVec 2) (cls : BitVec 4),
    let c := resultClass t.prc cls
    let z := Prc.ftz t.prc
    let dist := fDistance [c, (t.vfValue a).cls]
    Issues (p.1 d a rnd cls) s t → s.readsVf t a = true → s.reaches t d (slotsOf c) = true →
    (∀ n sig fr b, p.2 ((t.vfValue a).src z) = .nan n sig fr b →
      exec (p.1 d a rnd cls) s = .next (s.setTh s.cur (t.wrote dist d (vfToSlots (keptNan c n fr b))))) ∧
    ((p.2 ((t.vfValue a).src z)).isNan = false →
      Delivers (p.1 d a rnd cls) s t d dist c
        (finishVf c (roundMode t.prc rnd) z (Prc.floor t.prc) { x := p.2 ((t.vfValue a).src z) }))

/-- R104 to R106, R109: GETE, FCLASS and CVTOUT write a slot and FCMP a predicate, each at the distance of its source's class (3 for a predicate), unless an
enabled flag traps. That CVTOUT flushes a subnormal source at FTZ = 1 and gives a zero without a flag follows notes/assumptions/20.md. -/
def Obligations.FloatToSlotResult : Prop :=
  (∀ (s : State) (t : Thread) (d a : Spec),
    let r := exponentOf ((t.vfValue a).src (Prc.ftz t.prc))
    Issues (.gete d a) s t → s.readsVf t a = true → s.reaches t d 1 = true →
    RaisesOr (.gete d a) s t (t.vfValue a).cls r.2
      ((t.flagged r.2).wrote (fDistance [(t.vfValue a).cls]) d [BitVec.ofInt 64 r.1])) ∧
  (∀ (s : State) (t : Thread) (d a : Spec),
    Issues (.fclass d a) s t → s.readsVf t a = true → s.reaches t d 1 = true →
    exec (.fclass d a) s = .next (s.setTh s.cur (t.wrote (fDistance [(t.vfValue a).cls]) d
      [w64 (2 ^ classBit (t.vfValue a)) ||| w64 (t.vfValue a).cls <<< 10]))) ∧
  (∀ (s : State) (t : Thread) (d a : Spec) (ty : BitVec 4) (rnd : BitVec 2),
    let r := convertOut ty.toNat (roundMode t.prc rnd) ((t.vfValue a).src (Prc.ftz t.prc))
    Issues (.cvtout d a ty rnd) s t → s.readsVf t a = true → s.reaches t d 1 = true →
    RaisesOr (.cvtout d a ty rnd) s t (t.vfValue a).cls r.2
      ((t.flagged r.2).wrote (fDistance [(t.vfValue a).cls]) d [r.1])) ∧
  (∀ (s : State) (t : Thread) (cond p comb : BitVec 3) (a b : Spec) (sig : Bool),
    let u := (t.vfValue a).src (Prc.ftz t.prc)
    let v := (t.vfValue b).src (Prc.ftz t.prc)
    let f : Flags := { inv := u.isSnan || v.isSnan || (sig && (u.isNan || v.isNan)) }
    Issues (.fcmp cond p a b comb sig) s t → s.readsVf t a = true → s.readsVf t b = true →
    ∃ r : Bool, (r = true ↔ combined comb (t.predVal p.toNat = true) (fcmpHolds cond.toNat u v = true)) ∧
      RaisesOr (.fcmp cond p a b comb sig) s t (max (t.vfValue a).cls (t.vfValue b).cls) f ((t.flagged f).wrotePred p.toNat r))

/-- R107: TWOSUM and TWOPROD write s and then e, so that a pushing form leaves e at the younger age. The e of an infinite or NaN operand, and the flag INX of an s
that overflows, follow notes/assumptions/7.md. -/
def Obligations.ErrorFreePairResult : Prop :=
  ∀ p ∈ floatPair, ∀ (s : State) (t : Thread) (d a b : Spec) (cls : BitVec 4),
    let c := resultClass t.prc cls
    let z := Prc.ftz t.prc
    let ex := p.2 ((t.vfValue a).src z) ((t.vfValue b).src z)
    let r := twoParts c z ex.x
    let px := pxHolds (Prc.floor t.prc) ex.addends ex.x c
    let f := (r.2.2.or ex.flags).or { px := (px.map Prod.snd).getD false }
    let dist := fDistance [c, (t.vfValue a).cls, (t.vfValue b).cls]
    Issues (p.1 d a b cls) s t → s.readsVf t a = true → s.readsVf t b = true → s.reaches t d (2 * slotsOf c) = true →
    (trapCause t.prc f = none →
      exec (p.1 d a b cls) s = .next (s.setTh s.cur
        (if d = 0 then ((t.flagged f).wrote dist 0 (vfToSlots r.1)).wrote dist 0 (vfToSlots r.2.1)
         else (t.flagged f).wrote dist d (vfToSlots r.1 ++ vfToSlots r.2.1)))) ∧
    (∀ cause, trapCause t.prc f = some cause →
      exec (p.1 d a b cls) s = .next (s.trapCur cause 0 (arithInfo f c (keptField px))))

/-- R113 to R116: PACK6, UNPK6 and FMAN work on narrow operand slots; a nonzero reserved bit of one raises DESC. The sign of a rounded zero, the ends of I6
and the info of DESC follow notes/assumptions/7.md. -/
def Obligations.NarrowInstructionResult : Prop :=
  (∀ (s : State) (t : Thread) (d a b : Spec),
    let y := t.value b
    let r := Narrow.pack (bits y 8 2) (Narrow.scale (t.vfValue a).num (-(y.extractLsb' 16 12).toInt))
    Issues (.pack6 d a b) s t → s.readsVf t a = true → s.reads t b = true → s.reaches t d 1 = true →
    (narrowOk y = true → RaisesOr (.pack6 d a b) s t (t.vfValue a).cls r.2
      ((t.flagged r.2).wrote none d [w64 (bits y 16 12 * 2 ^ 16 + bits y 8 2 * 2 ^ 8 + r.1)])) ∧
    (narrowOk y = false → exec (.pack6 d a b) s = .next (s.trapCur cDESC 0 0))) ∧
  (∀ (s : State) (t : Thread) (d a : Spec) (cls : BitVec 4),
    let y := t.value a
    let c := resultClass t.prc cls
    let o := finishVf c (Rnd.ofPrc (Prc.rm t.prc)) (Prc.ftz t.prc) (Prc.floor t.prc)
      { x := Narrow.scale (Narrow.value (bits y 8 2) (bits y 0 6)) (y.extractLsb' 16 12).toInt,
        flags := { inv := Narrow.isNal (bits y 8 2) (bits y 0 6) } }
    Issues (.unpk6 d a cls) s t → s.reads t a = true → s.reaches t d (slotsOf c) = true →
    (narrowOk y = true → Delivers (.unpk6 d a cls) s t d none c o) ∧
    (narrowOk y = false → exec (.unpk6 d a cls) s = .next (s.trapCur cDESC 0 0))) ∧
  (∀ (s : State) (t : Thread) (d a b e : Spec),
    let x := t.value a
    let y := t.value b
    let c := Prc.wc t.prc
    let md := Rnd.ofPrc (Prc.rm t.prc)
    let z := Prc.ftz t.prc
    let q := Narrow.product (bits x 8 2) (bits x 0 6) (bits y 8 2) (bits y 0 6) ((x.extractLsb' 16 12).toInt + (y.extractLsb' 16 12).toInt)
    let o := finishVf c md z (Prc.floor t.prc) (exactFman (decide (md = .rd)) q.1 q.2 ((t.vfValue e).src z))
    Issues (.fman d a b e) s t → s.reads t a = true → s.reads t b = true → s.readsVf t e = true → s.reaches t d (slotsOf c) = true →
    (narrowOk x = true → narrowOk y = true → Delivers (.fman d a b e) s t d (fDistance [c, (t.vfValue e).cls]) c o) ∧
    (narrowOk x = false ∨ narrowOk y = false → exec (.fman d a b e) s = .next (s.trapCur cDESC 0 0)))

/-! ### Control -/

/-- R41, R46, R53, R217, R267: NOP changes nothing; YIELD gives the thread, for the time when it is ready again, an age newer than that of every thread of its
core that is ready now; POOL goes on count + 1 packets further, at any boundary or none; PREF.home holds its hint; LAST marks its named slots, at distance 1. -/
def Obligations.PlainControlEffect : Prop :=
  ∀ (s : State) (t : Thread) (count : BitVec 20) (die x y z : Spec),
    (Issues .nop s t → exec .nop s = .next s) ∧
    (Issues .yield s t → ∃ age : Nat,
      (∀ p ∈ s.threads, p.2.die = t.die → p.2.core = t.core → p.2.status = .ready → p.2.age < age) ∧
      exec .yield s = .next (s.setTh s.cur { t with yielded := age })) ∧
    (Issues (.pool count) s t →
      exec (.pool count) s = .next (s.setTh s.cur { t with next := some (packetStart t.pc + 12 * (count.setWidth 64 + 1)) })) ∧
    (Issues (.prefHome die) s t → exec (.prefHome die) s = .next (s.setTh s.cur { t with hint := some die })) ∧
    (Issues (.last x y z) s t →
      exec (.last x y z) s = .next (s.setTh s.cur
        ([x, y, z].foldl (fun t sp => if 16 ≤ sp.toNat then t.produce (some 1) (.dead (sp.toNat - 16)) 0 else t) t)))

/-- R261, R262, R264, R272: BRA and JMPR. A uniform form whose gang is divided raises UNIFORM; an untaken one changes nothing; a taken one traps on a target
that is no packet address, else the next slot is taken from it and the loop records that do not hold it are cleared. -/
def Obligations.BranchTransfersControl : Prop :=
  ∀ (s : State) (t : Thread) (i : Instr) (target : Word) (neg u : Bool) (p : BitVec 3),
    ((∃ off, i = .bra neg p u off ∧ target = packetStart t.pc + off.signExtend 64 * 12) ∨
      (∃ a, i = .jmpr neg p u a ∧ target = t.value a ∧ s.reads t a = true)) →
    Issues i s t →
    (u = true → splitVote s t s.cur = true → exec i s = .next (s.trapCur cUNIFORM 0 0)) ∧
    ((u = true → splitVote s t s.cur = false) →
      (t.predVal p.toNat = neg → exec i s = .next s) ∧
      (t.predVal p.toNat ≠ neg →
        (∀ c, targetTrap target = some c → exec i s = .next (s.trapCur c target 0)) ∧
        (targetTrap target = none → exec i s = .next (s.setTh s.cur (t.jumped target)))))

/-- R261 to R264: CALL and CALLR. An untaken one changes nothing; a taken one without room in private memory raises PROTECTION, else it stores the address of
the word after it eight bytes further down the private stack, the depth rises at distance 1, and the next slot is taken from the target. R265: RET at depth 0
or beyond the private space raises PROTECTION. Else it loads the return address from the private stack; with one that is a word address it goes on there and the
depth falls at distance 1. With U = 1 in a gang whose members disagree, CALL and CALLR raise UNIFORM, and a taken one whose target is no packet address
raises that target's trap with the target as its address. Where the stack slot's page is buffered and its line plain at home on the own die, both complete. The causes of a return address that is no word address, and the access code of a full stack, follow notes/assumptions/9.md. -/
def Obligations.CallAndReturnEffect : Prop :=
  (∀ (s : State) (t : Thread) (i : Instr) (target : Word) (neg u : Bool) (p : BitVec 3),
    ((∃ off, i = .call neg p u off ∧ target = packetStart t.pc + off.signExtend 64 * 12) ∨
      (∃ a, i = .callr neg p u a ∧ target = t.value a ∧ s.reads t a = true)) →
    Issues i s t →
    (u = true → splitVote s t s.cur = true → exec i s = .next (s.trapCur cUNIFORM 0 0)) ∧
    ((u = true → splitVote s t s.cur = false) → t.predVal p.toNat = neg → exec i s = .next s) ∧
    ((u = true → splitVote s t s.cur = false) → t.predVal p.toNat ≠ neg →
      ∀ c, targetTrap target = some c → exec i s = .next (s.trapCur c target 0)) ∧
    ((u = true → splitVote s t s.cur = false) → t.predVal p.toNat ≠ neg → targetTrap target = none →
      let off : Word := BitVec.ofNat 64 (s.gridOf t).psize - 8 * (t.cd + 1)
      let ra : Word := t.pc + 4 * BitVec.ofNat 64 s.word + 4
      ((s.gridOf t).psize < 8 * (t.cd.toNat + 1) → exec i s = .next (s.trapCur cPROTECTION off 1)) ∧
      (8 * (t.cd.toNat + 1) ≤ (s.gridOf t).psize →
        (∀ (s1 : State) (t1 : Thread), storeSpace .priv off (toBytes 8 ra.toNat) 8 (s.agentOf t) s = .ok ((), s1) →
          s1.th? s1.cur = some t1 →
          exec i s = .next (s1.setTh s1.cur { t1.produce (some 1) .cd (t1.cd + 1) with next := some target })) ∧
        (∀ pa : Nat, s.stackReady t off .w pa →
          ∃ (s1 : State) (t1 : Thread), s.storedAt t s1 t1 pa (toBytes 8 ra.toNat) ∧
            exec i s = .next (s1.setTh s.cur { t1.produce (some 1) .cd (t1.cd + 1) with next := some target }))))) ∧
  (∀ (s : State) (t : Thread), Issues .ret s t →
    (t.cd = 0 → exec .ret s = .next (s.trapCur cPROTECTION 0 0)) ∧
    (t.cd ≠ 0 → (s.gridOf t).psize < 8 * t.cd.toNat →
      exec .ret s = .next (s.trapCur cPROTECTION (BitVec.ofNat 64 (s.gridOf t).psize - 8 * t.cd) 0)) ∧
    (t.cd ≠ 0 → 8 * t.cd.toNat ≤ (s.gridOf t).psize → ∀ pa : Nat, s.stackReady t (BitVec.ofNat 64 (s.gridOf t).psize - 8 * t.cd) .r pa →
      let ra : Word := BitVec.ofNat 64 (ofBytes (s.homeBytes pa 8))
      canonical ra = true → ra.toNat % 4 = 0 →
      ∃ (s1 : State) (t1 : Thread), t.observed t1 ∧ s.sameElsewhere s1 ∧ s1.th? s.cur = some t1 ∧
        exec .ret s = .next (s1.setTh s.cur (({ t1 with next := some ra } : Thread).produce (some 1) .cd (t1.cd - 1)))) ∧
    (t.cd ≠ 0 → 8 * t.cd.toNat ≤ (s.gridOf t).psize → ∀ (x : Loaded) (s1 : State) (t1 : Thread),
      loadSpace .priv (BitVec.ofNat 64 (s.gridOf t).psize - 8 * t.cd) 8 8 {} (s.agentOf t) s = .ok (x, s1) →
      s1.th? s1.cur = some t1 → s1.cur = t1.key →
      let ra : Word := BitVec.ofNat 64 (ofBytes x.bytes)
      (canonical ra = false → exec .ret s = .next (s.trapCur cPROTECTION ra 0)) ∧
      (canonical ra = true → ra.toNat % 4 ≠ 0 → exec .ret s = .next (s.trapCur cALIGN ra 0)) ∧
      (canonical ra = true → ra.toNat % 4 = 0 →
        exec .ret s = .next (s1.setTh s1.cur
          (({ t1 with obs := max t1.obs x.stamp, mark := max t1.mark x.seq, next := some ra } : Thread).produce (some 1) .cd (t1.cd - 1))))))

/-- R268, R317: RFT resumes at trappc, and RFT.skip after the trapping chain, which the C bits at trappc end, or after the packet where the trap was raised by
its fetch; trapcause is cleared. With trapcause 0 both raise ILLEGAL. Where the trap was raised by the fetch of an RFT.skip, RFT issues that word again, with the
trap registers that it found. How a trap raised by a fetch is told apart follows notes/assumptions/9.md. -/
def Obligations.ReturnFromTrap : Prop :=
  ∀ (s : State) (t : Thread) (i : Instr), (i = .rft ∨ i = .rftSkip) → Issues i s t →
    (t.trapcause = 0 → exec i s = .next (s.trapCur cILLEGAL 0 0)) ∧
    (t.trapcause ≠ 0 → i = .rft → t.skip = none →
      exec i s = .next (s.setTh s.cur { t.produce (some 1) .trapcause 0 with next := some t.trappc })) ∧
    (t.trapcause ≠ 0 → i = .rft → ∀ k : SkipFetch, t.skip = some k →
      exec i s = .next (s.setTh s.cur
        { ({ t with trapaddr := k.addr, trapinfo := k.info, skip := none } : Thread).produce (some 1) .trapcause k.cause with next := some k.pc })) ∧
    (t.trapcause ≠ 0 → i = .rftSkip → fetchTrap t = true →
      exec i s = .next (s.setTh s.cur { t.produce (some 1) .trapcause 0 with next := some (packetStart t.trappc + 12), skip := none })) ∧
    (t.trapcause ≠ 0 → i = .rftSkip → fetchTrap t = false → ∀ (packet : List Code) (s1 : State),
      (s.codedPacket t t.trappc packet ∧ s1 = s ∨ fetchPacket t.trappc s = .ok (packet, s1)) → s1.th? s1.cur = some t →
        exec i s = .next (s1.setTh s1.cur { t.produce (some 1) .trapcause 0 with
          next := some (t.trappc + 4 * BitVec.ofNat 64 (takeChain (packet.drop (t.trappc.toNat % 12 / 4))).length), skip := none }))

/-- R270, R271: LOOP sets its counter, seen by every later slot, and its record, and goes on with the body; a count of 0 clears the record and goes on after
the body. A body whose last word does not carry B raises ILLEGAL. R237, R266: EXIT ends the running thread: it is in the state no more, its registers
and their check bits with it, and no watch of it stands at any home. -/
def Obligations.LoopAndExitEffect : Prop :=
  (∀ (s : State) (t : Thread) (k : BitVec 2) (n : Spec) (len : BitVec 12) (w : Code) (s1 : State),
    let start : Word := packetStart t.pc
    let last : Word := start + 12 * len.setWidth 64 + 8
    Issues (.loop k n len) s t → (s.coded t last w ∧ s1 = s ∨ access 3 [] (fun g => fetchWord g last) s = .ok (w, s1)) → s1.th? s1.cur = some t →
    s1.reads t n = true →
    (w.getLsbD 30 = false → exec (.loop k n len) s = .next (s.trapCur cILLEGAL 0 0)) ∧
    (w.getLsbD 30 = true → t.value n = 0 →
      exec (.loop k n len) s = .next (s1.setTh s1.cur
        { t.produce (some 1) (.lc k.toNat) 0 with next := some (start + 12 * (len.setWidth 64 + 1)), loops := vset t.loops k.toNat {} })) ∧
    (w.getLsbD 30 = true → t.value n ≠ 0 →
      exec (.loop k n len) s = .next (s1.setTh s1.cur
        { t.produce (some 1) (.lc k.toNat) (t.value n) with
          next := some (start + 12), loops := vset t.loops k.toNat { start := start + 12, last := last, order := newestLoop t + 1 } }))) ∧
  (∀ (s : State) (t : Thread), Issues .exit s t → risesFrom 0 s.threads = true →
    ∃ s' : State, exec .exit s = .next s' ∧ s'.th? s.cur = none ∧
      ∀ p ∈ s'.dies, ∀ w ∈ p.2.watches, w.remote = true ∨ w.th ≠ s.cur)

/-- R94: LDLIT reads eight code bytes at its packet's address plus four times its offset, and puts their halfwords in the slot with the first in the most
significant place, at distance 4. -/
def Obligations.LiteralLoadOrder : Prop :=
  ∀ (s s1 : State) (t : Thread) (d : Spec) (off : BitVec 18) (bs : List (BitVec 8)),
    Issues (.ldlit d off) s t →
    (s.literalReady t (packetStart t.pc + off.signExtend 64 * 4) bs ∧ s1 = s ∨
      fetchBytes (packetStart t.pc + off.signExtend 64 * 4) 8 s = .ok (bs, s1)) → bs.length = 8 →
    s1.th? s1.cur = some t → s1.reaches t d 1 = true →
    ∃ v : Word, (∀ k < 4, v.extractLsb' (48 - 16 * k) 16 = bs.getD (2 * k + 1) 0 ++ bs.getD (2 * k) 0) ∧
      exec (.ldlit d off) s = .next (s1.setTh s1.cur (t.wrote (some 4) d [v]))

/-! ### Group masks -/

/-- R37, R243, R273: with no waiter in the group and no collective open, the mask forms change their mask and nothing else, and their issuer goes on seeing the
mask as it was until its boundary (notes/assumptions/20.md); MGET records the mask as its thread sees it. R273 to R275: WAITM with its bit clear raises COLLECTIVE, code 4. Else it
clears the bit and waits; the last one out of mk and m0 sets mk to mj and goes on. -/
def Obligations.MaskAndWaitmEffect : Prop :=
  (∀ (s : State) (t : Thread) (k j : BitVec 4) (d a : Spec),
    let g := s.group t.groupKey
    let bit : Word := 1 <<< (t.tid % 64)
    let seen (n : Nat) : Word := t.seesMask n (g.mask n)
    let wrote (n : Nat) (v : Word) : State := (s.setTh s.cur (t.keptMask n (g.mask n))).setGroup t.groupKey { g with m := vset g.m n v }
    t.tid < 1024 → (∀ n < 12, s.maskWaiters t.groupKey n = []) → g.opens = [] → g.held = [] → s.soleWriter t →
    (Issues (.join k) s t → exec (.join k) s = .next (wrote k.toNat (g.mask k.toNat ||| bit))) ∧
    (Issues (.leave k) s t → exec (.leave k) s = .next (wrote k.toNat (g.mask k.toNat &&& ~~~bit))) ∧
    (Issues (.mset a k) s t → s.reads t a = true → exec (.mset a k) s = .next (wrote k.toNat (t.value a))) ∧
    (Issues (.msave k j) s t → exec (.msave k j) s = .next (wrote j.toNat (seen k.toNat))) ∧
    (Issues (.mrst k) s t → exec (.mrst k) s = .next (wrote k.toNat (seen 0))) ∧
    (Issues (.mget d k) s t → s.reaches t d 1 = true → exec (.mget d k) s = .next (s.setTh s.cur (t.wrote none d [seen k.toNat])))) ∧
  (∀ (s : State) (t : Thread) (k j : BitVec 4),
    let g := s.group t.groupKey
    let bit : Word := 1 <<< (t.tid % 64)
    let m := vset g.m k.toNat (g.mask k.toNat &&& ~~~bit)
    let seen : Word := t.seesMask k.toNat (g.mask k.toNat)
    LaneThread s t → t.status = .ready → (∀ n < 12, s.maskWaiters t.groupKey n = []) → g.opens = [] → g.held = [] → s.soleWriter t →
    Issues (.waitm k j) s t →
    (seen &&& bit = 0 → exec (.waitm k j) s = .next (s.trapCur cCOLLECTIVE 0 4)) ∧
    (seen &&& bit ≠ 0 → vget m k.toNat &&& vget m 0 ≠ 0 →
      exec (.waitm k j) s =
        .next ((s.freshen.setTh s.cur (({ t with waits := t.waits ++ [.mask k.toNat j.toNat s.fresh] } : Thread).keptMask k.toNat (g.mask k.toNat))).setGroup
          t.groupKey { g with m := m })) ∧
    (seen &&& bit ≠ 0 → vget m k.toNat &&& vget m 0 = 0 →
      exec (.waitm k j) s =
        .next ((s.freshen.setTh s.cur { t with views := AMap.del t.views k.toNat }).setGroup t.groupKey
          { g with m := vset m k.toNat (vget m j.toNat) })))

/-! ### Collectives -/

/-- R118: a thread that arrives at a collective, with other participants still to come, opens it over mk as it sees it (R37, R243), leaves the place of its
results in its run, as many as the lowest participant's class takes where the result is a VF value, and waits; its bit clear raises COLLECTIVE, code 1, and another
open collective that it takes part in, code 2. A thread whose chain had parked at its collective, complete by now, takes the outcome (R31). R118 to R121, R157: a
collective whose only participant arrives completes at once: the thread has its result as a long one, with its flags, unless an enabled one traps. The last of
several participants completes it for all of them: where none traps, each has its result and flags in its place and waits no more, and nothing else changes.
Several open collectives of one group and the places of a VF result follow notes/assumptions/13.md; the mask as its thread sees it, notes/assumptions/20.md. -/
def Obligations.CollectiveArrivalEffect : Prop :=
  (∀ (s : State) (t : Thread) (i : Instr) (k : Nat) (x : Arrival),
    let g := s.group t.groupKey
    let bit : Word := 1 <<< (t.tid % 64)
    let mk := t.seesMask k (g.mask k)
    let d := collDest i
    let low := ((List.range 64).find? fun v => (mk &&& g.mask 0).getLsbD v).getD (t.tid % 64)
    let n := if collectiveVf i then slotsOf (Prc.wc ((s.th? (thKey t.grid t.team (64 * t.grp + low))).getD t).prc) else 1
    let t1 := (t.reserved d n).produce none .place 0
    let y : Arrival := { x with lane := t.tid % 64, slot := t.slot, prc := t.prc, tgt := (if d.toNat < 16 then t.targets d n else []) }
    arrivalOf t i = some (k, x) → Issues i s t → collectiveReads s t i = true → LaneThread s t → t.collDone = none →
    (mk &&& bit = 0 → exec i s = .next (s.trapCur cCOLLECTIVE 0 1)) ∧
    (mk &&& bit ≠ 0 → (∃ c ∈ g.opens, c.mask &&& g.mask 0 &&& bit ≠ 0 ∧ (i.ctorIdx ≠ c.instr.ctorIdx ∨ c.pc ≠ t.pc ∨ c.idx ≠ s.word ∨ c.k ≠ k)) →
      exec i s = .next (s.trapCur cCOLLECTIVE 0 2)) ∧
    (mk &&& bit ≠ 0 → g.opens = [] → mk &&& g.mask 0 &&& ~~~bit ≠ 0 →
      exec i s = .next
        ((s.setTh s.cur { t1 with waits := t.waits ++ [.collective] }).setGroup t.groupKey
          { g with opens := [⟨i, t.pc, s.word, mk, k, [y]⟩] }))) ∧
  (∀ (s : State) (t : Thread) (i : Instr) (k : Nat) (x : Arrival) (r : CollDone),
    arrivalOf t i = some (k, x) → Issues i s t → collectiveReads s t i = true → t.collDone = some r →
    (∀ cause info, r.trap = some (cause, info) → exec i s = .next (s.trapCur cause 0 info)) ∧
    (r.trap = none → s.reaches t (collDest i) r.vals.length = true →
      exec i s = .next (s.setTh s.cur
        (if r.flags = 0 then t.wrote none (collDest i) r.vals else (t.wrote none (collDest i) r.vals).produce none .sticky r.flags)))) ∧
  (∀ (s : State) (t : Thread) (i : Instr) (k : Nat) (x : Arrival) (c : Collective),
    let gk := t.groupKey
    let g := s.group gk
    let bit : Word := 1 <<< (t.tid % 64)
    let d := (collDest i).toNat
    let low := ((List.range 64).find? fun v => (t.seesMask k (g.mask k) &&& g.mask 0).getLsbD v).getD (t.tid % 64)
    let n := if collectiveVf i then slotsOf (Prc.wc ((s.th? (thKey t.grid t.team (64 * t.grp + low))).getD t).prc) else 1
    let t1 : Thread := { (t.reserved (collDest i) n).produce none .place 0 with waits := t.waits ++ [.collective] }
    let y : Arrival := { x with lane := t.tid % 64, slot := t.slot, prc := t.prc, tgt := (if d < 16 then t.targets (collDest i) n else []) }
    let xs := insertArrival y c.arrived
    -- a participant's thread, as the arrival leaves it
    let part (z : Arrival) : Option Thread := (s.setTh s.cur t1).th? (thKey t.grid t.team (64 * t.grp + z.lane))
    arrivalOf t i = some (k, x) → Issues i s t → collectiveReads s t i = true → LaneThread s t → t.collDone = none →
    g.opens = [c] → c.instr = i → c.pc = t.pc → c.idx = s.word → c.k = k → g.held = [] → (∀ n < 12, s.maskWaiters gk n = []) →
    t.seesMask k (g.mask k) &&& bit ≠ 0 → (c.mask &&& g.mask 0).getLsbD (t.tid % 64) = true →
    (c.arrived.map (·.lane)).Pairwise (· < ·) → (∀ z ∈ c.arrived, z.lane < 64 ∧ z.lane ≠ t.tid % 64) →
    (∀ v < 64, (c.mask &&& g.mask 0).getLsbD v = true → v = t.tid % 64 ∨ ∃ z ∈ c.arrived, z.lane = v) →
    (∀ z ∈ xs, trapCause z.prc (collResult i xs z).flags = none ∧
      ∃ u, part z = some u ∧ u.status ≠ .parked .collective ∧ (16 ≤ d → d - 16 + (collResult i xs z).vals.length ≤ (s.gridOf u).len u.tid)) →
    ∃ threads : AMap Thread, exec i s = .next ({ s with threads := threads }.setGroup gk { g with opens := [] }) ∧
      (∀ z ∈ xs, ∀ u, part z = some u →
        let r := collResult i xs z
        -- the places that its push took, made as many as the result has slots
        let p := if d < 16 then u.dropCollective.fitPush z.tgt r.vals.length
          else (u.dropCollective, (List.range r.vals.length).map fun j => .named (d - 16 + j))
        AMap.get? threads (thKey t.grid t.team (64 * t.grp + z.lane)) =
          some (p.1.placeResults z.slot (p.2.zip r.vals ++ if r.flags = {} then [] else [(.sticky, BitVec.ofNat 64 r.flags.bits)]))) ∧
      ∀ j, (∀ z ∈ xs, j ≠ thKey t.grid t.team (64 * t.grp + z.lane)) → AMap.get? threads j = s.th? j) ∧
  (∀ (s : State) (t : Thread) (i : Instr) (k : Nat) (x : Arrival),
    let g := s.group t.groupKey
    let x' : Arrival := { x with lane := t.tid % 64, slot := t.slot, prc := t.prc,
                                 tgt := if (collDest i).toNat < 16 then
                                   t.targets (collDest i) (if collectiveVf i then slotsOf (Prc.wc t.prc) else 1) else [] }
    let r := collResult i [x'] x'
    arrivalOf t i = some (k, x) → Issues i s t → collectiveReads s t i = true → LaneThread s t → t.collDone = none →
    t.seesMask k (g.mask k) &&& g.mask 0 = 1 <<< (t.tid % 64) → g.opens = [] → g.held = [] → (∀ n < 12, s.maskWaiters t.groupKey n = []) →
    (∀ p ∈ t.run, p.tgt ≠ .place) → (∀ w ∈ t.waits, w ≠ .collective) → s.reaches t (collDest i) r.vals.length = true →
    trapCause t.prc r.flags = none →
    exec i s = .next ((s.setGroup t.groupKey g).setTh s.cur ((t.wrote none (collDest i) r.vals).flagged r.flags)))

/-- R119 to R121: what the participants of a completed collective receive, by lane: each moving form names its source lane and falls back to the reader's own
slot, the voting forms count and mark the lanes where the predicate holds, and an integer reduction over the fixed tree is the fold of the operation over the
participants. A floating reduction or scan is the value at the root of the fixed tree over the lanes that its reader takes, each neighbour pair combined at the
class and mode of the lowest participant, with the flags raised there; over no lane it is the identity. R157: CMMA is eight fused steps in ascending k from the
participant's own element, an absent lane's elements read as +0. A tree over one lane alone follows notes/assumptions/13.md. -/
def Obligations.CrossLaneResultByLane : Prop :=
  ∀ (xs : List Arrival) (x : Arrival) (d a b : Spec) (neg : Bool) (j k : BitVec 3) (op : BitVec 4),
    (xs.map (·.lane)).Pairwise (· < ·) → (∀ y ∈ xs, y.lane < 64) → x ∈ xs →
    (∀ y ∈ xs, y.lane = (x.b.headD 0).toNat → (collResult (.xpull d a b k) xs x).vals = [y.a.headD 0]) ∧
    ((∀ y ∈ xs, y.lane ≠ (x.b.headD 0).toNat) → (collResult (.xpull d a b k) xs x).vals = [x.a.headD 0]) ∧
    (∀ y ∈ xs, y.lane = x.lane ^^^ (segment x - 1) → (collResult (.xrev d a b k) xs x).vals = [y.a.headD 0]) ∧
    ((∀ y ∈ xs, y.lane ≠ x.lane ^^^ (segment x - 1)) → (collResult (.xrev d a b k) xs x).vals = [x.a.headD 0]) ∧
    (∃ y ∈ xs, y.lane / segment x = x.lane / segment x ∧ (∀ z ∈ xs, z.lane / segment x = x.lane / segment x → y.lane ≤ z.lane) ∧
      (collResult (.xsegb d a b k) xs x).vals = [y.a.headD 0]) ∧
    (∃ r < xs.length, ∃ q < xs.length, xs[r]? = some x ∧ (q : Int) = (r + (x.b.headD 0).toInt) % xs.length ∧
      (collResult (.xrank d a b k) xs x).vals = [(xs.getD q x).a.headD 0]) ∧
    (collResult (.xcount d neg j k) xs x).vals = [w64 ((xs.filter (·.pred)).length + 2 ^ 8 * xs.length)] ∧
    (∃ v : Word, (∀ n < 64, v.getLsbD n = xs.any fun y => y.pred && y.lane == n) ∧ (collResult (.xmask d neg j k) xs x).vals = [v]) ∧
    (∃ v : Word, (collResult (.xfirst d neg j k) xs x).vals = [v] ∧
      (v = 64 ∧ (∀ y ∈ xs, y.pred = false) ∨
        ∃ y ∈ xs, y.pred = true ∧ v.toNat = y.lane ∧ ∀ z ∈ xs, z.pred = true → y.lane ≤ z.lane)) ∧
    (∃ y ∈ xs, (∀ z ∈ xs, y.lane ≤ z.lane) ∧ (collResult (.gbcast d a k) xs x).vals = [y.a.headD 0]) ∧
    (op.toNat < 8 →
      (collResult (.gred d a op k) xs x).vals = [xs.foldl (fun v y => combineInt op.toNat v (y.a.headD 0)) (identityInt op.toNat)] ∧
      (collResult (.gscan d a op false k) xs x).vals =
        [(xs.filter fun y => decide (y.lane ≤ x.lane)).foldl (fun v y => combineInt op.toNat v (y.a.headD 0)) (identityInt op.toNat)] ∧
      (collResult (.gscan d a op true k) xs x).vals =
        [(xs.filter fun y => decide (y.lane < x.lane)).foldl (fun v y => combineInt op.toNat v (y.a.headD 0)) (identityInt op.toNat)]) ∧
    (∀ low ∈ xs, (∀ y ∈ xs, low.lane ≤ y.lane) →
      (8 ≤ op.toNat →
        ∀ p ∈ [(64, collResult (.gred d a op k) xs x), (x.lane + 1, collResult (.gscan d a op false k) xs x), (x.lane, collResult (.gscan d a op true k) xs x)],
          let taken := xs.filter fun y => decide (y.lane < p.1)
          (taken = [] → p.2.vals = vfToSlots (identityVf op.toNat (Prc.wc low.prc)) ∧ p.2.flags = {}) ∧
          (2 ≤ taken.length → ∀ (node : Nat → Nat → Option (Vf × Flags)) (root : Vf × Flags),
            (∀ y ∈ taken, node 0 y.lane = some (vfOfSlots y.a, {})) → (∀ v < 64, (∀ y ∈ taken, y.lane ≠ v) → node 0 v = none) →
            (∀ n v, node (n + 1) v =
              match node n (2 * v), node n (2 * v + 1) with
              | some l, some r => some (combineVf op.toNat low.prc l r)
              | some l, none => some l
              | none, r => r) →
            node 6 0 = some root → p.2.vals = vfToSlots root.1 ∧ p.2.flags = root.2)) ∧
      (∀ A B : Nat → Machine.Num,
        let c := Prc.wc low.prc
        let md := Rnd.ofPrc (Prc.rm low.prc)
        let z := Prc.ftz x.prc
        (∀ y ∈ xs, A y.lane = (vfOfSlots y.a).src z ∧ B y.lane = (vfOfSlots y.b).src z) →
        (∀ v, (∀ y ∈ xs, y.lane ≠ v) → A v = .zero false ∧ B v = .zero false) →
        (collResult (.cmma d a b k) xs x).vals = vfToSlots ((List.range 8).foldl (fun acc n =>
          (finishVf c md z (Prc.floor x.prc)
            (exactFma (decide (md = .rd)) (A (8 * (x.lane / 8) + n)) (B (8 * n + x.lane % 8)) (acc.src z) false)).val) (vfOfSlots x.c))))

/-! ### Loads and stores -/

/-- R44, R211, R214, R215, R327: LD and LDA. A non-canonical address in global space raises PROTECTION and a misaligned one ALIGN. Else, where the access
answers bytes, the destination takes their slots as a long result; LD in global space uses up PREF.home's hint; LDA then acquires at its scope. That the bytes
are read at issue follows notes/assumptions/3.md. -/
def Obligations.LoadDeliversBytes : Prop :=
  (∀ (s : State) (t : Thread) (d base : Spec) (space reuse : BitVec 2) (size : BitVec 3) (off : BitVec 5),
    let i := Instr.ld d base space size reuse off
    let a := offsetAddress (t.value base) off (accessBytes size)
    Issues i s t → s.reads t base = true →
    AddressTraps i s (space = 0) a (accessBytes size) 0 ∧
    (∀ (x : Loaded) (s1 : State) (t1 : Thread),
      loadNoted (Space.ofCode space) a size { alloc := reuse != 1 } (s.agentOf t) s = .ok (x, s1) → s1.th? s1.cur = some t1 →
      s1.reaches t1 d (loadedSlots size x.bytes).length = true →
      exec i s = .next (s1.setTh s1.cur
        (({ t1 with hint := if space = 0 then none else t1.hint } : Thread).wrote none d (loadedSlots size x.bytes))))) ∧
  (∀ (s : State) (t : Thread) (d base : Spec) (space reuse : BitVec 2) (size scope : BitVec 3) (peek : Bool),
    let i := Instr.lda d base space size reuse peek scope
    let a := t.value base
    Issues i s t → s.reads t base = true →
    AddressTraps i s (space = 0) a (accessBytes size) 0 ∧
    (∀ (x : Loaded) (s1 : State) (t1 : Thread),
      loadNoted (Space.ofCode space) a size { scope := scope.toNat, peek := peek, alloc := reuse != 1 } (s.agentOf t) s = .ok (x, s1) →
      s1.th? s1.cur = some t1 → s1.reaches t1 d (loadedSlots size x.bytes).length = true →
      exec i s = .next ((s1.setTh s1.cur
        (({ t1 with hint := if space = 0 then none else t1.hint } : Thread).wrote none d (loadedSlots size x.bytes))).acquire
          s1.cur scope.toNat x.stamp)))

/-- R44, R211, R214, R215: ST stores the bytes of its source at its address, or traps as R211 says with access code 1. STRL first releases at its scope. That
the bytes are taken at issue follows notes/assumptions/3.md. -/
def Obligations.StoreWritesBytes : Prop :=
  (∀ (s : State) (t : Thread) (src base : Spec) (space reuse : BitVec 2) (size : BitVec 3) (off : BitVec 5),
    let i := Instr.st src base space size reuse off
    let a := offsetAddress (t.value base) off (accessBytes size)
    Issues i s t → s.readsStored t src size = true → s.reads t base = true →
    AddressTraps i s (space = 0) a (accessBytes size) 1 ∧
    (∀ s1 : State, storeSpace (Space.ofCode space) a (t.storedBytes src size) (accessBytes size) (s.agentOf t) s = .ok ((), s1) →
      exec i s = .next s1)) ∧
  (∀ (s s0 : State) (t t0 : Thread) (src base : Spec) (space reuse : BitVec 2) (size scope : BitVec 3),
    let i := Instr.strl src base space size reuse scope
    let a := t.value base
    Issues i s t → s.readsStored t src size = true → s.reads t base = true →
    (s.releasesNow t scope.toNat ∧ s0 = s ∨ release scope.toNat s = .ok ((), s0)) → s0.th? s0.cur = some t0 →
    AddressTraps i s (space = 0) a (accessBytes size) 1 ∧
    (∀ s1 : State, storeSpace (Space.ofCode space) a (t.storedBytes src size) (accessBytes size) (s0.agentOf t0) s0 = .ok ((), s1) →
      exec i s = .next s1))

/-- R327 to R329: SAVEQ stores the sixteen queue slots, youngest first, at a 64-byte-aligned address; RSTQ loads them from one, for the boundary. Where the page is
buffered and both lines are plain at home on the own die, both complete. -/
def Obligations.QueueSaveAndRestore : Prop :=
  ∀ (s : State) (t : Thread) (a : Spec), s.reads t a = true →
    let queue := (List.range 16).flatMap fun j => toBytes 8 (t.value (BitVec.ofNat 6 j)).toNat
    (Issues (.saveq a) s t → (∀ j < 16, s.reads t (BitVec.ofNat 6 j) = true) →
      AddressTraps (.saveq a) s True (t.value a) 64 1 ∧
      (∀ s1 : State, storeSpace .glob (t.value a) queue 64 (s.agentOf t) s = .ok ((), s1) → exec (.saveq a) s = .next s1) ∧
      (∀ pa : Nat, s.spanReady t (t.value a) .w pa →
        ∃ (s' : State) (t' : Thread), exec (.saveq a) s = .next s' ∧ t.stored t' ∧ s'.th? s.cur = some t' ∧ s.sameElsewhere s' ∧
          ∀ j < 128, ((AMap.get? (s'.cluster (clusterKey t.die t.cluster)).buf ((pa + j) / 64)).bind fun x => AMap.get? x.bytes ((pa + j) % 64)) = queue[j]?)) ∧
    (Issues (.rstq a) s t →
      AddressTraps (.rstq a) s True (t.value a) 64 0 ∧
      (∀ (x : Loaded) (s1 : State) (t1 : Thread),
        loadSpace .glob (t.value a) 128 64 {} (s.agentOf t) s = .ok (x, s1) → s1.th? s1.cur = some t1 → s1.cur = t.key →
        ∃ v : Vector Word 16, (∀ j < 16, vget v j = BitVec.ofNat 64 (ofBytes ((x.bytes.drop (8 * j)).take 8))) ∧
          exec (.rstq a) s = .next (s1.setTh s1.cur { t1 with obs := max t1.obs x.stamp, mark := max t1.mark x.seq, rstq := some v })) ∧
      (∀ pa : Nat, s.spanReady t (t.value a) .r pa → ∃ (s1 : State) (t1 : Thread) (v : Vector Word 16),
        t.observed t1 ∧ s.sameElsewhere s1 ∧ s1.th? s.cur = some t1 ∧ (∀ j < 16, vget v j = BitVec.ofNat 64 (ofBytes (s.homeBytes (pa + 8 * j) 8))) ∧
          exec (.rstq a) s = .next (s1.setTh s.cur { t1 with rstq := some v })))

/-- R217: PREF and PREF.l1 never trap and never park, whatever the address, and change no thread and no byte of memory. R197, R198, R200, R221: with no
refused REDO, a release at up to CLU scope changes nothing; a wider one writes back what it covers, so that no covered line stays in the cluster buffer, and
goes on once its time has passed or parks until it. An acquire at up to CLU scope takes the cluster's marks; a wider one with a stamp that has passed bumps
the generation from MOD scope on, and with a later one holds the thread's next access back. That a prefetch changes no copy that a claim could see follows
notes/assumptions/10.md. -/
def Obligations.PrefetchAndFenceEffect : Prop :=
  (∀ (s : State) (t : Thread) (base : Spec) (space reuse : BitVec 2) (off : BitVec 5) (i : Instr),
    (i = .pref base space reuse off ∨ i = .prefL1 base space reuse off) → Issues i s t → s.reads t base = true →
    ∃ s' : State, exec i s = .next s' ∧ s'.left = s.left ∧ s'.threads = s.threads ∧ s'.mem = s.mem ∧ s'.l2 = s.l2 ∧ s'.clusters = s.clusters) ∧
  ((∀ (s : State) (t : Thread) (scope : BitVec 3), Issues (.fenceRel scope) s t → s.nothingRefused = true → s.released = false →
    (scope.toNat ≤ 3 → exec (.fenceRel scope) s = .next s) ∧
    (3 < scope.toNat →
      let s1 := s.releaseWrites s.cur
      (∀ t1, s1.th? s.cur = some t1 → max t1.hor t1.obs ≤ s1.now t1.die → exec (.fenceRel scope) s = .next s1) ∧
      (∀ t1, s1.th? s.cur = some t1 → s1.now t1.die < max t1.hor t1.obs →
        exec (.fenceRel scope) s = .next (s1.parkCur (.until (max t1.hor t1.obs)))) ∧
      (risesFrom 0 (s.cluster (clusterKey t.die t.cluster)).buf = true → ∀ (l : Nat) (x : DirtyLine),
        AMap.get? (s1.cluster (clusterKey t.die t.cluster)).buf l = some x → max t.mark t.own < x.seq))) ∧
  (∀ (s : State) (t : Thread) (scope : BitVec 3), Issues (.fenceAcq scope) s t →
    let c := s.cluster (clusterKey t.die t.cluster)
    (1 ≤ scope.toNat → scope.toNat ≤ 3 →
      exec (.fenceAcq scope) s = .next (s.setTh s.cur { t with mark := max t.mark c.issued, hor := max t.hor c.horizon })) ∧
    (scope.toNat = 4 → t.obs ≤ s.now t.die → exec (.fenceAcq scope) s = .next s) ∧
    (5 ≤ scope.toNat → t.obs ≤ s.now t.die → exec (.fenceAcq scope) s = .next (s.bumpGen t.die)) ∧
    (4 ≤ scope.toNat → s.now t.die < t.obs → t.acq = none →
      exec (.fenceAcq scope) s = .next (s.setTh s.cur { t with acq := some (t.obs, decide (5 ≤ scope.toNat)) }))) ∧
  (∀ (s s1 : State) (t t1 : Thread) (scope : BitVec 3), Issues (.fenceFull scope) s t →
    (s.releasesNow t scope.toNat ∧ s1 = s ∨ release scope.toNat s = .ok ((), s1)) → s1.th? s1.cur = some t1 → exec (.fenceFull scope) s = .next (s1.acquire s1.cur scope.toNat t1.obs)))

/-! ### Windows -/

/-- R168, R169, R176, R222 to R224: WMAP's causes in their order, and its window; what WUNMAP, WFLUSH, WDROP and WQUERY do with a mapped id, after the accesses to
its front bank that wait, and answer for one that is not. The code of a nonzero reserved bit and the cause of a base that is not canonical follow notes/assumptions/10.md. -/
def Obligations.WindowInstructionEffect : Prop :=
  (∀ (s : State) (t : Thread) (d a : Spec),
    let ds := t.values a 4
    let g := s.gridOf t
    let k := coreKey t.die t.core
    let w : Window := { d0 := ds.getD 0 0, d1 := ds.getD 1 0, d2 := ds.getD 2 0, asid := g.asid, root := g.root, super := g.super,
                        grid := t.grid, team := t.team }
    let bound := (s.core k).windows.any fun v => v.asid == w.asid && v.id == w.id
    Issues (.wmap d a) s t → s.readsAll t a 4 = true → s.reaches t d 1 = true →
    (badFields w (ds.getD 3 0) = true → exec (.wmap d a) s = .next (s.trapCur cDESC 0 1)) ∧
    (badFields w (ds.getD 3 0) = false → w.scratch = false → canonical w.gbase = false →
      exec (.wmap d a) s = .next (s.trapCur cPROTECTION w.gbase 0)) ∧
    (badFields w (ds.getD 3 0) = false → (w.scratch = false → canonical w.gbase = true) →
      (w.scratch = false → w.stride < w.span → exec (.wmap d a) s = .next (s.trapCur cDESC 0 2)) ∧
      ((w.scratch = false → w.span ≤ w.stride) →
        (stashBytes (s.core k).carve < w.stop → exec (.wmap d a) s = .next (s.trapCur cDESC 0 3)) ∧
        (w.stop ≤ stashBytes (s.core k).carve →
          (bound = true → exec (.wmap d a) s = .next (s.trapCur cDESC 0 5)) ∧
          (bound = false → (∀ v ∈ (s.core k).windows, v.persist = false) → (∃ v ∈ (s.core k).windows, w.clash v = true) →
            exec (.wmap d a) s = .next (s.trapCur cDESC 0 4)) ∧
          (bound = false → (∀ v ∈ (s.core k).windows, v.persist = false ∧ w.clash v = false) → 32 ≤ (s.core k).windows.length →
            exec (.wmap d a) s = .next (s.trapCur cDESC 0 6)) ∧
          (bound = false → (s.core k).windows.length < 32 → (∀ v ∈ (s.core k).windows, w.clash v = false) →
            exec (.wmap d a) s = .next ((enterWindow s t.die t.core w).setTh s.cur (t.wrote none d [w.query]))))))) ∧
  (∀ (s : State) (t : Thread) (d a : Spec) (i : Instr), i ∈ [.wunmap d a, .wflush d a, .wdrop d a, .wquery d a] →
    let k := coreKey t.die t.core
    let asid := (s.gridOf t).asid
    let id := (t.value a).toNat
    Issues i s t → s.reads t a = true → s.reaches t d 1 = true →
    (2 ^ 16 ≤ id → exec i s = .next (s.trapCur cDESC 0 0)) ∧
    (id < 2 ^ 16 → (∀ w ∈ (s.core k).windows, ¬(w.asid = asid ∧ w.id = id)) →
      exec i s = .next (s.setTh s.cur (t.wrote none d [BitVec.ofNat 64 (id * 2 ^ 48)]))) ∧
    (id < 2 ^ 16 → ∀ w : Window, ((s.core k).windows.find? fun w => w.asid == asid && w.id == id) = some w →
      (i = .wquery d a → exec i s = .next (s.setTh s.cur (t.wrote none d [w.query]))) ∧
      (i ≠ .wquery d a → ∀ o, s.windowOp k w = some o → exec i s = .next (s.parkCur (.conflict o))) ∧
      (i ≠ .wquery d a → s.windowOp k w = none → s.windowWaits k s.cur w.asid.toNat w.id = true →
        exec i s = .next (s.parkCur (.window w.asid.toNat w.id))) ∧
      (s.windowOp k w = none → s.windowWaits k s.cur w.asid.toNat w.id = false →
        (i = .wunmap d a → ∃ t1 : Thread,
          let r := s.unmapWindow t.die t.core w
          r.1.th? s.cur = some t1 ∧ (∀ v ∈ (r.1.core k).windows, ¬(v.asid = asid ∧ v.id = id)) ∧
          exec i s = .next (r.1.setTh s.cur (({ t1 with hor := max t1.hor r.2 } : Thread).wrote none d [BitVec.ofNat 64 (id * 2 ^ 48)]))) ∧
        (i = .wflush d a → ∃ t1 : Thread,
          let r := s.flushWindow t.die t.core w
          r.1.th? s.cur = some t1 ∧
          exec i s = .next (r.1.setTh s.cur (({ t1 with hor := max t1.hor r.2 } : Thread).wrote none d [w.query]))) ∧
        (i = .wdrop d a →
          let s1 := if w.scratch then s else (s.dropLines t.die t.core w).clearShadow k w
          exec i s = .next (s1.setTh s.cur (t.wrote none d [w.query]))))))

/-! ### Atomics and reductions -/

/-- R205, R211, R218: ATOM, ATOMW and ATOMC trap on a bad address with access code 2; else they return the old word, zero-extended, from one read-modify-write
at their scope's perform point, whose new value R218's table gives. -/
def Obligations.AtomicReturnsOldValue : Prop :=
  ∀ (s : State) (t : Thread) (d base b : Spec) (scope op : BitVec 3), ∀ p ∈ atomicForms d base b scope op,
    let a := t.value base
    let nv := if p.2.1 = 8 then t.value 0 else 0
    let w32 := decide (p.2.2 = 4)
    Issues p.1 s t → s.reads t base = true → s.reads t b = true → (p.2.1 = 8 → s.reads t 0 = true) →
    AddressTraps p.1 s True a p.2.2 2 ∧
    (∀ old : List (BitVec 8), old.length = p.2.2 → atomUpdate p.2.1 w32 (t.value b) nv old = atomicBytes p.2.1 p.2.2 (t.value b) nv old) ∧
    (canonical a = true → a.toNat % p.2.2 = 0 → ∀ (old : List (BitVec 8)) (s1 : State) (t1 : Thread),
      rmw (s.agentOf t) scope.toNat a p.2.2 (atomRequest p.2.1 w32 (t.value b) nv) (atomUpdate p.2.1 w32 (t.value b) nv) s = .ok (old, s1) →
      s1.th? s1.cur = some t1 → s1.reaches t1 d 1 = true →
      exec p.1 s = .next (s1.setTh s1.cur (t1.wrote none d [BitVec.ofNat 64 (ofBytes old)])))

/-- R137, R144, R219, R220: RED applies its operand at its element, or is reported and discarded on an ACC line. REDO applies in the order of its ordinals:
what the home answers (applied, held, refused or out of order) decides what becomes of it. Where the page is buffered and the line plain at home on the own die, RED
at DIE scope or wider replaces exactly its element, and a REDO whose ordinal is the next one exactly its element and its ordinal word. -/
def Obligations.ReductionEffect : Prop :=
  (∀ (s : State) (t : Thread) (a base : Spec) (scope op : BitVec 3) (w : Bool),
    let i := Instr.red a base scope op w
    let p := t.value base
    let n := if w then 4 else 8
    let req := redRequest op.toNat w default (t.value a)
    Issues i s t → redIsVf op.toNat = false → s.reads t base = true → s.reads t a = true →
    AddressTraps i s True p n 2 ∧
    (canonical p = true → p.toNat % n = 0 →
      (∀ (old : List (BitVec 8)) (s1 : State),
        rmw (s.agentOf t) scope.toNat p n req (fun e => some (reduceBytes op.toNat e default (t.value a)).1) s = .ok (old, s1) →
        exec i s = .next s1) ∧
      (∀ (l : Nat) (s1 : State),
        rmw (s.agentOf t) scope.toNat p n req (fun e => some (reduceBytes op.toNat e default (t.value a)).1) s = .error (.acc l, s1) →
        exec i s = .next (s1.report t.die t.grid t.team t.tid t.core cPROTECTION p 1 0)))) ∧
  (∀ (s s0 s1 : State) (t : Thread) (a base : Spec) (scope op : BitVec 3) (w : Bool) (h old : List (BitVec 8)),
    let p := t.value base
    let v := t.vfValue a
    let req := redRequest op.toNat w v 0
    Issues (.red a base scope op w) s t → redIsVf op.toNat = true → s.reads t base = true → s.readsVf t a = true →
    canonical p = true → p.toNat % 2 = 0 → rmw (s.agentOf t) scope.toNat p 2 req (fun _ => none) s = .ok (h, s0) →
    rmw (s.agentOf t) scope.toNat p (2 * headerClass (ofBytes h) + 4) req (fun e => some (reduceBytes op.toNat e v 0).1) s = .ok (old, s1) →
    exec (.red a base scope op w) s = .next s1) ∧
  (∀ (s s1 : State) (t : Thread) (a base b : Spec) (scope : BitVec 3) (pa : Nat) (pte : Word),
    let e := t.value base
    let g := s.agentOf t
    let s2 := s1.ownFirst g [(pa, 2)]
    let n := elementLen s2 pa
    let we := pa / 64 * 64 + (t.value b).toNat % 64
    let s3 := redoReady s2 pa we
    Issues (.redo a base b scope) s t → s.readsVf t a = true → s.reads t base = true → s.reads t b = true → s.reads t 0 = true →
    canonical e = true → e.toNat % 2 = 0 → (t.value b).toNat % 8 = 0 → e.toNat / 64 = (t.value b).toNat / 64 →
    translate g e .rw s = .ok ((pa, pte), s1) → s1.conflictOp g false e.toNat n true = none → s1.conflictOp g false (t.value b).toNat 8 true = none →
    (∃ d o, regionOf pa = .hbm d o) →
    (64 < pa % 64 + n ∨ (pa < we + 8 ∧ we < pa + n) → exec (.redo a base b scope) s = .next (s.trapCur cALIGN e 2)) ∧
    (pa % 64 + n ≤ 64 → ¬(pa < we + 8 ∧ we < pa + n) →
      let r := redoArrive s3 pa we ((t.value 0).toNat % 2 ^ 16) (t.vfValue a) g.th e
      let bad := (s3.badGranule? we 8).or (s3.badGranule? pa (elementLen s3 pa))
      s2.isAcc (pa / 64) = false →
      (∀ d q, bad = some (d, q) → exec (.redo a base b scope) s = .next ((s3.report t.die t.grid t.team t.tid t.core cASYNC e 11 0).lasting d q)) ∧
      (bad = none →
      (r.2 = .held → exec (.redo a base b scope) s = .next r.1) ∧
      (r.2 = .order → exec (.redo a base b scope) s = .next (r.1.report t.die t.grid t.team t.tid t.core cASYNC e 5 0)) ∧
      (∀ vis t1, r.2 = .applied vis → r.1.th? g.th = some t1 →
        exec (.redo a base b scope) s = .next (r.1.setTh g.th { t1 with hor := max t1.hor vis })) ∧
      (r.2 = .nack → exec (.redo a base b scope) s =
        .next (let h : Held := .redo pa we ((t.value 0).toNat % 2 ^ 16) (t.vfValue a) g.th e
               { r.1.freshen with nacked := AMap.put r.1.nacked r.1.fresh (r.1.tenths t.die, h) }))))) ∧
  (∀ (s : State) (t : Thread) (a base : Spec) (scope op : BitVec 3) (w : Bool) (pa : Nat),
    let p := t.value base
    let vf := op.toNat = 1 ∨ op.toNat = 2 ∨ op.toNat = 3
    let n := if vf then 2 * headerClass (ofBytes (s.homeBytes pa 2)) + 4 else if w then 4 else 8
    let new := reducedBytes op.toNat (s.homeBytes pa n) (t.vfValue a) (t.value a)
    Issues (.red a base scope op w) s t → 4 ≤ scope.toNat → s.reads t base = true → (if vf then s.readsVf t a = true else s.reads t a = true) →
    p.toNat % (if vf then 2 else n) = 0 → pa % 64 + n ≤ 64 → s.mapped t p .rw pa → s.coreQuiet t → s.homeQuiet t pa →
    ∃ (s' : State) (t' : Thread), exec (.red a base scope op w) s = .next s' ∧ t.stored t' ∧ s'.th? s.cur = some t' ∧
      (∀ u, u ≠ s.cur → s'.th? u = s.th? u) ∧
      ∀ x, s'.homeByte x = if pa ≤ x ∧ x < pa + n then new.getD (x - pa) 0 else s.homeByte x) ∧
  (∀ (s : State) (t : Thread) (a base b : Spec) (scope : BitVec 3) (pa : Nat),
    let e := t.value base
    let n := 2 * headerClass (ofBytes (s.homeBytes pa 2)) + 4
    let we := pa / 64 * 64 + (t.value b).toNat % 64
    let word := BitVec.ofNat 64 (ofBytes (s.homeBytes we 8))
    let old := vfOfBytes (s.homeBytes pa n)
    let o := finishVf old.cls .rne false 0 { exactAdd false (old.src false) ((t.vfValue a).src false) with addends := [] }
    let f : Flags := o.flags
    let flags : Word := BitVec.ofNat 64 (2 ^ 48 * (8 * f.inv.toNat + 4 * f.ovf.toNat + 2 * f.unf.toNat + f.inx.toNat))
    let new := vfToBytes o.val
    let word' := toBytes 8 ((word ||| flags) + 1).toNat
    Issues (.redo a base b scope) s t → s.readsVf t a = true → s.reads t base = true → s.reads t b = true → s.reads t 0 = true →
    e.toNat % 2 = 0 → (t.value b).toNat % 8 = 0 → e.toNat / 64 = (t.value b).toNat / 64 → pa % 64 + n ≤ 64 → ¬(pa < we + 8 ∧ we < pa + n) →
    s.mapped t e .rw pa → s.coreQuiet t → s.homeQuiet t pa → (s.die t.die).reorder = [] →
    (word.extractLsb' 0 16).toNat = (t.value 0).toNat % 2 ^ 16 → (t.value 0).toNat % 2 ^ 16 < (word.extractLsb' 16 16).toNat →
    ∃ (s' : State) (t' : Thread), exec (.redo a base b scope) s = .next s' ∧ t.stored t' ∧ s'.th? s.cur = some t' ∧
      (∀ u, u ≠ s.cur → s'.th? u = s.th? u) ∧
      ∀ x, s'.homeByte x = if pa ≤ x ∧ x < pa + n then new.getD (x - pa) 0 else if we ≤ x ∧ x < we + 8 then word'.getD (x - we) 0 else s.homeByte x)

/-! ### The copy unit and tickets -/

/-- R176, R208, R225, R226, R230, R231: CPYA, GATH, SCAT and its reduce forms check their descriptor, wait for a footprint entry, else post the operation: it
touches the windows of its stash footprints, the stash lines that it writes are absent, the thread's sequence rises, and its ticket is written as a long result. The order of the field checks and of the canonical
check follows notes/assumptions/10.md. -/
def Obligations.AsyncFormsPostOperation : Prop :=
  ∀ (s : State) (t : Thread) (a tk : Spec) (mode ss ds : BitVec 2) (i64 istash dstash : Bool) (op scope : BitVec 3),
    ∀ p ∈ asyncForms a tk mode ss ds i64 istash dstash op scope,
    let k := coreKey t.die t.core
    let o := t.posts s.fresh p.2.1 (t.values a p.2.2.1) p.2.2.2
    Issues p.1 s t → s.readsAll t a p.2.2.1 = true → s.reaches t tk 1 = true →
    (asyncBadFields o = true → exec p.1 s = .next (s.trapCur cDESC 0 0)) ∧
    (asyncBadFields o = false → (∀ f ∈ o.footprints, f.stash = true ∨ canonical (BitVec.ofNat 64 f.lo) = true) →
      (asyncBadRanges o.footprints = true → exec p.1 s = .next (s.trapCur cDESC 0 0)) ∧
      (asyncBadRanges o.footprints = false → (∀ f ∈ o.footprints, f.stash = true → asyncWindow s k (s.gridOf t).asid f = true) →
        (32 ≤ (s.core k).ops.length → exec p.1 s = .next (s.parkCur .footprint)) ∧
        ((s.core k).ops.length < 32 →
          let s0 := (o.footprints.filter (·.stash)).foldl (fun s f =>
            (s.windowAt k (s.gridOf t).asid f.lo (f.hi - f.lo) false).elim s fun w => s.touch k (s.agentOf t) w) s
          let s1 := s0.freshen.modCore k fun c => { c with ops := c.ops ++ [o] }
          let s2 := o.writtenLines.foldl (fun s l => s.setLine k l { s.stashLine k l with present := false, copying := some o.key }) s1
          exec p.1 s = .next (s2.setTh s.cur
            (({ t with aseq := t.aseq + 1 } : Thread).wrote none tk [BitVec.ofNat 64 (2 ^ 61 + t.tid * 2 ^ 32 + t.aseq.toNat)])))))

/-- R149, R226, R233: DRAIN writes the number of its tickets that are not done, and waits for those at its boundary; a word that is no ticket raises DESC. -/
def Obligations.DrainCountsOpenTickets : Prop :=
  (∀ (s : State) (t : Thread) (d a : Spec), Issues (.drain d a) s t → s.reads t a = true → ticketOf s t (t.value a) = none →
    exec (.drain d a) s = .next (s.trapCur cDESC 0 0)) ∧
  ∀ (s : State) (t : Thread) (d a : Spec) (i : Instr) (ts : List (Nat × Nat × Nat)),
    (i = .drain d a ∧ s.reads t a = true ∧ (∃ x, ticketOf s t (t.value a) = some x ∧ ts = [x]) ∨
      i = .drainAll d ∧ ts = (((s.core (coreKey t.die t.core)).ops.filter fun o => o.grid == t.grid && o.team == t.team && o.tid == t.tid).map
        fun o => (2, t.tid, o.seq.toNat)) ∨
      i = .drainPass d ∧ ts = (((s.cluster (clusterKey t.die t.cluster)).table.filter fun e => e.grid == t.grid && e.team == t.team).map
        fun e => (1, 1024, e.seq.toNat))) →
    Issues i s t → s.reaches t d 1 = true →
    let rest := ts.filter fun x => !s.ticketDone t.grid t.team x.1 x.2.1 x.2.2
    let t1 := t.wrote none d [BitVec.ofNat 64 rest.length]
    (rest = [] → exec i s = .next (s.setTh s.cur t1)) ∧
    (rest ≠ [] → exec i s = .next (s.setTh s.cur { t1 with
      waits := t.waits ++ [.drain rest ((t.targets d 1).headD .place) t.pc t.slot t.base t.loops] }))

/-- R276 to R278: WAITC checks its conditions, starts them in ascending order, reserves its destination's place, and carries its wait to its boundary. -/
def Obligations.WaitcStartsConditions : Prop :=
  ∀ (s : State) (t : Thread) (d a : Spec) (n : BitVec 2) (all tr : Bool),
    let k := n.toNat + 1
    let ds := t.values a (2 * k + 1)
    let hd := ds.getD 0 0
    let cs := (List.range k).map fun i => condOf (bits hd (8 * i) 8) (ds.getD (1 + 2 * i) 0) (ds.getD (2 + 2 * i) 0)
    let bad := ((List.range 4).drop k).any (fun i => bits hd (8 * i) 8 != 0) ||
      (List.range k).any (fun i => badCond s t (bits hd (8 * i) 8) (cs.getD i default))
    Issues (.waitc d a n all tr) s t → s.readsAll t a (2 * k + 1) = true →
    (t.isCond = true → (∃ c ∈ cs, c.kind = 5) → exec (.waitc d a n all tr) s = .next (s.trapCur cROLE 0 0)) ∧
    ((t.isCond = true → ∀ c ∈ cs, c.kind ≠ 5) →
      (bad = true → exec (.waitc d a n all tr) s = .next (s.trapCur cDESC 0 0)) ∧
      (bad = false → ∀ (cs' : List Cond) (s1 : State) (t1 : Thread),
        ((∀ c ∈ cs, s.startsPlainly t c) ∧ cs' = cs ∧ s1 = s ∨ startConds 0 cs s = .ok (cs', s1)) → s1.th? s1.cur = some t1 →
        s1.reaches t1 d 1 = true →
        let t2 := t1.reserved d 1
        let w : WaitC := { tgt := (t1.targets d 1).headD .place, slot := t1.slot, conds := cs', all := all, trap := tr,
                           deadline := if bits hd 32 32 = 2 ^ 32 - 1 then none else some (s1.now t1.die + bits hd 32 32),
                           pc := t1.pc + BitVec.ofNat 64 (4 * s1.word), idx := s1.word, chain := t1.pc, head := t1.base, loops := t1.loops }
        exec (.waitc d a n all tr) s = .next (s1.setTh s1.cur { t2 with waitc := some w })))

/-! ### Barriers and latches -/

/-- R280 to R282, R313: arrivals at team and cluster barriers. A count that differs from the phase's first raises COLLECTIVE, code 3; a cluster barrier that
the thread's cohort does not own raises PROTECTION; else the arrival counts, the last completes the phase (of a cluster barrier with the swap of its shutter
windows), and the phase of arrival is the result; sync and wait hold the thread until the phase is over. The trap info of a count that differs follows
notes/assumptions/9.md. -/
def Obligations.BarrierArrivalCounts : Prop :=
  (∀ (s : State) (t : Thread) (d : Spec) (num : BitVec 4) (count : BitVec 11),
    let b := s.teamBar t num.toNat
    let k := count.toNat
    s.reaches t d 1 = true →
    (Issues (.tbarWait d num) s t → exec (.tbarWait d num) s = .next (s.setTh s.cur
      (({ t with waits := t.waits ++ [.tbar num.toNat b.phase] } : Thread).wrote none d [BitVec.ofNat 64 b.phase.toNat]))) ∧
    (s.nothingRefused = true →
      (Issues (.tbarArrive d num count) s t →
        (¬b.agrees k → exec (.tbarArrive d num count) s = .next (s.trapCur cCOLLECTIVE 0 3)) ∧
        (b.agrees k → exec (.tbarArrive d num count) s =
          .next ((s.setTeamBar t num.toNat (b.counted k)).setTh s.cur (t.wrote none d [BitVec.ofNat 64 b.phase.toNat])))) ∧
      (Issues (.tbarSync d num count) s t →
        (¬b.agrees k → exec (.tbarSync d num count) s = .next (s.trapCur cCOLLECTIVE 0 3)) ∧
        (b.agrees k → exec (.tbarSync d num count) s =
          .next ((s.setTeamBar t num.toNat (b.counted k)).setTh s.cur
            (({ t with waits := t.waits ++ [.tbar num.toNat b.phase] } : Thread).wrote none d [BitVec.ofNat 64 b.phase.toNat])))))) ∧
  (∀ (s : State) (t : Thread) (d : Spec) (num : BitVec 3) (count : BitVec 12) (i : Instr),
    let b := s.clusterBar t num.toNat
    let k := count.toNat
    let ck := clusterKey t.die t.cluster
    let owns := (s.gridOf t).cbar = true ∧ (s.cluster ck).owner = some (t.grid, s.cohortOf t.grid t.team)
    let s1 := if b.count + 1 = k then s.swapCluster t.die t.cluster num.toNat else s
    let s2 := s1.modCluster ck fun c => { c with bars := listSet c.bars num.toNat (b.counted k) }
    i ∈ [.cbarArrive d num count, .cbarSync d num count, .cbarWait d num] → s.reaches t d 1 = true → Issues i s t →
    (¬owns → exec i s = .next (s.trapCur cPROTECTION 0 0)) ∧
    (owns → i = .cbarWait d num → exec i s = .next (s.setTh s.cur
      (({ t with waits := t.waits ++ [.cbar num.toNat b.phase] } : Thread).wrote none d [BitVec.ofNat 64 b.phase.toNat]))) ∧
    (owns → i ≠ .cbarWait d num → s.nothingRefused = true →
      (¬b.agrees k → exec i s = .next (s.trapCur cCOLLECTIVE 0 3)) ∧
      (b.agrees k → ∀ t1, s2.th? s.cur = some t1 → s2.reaches t1 d 1 = true →
        (i = .cbarArrive d num count → exec i s = .next (s2.setTh s.cur (t1.wrote none d [BitVec.ofNat 64 b.phase.toNat]))) ∧
        (i = .cbarSync d num count → exec i s = .next (s2.setTh s.cur
          (({ t1 with waits := t1.waits ++ [.cbar num.toNat b.phase] } : Thread).wrote none d [BitVec.ofNat 64 b.phase.toNat]))))))

/-- R283 to R285: LATCH forms. A number outside the grid's mask raises PROTECTION. An arrival counts towards the current phase and raises the input with the
last, or, with the input raised, is held towards the next phase; the phase that it counts for is the result. LATCH.x raises the input and leaves. The trap
info of a count that differs follows notes/assumptions/9.md. -/
def Obligations.LatchArrivalCounts : Prop :=
  ∀ (s : State) (t : Thread) (d : Spec) (num : BitVec 4) (count : BitVec 12) (i : Instr),
    i ∈ [.latchArrive d num count, .latchSync d num count, .latchWait d num, .latchX d num] → Issues i s t → s.reaches t d 1 = true →
    let n := num.toNat
    let k := count.toNat
    let ck := coreKey t.die t.core
    (bits ((s.gridOf t).slot 11) n 1 = 0 → exec i s = .next (s.trapCur cPROTECTION (BitVec.ofNat 64 n) 0)) ∧
    (bits ((s.gridOf t).slot 11) n 1 = 1 →
      (i = .latchWait d num → exec i s = .next (s.setTh s.cur
        (({ t with waits := t.waits ++ [.latch n (s.latchPhase t.die n)] } : Thread).wrote none d
          [BitVec.ofNat 64 (s.latchPhase t.die n).toNat]))) ∧
      (i = .latchX d num → exec i s = .next ((s.setLatch ck n { s.latchCore ck n with raised := true, leaving := true }).setTh s.cur
        (t.wrote none d [BitVec.ofNat 64 (s.latchPhase t.die n).toNat]))) ∧
      (i ∈ [.latchArrive d num count, .latchSync d num count] → ∀ (s1 : State) (t1 : Thread),
        (s.releasesNow t 5 ∧ s1 = s ∨ release 5 s = .ok ((), s1)) → s1.th? s1.cur = some t1 → t1.die = t.die → t1.core = t.core → s1.reaches t1 d 1 = true →
        let x := s1.latchCore ck n
        let phase := s1.latchPhase t.die n
        let due := (x.raised = false ∧ x.expect ≠ 0 ∧ x.expect ≠ k) ∨
          (x.raised = true ∧ ¬(x.nexpect ≠ 0 ∧ x.ncount = x.nexpect) ∧ x.nexpect ≠ 0 ∧ x.nexpect ≠ k)
        let full := x.raised = true ∧ x.nexpect ≠ 0 ∧ x.ncount = x.nexpect
        let y := if x.raised then { x with nexpect := k, ncount := x.ncount + 1 }
                 else { x with expect := k, count := x.count + 1, raised := decide (x.count + 1 = k) }
        let p := if x.raised then phase + 1 else phase
        (due → exec i s = .next (s.trapCur cCOLLECTIVE 0 3)) ∧
        (full → exec i s = .next (s1.parkCur (.latchHeld n))) ∧
        (¬due → ¬full →
          (i = .latchArrive d num count → exec i s =
            .next ((s1.setLatch ck n y).setTh s1.cur (t1.wrote none d [BitVec.ofNat 64 p.toNat]))) ∧
          (i = .latchSync d num count → exec i s =
            .next ((s1.setLatch ck n y).setTh s1.cur
              (({ t1 with waits := t1.waits ++ [.latch n p] } : Thread).wrote none d [BitVec.ofNat 64 p.toNat]))))))

/-! ### Matrix work -/

/-- R123, R128, R149, R151, R153 to R155: MPASS and ACCINIT check their descriptor (DESC with the slot at fault), wait for room in the table, begin their
release, and post an entry with the team's next sequence, whose ticket they write; ACCINIT makes no release. MQUERY and MCANCEL write the query word of a ticket or
tile, MCANCEL as it stands after the cancellation; another word raises DESC. That a pass makes its release as it is posted, and its entry carries that release's
time, follows notes/assumptions/10.md; the progress of a chain pass before its first block, notes/assumptions/21.md. -/
def Obligations.MatrixFormsPostEntry : Prop :=
  (∀ (s : State) (t : Thread) (d a : Spec) (keep : Bool) (kind : BitVec 2), ∀ p ∈ matrixForms d a keep kind,
    let desc : Desc := Vector.ofFn fun (i : Fin 6) => (t.values a 6).getD i.val 0
    let k := p.2.1
    let tile := p.2.2.1
    let wrong (j : Nat) : Bool := badSlot desc (if k = 15 then tile else k) (k == 15) j
    Issues p.1 s t → s.readsAll t a 6 = true → s.reaches t d 1 = true →
    (∀ j < 6, wrong j = true → (∀ m < j, wrong m = false) → exec p.1 s = .next (s.trapCur cDESC 0 (BitVec.ofNat 64 j))) ∧
    ((∀ j < 6, wrong j = false) →
      (s.tableRoom t = false → exec p.1 s = .next (s.parkCur .reservation)) ∧
      (s.tableRoom t = true →
        let s1 := if k = 15 then s else s.releaseWrites s.cur
        ∀ x : Team, s.team? (teamKey t.grid t.team) = some x → ∃ t1 : Thread, s1.th? s.cur = some t1 ∧
          let e : Entry := { key := s1.fresh, grid := t.grid, team := t.team, seq := x.seq, kind := k, tile := tile, keep := p.2.2.2, desc := desc,
                             rel := if k = 15 then 0 else max t1.hor t1.obs }
          let s2 := s1.freshen.modCluster (clusterKey t.die t.cluster) fun c => { c with table := c.table ++ [e] }
          exec p.1 s = .next ((s2.setTeam (teamKey t.grid t.team) { x with seq := x.seq + 1 }).setTh s.cur
            (t1.wrote none d [BitVec.ofNat 64 (2 ^ 60 + x.seq.toNat)]))))) ∧
  (∀ (s : State) (t : Thread) (d a : Spec), s.reads t a = true → s.reaches t d 1 = true →
    let x := t.value a
    let seq := x.toNat % 2 ^ 16
    (Issues (.mquery d a true) s t → exec (.mquery d a true) s = .next (s.setTh s.cur (t.wrote none d [tileQuery s t x]))) ∧
    (Issues (.mquery d a false) s t →
      (x.toNat / 2 ^ 16 ≠ 2 ^ 44 → exec (.mquery d a false) s = .next (s.trapCur cDESC 0 0)) ∧
      (x.toNat / 2 ^ 16 = 2 ^ 44 → exec (.mquery d a false) s = .next (s.setTh s.cur (t.wrote none d [ticketWord s t seq])))) ∧
    (Issues (.mcancel d a false) s t →
      (x.toNat / 2 ^ 16 ≠ 2 ^ 44 → exec (.mcancel d a false) s = .next (s.trapCur cDESC 0 0)) ∧
      (x.toNat / 2 ^ 16 = 2 ^ 44 → ∃ t1, (cancelTicket s t seq).th? s.cur = some t1 ∧
        exec (.mcancel d a false) s =
          .next ((cancelTicket s t seq).setTh s.cur (t1.wrote none d [ticketWord (cancelTicket s t seq) t seq])))) ∧
    (Issues (.mcancel d a true) s t →
      let s1 := match tileAt s t x with | some y => cancelTile s y | none => s
      ∃ t1, s1.th? s.cur = some t1 ∧ exec (.mcancel d a true) s = .next (s1.setTh s.cur (t1.wrote none d [tileQuery s1 t x]))))

/-! ### Maintenance forms of the supervisor -/

/-- R301 to R303: TLBI forms drop the entries that their operands name from every translation buffer, and their thread waits at its boundary for the granted
passes that use old translations; INVL empties the fetch buffers, WBL backs the lines of its range, WIPE zeroes them, both from one 64 KiB progress point to the
next; a range that is not whole lines raises ALIGN, one beyond 2^30 bytes DESC. When the buffers acknowledge, and which passes TLBI.page waits for, follow
notes/assumptions/9.md and notes/assumptions/10.md. -/
def Obligations.MaintenanceEffect : Prop :=
  (∀ (s : State) (t : Thread) (d a : Spec) (i : Instr), i ∈ [.tlbiPage d a, .tlbiAsid d a, .tlbiAll d a] → Issues i s t →
    s.reads t d = true → s.reads t a = true →
    (2 ^ 16 ≤ (t.value d).toNat → exec i s = .next (s.trapCur cDESC 0 0)) ∧
    ((t.value d).toNat < 2 ^ 16 → ∀ s1 : State, (s.releasesNow t 5 ∧ s1 = s ∨ release 5 s = .ok ((), s1)) →
      let asid : BitVec 16 := (t.value d).setWidth 16
      let v := (t.value a).toNat % 2 ^ 57
      let held (e : Tlb) : Bool := (i == .tlbiPage d a && e.serves asid v) || (i == .tlbiAsid d a && e.asid == asid) || i == .tlbiAll d a
      let idle := ∀ p ∈ s1.clusters, ∀ e ∈ p.2.table, e.lines = []
      let keys := s1.clusters.flatMap fun c => (c.2.table.filter fun e => !e.lines.isEmpty).map (·.key)
      (∃ s2 : State, exec i s = .next s2 ∧
        (∀ p ∈ s2.dies, ∀ e ∈ p.2.tlb, held e = false) ∧ (∀ p ∈ s2.cores, ∀ e ∈ p.2.tlb, held e = false)) ∧
      (idle → i = .tlbiPage d a → exec i s = .next (dropPageLines (s1.keepTlb fun e => !e.serves asid v) asid v)) ∧
      (idle → i = .tlbiAll d a → exec i s = .next (s1.keepTlb fun _ => false)) ∧
      (¬idle → i = .tlbiAll d a → ∀ t1, s1.th? s1.cur = some t1 →
        exec i s = .next ((s1.keepTlb fun _ => false).setTh s1.cur { t1 with waits := t1.waits ++ [.tlbi keys none] })))) ∧
  (∀ (s s1 : State) (t : Thread), Issues .invl s t → (s.releasesNow t 5 ∧ s1 = s ∨ release 5 s = .ok ((), s1)) →
    ∃ s2 : State, exec .invl s = .next s2 ∧ s2.cores.map (·.1) = s1.cores.map (·.1) ∧ (∀ p ∈ s2.cores, p.2.code = []) ∧
      s2.threads = s1.threads ∧ s2.mem = s1.mem ∧ s2.dies = s1.dies) ∧
  (∀ (s : State) (t : Thread) (d a : Spec) (i : Instr), i ∈ [.wbl d a, .wipe d a] → Issues i s t → s.reads t d = true → s.reads t a = true →
    let base := t.value a
    let len := (t.value d).toNat
    (base.toNat % 64 ≠ 0 ∨ len % 64 ≠ 0 → exec i s = .next (s.trapCur cALIGN base 0)) ∧
    (base.toNat % 64 = 0 → len % 64 = 0 →
      (2 ^ 30 < len → exec i s = .next (s.trapCur cDESC 0 0)) ∧
      (len ≤ 2 ^ 30 →
        let n := min 65536 (len - t.rangeDone)
        let more := t.rangeDone + 65536 < len
        (i = .wbl d a → ∀ (ls : List Piece) (s1 : State), (s.linesMapped t base t.rangeDone n .r ls ∧ s1 = s ∨
            rangeLines base t.rangeDone n .r (s.agentOf t) s = .ok (ls, s1)) →
          let s2 := (ls.filter fun p => p.module?.isNone).foldl (fun s p => backLine s p.pa) s1
          (¬more → exec i s = .next s2) ∧
          (more → ∀ t2, s2.th? s2.cur = some t2 →
            exec i s = .next ((s2.setTh s2.cur { t2 with rangeDone := t.rangeDone + n }).parkCur (.until (s2.now t.die))))) ∧
        (i = .wipe d a → ∀ ls : List Piece, s.linesMapped t base t.rangeDone n .w ls → (s.core (coreKey t.die t.core)).ops = [] →
          (∀ p ∈ ls, s.dirLine (p.pa / 64) = {} ∧ AMap.get? (s.cluster (clusterKey t.die t.cluster)).buf (p.pa / 64) = none) →
          ∃ s2 : State, exec i s = .next s2 ∧ (∀ p ∈ ls, ∀ j < 64, s2.homeByte (p.pa + j) = 0) ∧
            (∀ pa : Nat, (∀ p ∈ ls, pa < p.pa ∨ p.pa + 64 ≤ pa) → s2.homeByte pa = s.homeByte pa) ∧
            (more → ∃ t2 x, s2.th? s.cur = some t2 ∧ t2.rangeDone = t.rangeDone + n ∧ t2.status = .parked (.until x))))))

/-! ### Expression triples -/

/-- R49 to R51, R117: XPR runs its packet's tokens in order on a stack, each operator rounding once at prc.wc and prc.rm, and pushes the value left, with the
flags gathered; a malformed triple raises ILLEGAL. An input that no token pushes is not read. The flags of signalling inputs and what a lone pushed
input gives follow notes/assumptions/7.md, and the field kept of a triple at none of whose operators PX held notes/assumptions/20.md. -/
def Obligations.ExpressionTripleResult : Prop :=
  ∀ (s s1 : State) (t : Thread) (a b c e : Spec) (packet : List Code),
    let i := Instr.xpr a b c e
    let toks := tokensOf (packet.getD 1 0) (packet.getD 2 0)
    let specs := [a, b, c, e]
    let ins := (List.range 4).map fun j => if toks.contains (j + 1) then t.vfValue (specs.getD j 0) else default
    let r := toks.foldl (tripleToken t.prc ins) {}
    let v := r.stack.headD default
    let wc := Prc.wc t.prc
    let z := Prc.ftz t.prc
    let o := finishVf wc (Rnd.ofPrc (Prc.rm t.prc)) z 0 { x := v.src z, flags := { inv := (v.src z).isSnan } }
    let out := if v.cls = wc then (v, r.flags) else (o.val, r.flags.or o.flags)
    Issues i s t → (s.codedPacket t t.pc packet ∧ s1 = s ∨ fetchPacket t.pc s = .ok (packet, s1)) → s1.th? s1.cur = some t →
    (tripleOk packet = false ∨ tokensOk 0 0 toks = false → exec i s = .next (s.trapCur cILLEGAL 0 0)) ∧
    (tripleOk packet = true → tokensOk 0 0 toks = true → (∀ j < 4, toks.contains (j + 1) = true → s1.readsVf t (specs.getD j 0) = true) →
      (trapCause t.prc out.2 = none → exec i s = .next (s1.setTh s1.cur ((t.flagged out.2).wrote none 0 (vfToSlots out.1)))) ∧
      (∀ cause, trapCause t.prc out.2 = some cause → exec i s = .next (s.trapCur cause 0 (arithInfo out.2 out.1.cls (r.kept.getD 0)))))

/-! ### Events of threads, caches and latches -/

/-- R11, R32, R34, R240, R278, R319: what happens to a thread between its slots: long results return, a run is ended by force, a park ends with its condition,
a WAITC is evaluated or runs out of time, the record of a system cause is posted, and the picker forms a gang of the oldest ready thread, of equal ages that of
the lowest team slot and number. F at a TIMEOUT follows notes/assumptions/9.md. -/
def Obligations.ThreadEventEffect : Prop :=
  (∀ (s : State) (u : Nat) (t : Thread), s.th? u = some t →
    (t.status = .longs → (∀ w ∈ t.waits, w.isLong = false) →
      exec (.longResultReturn u) s = .next (s.setTh u (if t.waitc.isSome then { t with status := .waitc } else t.land.settle s.time))) ∧
    (t.status = .ready → 24 ≤ t.runCount → (s.core (coreKey t.die t.core)).gangs = [] →
      exec (.runForcedEnd u) s = .next (s.setTh u (t.endRun s.time))) ∧
    (t.runCount = 0 → exec (.runForcedEnd u) s = .next s) ∧
    (∀ why : Park, t.status = .parked why → (∀ l, why ≠ .stashLine l) →
      exec (.parkResume u) s =
        .next (if s.parkOver t why then s.setTh u { t with status := .ready, age := max s.time t.yielded, yielded := 0 } else s)) ∧
    (t.status = .awaiting none → t.waits = [] →
      let g := s.gridOf t
      let tag := (s.die t.die).freeTag
      let s1 := s.modDie t.die fun x => { x with nextTag := (tag + 1) % 2 ^ 32, faults := AMap.put x.faults tag u }
      exec (.threadFaultRecord u) s = .next ((s1.setTh u { t with status := .awaiting (some tag) }).postContext t.die g.cring
        (State.recordSlots 2 t.trapcause.toNat g.asid tag t.trapaddr t.trapinfo t.trappc
          ((if t.upgraded then 4 else 0) + (if t.nested then 2 else 0)) t.tid t.core t.die (BitVec.ofNat 64 t.team) g.cword (s.now t.die)))) ∧
    (∀ w : WaitC, t.status = .waitc → t.waitc = some w → w.conds.length ≤ 4 → (∀ c ∈ w.conds, c.kind ≠ 1 ∧ c.news = []) →
      let holds := w.conds.map (condHolds s t)
      let met := if w.all then holds.all (·) else holds.any (·)
      let late := ∃ x, w.deadline = some x ∧ x ≤ s.now t.die
      (met = false → ¬late → exec (.waitcTimeout u) s = .next (s.setTh u t)) ∧
      ((met = true ∨ late ∧ w.trap = false) → ∃ v : Word, (∀ j < 64, v.getLsbD j = (holds.getD j false || (j == 4 && !met))) ∧
        exec (.waitcTimeout u) s = .next ((s.dropWatches u).setTh u (t.waitcDone w v s.time))) ∧
      (met = false → late → w.trap = true →
        let t1 := t.takeTrap (s.gridOf t) s.time cTIMEOUT w.pc 0 (BitVec.ofNat 64 (w.idx * 2 ^ 24))
        exec (.waitcTimeout u) s = .next ((s.dropWatches u).setTh u (match w.tgt with | .ring r => t1.unpush r | _ => t1)))) ∧
    (∀ (c pa : Nat) (w : WaitC) (x : Cond) (v : Loaded) (s1 : State) (t1 : Thread), t.waitc = some w → w.conds[c]? = some x → x.kind = 1 →
      x.watched = false → (∀ p ∈ s.pending, ¬(p.2.th = u ∧ p.2.op = none ∧ p.2.reply = none)) →
      readCond x (s.agentOf t) s = .ok ((pa, v), s1) → s1.th? u = some t1 →
      let y : Cond := { x with pa := pa, seen := BitVec.ofNat 64 (ofBytes v.bytes), stamp := v.stamp, seq := v.seq }
      exec (.waitcPoll u c) s =
        .next (checkWaitc ((s1.dropReplies u).setTh u { t1 with waitc := t1.waitc.map fun w => { w with conds := listSet w.conds c y } }) u))) ∧
  (∀ (s : State) (die : DieId) (core : CoreId),
    let k := coreKey die.toNat core.toNat
    let ready := s.gatherable die.toNat core.toNat
    (ready = [] → exec (.formGang die core) s = .next s) ∧
    (ready ≠ [] → ∀ i < 16, (∀ j < i, (AMap.get? (s.core k).gangs j).isSome) → AMap.get? (s.core k).gangs i = none →
      ∃ g : List Nat, exec (.formGang die core) s = .next (s.modCore k fun c => { c with gangs := AMap.put c.gangs i { members := g } }) ∧
        1 ≤ g.length ∧ g.length ≤ 32 ∧
        ∃ p ∈ ready, g.head? = some p.1 ∧
          (∀ q ∈ ready, p.2.age < q.2.age ∨ (p.2.age = q.2.age ∧
            (s.teamSlot p.2 < s.teamSlot q.2 ∨ (s.teamSlot p.2 = s.teamSlot q.2 ∧ p.2.tid ≤ q.2.tid)))) ∧
          ∀ u ∈ g, ∃ q ∈ ready, q.1 = u ∧ q.2.grid = p.2.grid ∧ q.2.team = p.2.team ∧ q.2.pc = p.2.pc ∧ q.2.runCount = p.2.runCount))

/-- R171, R179, R191, R283, R285, R325, R341, R342: a latch whose segment is formed and raised releases its phase on every die of it; expired leases and
copies go; a buffered line is written back; a fill ends; held reports are offered again; a storage error marks its granule, so that the next read finds it. -/
def Obligations.CacheAndLatchEventEffect : Prop :=
  (∀ (s : State) (num : BitVec 4) (die : DieId),
    let n := num.toNat
    let ds := s.segDies die.toNat n
    let due := s.segFormed die.toNat n && s.latchReady ds n
    (due = false → exec (.latchRelease num die) s = .next s) ∧
    (due = true → ∃ s' : State, exec (.latchRelease num die) s = .next s' ∧
      (∀ d ∈ ds, s'.latchPhase d n = s.latchPhase d n + 1 ∧
        ∀ c < 128, ∀ x, AMap.get? (s.core (coreKey d c)).latch n = some x → s'.latchCore (coreKey d c) n = x.released) ∧
      (∀ d, d ∉ ds → s'.latchPhase d n = s.latchPhase d n) ∧ s'.threads = s.threads)) ∧
  (∀ (s : State) (die : DieId), risesFrom 0 s.dir = true →
    ∃ s' : State, exec (.leaseExpiry die) s = .next s' ∧ s'.threads = s.threads ∧ s'.mem = s.mem ∧ s'.l2 = s.l2 ∧
      (∀ l, homeDie (64 * l) = die.toNat → ∀ r ∈ (s'.dirLine l).leases, s.now die.toNat < r.expiry) ∧
      (∀ l, homeDie (64 * l) ≠ die.toNat → s'.dirLine l = s.dirLine l) ∧
      (∀ p ∈ s'.cores, p.1 / 128 = die.toNat → ∀ c ∈ p.2.l1, ∀ e, c.2.expiry = some e → s.now die.toNat < e)) ∧
  (∀ (s : State) (die : DieId) (cl : ClusterId) (line : Nat),
    exec (.clusterBufferWriteback die cl line) s = .next (s.flushLine (clusterKey die.toNat cl.toNat) line).1) ∧
  (∀ (s : State) (die : DieId) (core : CoreId) (line : Nat),
    let k := coreKey die.toNat core.toNat
    ((s.stashLine k line).filling = none → exec (.stashFillComplete die core line) s = .next s) ∧
    (∀ (w : Window) (s' : State), (s.stashLine k line).filling.isSome = true → (s.stashLine k line).pas ≠ [] → s.lineWindow k line = some w →
      s.completeFill die.toNat core.toNat line w.ro = some s' →
      (∀ p ∈ s'.threads, p.2.status ≠ .parked (.stashLine line)) → exec (.stashFillComplete die core line) s = .next s')) ∧
  (∀ (s : State) (die : DieId),
    let d := die.toNat
    let s0 := s.modDie d fun x => { x with heldReports := [] }
    ((∀ r ∈ (s.die d).heldReports, s.ringRoom r.1 = false) → exec (.faultReportReoffer die) s = .next (s.setDie d (s.die d))) ∧
    (∀ r, (s.die d).heldReports = [r] → s.ringRoom r.1 = true →
      exec (.faultReportReoffer die) s = .next (s0.postAt d r.1 (fun i => r.1 + 64 + 64 * i) r.2.toList))) ∧
  (∀ (s : State) (g th : Nat) (die : DieId) (core : CoreId),
    let k := coreKey die.toNat core.toNat
    (g ∉ s.bad → exec (.storageError (.mem g) false) s = .next { s with bad := s.bad ++ [g] }) ∧
    (g ∉ s.soft → exec (.storageError (.mem g) true) s = .next { s with soft := s.soft ++ [g] }) ∧
    (g ∉ (s.core k).bad → exec (.storageError (.stash die core g) false) s = .next (s.modCore k fun c => { c with bad := c.bad ++ [g] })) ∧
    (g ∉ (s.core k).soft → exec (.storageError (.stash die core g) true) s = .next (s.modCore k fun c => { c with soft := c.soft ++ [g] })) ∧
    (∃ s' : State, exec (.storageError (.line g) false) s = .next s' ∧ s'.threads = s.threads ∧ s'.mem = s.mem ∧
      ∀ x, x ∈ s'.bad ↔ x ∈ s.bad ∨ 8 * g ≤ x ∧ x < 8 * g + 8) ∧
    (∀ t, s.th? th = some t →
      exec (.storageError (.slot th g) false) s = .next (s.setTh th { t with badN := t.badN ||| (1#48 <<< g) }) ∧
      exec (.storageError (.slot th g) true) s = .next (s.setTh th { t with softN := t.softN ||| (1#48 <<< g) }) ∧
      exec (.storageError (.ring th g) false) s = .next (s.setTh th { t with badQ := t.badQ ||| (1#16 <<< g) }) ∧
      exec (.storageError (.ring th g) true) s = .next (s.setTh th { t with softQ := t.softQ ||| (1#16 <<< g) })))

/-! ### Events of the engines -/

/-- R123, R124, R132, R135, R136, R144, R147, R148, R227: the matrix engine enters a tile, or reports BUSY or DATALOSS; it grants the ready pass of the highest
effective priority (the oldest of equals), ages waiting passes, applies steps, stops a pass that holds up a pre-emption, and sends a refused contribution or
request again after 64 cycles; the copy unit goes on with an operation whose footprint no earlier one of its address space covers. An operation that nothing
stops is applied whole (notes/assumptions/10.md); a lease granted before an ACCINIT holds its tile (notes/assumptions/21.md). -/
def Obligations.EngineEventEffect : Prop :=
  (∀ (s : State) (die : DieId) (cl : ClusterId) (key : Nat) (e : Entry),
    let d := die.toNat
    let c := cl.toNat
    let ck := clusterKey d c
    let g := engineAgent s d c e
    let run (i : Instr) (s' : State) : Prop := exec i s = .next s'
    s.entry? ck key = some e →
    (e.kind = 15 → ∀ x, e.doneAt = some x → run (.accinitApply die cl key) (if x ≤ s.now d then s.freeEntry ck key else s)) ∧
    (e.kind = 15 → e.doneAt = none → e.status = .wait → stopsEntry s e = false → ∀ m s1, mapTile e.desc e.tile g s = .ok (m, s1) →
      ((∃ p ∈ m, s1.isAcc p.2 = true) → run (.accinitApply die cl key) (passError s1 d c e 8 cASYNC 0)) ∧
      ((∀ p ∈ m, s1.isAcc p.2 = false) →
        (∀ h < 64, let n := (m.filter fun p => homeDie (64 * p.2) == h).length
          n = 0 ∨ 128 * (accHomed s1 h + n) ≤ s1.accBytes h) →
        (tileSick s1 e m = none → run (.accinitApply die cl key) (enterTile s1 d c e g m)) ∧
        (∀ p b, tileSick s1 e m = some (p, b) → run (.accinitApply die cl key) (passLoss s1 d c e (w64 (64 * p.1)) (some b))))) ∧
    (e.kind ≠ 15 → e.status = .run → e.sent = false → releasedAt s d e = true →
      let t := Desc.tile e.desc g.asid e.kind
      let acc (l : Nat) := (s.dirLine l).acc.map (·.tile)
      (e.step % 32 = 0 → e.stop = true → run (.kStep die cl key) (stopPass s d c e)) ∧
      (e.step % 32 ≠ 0 ∨ e.stop = false →
        (e.kind ≠ 1 → (∃ p ∈ e.lines, acc p.2 ≠ none ∧ acc p.2 ≠ some t) → run (.kStep die cl key) (passError s d c e 7 cASYNC 0)) ∧
        (e.kind ≠ 1 → (∀ p ∈ e.lines, acc p.2 = none ∨ acc p.2 = some t) → (∃ p ∈ e.lines, acc p.2 = none) →
          run (.kStep die cl key) (passError s d c e 6 cASYNC 0)) ∧
        (e.kind = 1 ∨ (∀ p ∈ e.lines, acc p.2 = some t) →
          (e.step % 32 ≠ 0 → run (.kStep die cl key) (finishStep s d c e)) ∧
          (e.step % 32 = 0 → ∀ p, (e.lines.find? fun p => s.anyBad (64 * p.2) 64) = some p →
            run (.kStep die cl key) (passLoss s d c e (w64 (64 * p.1)) (s.badGranule? (64 * p.2) 64))) ∧
          (e.step % 32 = 0 → (∀ p ∈ e.lines, s.anyBad (64 * p.2) 64 = false) → (e.kind ≠ 1 → badHeaders s e = false) →
            ∀ fs s1, fetchBlock e.desc e.kind (e.step / 32) e.fetched g s = .ok (fs, s1) →
              run (.kStep die cl key) (finishStep s1 d c { e with fetched := fs }))))) ∧
    (∀ x since, s.cohort? (cohortKey e.grid (s.cohortOf e.grid e.team)) = some x → x.status = .stopping since → e.status = .run → e.kind ≠ 15 →
      e.sent = false →
      run (.passPreemptStop die cl key) (if since + 8000 ≤ s.time then s.modEntry ck key (fun y => { y with stop := true }) else s))) ∧
  (∀ (s : State) (die : DieId) (cl : ClusterId),
    let d := die.toNat
    let s1 := noteReady s d cl.toNat
    let table := (s1.cluster (clusterKey d cl.toNat)).table
    let running := (table.filter fun e => e.status == .run && e.kind != 15).length
    let waiting := table.filter (·.since.isSome)
    (4 ≤ running ∨ waiting = [] → exec (.matrixGrant die cl) s = .next s1) ∧
    (running < 4 → ∀ pre e post, waiting = pre ++ e :: post → (∀ x ∈ pre, effPrio s1 d x < effPrio s1 d e) →
      (∀ x ∈ post, effPrio s1 d x ≤ effPrio s1 d e) → exec (.matrixGrant die cl) s = .next (grantEntry s1 d cl.toNat e)) ∧
    (∀ key e since, s1.entry? (clusterKey d cl.toNat) key = some e → e.since = some since →
      exec (.passPriorityAging die cl key) s = .next
        (if since + 655360 ≤ s1.tenths d then s1.modEntry (clusterKey d cl.toNat) key (fun x => { x with aged := true }) else s1))) ∧
  (∀ (s : State) (key since e w ord th : Nat) (v : Vf) (va : Word) (t : Thread),
    AMap.get? s.nacked key = some (since, .redo e w ord v th va) → s.th? th = some t →
    let s0 : State := { s with nacked := AMap.del s.nacked key }
    let s1 := redoReady s0 e w
    let bad := (s1.badGranule? w 8).or (s1.badGranule? e (elementLen s1 e))
    let r := redoArrive s1 e w ord v th va
    let fin (s : State) (cause info : Nat) : State := s.report t.die t.grid t.team t.tid t.core cause va (w64 info) 0
    (s.tenths t.die < since + 640 → exec (.partialResend key) s = .next s) ∧
    (since + 640 ≤ s.tenths t.die →
      (s0.isAcc (e / 64) = true → exec (.partialResend key) s = .next (fin s0 cPROTECTION 1)) ∧
      (s0.isAcc (e / 64) = false → ∀ h n, bad = some (h, n) → exec (.partialResend key) s = .next ((fin s1 cASYNC 11).lasting h n)) ∧
      (s0.isAcc (e / 64) = false → bad = none →
        (r.2 = .held → exec (.partialResend key) s = .next r.1) ∧
        (r.2 = .order → exec (.partialResend key) s = .next (fin r.1 cASYNC 5)) ∧
        (r.2 = .nack → exec (.partialResend key) s =
          .next { r.1 with nacked := AMap.put r.1.nacked key (r.1.tenths t.die, .redo e w ord v th va) }) ∧
        (∀ vis, r.2 = .applied vis → exec (.partialResend key) s = .next (r.1.raiseHor t.die th vis))))) ∧
  (∀ (s : State) (key since txn : Nat) (p : Pending), AMap.get? s.nacked key = some (since, .request txn) → AMap.get? s.pending txn = some p →
    let d := p.packet.msg.src.toNat
    let s0 : State := { s with nacked := AMap.del s.nacked key }
    (s.tenths d < since + 640 → exec (.partialResend key) s = .next s) ∧
    (since + 640 ≤ s.tenths d →
      exec (.partialResend key) s = .next { s0.toSite p.site p.packet with pending := AMap.put s0.pending txn { p with since := s.now d } })) ∧
  (∀ (s : State) (die : DieId) (core : CoreId) (key : Nat) (o : AsyncOp) (pre post : List AsyncOp),
    let d := die.toNat
    let k := coreKey d core.toNat
    (s.core k).ops = pre ++ o :: post → o.key = key → (∀ p ∈ pre, p.key ≠ key) →
    (o.tag.isSome = true ∨ redoAhead s o = true → exec (.asyncOpComplete die core key) s = .next s) ∧
    (o.tag = none → redoAhead s o = false →
      (∀ p ∈ pre, (s.grid? p.grid).map (·.asid) = (s.grid? o.grid).map (·.asid) → ∀ f ∈ p.footprints, ∀ h ∈ o.footprints,
        ¬(f.stash = h.stash ∧ f.lo < h.hi ∧ h.lo < f.hi ∧ (f.write = true ∨ h.write = true))) →
      (∀ status rep, o.done = some (status, rep) →
        exec (.asyncOpComplete die core key) s = .next (finishAsync s d core.toNat o ⟨o.progress, o.oor, o.flags, o.vis⟩ status rep)) ∧
      (o.done = none → stopsOp s o = false → ∀ s1 x, runAsync o (asyncAgent s d core.toNat o) o.total s = (s1, x, none) → o.total ≤ x.pos →
        exec (.asyncOpComplete die core key) s = .next (finishAsync s1 d core.toNat o x 3 none))))

/-! ### Events of the dispatcher -/

/-- R293 to R296, R288, R294, R366: a queue slot maps, refuses, unmaps and falls free; a knocker's packets are taken in order, or too many stop the queue with
a record, once the acquire that reads the knocker has waited; LAUNCH releases, loads its packet, and submits it under the limits of its grid, or parks while
sixteen wait. What follows from a read of a queue that fails is the model's choice (notes/assumptions/20.md). -/
def Obligations.QueueAndLaunchEffect : Prop :=
  (∀ (s : State) (die : DieId) (q : BitVec 6) (desc : Word),
    let d := die.toNat
    let x := s.qslot d q.toNat
    let pa := bits desc 6 46 * 64
    let ws := State.wordsOf (s.homeRead d pa 64).1 8
    (x.state = .mapped ∨ x.state = .unmapping → exec (.qslotMap die q desc) s = .next s) ∧
    (x.state = .free ∨ x.state = .refused →
      (s.populated pa 64 = false ∨ s.anyBad pa 64 = true ∨ s.refusesMap ws = true →
        exec (.qslotMap die q desc) s = .next (s.setQslot d q.toNat { state := .refused, reg := pa, desc := pa })) ∧
      (s.populated pa 64 = true → s.anyBad pa 64 = false → s.refusesMap ws = false →
        exec (.qslotMap die q desc) s = .next (((s.setQslot d q.toNat
          { state := .mapped, reg := pa, desc := pa, slots := Vector.ofFn fun (i : Fin 8) => ws.getD i.val 0 }).watchKnocker d q.toNat).readKnocker d q.toNat))) ∧
    (exec (.qslotUnmap die q) s = .next (if x.state = .mapped then s.setQslot d q.toNat { x with state := .unmapping } else s)) ∧
    (x.state = .unmapping → (∀ p ∈ s.grids, p.2.queue = some (d, q.toNat) → p.2.dispatched = true) →
      exec (.qslotUnmapComplete die q) s = .next ((s.dropKnocker d q.toNat).setQslot d q.toNat { reg := x.reg })) ∧
    (x.state ≠ .unmapping ∨ (∃ p ∈ s.grids, p.2.queue = some (d, q.toNat) ∧ p.2.dispatched = false) →
      exec (.qslotUnmapComplete die q) s = .next s)) ∧
  (∀ (s : State) (die : DieId) (q : BitVec 6),
    let d := die.toNat
    let n := q.toNat
    let x := s.qslot d n
    -- what the dispatcher does with a value of the knocker whose time has come
    let acts (s1 : State) (k : Word) : Prop :=
      let y := s1.qslot d n
      let s2 := s1.bumpGen d
      ((k - y.rdidx).toNat ≤ 2 ^ y.lsize →
        exec (.knockerWrite die q) s = .next (State.takePackets d n (k - y.rdidx).toNat s2).startGrids) ∧
      (2 ^ y.lsize < (k - y.rdidx).toNat →
        exec (.knockerWrite die q) s = .next ((s2.setQslot d n { y with stopped := true }).postContext d (y.slot 6).toNat
          (State.recordSlots 4 0 (State.queueAgent d n y).asid 0 k y.rdidx 0 0 0 0 d 0 (BitVec.ofNat 64 n) (s2.now d))))
    (x.state ≠ .mapped ∨ x.stopped = true → exec (.knockerWrite die q) s = .next s) ∧
    (x.state = .mapped → x.stopped = false →
      (∀ k t, x.due = some (k, t) →
        (s.now d < t → exec (.knockerWrite die q) s = .next s) ∧ (t ≤ s.now d → acts (s.setQslot d n { x with due := none }) k)) ∧
      (x.due = none →
        let r := (s.setQslot d n { x with knocked := false }).readQueue d n (x.slot 3) 8
        (r.2 = none → exec (.knockerWrite die q) s = .next r.1) ∧
        (∀ bs stamp, r.2 = some (bs, stamp) →
          (r.1.now d < stamp → exec (.knockerWrite die q) s =
            .next (r.1.setQslot d n { r.1.qslot d n with due := some (BitVec.ofNat 64 (ofBytes bs), stamp) })) ∧
          (stamp ≤ r.1.now d → acts r.1 (BitVec.ofNat 64 (ofBytes bs))))))) ∧
  (∀ (s s0 s1 : State) (t t0 t1 : Thread) (d a : Spec) (x : Loaded), Issues (.launch d a) s t → s.reads t a = true →
    (s0 = s ∧ s.releasesNow t 5 ∨ release 5 s = .ok ((), s0)) → s0.th? s0.cur = some t0 → s0.cur = t0.key →
    loadSpace .glob (t.value a) 128 64 {} (s0.agentOf t0) s0 = .ok (x, s1) → s1.th? s1.cur = some t1 → s1.cur = t0.key →
    let t2 := { t1 with obs := max t1.obs x.stamp, mark := max t1.mark x.seq }
    let s2 := s1.setTh s1.cur t2
    let g := s2.gridOf t2
    let words := (List.range 16).map fun i => BitVec.ofNat 64 (ofBytes ((x.bytes.drop (8 * i)).take 8))
    let packet : Grid := { packet := State.limitPacket words g.dmask g.prio, asid := g.asid, root := g.root, super := g.super,
                           cring := g.cring, qring := g.qring, desc := g.desc, parent := some s2.cur }
    let s3 := (s2.submit t2.die packet).startGrids
    (s2.parkOver t2 .launchFull = false → exec (.launch d a) s = .next (s2.parkCur .launchFull)) ∧
    (s2.parkOver t2 .launchFull = true → ∀ t3, s3.th? s3.cur = some t3 → s3.reaches t3 d 1 = true →
      exec (.launch d a) s = .next (s3.setTh s3.cur (t3.wrote none d [0]))))

/-- R236, R237, R249 to R256, R321: the cohort served first is placed on its cores with every thread at the grid's entry, args in n0; a wait displaces as many
cohorts as it needs; an idle die asks the richest die for cohorts, once until its answer; a grid whose work is done releases, then ends once its writes are visible. Which
cohort is served first and what makes room for it follow notes/assumptions/11.md; the form of the STEAL request, and that a die asks once until its answer,
notes/assumptions/16.md. -/
def Obligations.DispatcherEventEffect : Prop :=
  (∀ (s : State) (die : DieId) (w : State.Waiter) (g : Grid) (plan : List (Nat × Nat)) (area : Nat × Nat),
    let d := die.toNat
    s.boot = .running → s.chosen d = some w → w.saved = false → s.planWaiter d w = some (g, plan, area) → (plan.map (·.1)).Nodup →
    ∃ s' : State, exec (.cohortPlace die) s = .next s' ∧
      s'.cohort? (cohortKey w.grid w.cohort) = some { grid := w.grid, cohort := w.cohort, status := .resident, placed := s.time, owner := d,
                                                      area := some area, cores := plan } ∧
      (∀ p ∈ plan, ∀ tid ∈ State.tidsOf g, ∃ t, s'.th? (thKey w.grid p.1 tid) = some t ∧ t.pc = g.entry ∧ vget t.n 0 = g.args ∧ t.status = .ready ∧
        t.tid = tid ∧ t.die = p.2 / 128 ∧ t.core = p.2 % 128 ∧ t.preds = 1 ∧ t.prc = 0 ∧ t.cd = 0 ∧ t.savebase = BitVec.ofNat 64 area.1)) ∧
  (∀ (s : State) (die : DieId), s.boot ≠ .running ∨ s.chosen die.toNat = none → exec (.cohortPlace die) s = .next s) ∧
  (∀ (s : State) (die : DieId), s.chosen die.toNat = none → exec (.dispatcherPreempt die) s = .next s) ∧
  (∀ (s : State) (die : DieId) (w : State.Waiter) (ks : List Nat),
    let stopping := (s.cohorts.filter fun p => match p.2.status with | .stopping _ => true | _ => false).map (·.1)
    s.chosen die.toNat = some w → s.enough die.toNat w stopping ((s.displaceable die.toNat w).map (·.1)) = some ks →
    ∃ s' : State, exec (.dispatcherPreempt die) s = .next s' ∧ s'.threads = s.threads ∧
      ∀ k ∈ s.needed die.toNat w stopping ks, ∀ x, s.cohort? k = some x → x.status = .resident → s'.cohort? k = some { x with status := .stopping s.time }) ∧
  (∀ (s : State) (die : DieId) (gid v : Nat) (g : Grid), s.grid? gid = some g → g.started = true → g.aborted = false → s.victimOf g = some v →
    let d := die.toNat
    (v ≠ d → 2 ≤ rangeCount (g.left v) → s.idleFor d gid g v = true → gid ∉ (s.die d).asking →
      exec (.idleSteal die gid) s = .next
        ((s.modDie d fun x => { x with asking := x.asking ++ [gid] }).freshen.send [State.stealRequest d v gid (s.fresh % 65536)])) ∧
    (v = d ∨ rangeCount (g.left v) < 2 ∨ s.idleFor d gid g v = false ∨ gid ∈ (s.die d).asking → exec (.idleSteal die gid) s = .next s)) ∧
  (∀ (s : State) (gid : Nat) (g : Grid), s.grid? gid = some g → risesFrom 0 s.grids = true →
    (s.gridDone gid g = false → exec (.gridEnd gid) s = .next s) ∧
    (s.gridDone gid g = true →
      (g.release = none →
        exec (.gridEnd gid) s = .next ((s.gridRelease gid g).1.setGrid gid { g with release := some (s.gridRelease gid g).2 })) ∧
      (∀ x, g.release = some x → s.time < x → exec (.gridEnd gid) s = .next s) ∧
      (∀ x, g.release = some x → x ≤ s.time → ∃ s' : State, exec (.gridEnd gid) s = .next s' ∧ s'.grid? gid = none)))

/-! ### Pre-emption, save and restore -/

/-- R330, R331, R338, R367: a request for pre-emption while another is open is ignored and logged, one that names no cohort completes at once, and another
makes the cohorts it names stop. A cohort whose threads have stopped is saved: its image is written, word by word as the layout has it, its threads leave, and it
waits; a saved cohort that is served is placed and loaded. A request that names no cohort, and when a thread has stopped, follow notes/assumptions/11.md; what
the image does not hold, notes/assumptions/14.md. -/
def Obligations.PreemptionEffect : Prop :=
  (∀ (s : State) (die : DieId) (core : CoreId) (asid : BitVec 16),
    ∀ p ∈ [(Instr.preemptCore die core, s.cohortsOn fun _ k => k == coreKey die.toNat core.toNat),
           (.preemptDie die, s.cohortsOn fun _ k => k / 128 == die.toNat),
           (.preemptAsidDie die asid, s.cohortsOn fun x k => s.hasAsid x asid && k / 128 == die.toNat),
           (.preemptAsidModule die asid, s.cohortsOn fun x _ => s.hasAsid x asid)],
      let d := die.toNat
      ((s.die d).preemptBusy ≠ [] → exec p.1 s = .next (s.logged d .ignoredPreempt)) ∧
      ((s.die d).preemptBusy = [] → p.2 = [] → exec p.1 s = .next (s.modDie d fun x => { x with preemptDone := x.preemptDone + 1 })) ∧
      ((s.die d).preemptBusy = [] → p.2 ≠ [] → ∃ s' : State, exec p.1 s = .next s' ∧ (s'.die d).preemptBusy = p.2 ∧ s'.threads = s.threads ∧
        ∀ k ∈ p.2, ∀ x, s.cohort? k = some x → x.status = .resident → s'.cohort? k = some { x with status := .stopping s.time })) ∧
  (∀ (s : State) (gid c : Nat) (x : Cohort) (g : Grid), s.cohort? (cohortKey gid c) = some x → s.grid? gid = some g →
    ((∀ since, x.status ≠ .stopping since) → exec (.cohortSaved gid c) s = .next s) ∧
    (∀ since, x.status = .stopping since →
      let ts := s.liveTeams x
      let s1 := (s.cohortThreads gid ts).foldl (fun s p => checkWaits (checkLongs s p.1) p.1) s
      (s1.readyToSave gid g ts = false → exec (.cohortSaved gid c) s = .next s1) ∧
      (s1.readyToSave gid g ts = true →
        let s2 := (s1.cohortThreads gid ts).foldl (fun s p => s.releaseWrites p.1) s1
        let ths := s2.cohortThreads gid ts
        let base := s2.imageBase x ths (g.areaSize (g.teamsOf c).length)
        let y := s2.layout g x base
        ((∃ p ∈ ths, s2.now p.2.die < s2.releaseTime p.1) → exec (.cohortSaved gid c) s = .next s2) ∧
        ((∀ p ∈ ths, s2.releaseTime p.1 ≤ s2.now p.2.die) → (∀ p ∈ ths, p.2.status ≠ .awaiting none) →
          (∀ p ∈ ths, s2.th? p.1 = some p.2) → (∀ l, s2.liveLeases l = []) →
          ∃ s' : State, exec (.cohortSaved gid c) s = .next s' ∧
            (∀ p ∈ s'.threads, p.2.grid = gid → ∀ q ∈ ts, q.1 ≠ p.2.team) ∧
            ((∀ l, base / 64 ≤ l → l ≤ (base + 8 * y.words.length) / 64 → (s2.dirLine l).owners = []) →
              ∀ j < y.words.length, s'.homeBytes (base + 8 * j) 8 = toBytes 8 (y.words.getD j (0, false)).1.toNat) ∧
            (∃ z, s'.cohort? (cohortKey gid c) = some z ∧ z.status = .waiting ∧ z.image = base ∧ z.since = s.time ∧ z.recs = y.recs))))) ∧
  (∀ (s : State) (gid c : Nat) (x : Cohort) (w : State.Waiter), s.cohort? (cohortKey gid c) = some x →
    (x.status ≠ .waiting ∨ s.boot ≠ .running → exec (.cohortRestore gid c) s = .next s) ∧
    (x.status = .waiting → s.boot = .running → s.chosen x.owner = some w →
      (w.grid ≠ gid ∨ w.cohort ≠ c → exec (.cohortRestore gid c) s = .next s) ∧
      (w.grid = gid → w.cohort = c →
        (s.planRestore x w = none → exec (.cohortRestore gid c) s = .next s) ∧
        (∀ p, s.planRestore x w = some p →
          let s2 := s.restored x p
          let us := x.recs.map (·.1)
          let s3 : State := { s2 with dies := s2.dies.map fun d => (d.1, { d.2 with records := d.2.records.map fun r => (r.1, { r.2 with saved := r.2.saved.filter fun u => !us.contains u }) }) }
          s2.noClash p.2.1 = true ∧ (∀ ck ∈ keySet (p.2.1.map (·.2 / 4)), (s2.cluster ck).table.length ≤ 16) ∧
            ((∀ r ∈ x.recs, (BitVec.ofNat 64 (s2.homeNat (r.2 + 8) 8)).getLsbD 41 = false) →
              exec (.cohortRestore gid c) s = .next (s3.acquireAll gid (p.2.1.map (·.1))))))))

/-- R163, R320, R321, R339: RETRY of a replayable record makes every thread parked on it ready; FAIL traps them with TRANSLATION at the word whose access
faulted. A thread command with a record's tag acquires at SYS scope and resumes its thread at trappc, after the trapping chain or at its handler with F set,
or aborts its grid. A tag that names no record is logged and ignored. F after RETRY and SKIP follows notes/assumptions/9.md. -/
def Obligations.ReplayAndThreadCommandEffect : Prop :=
  (∀ (s : State) (die : DieId) (tag : BitVec 32),
    let d := die.toNat
    let n := tag.toNat
    (AMap.get? (s.die d).records n = none →
      exec (.replayRetry die tag) s = .next (s.logged d (.ignoredReplay n)) ∧ exec (.replayFail die tag) s = .next (s.logged d (.ignoredReplay n))) ∧
    ((AMap.get? (s.die d).records n).isSome = true → s.stoppedEntries d n = [] → s.stoppedOps d n = [] → risesFrom 0 s.threads = true →
      ((∀ c ∈ s.cores, ∀ f ∈ c.2.faults, f.bad = false) → ∃ s' : State, exec (.replayRetry die tag) s = .next s' ∧
        ∀ u t, s.th? u = some t → t.die = d → t.status = .parked (.replay n) → s'.th? u = some (t.wake s.time)) ∧
      (∃ s' : State, exec (.replayFail die tag) s = .next s' ∧
        ∀ u t f, s.th? u = some t → t.die = d → t.status = .parked (.replay n) →
          ((s.core (coreKey d t.core)).faults.find? fun f => f.th == u) = some f →
          t.skip = none → s'.th? u = some { t.takeTrap (s.gridOf t) s.time cTRANSLATION t.pc f.va (BitVec.ofNat 64 (f.access + f.word * 2 ^ 24)) with
            skip := none, captured := if f.data = [] then none else some (f.word, t.sources f.word) }))) ∧
  (∀ (s : State) (die : DieId) (tag : BitVec 32) (u : Nat) (t t1 : Thread),
    let d := die.toNat
    let n := tag.toNat
    let entry := (s.gridOf t).trapentry
    let s0 := s.closeFault d n
    -- the fence at SYS scope: the thread's next access is held back until what it has observed is visible, or the generation is bumped at once
    let s1 := s0.acquire u 6 t.obs
    let s2 := s1.freeFaults u
    let woken := t1.wake s.time
    (AMap.get? (s.die d).faults n = none → ∀ i ∈ [Instr.threadcmdRetry die tag, .threadcmdSkip die tag, .threadcmdUpcall die tag, .threadcmdAbort die tag],
      exec i s = .next (s.logged d (.ignoredCommand n))) ∧
    (AMap.get? (s.die d).faults n = some u → s.th? u = some t → s1.th? u = some t1 → State.gridOfKey u = t.grid →
      (t.obs ≤ s.now t.die → t1 = t ∧ s1 = s0.bumpGen t.die) ∧
      (s.now t.die < t.obs → ∃ x b, t.obs ≤ x ∧ t1 = { t with acq := some (x, b) } ∧ s1 = s0.setTh u t1) ∧
      (t1.skip = none → exec (.threadcmdRetry die tag) s = .next (s2.setTh u { woken with pc := t1.trappc })) ∧
      (∀ k, t1.skip = some k → exec (.threadcmdRetry die tag) s =
        .next (s2.setTh u { woken with pc := k.pc, trapcause := k.cause, trapaddr := k.addr, trapinfo := k.info, skip := none })) ∧
      exec (.threadcmdSkip die tag) s = .next (s2.setTh u { woken with pc := skipTo s0 u t1, skip := none, captured := none }) ∧
      (entry = 0 → exec (.threadcmdUpcall die tag) s = .next (s.logged d (.ignoredCommand n))) ∧
      (entry ≠ 0 → exec (.threadcmdUpcall die tag) s = .next (s2.setTh u { woken with pc := entry, first := true, captured := none })) ∧
      exec (.threadcmdAbort die tag) s = .next (s2.abortGrid t.grid)))

/-! ### Register writes and the mailbox -/

/-- R138, R181, R255, R283, R365, R368: what a write to each register of a die leaves; values out of range, and writes that come too late, are ignored. The
bits that MODID and SAVEPOOL keep follow notes/assumptions/11.md. -/
def Obligations.RegisterWriteEffect : Prop :=
  ∀ (s : State) (die : DieId) (v : Word) (l : BitVec 4) (high : Bool) (off : BitVec 16),
    let d := die.toNat
    let n := l.toNat
    (exec (.quantumWrite die v) s =
      .next (if 100000 ≤ v.toNat ∧ v.toNat < 2 ^ 32 then s.modDie d fun x => { x with quantum := v } else s)) ∧
    (exec (.rdcsizeWrite die v) s =
      .next (if v.toNat ≤ 8 ∧ (s.die d).gridStarted = false then s.modDie d fun x => { x with rdcsize := v } else s)) ∧
    (exec (.powercapWrite die v) s =
      .next (if 100 ≤ v.toNat ∧ v.toNat ≤ 330 then s.modDie d fun x => { x with powercap := v } else s)) ∧
    (exec (.accareaWrite die v) s =
      .next (if v.toNat ≤ 4096 ∧ (s.die d).gridStarted = false then s.modDie d fun x => { x with accarea := v } else s)) ∧
    (∃ s' : State, exec (.modidWrite die v) s = .next s' ∧ s'.threads = s.threads ∧
      ∀ e < 64, (s'.die e).modid = (v.extractLsb' 0 6).setWidth 64 ||| (v.extractLsb' 8 1).setWidth 64 <<< 8) ∧
    (s.numberOwned d n = true → exec (.lsegWrite die l v) s = .next s ∧ exec (.lexcWrite die l high v) s = .next s) ∧
    (s.numberOwned d n = false →
      exec (.lsegWrite die l v) s = .next (s.modDie d fun x =>
        { x with segs := AMap.put x.segs n { seg := v.extractLsb' 16 8, root := v.extractLsb' 8 6, member := v.getLsbD 0 } }) ∧
      ∃ s' : State, exec (.lexcWrite die l high v) s = .next s' ∧ s'.threads = s.threads ∧
        ∀ i < 64, s'.latchCore (coreKey d (i + if high then 64 else 0)) n =
          { s.latchCore (coreKey d (i + if high then 64 else 0)) n with excuse := v.getLsbD i }) ∧
    (off = 0x0038 → exec (.registerWrite die off v) s = .next (s.modDie d fun x => { x with topova := v })) ∧
    (off = 0x0060 → exec (.registerWrite die off v) s = .next (s.modDie d fun x => { x with savepool := (v >>> 6) <<< 6 })) ∧
    (off = 0x0068 → exec (.registerWrite die off v) s = .next (s.modDie d fun x => { x with savepoolsz := v })) ∧
    (off ∉ [0x0038, 0x0060, 0x0068] → exec (.registerWrite die off v) s = .next s)

/-- R306 to R311: the anchor's mailbox. Another die ignores a request; reserved bits of the register, and a request while another is being served, are logged; a
malformed block ends with result 3.
CHALLENGE and QUOTE need room for their output (result 4), QUOTE a state that has an identity (1), CERT a live die (5); a command must be well formed (3),
carry the open challenge and a valid signature (2), the right serials (5) and states that allow it (1); the new minimum is set, or the life cycle changes with
a restart. The constants of the signature scheme are those of notes/assumptions/15.md, random bytes are free values (notes/assumptions/4.md), and the result
of a wrong serial follows notes/assumptions/11.md; the messages that carry a signed command to a die, notes/assumptions/16.md. -/
def Obligations.MailboxRequestResult : Prop :=
  (∀ (s : State) (die : DieId) (b : Word), ∀ i ∈ [Instr.challenge die b, .quote die b, .cert die b, .command die b, .malformedRequest die b],
    s.anchor ≠ some die.toNat → exec i s = .next s) ∧
  (∀ (s : State) (die : DieId) (b : Word), s.anchor = some die.toNat →
    let log := s.logged die.toNat .ignoredMailbox
    let busy := s.cmdRun.isSome = true ∨ ∃ x, (s.die die.toNat).mgmtBusy = some x ∧ x ≠ b
    (bits b 52 12 ≠ 0 ∨ bits b 0 6 ≠ 0 ∨ busy → exec (.malformedRequest die b) s = .next log) ∧
    (bits b 52 12 = 0 → bits b 0 6 = 0 → busy → ∀ i ∈ [Instr.challenge die b, .quote die b, .cert die b, .command die b], exec i s = .next log)) ∧
  (∀ (s : State) (die : DieId) (b : Word),
    let d := die.toNat
    s.anchor = some d → bits b 52 12 = 0 → bits b 0 6 = 0 → s.cmdRun = none → (∀ x, (s.die d).mgmtBusy = some x → x = b) →
    (∀ cmd, s.requestAt d b (fun c => c == 0 || decide (4 < c)) = some (cmd, none) →
      exec (.malformedRequest die b) s = .next (s.finishRequest d ⟨b.toNat, 0, 0, 0, 0⟩ 3 [])) ∧
    (∀ p ∈ [(Instr.challenge die b, 1), (.quote die b, 2), (.cert die b, 3), (.command die b, 4)],
      s.requestAt d b (· == p.2) = some (p.2, none) → exec p.1 s = .next (s.finishRequest d ⟨b.toNat, 0, 0, 0, 0⟩ 3 [])) ∧
    (∀ (cmd : Nat) (r : Request),
      (s.requestAt d b (· == 1) = some (cmd, some r) →
        let out := (List.range 64).map fun j => Config.randomByte (s.freeCtr + j)
        (r.outcap < 64 → exec (.challenge die b) s = .next (s.finishRequest d r 4 [])) ∧
        (64 ≤ r.outcap → exec (.challenge die b) s =
          .next (({ s with freeCtr := s.freeCtr + 64, challenge := some out } : State).finishRequest d r 0 out))) ∧
      (s.requestAt d b (· == 2) = some (cmd, some r) →
        let q := quoteBytes s d (s.managerRead d r.input 64)
        let salt := (List.range 64).map fun j => Config.randomByte (s.freeCtr + j)
        let known := (s.die d).lcstate = 1 ∨ (s.die d).lcstate = 2
        (¬known → exec (.quote die b) s = .next (s.finishRequest d r 1 [])) ∧
        (known → r.outcap < 800 → exec (.quote die b) s = .next (s.finishRequest d r 4 [])) ∧
        (known → 800 ≤ r.outcap → exec (.quote die b) s = .next (({ s with freeCtr := s.freeCtr + 64 } : State).finishRequest d r 0
          (q ++ pssSign (s.die d).idMod (s.die d).idExp q salt)))) ∧
      (s.requestAt d b (· == 3) = some (cmd, some r) →
        let named := r.arg.toNat < 64 ∧ s.alive r.arg.toNat = true
        let out := (s.die r.arg.toNat).cert
        (¬named → exec (.cert die b) s = .next (s.finishRequest d r 5 [])) ∧
        (named → r.outcap < out.length → exec (.cert die b) s = .next (s.finishRequest d r 4 [])) ∧
        (named → out.length ≤ r.outcap → exec (.cert die b) s = .next (s.finishRequest d r 0 out))) ∧
      (s.requestAt d b (· == 4) = some (cmd, some r) →
        let bs := s.managerRead d r.input 1152
        let image := s.running.getD []
        let s0 := { s with challenge := none }
        (parseSigned bs = none → exec (.command die b) s = .next (s.finishRequest d r 3 [])) ∧
        (∀ c : Signed, parseSigned bs = some c →
          let valid := s.challenge = some c.challenge ∧
            pssVerify (beNat ((image.drop 64).take 512)) (ofBytes ((image.drop 576).take 4)) (bs.take 640) c.signature = true
          let right := ∀ e ∈ c.named, s.alive e = true ∧ (s.die e).serial.toNat = c.serials.getD e 0
          let may := ∀ e ∈ c.named, c.allowed s e = true
          let s1 := c.named.foldl (fun s e => s.modDie e c.apply) s0
          let left := c.named.filter (· ≠ d)
          let run : CmdRun := { request := (r.block, r.arg, r.input, r.output, r.outcap), bytes := bs, left := left, ok := true }
          (¬valid → exec (.command die b) s = .next (s0.finishRequest d r 2 [])) ∧
          (valid → ¬right → exec (.command die b) s = .next (s0.finishRequest d r 5 [])) ∧
          (valid → right → ¬may → exec (.command die b) s = .next (s0.finishRequest d r 1 [])) ∧
          (valid → right → may → left = [] →
            exec (.command die b) s = .next (if c.cmd = 1 then s1.finishRequest d r 0 [] else s1.restart)) ∧
          (valid → right → may → left ≠ [] → exec (.command die b) s = .next
            ((({ s0 with cmdRun := some run } : State).modDie d fun x => { x with mgmtBusy := some b }).send
              (left.flatMap fun e => commandChunks d e bs)))))))

/-! ### Hinge requests and answers -/

/-- R173, R181, R191, R193, R218 to R220, R278, R342, R352, R353: requests at their home. A wrong follow count drops and logs them, a repeated one is answered
again and not applied, one that its sender may not make is answered ERR, and one under a map that the home has left REMAP; else a plain line is read, leased,
claimed, written, updated, watched or contributed to, and the request is answered and noted, unless it is refused. The places of operands in the slots follow
notes/assumptions/16.md. -/
def Obligations.HingeRequestIsServed : Prop :=
  (∀ (s : State) (m : Msg), ∀ p ∈ requestForms m,
    let s0 := s.unsend p.2.1
    (s.arrivesLater p.2.1 = false → m.follow.toNat ≠ p.2.2 ∨ m.slots.length ≠ p.2.2 →
      exec p.1 s = .next (s0.logged m.dst.toNat (.droppedMessage p.2.1.cls.toNat p.2.1.op.toNat))) ∧
    (Arrives s p.2.1 p.2.2 → ∀ x, ((s.die m.dst.toNat).served.find? fun x => decide (x.src = m.src.toNat) && decide (x.site = m.site.toNat) &&
        decide (x.txn = m.txn.toNat) && decide (s.now m.dst.toNat ≤ x.time + 65536)) = some x → exec p.1 s = .next (s0.replies m x.answer)) ∧
    (Arrives s p.2.1 p.2.2 → Unserved s m → ∀ c, placeOf s0 m p.2.1.cls.toNat p.2.1.op.toNat = .bad c →
      exec p.1 s = .next (servedState m s0 [m.errAnswer c])) ∧
    (Arrives s p.2.1 p.2.2 → Unserved s m → ∀ pa, placeOf s0 m p.2.1.cls.toNat p.2.1.op.toNat = .mem pa → remapDue s0 m pa = true →
      exec p.1 s = .next (s0.replies m [m.answer 2 2 (s0.die (homeDie pa)).epoch.toNat []]))) ∧
  (∀ (s : State) (m : Msg) (pa : Nat),
    let l := pa / 64
    let h := homeDie pa
    let line (s : State) : List (BitVec 8) × Nat := s.homeRead h (l * 64) 64
    let slot (j : Nat) : BitVec 128 := m.slots.getD (j - 1) 0
    let mask64 := ((slot 1).extractLsb' 0 64).toNat
    let whole := if (slot 2).getLsbD 4 then 4 else 8
    (∀ s0, s0 = s.unsend ⟨0, 0, m⟩ → Serves s ⟨0, 0, m⟩ 0 pa → s.plainLine l → m.edge = false →
      let r := grantLease (s0.liveLeases l) (s0.now h) 0 15
      exec (.rd m) s = .next (servedState m (s0.setDir l { s0.dirLine l with leases := r.2 }) [m.dataAnswer s0 (line s0).1 (line s0).2 r.1])) ∧
    (∀ s0, s0 = s.unsend ⟨0, 0, m⟩ → Serves s ⟨0, 0, m⟩ 0 pa → s.plainLine l → m.edge = true →
      exec (.rd m) s = .next (servedState m s0 [m.dataAnswer s0 (line s0).1 (line s0).2 0])) ∧
    (∀ s0, s0 = s.unsend ⟨0, 1, m⟩ → Serves s ⟨0, 1, m⟩ 0 pa → s.plainLine l →
      exec (.rdn m) s = .next (servedState m s0 [m.dataAnswer s0 (line s0).1 (line s0).2 0])) ∧
    (∀ s0, s0 = s.unsend ⟨0, 2, m⟩ → Serves s ⟨0, 2, m⟩ 1 pa → s.plainLine l → m.edge = false →
      let s1 := ((List.range 16).filter fun j => (slot 1).getLsbD j).foldl (fun s j =>
        s.claimWord m.src.toNat ((slot 1).extractLsb' 16 7).toNat ((slot 1).extractLsb' 32 32).toNat (64 * l + 4 * j)) s0
      exec (.rdo m) s = .next (servedState m s1 [m.dataAnswer s1 (s1.homeBytes (64 * l) 64) (s1.spanExpiry l 0 15) 0])) ∧
    (∀ s0, s0 = s.unsend ⟨0, 3, m⟩ → Serves s ⟨0, 3, m⟩ 4 pa → s.plainLine l →
      let r := writeRuns s0 (maskRuns pa (2 ^ 64 - 1) (m.bytesFrom 1))
      exec (.wr m) s = .next (servedState m r.1 [m.ack r.1 r.2])) ∧
    (∀ s0, s0 = s.unsend ⟨0, 4, m⟩ → Serves s ⟨0, 4, m⟩ 5 pa → s.plainLine l →
      let r := writeRuns s0 (maskRuns pa mask64 (m.bytesFrom 2))
      exec (.wrm m) s = .next (servedState m r.1 [m.ack r.1 r.2])) ∧
    (∀ s0, s0 = s.unsend ⟨0, 5, m⟩ → Serves s ⟨0, 5, m⟩ 2 pa → s.plainLine l → pa % whole = 0 →
      let old := ((line s0).1.drop (pa % 64)).take whole
      let new := atomicBytes ((slot 2).extractLsb' 0 4).toNat whole ((slot 1).extractLsb' 0 64) ((slot 1).extractLsb' 64 64) old
      let r := match new with | some bs => s0.homeWrite1 h pa bs | none => (s0, 0)
      ((slot 2).extractLsb' 0 4).toNat ≤ 8 → exec (.atm m) s = .next (servedState m r.1 [m.dataAnswer r.1 (line s0).1 (line s0).2 r.2])) ∧
    (∀ s0, s0 = s.unsend ⟨0, 6, m⟩ → Serves s ⟨0, 6, m⟩ 1 pa →
      let w : Watch := { pa := pa, th := 0, cond := 0, src := m.src.toNat, site := m.site.toNat, txn := m.txn.toNat, remote := true,
                         w32 := (slot 1).getLsbD 67 }
      exec (.watch m) s = .next (servedState m (s0.modDie h fun x => { x with watches := x.watches ++ [w] }) [])) ∧
    (∀ s0, s0 = s.unsend ⟨0, 7, m⟩ → Serves s ⟨0, 7, m⟩ 0 pa → ∃ s1 : State,
      exec (.unwatch m) s = .next (servedState m s1 [m.answer 2 3 0 []]) ∧ s1.threads = s.threads ∧
        ∀ w ∈ (s1.die h).watches, ¬(w.remote = true ∧ w.pa = pa ∧ w.src = m.src.toNat ∧ w.site = m.site.toNat)) ∧
    (∀ s0, s0 = s.unsend ⟨0, 8, m⟩ → Serves s ⟨0, 8, m⟩ 5 pa → m.edge = false → (s.dirLine l).acc = none →
      let r := ((List.range 16).filter fun j => (slot 1).getLsbD j).foldl (fun (acc : State × Nat) j =>
        let x := acc.1.applyAtHome h (l * 64 + 4 * j) (((m.bytesFrom 2).drop (4 * j)).take 4)
        (x.1, max acc.2 x.2)) (s0, 0)
      exec (.wb m) s = .next (servedState m r.1 [m.ack r.1 r.2])) ∧
    (∀ s0, s0 = s.unsend ⟨4, 0, m⟩ → Serves s ⟨4, 0, m⟩ 2 pa → s.plainLine l → redIsVf ((slot 2).extractLsb' 0 4).toNat = false → pa % whole = 0 →
      let new := (reduceBytes ((slot 2).extractLsb' 0 4).toNat (s0.homeBytes pa whole) (vfOfBytes (toBytes 16 (slot 1).toNat ++
        toBytes 8 ((slot 2).extractLsb' 64 64).toNat)) ((slot 1).extractLsb' 0 64)).1
      let r := writeRuns s0 [(pa, new)]
      exec (.redu m) s = .next (servedState m r.1 [m.ack r.1 r.2])) ∧
    (∀ s0, s0 = s.unsend ⟨4, 1, m⟩ → Serves s ⟨4, 1, m⟩ 2 pa → s.plainLine l →
      let w := l * 64 + ((slot 2).extractLsb' 16 6).toNat
      let ord := ((slot 2).extractLsb' 0 16).toNat
      let n := 2 * headerClass (ofBytes (s0.homeRead h pa 2).1) + 4
      pa % 2 = 0 → w % 8 = 0 → pa % 64 + n ≤ 64 → ¬(pa < w + 8 ∧ w < pa + n) →
      let r := redoArrive (redoReady s0 pa w) pa w ord (vfOfBytes (toBytes 16 (slot 1).toNat ++ toBytes 8 ((slot 2).extractLsb' 64 64).toNat)) noIssuer 0
      (∀ vis, r.2 = .applied vis → exec (.redw m) s = .next (servedState m r.1 [m.ack r.1 vis])) ∧
      (r.2 = .held → exec (.redw m) s =
        .next (servedState m (r.1.modDie h fun x => { x with owed := x.owed ++ [(w, ord, m.site.toNat, m.ack r.1 0)] }) [])) ∧
      (r.2 = .nack → exec (.redw m) s = .next (r.1.replies m [m.answer 2 1 0 []])) ∧
      (r.2 = .order → exec (.redw m) s = .next (servedState m r.1 [m.errAnswer cASYNC]))) ∧
    (∀ s0, s0 = s.unsend ⟨4, 2, m⟩ → Serves s ⟨4, 2, m⟩ 5 pa → ∀ (c : Sidecar) (lines : AMap Nat) (s1 : State) (vl : Nat), (s0.dirLine l).acc = some c →
      let g := { s0.gridAgent c.grid m.dst.toNat with asid := c.tile.asid }
      let desc : Desc := #v[0, 0, c.tile.cbase, 0, BitVec.ofNat 64 (c.tile.cls * 2 ^ 48 + c.tile.cstride.toNat), 0]
      let ord := ((slot 1).extractLsb' 0 16).toNat
      mapTile desc c.tile.kind g s0 = .ok (lines, s1) → (lines.find? fun p => p.2 == l) = some (vl, l) →
      let r := partArrive s1 c.tile lines l ord (partElems c.tile vl m) 0
      (r.2 = .applied → exec (.part m) s = .next (servedState m (settleOrdered r.1 c.tile) [m.ack r.1 0])) ∧
      (r.2 = .held → exec (.part m) s =
        .next (servedState m (r.1.modDie h fun x => { x with owed := x.owed ++ [(64 * l, ord, m.site.toNat, m.ack r.1 0)] }) [])) ∧
      (r.2 = .nack → exec (.part m) s = .next (r.1.replies m [m.answer 2 1 0 []])) ∧
      (∀ st, r.2 = .fail st → exec (.part m) s = .next (servedState m r.1 [m.errAnswer cASYNC]))))

/-- R142, R144, R172, R184, R194, R195, R253, R254, R278, R350, R352: answers complete the access that waits for them or send it again; PROBE returns owned
words and RECALL writes them back; WATCHV delivers a word; EPOCH is learnt; STEAL gives up half of the undispatched cohorts, and its answer adds them to the
thief's. The places of operands in the slots and the form of a STEAL answer follow notes/assumptions/16.md. -/
def Obligations.HingeAnswerEffect : Prop :=
  (∀ (s : State) (m : Msg) (q : Pending),
    let txn := m.txn.toNat
    AMap.get? s.pending txn = some q → q.packet.msg.src = m.dst → q.packet.msg.dst = m.src → q.reply = none → q.op ≠ some 0 →
    let d := m.dst.toNat
    let given (s : State) (data : List (BitVec 8)) (err : Option Nat) (stamp : Nat) : State :=
      { s with pending := AMap.put s.pending txn { q with reply := some ⟨q.pa, data, err, stamp⟩ } }
    -- beyond the module and at an edge die's registers the times are not those of a home
    let beyond : Prop := (∃ md a, regionOf q.pa = .system md a) ∨ ∃ i off, regionOf q.pa = .siteReg i off
    (Arrives s ⟨2, 0, m⟩ 1 → q.op = none → ∀ t, s.th? q.th = some t →
      let s1 := given (s.unsend ⟨2, 0, m⟩) [] none 0
      let r := ((m.slots.getD 0 0).extractLsb' 0 32).toNat
      (beyond → exec (.ack m) s = .next (s1.setTh q.th { t with hor := max t.hor (s.now d + r) })) ∧
      (¬beyond → exec (.ack m) s =
        .next (s1.setTh q.th { t with hor := max t.hor (max (s.now d) (s.conv m.payload.toNat m.src.toNat d + r)) }))) ∧
    (Arrives s ⟨2, 1, m⟩ 0 →
      let s0 := s.unsend ⟨2, 1, m⟩
      exec (.nack m) s = .next { s0.freshen with nacked := AMap.put s.nacked s.fresh (s.tenths d, .request txn) }) ∧
    (Arrives s ⟨2, 2, m⟩ 0 →
      let e : BitVec 16 := m.payload.extractLsb' 0 16
      let s1 := (s.unsend ⟨2, 2, m⟩).modDie m.dst.toNat fun x => { x with known := AMap.put x.known m.src.toNat e }
      let p : Packet := { q.packet with msg := { q.packet.msg with epoch := e } }
      exec (.remap m) s = .next (({ s1 with pending := AMap.put s1.pending txn { q with packet := p } } : State).toSite q.site p)) ∧
    (Arrives s ⟨2, 3, m⟩ 0 → exec (.done m) s = .next (given (s.unsend ⟨2, 3, m⟩) [] none 0)) ∧
    (Arrives s ⟨2, 4, m⟩ 0 → exec (.err m) s = .next (given (s.unsend ⟨2, 4, m⟩) [] (some (m.payload.extractLsb' 0 8).toNat) 0)) ∧
    (Arrives s ⟨3, 0, m⟩ 4 →
      let s0 := s.unsend ⟨3, 0, m⟩
      let off := (m.payload.extractLsb' 0 16).toNat
      let there := widen s m.src.toNat (m.payload.extractLsb' 16 48).toNat
      let atm : Prop := q.packet.cls = 0 ∧ q.packet.op = 5
      ∀ stamp, (off = 0 → stamp = 0) → (off ≠ 0 → beyond → stamp = s.now d + off) → (off ≠ 0 → ¬beyond → stamp = s.conv (there + off) m.src.toNat d) →
        (¬atm → exec (.data m) s = .next (given s0 (m.bytesFrom 1) none stamp)) ∧
        (atm → q.op = none → ∀ t, s.th? q.th = some t →
          let r := m.epoch.toNat
          let vis := max (s.now d) (s.conv there m.src.toNat d + r)
          (beyond → exec (.data m) s = .next ((given s0 (m.bytesFrom 1) none stamp).setTh q.th { t with hor := max t.hor (s.now d + r) })) ∧
          (¬beyond → exec (.data m) s = .next ((given s0 (m.bytesFrom 1) none stamp).setTh q.th { t with hor := max t.hor vis })))) ∧
    (Arrives s ⟨3, 1, m⟩ 4 → exec (.pdata m) s = .next (given (s.unsend ⟨3, 1, m⟩) (m.bytesFrom 1) none 0))) ∧
  (∀ (s : State) (m : Msg) (q : Pending), AMap.get? s.pending m.txn.toNat = some q → q.packet.msg.src = m.dst → q.packet.msg.dst = m.src →
    q.reply = none → q.op = some 0 → ∀ p ∈ [(Instr.done m, (⟨2, 3, m⟩ : Packet)), (.err m, ⟨2, 4, m⟩)], Arrives s p.2 0 →
      exec p.1 s = .next { s.unsend p.2 with pending := AMap.del s.pending m.txn.toNat }) ∧
  (∀ (s : State) (m : Msg),
    let l := (m.payload.extractLsb' 0 52).toNat / 64
    let mask := ((m.slots.getD 0 0).extractLsb' 0 16).toNat
    (Arrives s ⟨1, 0, m⟩ 1 → ∃ bs : List (BitVec 8), bs.length = 64 ∧
      (∀ b < 64, bs.getD b 0 = if mask.testBit (b / 4) ∧ (s.ownerOf l (b / 4)).map (·.die) = some m.dst.toNat then s.probeByte (64 * l + b) else 0) ∧
      exec (.probe m) s = .next ((s.unsend ⟨1, 0, m⟩).send [m.answer 3 1 0 (dataSlots bs)])) ∧
    (Arrives s ⟨1, 1, m⟩ 1 → ownedWords s m.dst.toNat l mask = [] →
      exec (.recall m) s = .next ((s.unsend ⟨1, 1, m⟩).send [m.answer 2 3 0 []])) ∧
    (Arrives s ⟨1, 1, m⟩ 1 → ∀ w o, ownedWords s m.dst.toNat l mask = [w] → s.ownerOf l w = some o →
      exec (.recall m) s = .next (((s.unsend ⟨1, 1, m⟩).recallLine o.die o.core o.line).send [m.answer 2 3 0 []])) ∧
    (Arrives s ⟨5, 4, m⟩ 0 → exec (.epoch m) s = .next ((s.unsend ⟨5, 4, m⟩).modDie m.dst.toNat fun x =>
      { x with known := AMap.put x.known m.src.toNat (m.payload.extractLsb' 0 16) })) ∧
    (Arrives s ⟨5, 5, m⟩ 0 → (∀ w ∈ (s.die m.src.toNat).watches, w.remote = true ∨ w.txn ≠ m.txn.toNat) →
      exec (.watchv m) s = .next (s.unsend ⟨5, 5, m⟩)) ∧
    (Arrives s ⟨5, 5, m⟩ 0 → ∀ (w : Watch) (t : Thread), (s.die m.src.toNat).watches = [w] → w.remote = false → w.txn = m.txn.toNat →
      s.th? w.th = some t → t.die = m.dst.toNat →
      let s0 := s.unsend ⟨5, 5, m⟩
      let i := w.pa % 64 / 4
      exec (.watchv m) s =
        .next (checkWaitc (s0.deliverWatch w.th w.cond m.payload (s0.stampFor (w.pa / 64) (s0.spanStamp (w.pa / 64) i i) t.die)) w.th)) ∧
    (Arrives s ⟨5, 6, m⟩ 1 →
      let s0 := s.unsend ⟨5, 6, m⟩
      let d := m.dst.toNat
      let gid := (m.payload.extractLsb' 0 32).toNat
      let lo := ((m.slots.getD 0 0).extractLsb' 0 64).toNat
      let hi := ((m.slots.getD 0 0).extractLsb' 64 64).toNat
      (∀ g, s.grid? gid = some g →
        (m.slots = [0] → g.started = true → g.aborted = false → g.dmask.getLsbD d = true →
          let parts := splitTop (rangeCount (g.left d) / 2) (g.left d)
          (parts.2 = [] → exec (.steal m) s = .next (s0.send [stealAnswer m (1, 1)])) ∧
          (parts.2 ≠ [] → exec (.steal m) s =
            .next ((s0.setGrid gid { g with ranges := AMap.put g.ranges d parts.1, moving := g.moving ++ parts.2.map fun r => (m.src.toNat, r) }).send
              (parts.2.map (stealAnswer m))))) ∧
        (m.slots ≠ [0] → (d, (lo, hi)) ∈ g.moving → g.aborted = false →
          let g1 := { g with ranges := AMap.put g.ranges d (g.left d ++ [(lo, hi)]), moving := g.moving.erase (d, (lo, hi)) }
          let s1 := s0.setGrid gid g1
          exec (.steal m) s = .next (if g1.moving.any (fun x => x.1 == d) then s1
            else s1.modDie d fun x => { x with asking := x.asking.filter (· ≠ gid) })) ∧
        (m.slots ≠ [0] → (∀ x ∈ g.moving, x.1 ≠ d) →
          exec (.steal m) s = .next (s0.modDie d fun x => { x with asking := x.asking.filter (· ≠ gid) })))))

/-! ### Discovery, links and repair -/

/-- R16, R305, R309, R311, R312, R349, R352, R359, R361, R370, R371: messages of discovery. A listed message is not dropped, any other is logged. HELLO records
a neighbour and its credits, or a site whose type its parity allows; a lower ELECT goes on; ASSIGN gives coordinates once, and a contradiction kills the die;
TIMEX measures; IMG brings a chunk of an image or of a signed command; WIPE zeroes a site, and WIPED publishes it. The site field of WIPE, what an unknown
HELLO leaves and where boot waits follow notes/assumptions/16.md. -/
def Obligations.DiscoveryMessageEffect : Prop :=
  (∀ (s : State) (die : DieId) (cls : BitVec 3) (op : BitVec 5) (follow : BitVec 3),
    exec (.droppedMessage die cls op follow) s =
      .next (if (cls.toNat, op.toNat, follow.toNat) ∈ listedFollow then s else s.logged die.toNat (.droppedMessage cls.toNat op.toNat))) ∧
  (∀ (s : State) (m : Msg),
    let d := m.dst.toNat
    let e := m.src.toNat
    let site := m.site.toNat - 32
    let slot1 := m.slots.getD 0 0
    (∀ s0, s0 = s.unsend ⟨5, 0, m⟩ → Arrives s ⟨5, 0, m⟩ 2 →
      let credits := (List.range 6).map fun c => (slot1.extractLsb' (16 + 8 * c) 8).toNat
      (m.edge = false → ∀ dir, State.dirTo d e = some dir →
        let noted (l : Link) : Link :=
          { l with credits := credits, peer := some ((slot1.extractLsb' 0 4).toNat, (slot1.extractLsb' 4 4).toNat, (slot1.extractLsb' 8 8).toNat) }
        exec (.hello m) s = .next (s0.creditLink d dir noted) ∧
        ((s.link d dir).queued = [] →
          exec (.hello m) s = .next (s0.modDie d fun x => { x with links := AMap.put x.links dir (noted ((AMap.get? x.links dir).getD {})) }))) ∧
      (m.edge = true → abutting site ≠ d ∨ (s.site site).answered = true → exec (.hello m) s = .next s0) ∧
      (m.edge = true → abutting site = d → (s.site site).answered = false →
        let t := (slot1.extractLsb' 0 4).toNat
        let known := slot1.extractLsb' 8 8 = 0 ∧ (site % 2 = 0 ∧ t = 1 ∨ site % 2 = 1 ∧ 2 ≤ t ∧ t ≤ 4)
        let type := if known then t else 0
        let s1 := (s0.setSite site { s.site site with type := type, serial := m.payload, answered := true }).creditSite site fun _ => credits
        ((s.site site).queued = [] →
          s1 = s0.setSite site { s.site site with type := type, serial := m.payload, answered := true, credits := credits }) ∧
        (type = 0 ∨ type = 1 → exec (.hello m) s = .next s1.tryBoot) ∧
        (type = 3 → exec (.hello m) s = .next (s1.toSite site (wipeRequest site)).tryBoot) ∧
        (type = 2 → exec (.hello m) s = .next (learnSite s1 d site).tryBoot) ∧
        (type = 4 → exec (.hello m) s = .next ((learnSite s1 d site).toSite site (wipeRequest site)).tryBoot))) ∧
    (∀ s0, s0 = s.unsend ⟨5, 2, m⟩ → Arrives s ⟨5, 2, m⟩ 0 →
      let i := m.payload.toNat % 32
      (m.payload.getLsbD 8 = false → exec (.elect m) s = .next s0) ∧
      (m.payload.getLsbD 8 = true → (∃ b, (s.die d).best = some b ∧ b ≤ i) → exec (.elect m) s = .next s0) ∧
      (m.payload.getLsbD 8 = true → (∀ b, (s.die d).best = some b → i < b) →
        let out := toNeighbours s0 d 2 fun _ => 256 + i
        exec (.elect m) s = .next ((s0.modDie d fun x => { x with best := some i, bestAt := s.now d }).send out) ∧
        ∀ dir x, s0.openLink d dir = some x → dir < 4 → ∃ q ∈ out, q.cls = 5 ∧ q.op = 2 ∧ q.msg.dst = BitVec.ofNat 6 x ∧
          q.msg.payload = BitVec.ofNat 64 (256 + i))) ∧
    (∀ s0, s0 = s.unsend ⟨5, 3, m⟩ → Arrives s ⟨5, 3, m⟩ 0 →
      let c : BitVec 6 := m.payload.extractLsb' 0 6
      let x := s.die d
      let depth := (s.die e).depth + 1
      let given := s0.modDie d fun x => { x with assigned := some c, depth := depth }
      let edge := ∃ i < 32, abutting i = d
      let wrong := edge ∧ c.toNat ≠ d ∨ x.lcstate ≠ (s.die (s.anchor.getD 0)).lcstate ∨ 16 < depth
      (x.assigned = some c → exec (.assign m) s = .next s0.tryBoot) ∧
      (∀ c', x.assigned = some c' → c' ≠ c → exec (.assign m) s = .next (s0.modDie d fun x => { x with life := .dead }).tryBoot) ∧
      (x.assigned = none → wrong → exec (.assign m) s =
        .next (s0.modDie d fun x => { x with assigned := some c, depth := depth, life := .dead }).tryBoot) ∧
      (x.assigned = none → ¬wrong → exec (.assign m) s =
        .next ((given.send ((assignOut given d c.toNat).filter (fun p => (given.die p.msg.dst.toNat).assigned.isNone) ++
          [timexTo given e d])).tryBoot))) ∧
    (∀ s0, s0 = s.unsend ⟨5, 1, m⟩ → Arrives s ⟨5, 1, m⟩ 0 →
      let diff : Int := (s.now d : Int) - (m.payload.toNat : Int)
      let seen := (AMap.get? (s.die d).timex e).getD []
      let there := ((AMap.get? (s.die e).timex d).getD []).headD 0
      let s1 := s0.modDie d fun x => { x with timex := AMap.put x.timex e (seen ++ [(there - diff) / 2]) }
      ((s.die e).depth < (s.die d).depth → exec (.timex m) s =
        .next ((s0.modDie d fun x => { x with timex := AMap.put x.timex e [diff] }).send [timexTo s d e])) ∧
      ((s.die d).depth ≤ (s.die e).depth →
        (1024 ≤ seen.length → exec (.timex m) s = .next s0) ∧
        (seen.length = 1023 → exec (.timex m) s = .next s1.tryBoot) ∧
        (seen.length < 1023 → exec (.timex m) s = .next (s1.send [timexTo s d e]).tryBoot))) ∧
    (∀ s0, s0 = s.unsend ⟨5, 7, m⟩ → Arrives s ⟨5, 7, m⟩ 4 →
      let off := m.payload.toNat
      (m.payload.getLsbD 63 = true → m.edge = true ∨ s.anchor ≠ some e → exec (.img m) s = .next s0) ∧
      (m.payload.getLsbD 63 = true → m.edge = false → s.anchor = some e → ∀ r, s.cmdRun = some r → d ∈ r.left →
        let at_ := off - 2 ^ 63
        let chunk := (r.bytes.drop at_).take 64
        (m.bytesFrom 1 ≠ chunk → exec (.img m) s = .next (s0.judge d false)) ∧
        (m.bytesFrom 1 = chunk → at_ = 1088 → exec (.img m) s = .next (s0.judge d (s0.checksCommand d r.bytes))) ∧
        (m.bytesFrom 1 = chunk → at_ ≠ 1088 → exec (.img m) s = .next s0)) ∧
      (m.payload.getLsbD 63 = false → m.edge = true → s.anchor ≠ some d → exec (.img m) s = .next s0) ∧
      (m.payload.getLsbD 63 = false → m.edge = true → s.anchor = some d →
        (s.boot = .recovery → off = 0 → exec (.img m) s = .next (s0.startFetch d)) ∧
        (s.boot = .starting → off % 64 = 0 → off < s.imgNext → AMap.get? s.image off = none →
          exec (.img m) s = .next (takeChunk s0 d off (m.bytesFrom 1)))) ∧
      (m.payload.getLsbD 63 = false → m.edge = false → s.boot = .starting → s.imgLen = some (off + 64) →
        exec (.img m) s = .next (s0.checkImage d).tryBoot)) ∧
    (Arrives s ⟨5, 10, m⟩ 0 → exec (.imgreq m) s = .next (s.unsend ⟨5, 10, m⟩)) ∧
    (∀ s0, s0 = s.unsend ⟨5, 8, m⟩ → Arrives s ⟨5, 8, m⟩ 0 →
      let i := State.oddSite d
      let memory := (s.site i).type = 3 ∨ (s.site i).type = 4
      (¬memory → exec (.hingeWipe m) s = .next s0) ∧
      (memory → s.memoryInv = true → ∃ s' : State, exec (.hingeWipe m) s = .next s' ∧ s'.threads = s.threads ∧
        ∀ a, (inSite i a → s'.homeByte a = 0) ∧ (¬inSite i a → s'.homeByte a = s.homeByte a))) ∧
    (∀ s0, s0 = s.unsend ⟨5, 9, m⟩ → Arrives s ⟨5, 9, m⟩ 0 → m.edge = true →
      (s.site site).type = 3 ∨ (s.site site).type = 4 →
      let n := min m.payload.toNat 128000000000 / 2 ^ 30 * 2 ^ 30
      exec (.wiped m) s = .next (s0.setSite site { s.site site with wiped := true, populated := n }).publish.tryBoot))

/-- R184, R309, R312, R341, R343 to R345, R347, R348, R357 to R359, R361 to R363, R369, R370: the election's end and boot; time-outs; links, sites and units
that fail; the core clock. What the topology table shows of it is published. Time-outs without a clock of their own, spares and what is published follow
notes/assumptions/16.md; that an event naming a row always maps a spare row in, notes/assumptions/22.md. -/
def Obligations.DiscoveryEventEffect : Prop :=
  (∀ s : State,
    let known := s.liveDies.filterMap fun d => (s.die d).best
    let quiet := ∀ d ∈ s.liveDies, (s.die d).best = none ∨ (s.die d).bestAt + 20000 ≤ s.now d
    (known = [] ∨ s.boot ≠ .starting ∨ s.anchor ≠ none ∨ ¬quiet → exec .electQuiet s = .next s) ∧
    (∀ b bs, known = b :: bs → s.boot = .starting → s.anchor = none → quiet →
      let a := abutting (bs.foldl min b)
      let s1 := ({ s with anchor := some a } : State).modDie a fun x => { x with assigned := some (BitVec.ofNat 6 a), depth := 0 }
      exec .electQuiet s = .next (s1.send (assignOut s1 a a)).tryBoot)) ∧
  (∀ (s : State) (a : Nat), s.anchor = some a →
    let due := s.imgTries.filter fun r => decide (r.2.2 + 1000000 ≤ s.time)
    (s.boot ≠ .starting ∨ due = [] → exec .imgreqTimeout s = .next s) ∧
    (s.boot = .starting → due ≠ [] →
      ((∀ r ∈ due, r.2.1 < 3) → exec .imgreqTimeout s = .next
        (due.foldl (fun s r => s.toSite (State.oddSite a) (State.imgRequest a r.1))
          ({ s with imgTries := due.foldl (fun m r => AMap.put m r.1 (r.2.1 + 1, s.time)) s.imgTries } : State))) ∧
      ((∃ r ∈ due, 3 ≤ r.2.1) → exec .imgreqTimeout s = .next { s with boot := .recovery })) ∧
    -- with discovery done the fetch of the image begins
    (s.boot = .starting → (∀ d ∈ s.liveDies, (s.die d).imageCheck = none ∨ (s.die d).imageCheck = some 0) → s.discovered a = true →
      (∀ d < 64, (s.die d).assigned ≠ none) → s.imgNext = 0 → AMap.get? s.routes (64 * a + a) = none →
      (s.site (State.oddSite a)).queued = [] → 16 ≤ (s.site (State.oddSite a)).credits.getD 5 0 →
      ∃ s' : State, exec .hbmWipeComplete s = .next s' ∧ s'.boot = .starting ∧ s'.image = [] ∧ s'.imgNext = 1024 ∧
        ∀ k < 16, State.imgRequest a (64 * k) ∈ s'.wire ∧ AMap.get? s'.imgTries (64 * k) = some (0, s.time))) ∧
  (∀ s : State,
    (s.boot = .running → exec .hbmWipeComplete s = .next s) ∧
    (s.boot = .recovery ∨ s.anchor = none → s.boot ≠ .running → exec .hbmWipeComplete s = .next { s with hbmWiped := true }) ∧
    (s.boot = .starting → s.anchor ≠ none → (∃ d ∈ s.liveDies, ∃ n, (s.die d).imageCheck = some n ∧ n ≠ 0) →
      exec .hbmWipeComplete s = .next { s with hbmWiped := true, boot := .recovery }) ∧
    (∃ s' : State, exec .moduleReset s = .next s' ∧ s'.threads = [] ∧ s'.l2 = [] ∧ s'.cores = [] ∧ s'.boot = .starting ∧ s'.anchor = none ∧
      s'.time = s.time ∧ ∀ c ∈ s'.mem, c ∈ s.mem ∧ c.1 / 2 ^ 48 = 1)) ∧
  (∀ (s : State) (site : SiteId),
    let i := site.toNat
    ((s.site i).answered = true → exec (.helloTimeout site) s = .next s) ∧
    ((s.site i).answered = false →
      exec (.helloTimeout site) s = .next (s.setSite i { s.site i with type := 0, answered := true }).tryBoot) ∧
    (∃ s1 : State, exec (.sitePowerCut site) s = .next s1.publish ∧ (s1.site i).type = 15 ∧ s1.threads = s.threads ∧
      ∀ p ∈ s1.pending, p.2.site = i → p.2.reply ≠ none) ∧
    (∀ (txn : BitVec 16) (p : Pending), AMap.get? s.pending txn.toNat = some p →
      let now := s.now p.packet.msg.src.toNat
      (p.site ≠ i ∨ p.reply ≠ none ∨ now < p.since + 20000 → exec (.edgeRequestTimeout site txn) s = .next s) ∧
      (p.site = i → i % 2 = 1 → p.reply = none → p.since + 20000 ≤ now →
        (p.resent = false → exec (.edgeRequestTimeout site txn) s =
          .next (({ s with pending := AMap.put s.pending txn.toNat { p with resent := true, since := now } } : State).toSite i p.packet)) ∧
        (p.resent = true → ∃ s1 : State, exec (.edgeRequestTimeout site txn) s = .next s1.publish ∧ (s1.site i).type = 15 ∧
          (∀ x ∈ s1.pending, ¬(x.2.site = i ∧ x.2.op = some 0)) ∧
          (p.op ≠ some 0 → AMap.get? s1.pending txn.toNat = some { p with reply := some ⟨p.pa, [], some cDATALOSS, 0⟩ })))) ∧
    (∀ txn : BitVec 16, AMap.get? s.pending txn.toNat = none →
      let p := tierRequest s i txn
      let q : Pending := { th := 0, pa := p.msg.payload.toNat, since := s.now (abutting i), packet := p, site := i, resent := true, op := some 0 }
      exec (.edgeRequestTimeout site txn) s = .next (if (s.site i).type = 3 ∨ (s.site i).type = 4 then
        ({ s with pending := AMap.put s.pending txn.toNat q } : State).toSite i p else s)) ∧
    (∀ live : BitVec 4,
      ((s.site i).type ≠ 1 → exec (.portLiveChange site live) s = .next s) ∧
      ((s.site i).type = 1 → ∃ s1 : State, exec (.portLiveChange site live) s = .next s1.publish ∧ (s1.site i).portst = live ∧
        s1.threads = s.threads ∧ ∀ j < 4, live.getLsbD j = false ∨ (s.site i).portst.getLsbD j = true →
          (s1.site i).portmods.getD j 0 = (s.site i).portmods.getD j 0))) ∧
  (∀ (s : State) (th : Nat), ∃ s' : State, exec (.mcastTimeout th) s = .next s' ∧ s'.threads = s.threads ∧
    ∀ k p, AMap.get? s.pending k = some p →
      let due := (∃ md a, regionOf p.pa = .system md a) ∧ p.th = th ∧ p.reply = none ∧ p.since + 1000000 ≤ s.now p.packet.msg.src.toNat
      (due → AMap.get? s'.pending k = some { p with reply := some ⟨p.pa, [], some cMCAST, 0⟩ }) ∧
      (¬due → AMap.get? s'.pending k = some p)) ∧
  (∀ (s : State) (die : DieId) (dir m : BitVec 2) (credits : BitVec 48),
    let d := die.toNat
    let k := dir.toNat
    let l := s.link d k
    (∃ s' : State, exec (.flitCredits die dir credits) s = .next s' ∧ s'.threads = s.threads ∧ (s'.link d k).seq = l.seq + 1 ∧
      ((neighbour d k).isSome = true → ∀ c < 6, c < l.credits.length → (∀ p ∈ l.queued, p.cls.toNat ≠ c) →
        (s'.link d k).credits.getD c 0 = l.credits.getD c 0 + (credits.extractLsb' (8 * c) 8).toNat) ∧
      -- towards an edge die the credits are those of its interface
      (neighbour d k = none → ∀ i < 32, abutting i = d → i / 8 = k → ∀ c < 6, c < (s.site i).credits.length → (∀ p ∈ (s.site i).queued, p.cls.toNat ≠ c) →
        (s'.site i).credits.getD c 0 = (s.site i).credits.getD c 0 + (credits.extractLsb' (8 * c) 8).toNat)) ∧
    (∃ s' : State, exec (.linkErrorRetry die dir) s = .next s' ∧ s'.threads = s.threads ∧ (s'.link d k).retries = l.retries + 1 ∧
      (s'.die d).log = (s.die d).log ++ [.linkError k]) ∧
    (m.toNat ∉ l.retrained → ∃ s' : State, exec (.ucieModuleError die dir m) s = .next s' ∧ s'.link d k = { l with retrained := l.retrained ++ [m.toNat] }) ∧
    (2 ≤ (l.retrained.filter (· = m.toNat)).length → exec (.ucieModuleError die dir m) s = .next s) ∧
    ((l.retrained.filter (· = m.toNat)).length = 1 → ∀ e, neighbour d k = some e → ∃ s1 : State,
      (s1.link d k).modules = l.modules - 1 ∧ (s1.link e ((k + 2) % 4)).modules = (s.link e ((k + 2) % 4)).modules - 1 ∧
      exec (.ucieModuleError die dir m) s = .next (if l.modules ≤ 1 then s1.rerouted else s1.publish)) ∧
    ((l.retrained.filter (· = m.toNat)).length = 1 → neighbour d k = none → ∃ s1 : State,
      (s1.link d k).modules = l.modules - 1 ∧ (l.modules ≤ 1 → ∀ i < 32, abutting i = d → i / 8 = k → (s1.site i).type = 15) ∧
      exec (.ucieModuleError die dir m) s = .next s1.publish)) ∧
  (∀ (s : State) (die : DieId) (steps slice : BitVec 5),
    let d := die.toNat
    (steps.toNat < 10 ∨ 27 < steps.toNat → exec (.clockAdjust die steps) s = .next s) ∧
    (10 ≤ steps.toNat → steps.toNat ≤ 27 → ∃ s' : State, exec (.clockAdjust die steps) s = .next s' ∧ (s'.die d).clock = steps.toNat ∧
      s'.threads = s.threads ∧ ∀ core, s'.cycleCount d core % 2 ^ 64 = s.cycleCount d core % 2 ^ 64) ∧
    (∀ b, (s.die d).retiring = some (slice.toNat, b) → exec (.sliceRetirementComplete die slice) s =
      .next (s.modDie d fun x => { x with retiring := none, deadSlices := x.deadSlices ++ [b] }).publish) ∧
    ((∀ b, (s.die d).retiring ≠ some (slice.toNat, b)) → exec (.sliceRetirementComplete die slice) s = .next s)) ∧
  (∀ (s : State) (die : DieId) (n : Nat) (i5 : BitVec 5) (i4 : BitVec 4) (cl : ClusterId),
    let d := die.toNat
    let s1 := s.logged d .lasting
    let x := s.die d
    (∃ s2 : State, exec (.lastingError die (.row n)) s = .next s2.publish ∧ n ∈ (s2.die d).deadRows ∧ s2.mem = s.mem ∧ s2.l2 = s.l2 ∧
      s2.threads = s.threads) ∧
    (∀ b, x.retiring = none → x.slices.getD i5.toNat none = some b →
      ∃ s2 : State, exec (.lastingError die (.slice i5)) s = .next (s2.sendEpochs d) ∧ (s2.die d).retiring = some (i5.toNat, b) ∧
        (s2.die d).epoch = x.epoch + 1 ∧ (s2.die d).slices.getD i5.toNat none ≠ some b ∧
        (spareOf 34 x.slices (x.deadSlices ++ x.failSlices) b = none → (s2.die d).life = .degraded)) ∧
    (∀ b, x.loops.getD i4.toNat none = some b →
      ∃ s2 : State, exec (.lastingError die (.loop i4)) s = .next s2.publish ∧ (s2.die d).deadLoops = x.deadLoops ++ [b] ∧
        (s2.die d).loops.getD i4.toNat none = spareOf 18 x.loops (x.deadLoops ++ x.failLoops) b) ∧
    (cl.toNat ∈ x.leaving ∨ s.clusterOk d cl.toNat = false → exec (.lastingError die (.cluster cl)) s = .next s1) ∧
    (cl.toNat ∉ x.leaving → s.clusterOk d cl.toNat = true → s.cohorts = [] →
      exec (.lastingError die (.cluster cl)) s =
        .next (({ s1 with dies := AMap.put s1.dies d { s1.die d with leaving := x.leaving ++ [cl.toNat] } } : State).retireCluster d cl.toNat)))

/-! ### Accesses under explicit conditions -/

/-- R44, R160, R178, R179, R193, R205, R211, R214, R218: with the page of the address buffered with the right the access needs, nothing of the core and
cluster in the way, and a plain, unwatched line at home on the own die: LD in global or thread-private space and LDA deliver the home's bytes, ST in global space
and an STRL that need not wait leave their bytes in the cluster buffer, and an ATOM at DIE scope or wider changes exactly its word at the home. No other thread, and no other byte at home,
changes. A line written back from the buffer leaves its bytes at home. The bytes of VF accesses are in LoadDeliversBytes and StoreWritesBytes. That the access
is performed at issue follows notes/assumptions/3.md. -/
def Obligations.GlobalAccessAtHome : Prop :=
  (∀ (s : State) (t : Thread) (d base : Spec) (reuse : BitVec 2) (size : BitVec 3) (off : BitVec 5) (pa : Nat) (priv : Bool),
    let i := Instr.ld d base (if priv then 2 else 0) size reuse off
    let n := accessBytes size
    let a := offsetAddress (t.value base) off n
    let va := if priv then privAddr (s.gridOf t) t a.toNat else a
    Issues i s t → size ≠ 4 → s.reads t base = true → s.reaches t d 1 = true → a.toNat % n = 0 → va.toNat % n = 0 →
    (priv = true → a.toNat < (s.gridOf t).psize) → s.mapped t va .r pa → s.coreQuiet t → s.homeQuiet t pa →
    ∃ (s' : State) (t' : Thread), exec i s = .next s' ∧ t.observed t' ∧ s.sameElsewhere s' ∧
      s'.th? s.cur = some (t'.wrote none d (loadedSlots size (s.homeBytes pa n)))) ∧
  (∀ (s : State) (t : Thread) (src base : Spec) (reuse : BitVec 2) (size : BitVec 3) (off : BitVec 5) (pa : Nat),
    let i := Instr.st src base 0 size reuse off
    let a := offsetAddress (t.value base) off (accessBytes size)
    Issues i s t → size ≠ 4 → s.reads t src = true → s.reads t base = true → a.toNat % accessBytes size = 0 → s.mapped t a .w pa → s.coreQuiet t →
    s.homeQuiet t pa →
    ∃ (s' : State) (t' : Thread), exec i s = .next s' ∧ s.storedAt t s' t' pa (t.storedBytes src size)) ∧
  (∀ (s : State) (t : Thread) (d base : Spec) (reuse : BitVec 2) (size scope : BitVec 3) (peek : Bool) (pa : Nat),
    let i := Instr.lda d base 0 size reuse peek scope
    let n := accessBytes size
    let a := t.value base
    Issues i s t → size ≠ 4 → s.reads t base = true → s.reaches t d 1 = true → a.toNat % n = 0 → s.mapped t a .r pa → s.coreQuiet t → s.homeQuiet t pa →
    ∃ (s1 : State) (t1 : Thread) (stamp : Nat), t.observed t1 ∧ s.sameElsewhere s1 ∧
      exec i s = .next ((s1.setTh s.cur (t1.wrote none d (loadedSlots size (s.homeBytes pa n)))).acquire s.cur scope.toNat stamp)) ∧
  (∀ (s : State) (t : Thread) (src base : Spec) (reuse : BitVec 2) (size scope : BitVec 3) (pa : Nat),
    let i := Instr.strl src base 0 size reuse scope
    let a := t.value base
    Issues i s t → size ≠ 4 → s.reads t src = true → s.reads t base = true → a.toNat % accessBytes size = 0 → s.mapped t a .w pa → s.coreQuiet t →
    s.homeQuiet t pa → s.releasesNow t scope.toNat →
    ∃ (s' : State) (t' : Thread), exec i s = .next s' ∧ s.storedAt t s' t' pa (t.storedBytes src size)) ∧
  (∀ (s : State) (t : Thread) (d base b : Spec) (scope op : BitVec 3) (pa : Nat), ∀ p ∈ atomicForms d base b scope op,
    let a := t.value base
    let n := p.2.2
    let old := s.homeBytes pa n
    Issues p.1 s t → 4 ≤ scope.toNat → s.reads t base = true → s.reads t b = true → (p.2.1 = 8 → s.reads t 0 = true) → s.reaches t d 1 = true →
    a.toNat % n = 0 → s.mapped t a .rw pa → s.coreQuiet t → s.homeQuiet t pa →
    ∃ (s' : State) (t' : Thread), exec p.1 s = .next s' ∧ t.stored t' ∧ (∀ u, u ≠ s.cur → s'.th? u = s.th? u) ∧
      s'.th? s.cur = some (t'.wrote none d [BitVec.ofNat 64 (ofBytes old)]) ∧
      ∀ x, s'.homeByte x = if pa ≤ x ∧ x < pa + n then
          ((atomicBytes p.2.1 n (t.value b) (t.value 0) old).getD old).getD (x - pa) 0
        else s.homeByte x) ∧
  (∀ (s : State) (ck l : Nat) (x : DirtyLine), AMap.get? (s.cluster ck).buf l = some x → s.plainLine l → risesFrom 0 x.bytes = true →
    (∀ c ∈ x.bytes, c.1 < 64) → ∀ a, (s.flushLine ck l).1.homeByte a =
      if a / 64 = l then (AMap.get? x.bytes (a % 64)).getD (s.homeByte a) else s.homeByte a)

/-- R44, R169 to R171, R203, R214: LD and ST in stash space, at an offset that a window of the thread's address space holds with every line present, deliver
the stash's bytes and store into them, and into no other byte of the stash or of memory, but for lines of read-only windows, which follow what their
core reads and writes of their words (R188; notes/assumptions/22.md). -/
def Obligations.StashAccess : Prop :=
  (∀ (s : State) (t : Thread) (d base : Spec) (reuse : BitVec 2) (size : BitVec 3) (off : BitVec 5) (w : Window),
    let i := Instr.ld d base 1 size reuse off
    let n := accessBytes size
    let a := offsetAddress (t.value base) off n
    let k := coreKey t.die t.core
    Issues i s t → size ≠ 4 → s.reads t base = true → s.reaches t d 1 = true → a.toNat % n = 0 → s.coreQuiet t → s.stashHolds t a.toNat n w →
    ∃ (s' : State) (t' : Thread), exec i s = .next s' ∧ t.observed t' ∧ s.sameElsewhere s' ∧ s.stashIs k (s.core k).stash s' ∧
      s'.th? s.cur = some (t'.wrote none d (loadedSlots size (readCells (s.core k).stash a.toNat n)))) ∧
  (∀ (s : State) (t : Thread) (src base : Spec) (reuse : BitVec 2) (size : BitVec 3) (off : BitVec 5) (w : Window),
    let i := Instr.st src base 1 size reuse off
    let n := accessBytes size
    let a := offsetAddress (t.value base) off n
    let k := coreKey t.die t.core
    Issues i s t → size ≠ 4 → s.reads t src = true → s.reads t base = true → a.toNat % n = 0 → s.coreQuiet t → s.stashHolds t a.toNat n w →
    (w.ro = true → exec i s = .next (s.trapCur cPROTECTION a 1)) ∧
    (w.ro = false → ∃ (s' : State) (t' : Thread), exec i s = .next s' ∧ t.stored t' ∧ s'.th? s.cur = some t' ∧ s.sameElsewhere s' ∧
      s.stashIs k (writeCells (s.core k).stash a.toNat (t.storedBytes src size)) s'))

/-! ### Frames, encoding, step and invariants -/

/-- R11, R30, R31, R86, R99, R341: an instruction that works on registers alone, completing or trapping, changes its own thread, the marker that the slot was left
and the thread's answered requests, which go with a slot that was left (notes/assumptions/18.md), and nothing else: no other thread, no memory, no stash, no other
special or device state. Where register storage holds a storage error that it reads, its own die's log grows by the errors put right, or the die manager's
self-repair of the slot's row comes next (notes/assumptions/22.md). -/
def Obligations.RegisterInstructionFrame : Prop :=
  ∀ (i : Instr) (s s' : State) (t : Thread), isRegisterOnly i = true → s.th? s.cur = some t → exec i s = .next s' →
    ∃ (t' : Thread) (left : Bool) (pending : AMap Pending) (dies : AMap Die) (repair : List Turn) (noted : List Nat),
      s' = { s with threads := AMap.put s.threads s.cur t', left := left, pending := pending, dies := dies, agenda := repair ++ s.agenda } ∧
      (left = s.left ∧ pending = s.pending ∨ left = true ∧ pending = (s.dropReplies s.cur).pending) ∧
      (∀ d, (AMap.get? dies d).getD {} = if d = t.die then { s.die d with log := (s.die d).log ++ noted.map LogEntry.transient } else s.die d) ∧
      (repair = [] ∨ ∃ slot, repair = [⟨0, .event (.lastingError (BitVec.ofNat 6 t.die) (.row slot))⟩]) ∧
      (t.softN = 0 → t.softQ = 0 → dies = s.dies) ∧ (t.badN = 0 → t.badQ = 0 → repair = [])

/-- R28 to R32, R48, R240, R241: where the running thread is the only one of its core that can issue, the picker gathers it into a gang of its own, and the step
issues its slot: the packet at its pc is fetched, the chain there is formed and runs; of a chain of one word the decoded instruction runs by exec, and retires
unless it left the slot; a word performed from its fault-buffer entry takes its sources there (R320). A packet that cannot be fetched, a chain that is not legal and a
decode-time cause stop the slot instead. A chain that would take the run past 24 ends the run first. What follows every turn (State.afterTurn) closes the step. That
an empty agenda issues the current thread, and the time that a turn takes, are the model's choice (notes/assumptions/1.md). -/
def Obligations.StepRunsDecodedInstruction : Prop :=
  ∀ (s : State) (t : Thread), s.issuesAlone t →
    let s1 := s.pickedAlone t
    (∀ e, fetchPacket t.pc s1 = .error e → step s = turnEnd (.next (afterSlot (settleWord s1 (.error e))))) ∧
    (∀ (packet : List Code) (s2 : State), fetchPacket t.pc s1 = .ok (packet, s2) →
      (∀ k, chainAt (Prc.wc t.prc) (wordIdx t.pc) packet = .error k →
        step s = turnEnd (.next (afterSlot (({ s2 with word := k } : State).trapCur cILLEGAL 0 0)))) ∧
      (∀ c : Chain, chainAt (Prc.wc t.prc) (wordIdx t.pc) packet = .ok c →
        (t.runCount ≠ 0 → 24 < t.runCount + c.count → step s = turnEnd (.next (forceEnd s2 s.cur))) ∧
        (t.runCount = 0 ∨ t.runCount + c.count ≤ 24 →
          (chainCause (s2.gridOf t) t c.words = none → step s = turnEnd (finishSlot c (runChain exec c.words s2))) ∧
          (∀ k cause info, chainCause (s2.gridOf t) t c.words = some (k, cause, info) →
            step s = turnEnd (.next (afterSlot (({ s2 with word := k } : State).trapCur cause 0 info)))))) ∧
      (∀ (w : Code) (b : Bool) (i : Instr), packet[wordIdx t.pc]? = some w → decodeWord w = some ⟨false, b, i⟩ → t.runCount ≤ 23 →
        (∀ p q r u, i ≠ .xpr p q r u) → (∀ x, i ≠ .reservedOpcode x) → (∀ p q r, i = .loop p q r → wordIdx t.pc = 2) →
        decodeCause (s2.gridOf t) t i = none →
        step s = turnEnd (match exec i (enterWord s2 0) with
          | .next s' => .next (afterSlot (if s'.left then s' else retire ⟨[i], b, 1, 1⟩ s'))
          | o => o)))

/-- R42 to R52: words of the spec's worked examples decode to the instructions, chain bits and boundary bits that the examples give. -/
def Obligations.DecodeReadsSpecWords : Prop :=
  ∀ p ∈ ([(0x819228C0, ⟨true, false, .add 36 34 35 false⟩), (0x0C961008, ⟨false, false, .fadd 37 33 0 0 8⟩),
      (0x7027FFFB, ⟨false, true, .bra false 2 false (-5)⟩), (0x068A2000, ⟨false, false, .icmpi 4 2 34 0 0 0⟩),
      (0x18022A0A, ⟨false, false, .sin 0 34 0 10⟩), (0x1A920808, ⟨false, false, .gred 36 32 8 1⟩), (0x109A59E6, ⟨false, false, .ffma 38 37 39 38⟩),
      (0x014DD708, ⟨false, false, .remn 19 29 28 false⟩), (0x095D3498, ⟨false, false, .addr 23 19 18 3⟩), (0x4A6D0020, ⟨false, true, .sprSet 27 32⟩),
      (0x9D821022, ⟨true, false, .xpr 32 33 0 34⟩), (0x80718000, ⟨true, false, .last 24 0 0⟩), (0x33422004, ⟨false, false, .loop 1 34 4⟩),
      (0x36013001, ⟨false, false, .latchSync 0 3 1⟩), (0x3E024105, ⟨false, false, .svc 36 5⟩), (0x65798000, ⟨false, true, .wmap 30 24⟩),
      (0x219A5581, ⟨false, false, .st 38 37 1 3 0 1⟩), (0x229E4185, ⟨false, false, .lda 39 36 0 3 0 false 5⟩),
      (0x26024960, ⟨false, false, .atom 0 36 37 4 0⟩), (0x2B90041C, ⟨false, false, .scatReduce 36 0 1 false false false 1 4⟩),
      (0x3A024400, ⟨false, false, .mpassReduce 0 36⟩)] : List (Code × SlotWord)), decodeWord p.1 = some p.2

/-- R27, R42 to R52: every well-formed instruction of the table, with its chain and boundary bits, is encoded, and its word decodes to it; and the word of
every instruction that decodes is the one it is encoded as, so that no two words decode to one. A reserved opcode is held as its whole word. -/
def Obligations.EncodingRoundTrip : Prop :=
  (∀ sw : SlotWord, sw.instr.isEvent = false → sw.wf = true →
    (∀ x, sw.instr = .reservedOpcode x → x.getLsbD 31 = sw.chain ∧ x.getLsbD 30 = sw.bound) →
    ∃ w, encode sw = some w ∧ decodeWord w = some sw) ∧
  (∀ (w : Code) (sw : SlotWord), decodeWord w = some sw → encode sw = some w)

/-- After reset memory lists nothing, and the memories of the module and its stashes stand in their canonical form. The form is the model's own; an unlisted
byte reads as 0 (notes/assumptions/8.md). -/
def Obligations.ResetMemoryForm : Prop := State.reset.memoryInv = true ∧ State.reset.stashInv = true ∧ State.reset.mem = []

/-- Every step keeps the canonical form of the home memories, and that of every stash: rising addresses, no byte that an unlisted address reads as. The form is the
model's own; an unlisted byte reads as 0 (notes/assumptions/8.md). -/
def Obligations.StepKeepsMemoryForm : Prop :=
  ∀ s s' : State, step s = .next s' → (s.memoryInv = true → s'.memoryInv = true) ∧ (s.stashInv = true → s'.stashInv = true)
end

