-- ==== Sys2Proof/Laws/Encoding.lean ====
section
/-! SUPPORT. Fields of a concatenated word: what a proof that an encoding decodes to its instruction needs. -/
namespace Sys2Proof.Laws

/-- A field that lies wholly in the upper part. -/
theorem field_above {n m k lo : Nat} (x : BitVec n) (y : BitVec m) (h : m ≤ lo) :
    (x ++ y).extractLsb' lo k = x.extractLsb' (lo - m) k := by
  ext i hi
  simp only [BitVec.getElem_extractLsb', BitVec.getLsbD_append]
  rw [if_neg (by omega)]
  congr 1
  omega

/-- A field that lies wholly in the lower part. -/
theorem field_below {n m k lo : Nat} (x : BitVec n) (y : BitVec m) (h : lo + k ≤ m) :
    (x ++ y).extractLsb' lo k = y.extractLsb' lo k := by
  ext i hi
  simp only [BitVec.getElem_extractLsb', BitVec.getLsbD_append]
  rw [if_pos (by omega)]

/-- A bit of the upper part. -/
theorem bit_above {n m i : Nat} (x : BitVec n) (y : BitVec m) (h : m ≤ i) : (x ++ y).getLsbD i = x.getLsbD (i - m) := by
  rw [BitVec.getLsbD_append, if_neg (by omega)]

/-- A bit of the lower part. -/
theorem bit_below {n m i : Nat} (x : BitVec n) (y : BitVec m) (h : i < m) : (x ++ y).getLsbD i = y.getLsbD i := by
  rw [BitVec.getLsbD_append, if_pos (by omega)]

/-- A whole value as a field. -/
theorem field_whole {n : Nat} (x : BitVec n) : x.extractLsb' 0 n = x := by simp

/-- The one bit of a flag. -/
theorem flag_bit (b : Bool) : (e1 b).getLsbD 0 = b := by cases b <;> rfl

/-- A flag as a field. -/
theorem flag_field (b : Bool) : (e1 b).extractLsb' 0 1 = e1 b := by simp

/-- A word whose bits 23:0 decode to an instruction decodes to that instruction with the word's bits C and B. -/
theorem decode_word (c b : Bool) (op : BitVec 6) (body : BitVec 24) (i : Instr)
    (h : decodeBody op.toNat body (e1 c ++ e1 b ++ op ++ body) = some i) (hw : SlotWord.wf ⟨c, b, i⟩ = true) :
    decodeWord (e1 c ++ e1 b ++ op ++ body) = some ⟨c, b, i⟩ := by
  have h1 : (e1 c ++ e1 b ++ op ++ body : BitVec 32).extractLsb' 24 6 = op := by
    rw [field_above _ _ (by decide), field_below _ _ (by decide)]
    exact field_whole op
  have h2 : (e1 c ++ e1 b ++ op ++ body : BitVec 32).extractLsb' 0 24 = body := by
    rw [field_below _ _ (by decide)]
    exact field_whole body
  have h3 : (e1 c ++ e1 b ++ op ++ body : BitVec 32).getLsbD 31 = c := by
    rw [bit_above _ _ (by decide), bit_above _ _ (by decide), bit_above _ _ (by decide)]
    exact flag_bit c
  have h4 : (e1 c ++ e1 b ++ op ++ body : BitVec 32).getLsbD 30 = b := by
    rw [bit_above _ _ (by decide), bit_above _ _ (by decide), bit_below _ _ (by decide)]
    exact flag_bit b
  simp only [decodeWord, h1, h2, h, h3, h4, hw, if_true]

/-- A word of four fields is the fields put together. -/
theorem word_fields (w : Code) : e1 (w.getLsbD 31) ++ e1 (w.getLsbD 30) ++ w.extractLsb' 24 6 ++ w.extractLsb' 0 24 = w := by
  apply BitVec.eq_of_getLsbD_eq
  intro i hi
  rcases Nat.lt_or_ge i 24 with h | h
  · rw [bit_below _ _ h, BitVec.getLsbD_extractLsb']
    simp [h]
  · rcases Nat.lt_or_ge i 30 with h' | h'
    · rw [bit_above _ _ h, bit_below _ _ (by omega), BitVec.getLsbD_extractLsb']
      have : 24 + (i - 24) = i := by omega
      simp [this]
      omega
    · obtain rfl | rfl : i = 30 ∨ i = 31 := by omega
      · rw [bit_above _ _ (by decide), bit_above _ _ (by decide), bit_below _ _ (by decide)]
        exact flag_bit _
      · rw [bit_above _ _ (by decide), bit_above _ _ (by decide), bit_above _ _ (by decide)]
        exact flag_bit _

/-- A reserved opcode is its whole word. -/
theorem reserved_word (c b : Bool) (x : Code) (hw : SlotWord.wf ⟨c, b, .reservedOpcode x⟩ = true) (hx : x.getLsbD 31 = c ∧ x.getLsbD 30 = b) :
    ∃ w, encode ⟨c, b, .reservedOpcode x⟩ = some w ∧ decodeWord w = some ⟨c, b, .reservedOpcode x⟩ := by
  obtain ⟨rfl, rfl⟩ := hx
  refine ⟨x, ?_, ?_⟩
  · simp only [encode, encodeWord, encodeBody, Option.map_some]
    exact congrArg some (word_fields x)
  · have hop : (x.extractLsb' 24 6).toNat = 45 ∨ (x.extractLsb' 24 6).toNat = 63 := by
      have := (Bool.and_eq_true_iff.mp hw).1
      simpa [Instr.wf, reservedOp] using this
    have hd : decodeBody (x.extractLsb' 24 6).toNat (x.extractLsb' 0 24) x = some (.reservedOpcode x) := by
      rcases hop with h | h <;> rw [h] <;> rfl
    simp only [decodeWord, hd, hw, if_true]

end Sys2Proof.Laws
end

