-- ==== Sys2Proof/Laws/Maps.lean ====
section
/-! SUPPORT. Finite maps and memories: a read after a write, and the canonical form that every memory operation keeps. -/
namespace Sys2Proof.Machine

/-! ### Finite maps -/

/-- A read of what was put. -/
@[simp] theorem AMap.get?_put_self {β : Type} (m : AMap β) (k : Nat) (v : β) : AMap.get? (AMap.put m k v) k = some v := by
  induction m with
  | nil => simp [AMap.put, AMap.get?]
  | cons p m ih =>
    obtain ⟨j, w⟩ := p
    simp only [AMap.put]
    split
    · simp [AMap.get?]
    · split
      · simp [AMap.get?]
      · rename_i h1 h2
        simp [AMap.get?, h1, h2, ih]

/-- Of two puts at one key the later one stands. -/
@[simp] theorem AMap.put_put {β : Type} (m : AMap β) (k : Nat) (v w : β) : AMap.put (AMap.put m k v) k w = AMap.put m k w := by
  induction m with
  | nil => simp [AMap.put]
  | cons p m ih =>
    obtain ⟨j, x⟩ := p
    by_cases h1 : j = k
    · simp [AMap.put, h1]
    · by_cases h2 : k < j
      · simp [AMap.put, h1, h2]
      · simp [AMap.put, h1, h2, ih]

/-- Putting back what a key holds changes nothing. -/
theorem AMap.put_get {β : Type} (m : AMap β) (k : Nat) (v : β) (h : AMap.get? m k = some v) : AMap.put m k v = m := by
  induction m with
  | nil => simp [AMap.get?] at h
  | cons p m ih =>
    obtain ⟨j, x⟩ := p
    by_cases h1 : j = k
    · simp [AMap.get?, h1] at h
      simp [AMap.put, h1, h]
    · by_cases h2 : k < j
      · simp [AMap.get?, h1, h2] at h
      · simp [AMap.get?, h1, h2] at h
        simp [AMap.put, h1, h2, ih h]

/-- Below the first key nothing is held. -/
theorem AMap.get?_below {β : Type} (m : AMap β) (lo k : Nat) (h : risesFrom lo m = true) (hk : k < lo) : AMap.get? m k = none := by
  cases m with
  | nil => rfl
  | cons p m =>
    obtain ⟨j, x⟩ := p
    simp only [risesFrom, Bool.and_eq_true, decide_eq_true_eq] at h
    have h1 : j ≠ k := by omega
    have h2 : k < j := by omega
    simp [AMap.get?, h1, h2]

/-- Another key is read as before a put, whatever the order of the keys. -/
theorem AMap.get?_put_ne {β : Type} (m : AMap β) (k a : Nat) (v : β) (h : a ≠ k) : AMap.get? (AMap.put m k v) a = AMap.get? m a := by
  induction m with
  | nil => by_cases h2 : a < k <;> simp [AMap.put, AMap.get?, Ne.symm h]
  | cons p m ih =>
    obtain ⟨j, x⟩ := p
    by_cases h1 : j = k
    · subst h1
      simp [AMap.put, AMap.get?, Ne.symm h]
    · by_cases h2 : k < j
      · by_cases h3 : a < k
        · have h4 : j ≠ a := by omega
          have h5 : a < j := by omega
          simp [AMap.put, AMap.get?, h1, h2, h3, h4, h5, Ne.symm h]
        · simp [AMap.put, AMap.get?, h1, h2, h3, Ne.symm h]
      · simp only [AMap.put, h1, h2, if_false, AMap.get?, ih]
/-- A lookup in a map whose values are all changed. -/
theorem AMap.get?_map {β γ : Type} (m : AMap β) (f : β → γ) (k : Nat) :
    AMap.get? (m.map fun p => (p.1, f p.2)) k = (AMap.get? m k).map f := by
  induction m with
  | nil => rfl
  | cons p m ih =>
    obtain ⟨j, x⟩ := p
    by_cases h1 : j = k
    · simp [AMap.get?, h1]
    · by_cases h2 : k < j <;> simp [AMap.get?, h1, h2, ih]

/-- A deleted key is held no more. -/
theorem AMap.get?_del_self {β : Type} (m : AMap β) (lo k : Nat) (hm : risesFrom lo m = true) : AMap.get? (AMap.del m k) k = none := by
  induction m generalizing lo with
  | nil => rfl
  | cons p m ih =>
    obtain ⟨j, x⟩ := p
    simp only [risesFrom, Bool.and_eq_true, decide_eq_true_eq] at hm
    by_cases h1 : j = k
    · subst h1
      simp only [AMap.del, if_true]
      exact AMap.get?_below m (j + 1) j hm.2 (by omega)
    · by_cases h2 : k < j
      · simp [AMap.del, AMap.get?, h1, h2]
      · simp [AMap.del, AMap.get?, h1, h2, ih (j + 1) hm.2]

/-- Another key is read as before a deletion. -/
theorem AMap.get?_del_ne {β : Type} (m : AMap β) (lo k a : Nat) (hm : risesFrom lo m = true) (h : a ≠ k) :
    AMap.get? (AMap.del m k) a = AMap.get? m a := by
  induction m generalizing lo with
  | nil => rfl
  | cons p m ih =>
    obtain ⟨j, x⟩ := p
    simp only [risesFrom, Bool.and_eq_true, decide_eq_true_eq] at hm
    by_cases h1 : j = k
    · subst h1
      simp only [AMap.del, if_true, AMap.get?, Ne.symm h, if_false]
      by_cases h2 : a < j
      · simp [h2, AMap.get?_below m (j + 1) a hm.2 (by omega)]
      · simp [h2]
    · by_cases h2 : k < j
      · simp [AMap.del, h1, h2]
      · simp [AMap.del, AMap.get?, h1, h2, ih (j + 1) hm.2]

/-- Keys that rise from a higher bound rise from a lower one. -/
theorem risesFrom_mono {β : Type} (m : AMap β) (a b : Nat) (h : a ≤ b) (hm : risesFrom b m = true) : risesFrom a m = true := by
  cases m with
  | nil => rfl
  | cons p m =>
    obtain ⟨j, x⟩ := p
    simp only [risesFrom, Bool.and_eq_true, decide_eq_true_eq] at hm ⊢
    exact ⟨by omega, hm.2⟩

/-- A put keeps rising keys. -/
theorem risesFrom_put {β : Type} (m : AMap β) (lo k : Nat) (v : β) (hk : lo ≤ k) (hm : risesFrom lo m = true) :
    risesFrom lo (AMap.put m k v) = true := by
  induction m generalizing lo with
  | nil => simp [AMap.put, risesFrom, hk]
  | cons p m ih =>
    obtain ⟨j, x⟩ := p
    have hm' := hm
    simp only [risesFrom, Bool.and_eq_true, decide_eq_true_eq] at hm'
    by_cases h1 : j = k
    · subst h1
      simp [AMap.put, risesFrom, hk, hm'.2]
    · by_cases h2 : k < j
      · have h3 : k + 1 ≤ j := h2
        simp [AMap.put, risesFrom, h1, h2, hk, h3, hm'.2]
      · simp only [AMap.put, h1, h2, if_false, risesFrom, Bool.and_eq_true, decide_eq_true_eq]
        exact ⟨hm'.1, ih (j + 1) (by omega) hm'.2⟩

/-- A deletion keeps rising keys. -/
theorem risesFrom_del {β : Type} (m : AMap β) (lo k : Nat) (hm : risesFrom lo m = true) : risesFrom lo (AMap.del m k) = true := by
  induction m generalizing lo with
  | nil => rfl
  | cons p m ih =>
    obtain ⟨j, x⟩ := p
    have hm' := hm
    simp only [risesFrom, Bool.and_eq_true, decide_eq_true_eq] at hm'
    by_cases h1 : j = k
    · simp only [AMap.del, h1, if_true]
      exact risesFrom_mono m lo (j + 1) (by omega) hm'.2
    · by_cases h2 : k < j
      · simp [AMap.del, h1, h2, hm]
      · simp only [AMap.del, h1, h2, if_false, risesFrom, Bool.and_eq_true, decide_eq_true_eq]
        exact ⟨hm'.1, ih (j + 1) hm'.2⟩

/-- A filter keeps rising keys. -/
theorem risesFrom_filter {β : Type} (m : AMap β) (lo : Nat) (p : Nat × β → Bool) (hm : risesFrom lo m = true) :
    risesFrom lo (m.filter p) = true := by
  induction m generalizing lo with
  | nil => rfl
  | cons q m ih =>
    obtain ⟨j, x⟩ := q
    simp only [risesFrom, Bool.and_eq_true, decide_eq_true_eq] at hm
    by_cases h : p (j, x)
    · simp only [List.filter_cons, h, if_true, risesFrom, Bool.and_eq_true, decide_eq_true_eq]
      exact ⟨hm.1, ih (j + 1) hm.2⟩
    · simp only [List.filter_cons, h]
      exact ih lo (risesFrom_mono m lo (j + 1) (by omega) hm.2)

/-! ### Memories -/

/-- What a put holds satisfies what its entry and the others do. -/
theorem all_put {β : Type} (m : AMap β) (k : Nat) (v : β) (f : Nat × β → Bool) (hv : f (k, v) = true) (hm : m.all f = true) :
    (AMap.put m k v).all f = true := by
  induction m with
  | nil => simp [AMap.put, hv]
  | cons p m ih =>
    obtain ⟨j, x⟩ := p
    simp only [List.all_cons, Bool.and_eq_true] at hm
    by_cases h1 : j = k
    · simp [AMap.put, h1, hv, hm.2]
    · by_cases h2 : k < j
      · simp [AMap.put, h1, h2, hv, hm.1, hm.2]
      · simp [AMap.put, h1, h2, hm.1, ih hm.2]

/-- What a deletion leaves satisfies what all did. -/
theorem all_del {β : Type} (m : AMap β) (k : Nat) (f : Nat × β → Bool) (hm : m.all f = true) : (AMap.del m k).all f = true := by
  induction m with
  | nil => rfl
  | cons p m ih =>
    obtain ⟨j, x⟩ := p
    simp only [List.all_cons, Bool.and_eq_true] at hm
    by_cases h1 : j = k
    · simp [AMap.del, h1, hm.2]
    · by_cases h2 : k < j
      · simp [AMap.del, h1, h2, hm.1, hm.2]
      · simp [AMap.del, h1, h2, hm.1, ih hm.2]

/-- Writing a byte keeps the canonical form. -/
theorem Memory.wf_writeCell (m : List Host.Cell) (a : Nat) (b : BitVec 8) (h : Memory.wf m = true) : Memory.wf (writeCell m a b) = true := by
  simp only [Memory.wf, Bool.and_eq_true] at h ⊢
  unfold writeCell
  split
  · exact ⟨risesFrom_del m 0 a h.1, all_del m a _ h.2⟩
  · rename_i hb
    exact ⟨risesFrom_put m 0 a b (Nat.zero_le _) h.1, all_put m a b _ (decide_eq_true hb) h.2⟩

/-- Writing bytes keeps the canonical form. -/
theorem Memory.wf_writeCells (bs : List (BitVec 8)) (m : List Host.Cell) (a : Nat) (h : Memory.wf m = true) :
    Memory.wf (writeCells m a bs) = true := by
  induction bs generalizing m a with
  | nil => exact h
  | cons b bs ih => exact ih (writeCell m a b) (a + 1) (Memory.wf_writeCell m a b h)

/-- Filtering keeps the canonical form. -/
theorem Memory.wf_filter (m : List Host.Cell) (p : Host.Cell → Bool) (h : Memory.wf m = true) : Memory.wf (m.filter p) = true := by
  simp only [Memory.wf, Bool.and_eq_true] at h ⊢
  refine ⟨risesFrom_filter m 0 p h.1, ?_⟩
  rw [List.all_eq_true] at h ⊢
  intro x hx
  exact h.2 x (List.mem_of_mem_filter hx)

/-- A byte reads as it was written. -/
theorem readCell_writeCell_self (m : List Host.Cell) (a : Nat) (b : BitVec 8) (h : Memory.wf m = true) :
    readCell (writeCell m a b) a = b := by
  simp only [Memory.wf, Bool.and_eq_true] at h
  unfold readCell writeCell
  split
  · rename_i hb
    rw [AMap.get?_del_self m 0 a h.1, hb]
    rfl
  · rw [AMap.get?_put_self]
    rfl

/-- Every other byte reads as before. -/
theorem readCell_writeCell_ne (m : List Host.Cell) (a c : Nat) (b : BitVec 8) (h : Memory.wf m = true) (hc : c ≠ a) :
    readCell (writeCell m a b) c = readCell m c := by
  simp only [Memory.wf, Bool.and_eq_true] at h
  unfold readCell writeCell
  split
  · rw [AMap.get?_del_ne m 0 a c h.1 hc]
  · rw [AMap.get?_put_ne m a c b hc]

/-- Bytes outside a write read as before. -/
theorem readCell_writeCells_outside (bs : List (BitVec 8)) (m : List Host.Cell) (a c : Nat) (h : Memory.wf m = true)
    (hc : c < a ∨ a + bs.length ≤ c) : readCell (writeCells m a bs) c = readCell m c := by
  induction bs generalizing m a with
  | nil => rfl
  | cons b bs ih =>
    simp only [List.length_cons] at hc
    rw [writeCells, ih (writeCell m a b) (a + 1) (Memory.wf_writeCell m a b h) (by omega), readCell_writeCell_ne m a c b h (by omega)]

end Sys2Proof.Machine
end

