-- ==== Sys2Proof/Laws/State.lean ====
section
/-! SUPPORT. One lemma for each field and each named update of the state: what the update leaves alone. -/
namespace Sys2Proof.Machine.State

@[simp] theorem setTh_time (s : State) (u : Nat) (t : Thread) : (s.setTh u t).time = s.time := rfl
@[simp] theorem setTh_mem (s : State) (u : Nat) (t : Thread) : (s.setTh u t).mem = s.mem := rfl
@[simp] theorem setTh_l2 (s : State) (u : Nat) (t : Thread) : (s.setTh u t).l2 = s.l2 := rfl
@[simp] theorem setTh_bad (s : State) (u : Nat) (t : Thread) : (s.setTh u t).bad = s.bad := rfl
@[simp] theorem setTh_soft (s : State) (u : Nat) (t : Thread) : (s.setTh u t).soft = s.soft := rfl
@[simp] theorem setTh_dir (s : State) (u : Nat) (t : Thread) : (s.setTh u t).dir = s.dir := rfl
@[simp] theorem setTh_threads (s : State) (u : Nat) (t : Thread) : (s.setTh u t).threads = AMap.put s.threads u t := rfl
@[simp] theorem setTh_groups (s : State) (u : Nat) (t : Thread) : (s.setTh u t).groups = s.groups := rfl
@[simp] theorem setTh_teams (s : State) (u : Nat) (t : Thread) : (s.setTh u t).teams = s.teams := rfl
@[simp] theorem setTh_cohorts (s : State) (u : Nat) (t : Thread) : (s.setTh u t).cohorts = s.cohorts := rfl
@[simp] theorem setTh_grids (s : State) (u : Nat) (t : Thread) : (s.setTh u t).grids = s.grids := rfl
@[simp] theorem setTh_past (s : State) (u : Nat) (t : Thread) : (s.setTh u t).past = s.past := rfl
@[simp] theorem setTh_cores (s : State) (u : Nat) (t : Thread) : (s.setTh u t).cores = s.cores := rfl
@[simp] theorem setTh_clusters (s : State) (u : Nat) (t : Thread) : (s.setTh u t).clusters = s.clusters := rfl
@[simp] theorem setTh_dies (s : State) (u : Nat) (t : Thread) : (s.setTh u t).dies = s.dies := rfl
@[simp] theorem setTh_sites (s : State) (u : Nat) (t : Thread) : (s.setTh u t).sites = s.sites := rfl
@[simp] theorem setTh_nacked (s : State) (u : Nat) (t : Thread) : (s.setTh u t).nacked = s.nacked := rfl
@[simp] theorem setTh_wire (s : State) (u : Nat) (t : Thread) : (s.setTh u t).wire = s.wire := rfl
@[simp] theorem setTh_pending (s : State) (u : Nat) (t : Thread) : (s.setTh u t).pending = s.pending := rfl
@[simp] theorem setTh_boot (s : State) (u : Nat) (t : Thread) : (s.setTh u t).boot = s.boot := rfl
@[simp] theorem setTh_anchor (s : State) (u : Nat) (t : Thread) : (s.setTh u t).anchor = s.anchor := rfl
@[simp] theorem setTh_hbmWiped (s : State) (u : Nat) (t : Thread) : (s.setTh u t).hbmWiped = s.hbmWiped := rfl
@[simp] theorem setTh_image (s : State) (u : Nat) (t : Thread) : (s.setTh u t).image = s.image := rfl
@[simp] theorem setTh_imgTries (s : State) (u : Nat) (t : Thread) : (s.setTh u t).imgTries = s.imgTries := rfl
@[simp] theorem setTh_imgNext (s : State) (u : Nat) (t : Thread) : (s.setTh u t).imgNext = s.imgNext := rfl
@[simp] theorem setTh_imgLen (s : State) (u : Nat) (t : Thread) : (s.setTh u t).imgLen = s.imgLen := rfl
@[simp] theorem setTh_running (s : State) (u : Nat) (t : Thread) : (s.setTh u t).running = s.running := rfl
@[simp] theorem setTh_challenge (s : State) (u : Nat) (t : Thread) : (s.setTh u t).challenge = s.challenge := rfl
@[simp] theorem setTh_cmdRun (s : State) (u : Nat) (t : Thread) : (s.setTh u t).cmdRun = s.cmdRun := rfl
@[simp] theorem setTh_pairs (s : State) (u : Nat) (t : Thread) : (s.setTh u t).pairs = s.pairs := rfl
@[simp] theorem setTh_topo (s : State) (u : Nat) (t : Thread) : (s.setTh u t).topo = s.topo := rfl
@[simp] theorem setTh_topoGen (s : State) (u : Nat) (t : Thread) : (s.setTh u t).topoGen = s.topoGen := rfl
@[simp] theorem setTh_topoDue (s : State) (u : Nat) (t : Thread) : (s.setTh u t).topoDue = s.topoDue := rfl
@[simp] theorem setTh_routes (s : State) (u : Nat) (t : Thread) : (s.setTh u t).routes = s.routes := rfl
@[simp] theorem setTh_agenda (s : State) (u : Nat) (t : Thread) : (s.setTh u t).agenda = s.agenda := rfl
@[simp] theorem setTh_cur (s : State) (u : Nat) (t : Thread) : (s.setTh u t).cur = s.cur := rfl
@[simp] theorem setTh_word (s : State) (u : Nat) (t : Thread) : (s.setTh u t).word = s.word := rfl
@[simp] theorem setTh_left (s : State) (u : Nat) (t : Thread) : (s.setTh u t).left = s.left := rfl
@[simp] theorem setTh_released (s : State) (u : Nat) (t : Thread) : (s.setTh u t).released = s.released := rfl
@[simp] theorem setTh_freeCtr (s : State) (u : Nat) (t : Thread) : (s.setTh u t).freeCtr = s.freeCtr := rfl
@[simp] theorem setTh_fresh (s : State) (u : Nat) (t : Thread) : (s.setTh u t).fresh = s.fresh := rfl

@[simp] theorem setCore_time (s : State) (k : Nat) (c : Core) : (s.setCore k c).time = s.time := rfl
@[simp] theorem setCore_mem (s : State) (k : Nat) (c : Core) : (s.setCore k c).mem = s.mem := rfl
@[simp] theorem setCore_l2 (s : State) (k : Nat) (c : Core) : (s.setCore k c).l2 = s.l2 := rfl
@[simp] theorem setCore_bad (s : State) (k : Nat) (c : Core) : (s.setCore k c).bad = s.bad := rfl
@[simp] theorem setCore_soft (s : State) (k : Nat) (c : Core) : (s.setCore k c).soft = s.soft := rfl
@[simp] theorem setCore_dir (s : State) (k : Nat) (c : Core) : (s.setCore k c).dir = s.dir := rfl
@[simp] theorem setCore_threads (s : State) (k : Nat) (c : Core) : (s.setCore k c).threads = s.threads := rfl
@[simp] theorem setCore_groups (s : State) (k : Nat) (c : Core) : (s.setCore k c).groups = s.groups := rfl
@[simp] theorem setCore_teams (s : State) (k : Nat) (c : Core) : (s.setCore k c).teams = s.teams := rfl
@[simp] theorem setCore_cohorts (s : State) (k : Nat) (c : Core) : (s.setCore k c).cohorts = s.cohorts := rfl
@[simp] theorem setCore_grids (s : State) (k : Nat) (c : Core) : (s.setCore k c).grids = s.grids := rfl
@[simp] theorem setCore_past (s : State) (k : Nat) (c : Core) : (s.setCore k c).past = s.past := rfl
@[simp] theorem setCore_cores (s : State) (k : Nat) (c : Core) : (s.setCore k c).cores = AMap.put s.cores k c := rfl
@[simp] theorem setCore_clusters (s : State) (k : Nat) (c : Core) : (s.setCore k c).clusters = s.clusters := rfl
@[simp] theorem setCore_dies (s : State) (k : Nat) (c : Core) : (s.setCore k c).dies = s.dies := rfl
@[simp] theorem setCore_sites (s : State) (k : Nat) (c : Core) : (s.setCore k c).sites = s.sites := rfl
@[simp] theorem setCore_nacked (s : State) (k : Nat) (c : Core) : (s.setCore k c).nacked = s.nacked := rfl
@[simp] theorem setCore_wire (s : State) (k : Nat) (c : Core) : (s.setCore k c).wire = s.wire := rfl
@[simp] theorem setCore_pending (s : State) (k : Nat) (c : Core) : (s.setCore k c).pending = s.pending := rfl
@[simp] theorem setCore_boot (s : State) (k : Nat) (c : Core) : (s.setCore k c).boot = s.boot := rfl
@[simp] theorem setCore_anchor (s : State) (k : Nat) (c : Core) : (s.setCore k c).anchor = s.anchor := rfl
@[simp] theorem setCore_hbmWiped (s : State) (k : Nat) (c : Core) : (s.setCore k c).hbmWiped = s.hbmWiped := rfl
@[simp] theorem setCore_image (s : State) (k : Nat) (c : Core) : (s.setCore k c).image = s.image := rfl
@[simp] theorem setCore_imgTries (s : State) (k : Nat) (c : Core) : (s.setCore k c).imgTries = s.imgTries := rfl
@[simp] theorem setCore_imgNext (s : State) (k : Nat) (c : Core) : (s.setCore k c).imgNext = s.imgNext := rfl
@[simp] theorem setCore_imgLen (s : State) (k : Nat) (c : Core) : (s.setCore k c).imgLen = s.imgLen := rfl
@[simp] theorem setCore_running (s : State) (k : Nat) (c : Core) : (s.setCore k c).running = s.running := rfl
@[simp] theorem setCore_challenge (s : State) (k : Nat) (c : Core) : (s.setCore k c).challenge = s.challenge := rfl
@[simp] theorem setCore_cmdRun (s : State) (k : Nat) (c : Core) : (s.setCore k c).cmdRun = s.cmdRun := rfl
@[simp] theorem setCore_pairs (s : State) (k : Nat) (c : Core) : (s.setCore k c).pairs = s.pairs := rfl
@[simp] theorem setCore_topo (s : State) (k : Nat) (c : Core) : (s.setCore k c).topo = s.topo := rfl
@[simp] theorem setCore_topoGen (s : State) (k : Nat) (c : Core) : (s.setCore k c).topoGen = s.topoGen := rfl
@[simp] theorem setCore_topoDue (s : State) (k : Nat) (c : Core) : (s.setCore k c).topoDue = s.topoDue := rfl
@[simp] theorem setCore_routes (s : State) (k : Nat) (c : Core) : (s.setCore k c).routes = s.routes := rfl
@[simp] theorem setCore_agenda (s : State) (k : Nat) (c : Core) : (s.setCore k c).agenda = s.agenda := rfl
@[simp] theorem setCore_cur (s : State) (k : Nat) (c : Core) : (s.setCore k c).cur = s.cur := rfl
@[simp] theorem setCore_word (s : State) (k : Nat) (c : Core) : (s.setCore k c).word = s.word := rfl
@[simp] theorem setCore_left (s : State) (k : Nat) (c : Core) : (s.setCore k c).left = s.left := rfl
@[simp] theorem setCore_released (s : State) (k : Nat) (c : Core) : (s.setCore k c).released = s.released := rfl
@[simp] theorem setCore_freeCtr (s : State) (k : Nat) (c : Core) : (s.setCore k c).freeCtr = s.freeCtr := rfl
@[simp] theorem setCore_fresh (s : State) (k : Nat) (c : Core) : (s.setCore k c).fresh = s.fresh := rfl

@[simp] theorem setCluster_time (s : State) (k : Nat) (c : Cluster) : (s.setCluster k c).time = s.time := rfl
@[simp] theorem setCluster_mem (s : State) (k : Nat) (c : Cluster) : (s.setCluster k c).mem = s.mem := rfl
@[simp] theorem setCluster_l2 (s : State) (k : Nat) (c : Cluster) : (s.setCluster k c).l2 = s.l2 := rfl
@[simp] theorem setCluster_bad (s : State) (k : Nat) (c : Cluster) : (s.setCluster k c).bad = s.bad := rfl
@[simp] theorem setCluster_soft (s : State) (k : Nat) (c : Cluster) : (s.setCluster k c).soft = s.soft := rfl
@[simp] theorem setCluster_dir (s : State) (k : Nat) (c : Cluster) : (s.setCluster k c).dir = s.dir := rfl
@[simp] theorem setCluster_threads (s : State) (k : Nat) (c : Cluster) : (s.setCluster k c).threads = s.threads := rfl
@[simp] theorem setCluster_groups (s : State) (k : Nat) (c : Cluster) : (s.setCluster k c).groups = s.groups := rfl
@[simp] theorem setCluster_teams (s : State) (k : Nat) (c : Cluster) : (s.setCluster k c).teams = s.teams := rfl
@[simp] theorem setCluster_cohorts (s : State) (k : Nat) (c : Cluster) : (s.setCluster k c).cohorts = s.cohorts := rfl
@[simp] theorem setCluster_grids (s : State) (k : Nat) (c : Cluster) : (s.setCluster k c).grids = s.grids := rfl
@[simp] theorem setCluster_past (s : State) (k : Nat) (c : Cluster) : (s.setCluster k c).past = s.past := rfl
@[simp] theorem setCluster_cores (s : State) (k : Nat) (c : Cluster) : (s.setCluster k c).cores = s.cores := rfl
@[simp] theorem setCluster_clusters (s : State) (k : Nat) (c : Cluster) : (s.setCluster k c).clusters = AMap.put s.clusters k c := rfl
@[simp] theorem setCluster_dies (s : State) (k : Nat) (c : Cluster) : (s.setCluster k c).dies = s.dies := rfl
@[simp] theorem setCluster_sites (s : State) (k : Nat) (c : Cluster) : (s.setCluster k c).sites = s.sites := rfl
@[simp] theorem setCluster_nacked (s : State) (k : Nat) (c : Cluster) : (s.setCluster k c).nacked = s.nacked := rfl
@[simp] theorem setCluster_wire (s : State) (k : Nat) (c : Cluster) : (s.setCluster k c).wire = s.wire := rfl
@[simp] theorem setCluster_pending (s : State) (k : Nat) (c : Cluster) : (s.setCluster k c).pending = s.pending := rfl
@[simp] theorem setCluster_boot (s : State) (k : Nat) (c : Cluster) : (s.setCluster k c).boot = s.boot := rfl
@[simp] theorem setCluster_anchor (s : State) (k : Nat) (c : Cluster) : (s.setCluster k c).anchor = s.anchor := rfl
@[simp] theorem setCluster_hbmWiped (s : State) (k : Nat) (c : Cluster) : (s.setCluster k c).hbmWiped = s.hbmWiped := rfl
@[simp] theorem setCluster_image (s : State) (k : Nat) (c : Cluster) : (s.setCluster k c).image = s.image := rfl
@[simp] theorem setCluster_imgTries (s : State) (k : Nat) (c : Cluster) : (s.setCluster k c).imgTries = s.imgTries := rfl
@[simp] theorem setCluster_imgNext (s : State) (k : Nat) (c : Cluster) : (s.setCluster k c).imgNext = s.imgNext := rfl
@[simp] theorem setCluster_imgLen (s : State) (k : Nat) (c : Cluster) : (s.setCluster k c).imgLen = s.imgLen := rfl
@[simp] theorem setCluster_running (s : State) (k : Nat) (c : Cluster) : (s.setCluster k c).running = s.running := rfl
@[simp] theorem setCluster_challenge (s : State) (k : Nat) (c : Cluster) : (s.setCluster k c).challenge = s.challenge := rfl
@[simp] theorem setCluster_cmdRun (s : State) (k : Nat) (c : Cluster) : (s.setCluster k c).cmdRun = s.cmdRun := rfl
@[simp] theorem setCluster_pairs (s : State) (k : Nat) (c : Cluster) : (s.setCluster k c).pairs = s.pairs := rfl
@[simp] theorem setCluster_topo (s : State) (k : Nat) (c : Cluster) : (s.setCluster k c).topo = s.topo := rfl
@[simp] theorem setCluster_topoGen (s : State) (k : Nat) (c : Cluster) : (s.setCluster k c).topoGen = s.topoGen := rfl
@[simp] theorem setCluster_topoDue (s : State) (k : Nat) (c : Cluster) : (s.setCluster k c).topoDue = s.topoDue := rfl
@[simp] theorem setCluster_routes (s : State) (k : Nat) (c : Cluster) : (s.setCluster k c).routes = s.routes := rfl
@[simp] theorem setCluster_agenda (s : State) (k : Nat) (c : Cluster) : (s.setCluster k c).agenda = s.agenda := rfl
@[simp] theorem setCluster_cur (s : State) (k : Nat) (c : Cluster) : (s.setCluster k c).cur = s.cur := rfl
@[simp] theorem setCluster_word (s : State) (k : Nat) (c : Cluster) : (s.setCluster k c).word = s.word := rfl
@[simp] theorem setCluster_left (s : State) (k : Nat) (c : Cluster) : (s.setCluster k c).left = s.left := rfl
@[simp] theorem setCluster_released (s : State) (k : Nat) (c : Cluster) : (s.setCluster k c).released = s.released := rfl
@[simp] theorem setCluster_freeCtr (s : State) (k : Nat) (c : Cluster) : (s.setCluster k c).freeCtr = s.freeCtr := rfl
@[simp] theorem setCluster_fresh (s : State) (k : Nat) (c : Cluster) : (s.setCluster k c).fresh = s.fresh := rfl

@[simp] theorem setDie_time (s : State) (d : Nat) (x : Die) : (s.setDie d x).time = s.time := rfl
@[simp] theorem setDie_mem (s : State) (d : Nat) (x : Die) : (s.setDie d x).mem = s.mem := rfl
@[simp] theorem setDie_l2 (s : State) (d : Nat) (x : Die) : (s.setDie d x).l2 = s.l2 := rfl
@[simp] theorem setDie_bad (s : State) (d : Nat) (x : Die) : (s.setDie d x).bad = s.bad := rfl
@[simp] theorem setDie_soft (s : State) (d : Nat) (x : Die) : (s.setDie d x).soft = s.soft := rfl
@[simp] theorem setDie_dir (s : State) (d : Nat) (x : Die) : (s.setDie d x).dir = s.dir := rfl
@[simp] theorem setDie_threads (s : State) (d : Nat) (x : Die) : (s.setDie d x).threads = s.threads := rfl
@[simp] theorem setDie_groups (s : State) (d : Nat) (x : Die) : (s.setDie d x).groups = s.groups := rfl
@[simp] theorem setDie_teams (s : State) (d : Nat) (x : Die) : (s.setDie d x).teams = s.teams := rfl
@[simp] theorem setDie_cohorts (s : State) (d : Nat) (x : Die) : (s.setDie d x).cohorts = s.cohorts := rfl
@[simp] theorem setDie_grids (s : State) (d : Nat) (x : Die) : (s.setDie d x).grids = s.grids := rfl
@[simp] theorem setDie_past (s : State) (d : Nat) (x : Die) : (s.setDie d x).past = s.past := rfl
@[simp] theorem setDie_cores (s : State) (d : Nat) (x : Die) : (s.setDie d x).cores = s.cores := rfl
@[simp] theorem setDie_clusters (s : State) (d : Nat) (x : Die) : (s.setDie d x).clusters = s.clusters := rfl
@[simp] theorem setDie_dies (s : State) (d : Nat) (x : Die) : (s.setDie d x).dies = AMap.put s.dies d x := rfl
@[simp] theorem setDie_sites (s : State) (d : Nat) (x : Die) : (s.setDie d x).sites = s.sites := rfl
@[simp] theorem setDie_nacked (s : State) (d : Nat) (x : Die) : (s.setDie d x).nacked = s.nacked := rfl
@[simp] theorem setDie_wire (s : State) (d : Nat) (x : Die) : (s.setDie d x).wire = s.wire := rfl
@[simp] theorem setDie_pending (s : State) (d : Nat) (x : Die) : (s.setDie d x).pending = s.pending := rfl
@[simp] theorem setDie_boot (s : State) (d : Nat) (x : Die) : (s.setDie d x).boot = s.boot := rfl
@[simp] theorem setDie_anchor (s : State) (d : Nat) (x : Die) : (s.setDie d x).anchor = s.anchor := rfl
@[simp] theorem setDie_hbmWiped (s : State) (d : Nat) (x : Die) : (s.setDie d x).hbmWiped = s.hbmWiped := rfl
@[simp] theorem setDie_image (s : State) (d : Nat) (x : Die) : (s.setDie d x).image = s.image := rfl
@[simp] theorem setDie_imgTries (s : State) (d : Nat) (x : Die) : (s.setDie d x).imgTries = s.imgTries := rfl
@[simp] theorem setDie_imgNext (s : State) (d : Nat) (x : Die) : (s.setDie d x).imgNext = s.imgNext := rfl
@[simp] theorem setDie_imgLen (s : State) (d : Nat) (x : Die) : (s.setDie d x).imgLen = s.imgLen := rfl
@[simp] theorem setDie_running (s : State) (d : Nat) (x : Die) : (s.setDie d x).running = s.running := rfl
@[simp] theorem setDie_challenge (s : State) (d : Nat) (x : Die) : (s.setDie d x).challenge = s.challenge := rfl
@[simp] theorem setDie_cmdRun (s : State) (d : Nat) (x : Die) : (s.setDie d x).cmdRun = s.cmdRun := rfl
@[simp] theorem setDie_pairs (s : State) (d : Nat) (x : Die) : (s.setDie d x).pairs = s.pairs := rfl
@[simp] theorem setDie_topo (s : State) (d : Nat) (x : Die) : (s.setDie d x).topo = s.topo := rfl
@[simp] theorem setDie_topoGen (s : State) (d : Nat) (x : Die) : (s.setDie d x).topoGen = s.topoGen := rfl
@[simp] theorem setDie_topoDue (s : State) (d : Nat) (x : Die) : (s.setDie d x).topoDue = s.topoDue := rfl
@[simp] theorem setDie_routes (s : State) (d : Nat) (x : Die) : (s.setDie d x).routes = s.routes := rfl
@[simp] theorem setDie_agenda (s : State) (d : Nat) (x : Die) : (s.setDie d x).agenda = s.agenda := rfl
@[simp] theorem setDie_cur (s : State) (d : Nat) (x : Die) : (s.setDie d x).cur = s.cur := rfl
@[simp] theorem setDie_word (s : State) (d : Nat) (x : Die) : (s.setDie d x).word = s.word := rfl
@[simp] theorem setDie_left (s : State) (d : Nat) (x : Die) : (s.setDie d x).left = s.left := rfl
@[simp] theorem setDie_released (s : State) (d : Nat) (x : Die) : (s.setDie d x).released = s.released := rfl
@[simp] theorem setDie_freeCtr (s : State) (d : Nat) (x : Die) : (s.setDie d x).freeCtr = s.freeCtr := rfl
@[simp] theorem setDie_fresh (s : State) (d : Nat) (x : Die) : (s.setDie d x).fresh = s.fresh := rfl

@[simp] theorem setSite_time (s : State) (i : Nat) (x : Site) : (s.setSite i x).time = s.time := rfl
@[simp] theorem setSite_mem (s : State) (i : Nat) (x : Site) : (s.setSite i x).mem = s.mem := rfl
@[simp] theorem setSite_l2 (s : State) (i : Nat) (x : Site) : (s.setSite i x).l2 = s.l2 := rfl
@[simp] theorem setSite_bad (s : State) (i : Nat) (x : Site) : (s.setSite i x).bad = s.bad := rfl
@[simp] theorem setSite_soft (s : State) (i : Nat) (x : Site) : (s.setSite i x).soft = s.soft := rfl
@[simp] theorem setSite_dir (s : State) (i : Nat) (x : Site) : (s.setSite i x).dir = s.dir := rfl
@[simp] theorem setSite_threads (s : State) (i : Nat) (x : Site) : (s.setSite i x).threads = s.threads := rfl
@[simp] theorem setSite_groups (s : State) (i : Nat) (x : Site) : (s.setSite i x).groups = s.groups := rfl
@[simp] theorem setSite_teams (s : State) (i : Nat) (x : Site) : (s.setSite i x).teams = s.teams := rfl
@[simp] theorem setSite_cohorts (s : State) (i : Nat) (x : Site) : (s.setSite i x).cohorts = s.cohorts := rfl
@[simp] theorem setSite_grids (s : State) (i : Nat) (x : Site) : (s.setSite i x).grids = s.grids := rfl
@[simp] theorem setSite_past (s : State) (i : Nat) (x : Site) : (s.setSite i x).past = s.past := rfl
@[simp] theorem setSite_cores (s : State) (i : Nat) (x : Site) : (s.setSite i x).cores = s.cores := rfl
@[simp] theorem setSite_clusters (s : State) (i : Nat) (x : Site) : (s.setSite i x).clusters = s.clusters := rfl
@[simp] theorem setSite_dies (s : State) (i : Nat) (x : Site) : (s.setSite i x).dies = s.dies := rfl
@[simp] theorem setSite_sites (s : State) (i : Nat) (x : Site) : (s.setSite i x).sites = AMap.put s.sites i x := rfl
@[simp] theorem setSite_nacked (s : State) (i : Nat) (x : Site) : (s.setSite i x).nacked = s.nacked := rfl
@[simp] theorem setSite_wire (s : State) (i : Nat) (x : Site) : (s.setSite i x).wire = s.wire := rfl
@[simp] theorem setSite_pending (s : State) (i : Nat) (x : Site) : (s.setSite i x).pending = s.pending := rfl
@[simp] theorem setSite_boot (s : State) (i : Nat) (x : Site) : (s.setSite i x).boot = s.boot := rfl
@[simp] theorem setSite_anchor (s : State) (i : Nat) (x : Site) : (s.setSite i x).anchor = s.anchor := rfl
@[simp] theorem setSite_hbmWiped (s : State) (i : Nat) (x : Site) : (s.setSite i x).hbmWiped = s.hbmWiped := rfl
@[simp] theorem setSite_image (s : State) (i : Nat) (x : Site) : (s.setSite i x).image = s.image := rfl
@[simp] theorem setSite_imgTries (s : State) (i : Nat) (x : Site) : (s.setSite i x).imgTries = s.imgTries := rfl
@[simp] theorem setSite_imgNext (s : State) (i : Nat) (x : Site) : (s.setSite i x).imgNext = s.imgNext := rfl
@[simp] theorem setSite_imgLen (s : State) (i : Nat) (x : Site) : (s.setSite i x).imgLen = s.imgLen := rfl
@[simp] theorem setSite_running (s : State) (i : Nat) (x : Site) : (s.setSite i x).running = s.running := rfl
@[simp] theorem setSite_challenge (s : State) (i : Nat) (x : Site) : (s.setSite i x).challenge = s.challenge := rfl
@[simp] theorem setSite_cmdRun (s : State) (i : Nat) (x : Site) : (s.setSite i x).cmdRun = s.cmdRun := rfl
@[simp] theorem setSite_pairs (s : State) (i : Nat) (x : Site) : (s.setSite i x).pairs = s.pairs := rfl
@[simp] theorem setSite_topo (s : State) (i : Nat) (x : Site) : (s.setSite i x).topo = s.topo := rfl
@[simp] theorem setSite_topoGen (s : State) (i : Nat) (x : Site) : (s.setSite i x).topoGen = s.topoGen := rfl
@[simp] theorem setSite_topoDue (s : State) (i : Nat) (x : Site) : (s.setSite i x).topoDue = s.topoDue := rfl
@[simp] theorem setSite_routes (s : State) (i : Nat) (x : Site) : (s.setSite i x).routes = s.routes := rfl
@[simp] theorem setSite_agenda (s : State) (i : Nat) (x : Site) : (s.setSite i x).agenda = s.agenda := rfl
@[simp] theorem setSite_cur (s : State) (i : Nat) (x : Site) : (s.setSite i x).cur = s.cur := rfl
@[simp] theorem setSite_word (s : State) (i : Nat) (x : Site) : (s.setSite i x).word = s.word := rfl
@[simp] theorem setSite_left (s : State) (i : Nat) (x : Site) : (s.setSite i x).left = s.left := rfl
@[simp] theorem setSite_released (s : State) (i : Nat) (x : Site) : (s.setSite i x).released = s.released := rfl
@[simp] theorem setSite_freeCtr (s : State) (i : Nat) (x : Site) : (s.setSite i x).freeCtr = s.freeCtr := rfl
@[simp] theorem setSite_fresh (s : State) (i : Nat) (x : Site) : (s.setSite i x).fresh = s.fresh := rfl

@[simp] theorem setGroup_time (s : State) (k : Nat) (g : Group) : (s.setGroup k g).time = s.time := rfl
@[simp] theorem setGroup_mem (s : State) (k : Nat) (g : Group) : (s.setGroup k g).mem = s.mem := rfl
@[simp] theorem setGroup_l2 (s : State) (k : Nat) (g : Group) : (s.setGroup k g).l2 = s.l2 := rfl
@[simp] theorem setGroup_bad (s : State) (k : Nat) (g : Group) : (s.setGroup k g).bad = s.bad := rfl
@[simp] theorem setGroup_soft (s : State) (k : Nat) (g : Group) : (s.setGroup k g).soft = s.soft := rfl
@[simp] theorem setGroup_dir (s : State) (k : Nat) (g : Group) : (s.setGroup k g).dir = s.dir := rfl
@[simp] theorem setGroup_threads (s : State) (k : Nat) (g : Group) : (s.setGroup k g).threads = s.threads := rfl
@[simp] theorem setGroup_groups (s : State) (k : Nat) (g : Group) : (s.setGroup k g).groups = AMap.put s.groups k g := rfl
@[simp] theorem setGroup_teams (s : State) (k : Nat) (g : Group) : (s.setGroup k g).teams = s.teams := rfl
@[simp] theorem setGroup_cohorts (s : State) (k : Nat) (g : Group) : (s.setGroup k g).cohorts = s.cohorts := rfl
@[simp] theorem setGroup_grids (s : State) (k : Nat) (g : Group) : (s.setGroup k g).grids = s.grids := rfl
@[simp] theorem setGroup_past (s : State) (k : Nat) (g : Group) : (s.setGroup k g).past = s.past := rfl
@[simp] theorem setGroup_cores (s : State) (k : Nat) (g : Group) : (s.setGroup k g).cores = s.cores := rfl
@[simp] theorem setGroup_clusters (s : State) (k : Nat) (g : Group) : (s.setGroup k g).clusters = s.clusters := rfl
@[simp] theorem setGroup_dies (s : State) (k : Nat) (g : Group) : (s.setGroup k g).dies = s.dies := rfl
@[simp] theorem setGroup_sites (s : State) (k : Nat) (g : Group) : (s.setGroup k g).sites = s.sites := rfl
@[simp] theorem setGroup_nacked (s : State) (k : Nat) (g : Group) : (s.setGroup k g).nacked = s.nacked := rfl
@[simp] theorem setGroup_wire (s : State) (k : Nat) (g : Group) : (s.setGroup k g).wire = s.wire := rfl
@[simp] theorem setGroup_pending (s : State) (k : Nat) (g : Group) : (s.setGroup k g).pending = s.pending := rfl
@[simp] theorem setGroup_boot (s : State) (k : Nat) (g : Group) : (s.setGroup k g).boot = s.boot := rfl
@[simp] theorem setGroup_anchor (s : State) (k : Nat) (g : Group) : (s.setGroup k g).anchor = s.anchor := rfl
@[simp] theorem setGroup_hbmWiped (s : State) (k : Nat) (g : Group) : (s.setGroup k g).hbmWiped = s.hbmWiped := rfl
@[simp] theorem setGroup_image (s : State) (k : Nat) (g : Group) : (s.setGroup k g).image = s.image := rfl
@[simp] theorem setGroup_imgTries (s : State) (k : Nat) (g : Group) : (s.setGroup k g).imgTries = s.imgTries := rfl
@[simp] theorem setGroup_imgNext (s : State) (k : Nat) (g : Group) : (s.setGroup k g).imgNext = s.imgNext := rfl
@[simp] theorem setGroup_imgLen (s : State) (k : Nat) (g : Group) : (s.setGroup k g).imgLen = s.imgLen := rfl
@[simp] theorem setGroup_running (s : State) (k : Nat) (g : Group) : (s.setGroup k g).running = s.running := rfl
@[simp] theorem setGroup_challenge (s : State) (k : Nat) (g : Group) : (s.setGroup k g).challenge = s.challenge := rfl
@[simp] theorem setGroup_cmdRun (s : State) (k : Nat) (g : Group) : (s.setGroup k g).cmdRun = s.cmdRun := rfl
@[simp] theorem setGroup_pairs (s : State) (k : Nat) (g : Group) : (s.setGroup k g).pairs = s.pairs := rfl
@[simp] theorem setGroup_topo (s : State) (k : Nat) (g : Group) : (s.setGroup k g).topo = s.topo := rfl
@[simp] theorem setGroup_topoGen (s : State) (k : Nat) (g : Group) : (s.setGroup k g).topoGen = s.topoGen := rfl
@[simp] theorem setGroup_topoDue (s : State) (k : Nat) (g : Group) : (s.setGroup k g).topoDue = s.topoDue := rfl
@[simp] theorem setGroup_routes (s : State) (k : Nat) (g : Group) : (s.setGroup k g).routes = s.routes := rfl
@[simp] theorem setGroup_agenda (s : State) (k : Nat) (g : Group) : (s.setGroup k g).agenda = s.agenda := rfl
@[simp] theorem setGroup_cur (s : State) (k : Nat) (g : Group) : (s.setGroup k g).cur = s.cur := rfl
@[simp] theorem setGroup_word (s : State) (k : Nat) (g : Group) : (s.setGroup k g).word = s.word := rfl
@[simp] theorem setGroup_left (s : State) (k : Nat) (g : Group) : (s.setGroup k g).left = s.left := rfl
@[simp] theorem setGroup_released (s : State) (k : Nat) (g : Group) : (s.setGroup k g).released = s.released := rfl
@[simp] theorem setGroup_freeCtr (s : State) (k : Nat) (g : Group) : (s.setGroup k g).freeCtr = s.freeCtr := rfl
@[simp] theorem setGroup_fresh (s : State) (k : Nat) (g : Group) : (s.setGroup k g).fresh = s.fresh := rfl

@[simp] theorem setTeam_time (s : State) (k : Nat) (t : Team) : (s.setTeam k t).time = s.time := rfl
@[simp] theorem setTeam_mem (s : State) (k : Nat) (t : Team) : (s.setTeam k t).mem = s.mem := rfl
@[simp] theorem setTeam_l2 (s : State) (k : Nat) (t : Team) : (s.setTeam k t).l2 = s.l2 := rfl
@[simp] theorem setTeam_bad (s : State) (k : Nat) (t : Team) : (s.setTeam k t).bad = s.bad := rfl
@[simp] theorem setTeam_soft (s : State) (k : Nat) (t : Team) : (s.setTeam k t).soft = s.soft := rfl
@[simp] theorem setTeam_dir (s : State) (k : Nat) (t : Team) : (s.setTeam k t).dir = s.dir := rfl
@[simp] theorem setTeam_threads (s : State) (k : Nat) (t : Team) : (s.setTeam k t).threads = s.threads := rfl
@[simp] theorem setTeam_groups (s : State) (k : Nat) (t : Team) : (s.setTeam k t).groups = s.groups := rfl
@[simp] theorem setTeam_teams (s : State) (k : Nat) (t : Team) : (s.setTeam k t).teams = AMap.put s.teams k t := rfl
@[simp] theorem setTeam_cohorts (s : State) (k : Nat) (t : Team) : (s.setTeam k t).cohorts = s.cohorts := rfl
@[simp] theorem setTeam_grids (s : State) (k : Nat) (t : Team) : (s.setTeam k t).grids = s.grids := rfl
@[simp] theorem setTeam_past (s : State) (k : Nat) (t : Team) : (s.setTeam k t).past = s.past := rfl
@[simp] theorem setTeam_cores (s : State) (k : Nat) (t : Team) : (s.setTeam k t).cores = s.cores := rfl
@[simp] theorem setTeam_clusters (s : State) (k : Nat) (t : Team) : (s.setTeam k t).clusters = s.clusters := rfl
@[simp] theorem setTeam_dies (s : State) (k : Nat) (t : Team) : (s.setTeam k t).dies = s.dies := rfl
@[simp] theorem setTeam_sites (s : State) (k : Nat) (t : Team) : (s.setTeam k t).sites = s.sites := rfl
@[simp] theorem setTeam_nacked (s : State) (k : Nat) (t : Team) : (s.setTeam k t).nacked = s.nacked := rfl
@[simp] theorem setTeam_wire (s : State) (k : Nat) (t : Team) : (s.setTeam k t).wire = s.wire := rfl
@[simp] theorem setTeam_pending (s : State) (k : Nat) (t : Team) : (s.setTeam k t).pending = s.pending := rfl
@[simp] theorem setTeam_boot (s : State) (k : Nat) (t : Team) : (s.setTeam k t).boot = s.boot := rfl
@[simp] theorem setTeam_anchor (s : State) (k : Nat) (t : Team) : (s.setTeam k t).anchor = s.anchor := rfl
@[simp] theorem setTeam_hbmWiped (s : State) (k : Nat) (t : Team) : (s.setTeam k t).hbmWiped = s.hbmWiped := rfl
@[simp] theorem setTeam_image (s : State) (k : Nat) (t : Team) : (s.setTeam k t).image = s.image := rfl
@[simp] theorem setTeam_imgTries (s : State) (k : Nat) (t : Team) : (s.setTeam k t).imgTries = s.imgTries := rfl
@[simp] theorem setTeam_imgNext (s : State) (k : Nat) (t : Team) : (s.setTeam k t).imgNext = s.imgNext := rfl
@[simp] theorem setTeam_imgLen (s : State) (k : Nat) (t : Team) : (s.setTeam k t).imgLen = s.imgLen := rfl
@[simp] theorem setTeam_running (s : State) (k : Nat) (t : Team) : (s.setTeam k t).running = s.running := rfl
@[simp] theorem setTeam_challenge (s : State) (k : Nat) (t : Team) : (s.setTeam k t).challenge = s.challenge := rfl
@[simp] theorem setTeam_cmdRun (s : State) (k : Nat) (t : Team) : (s.setTeam k t).cmdRun = s.cmdRun := rfl
@[simp] theorem setTeam_pairs (s : State) (k : Nat) (t : Team) : (s.setTeam k t).pairs = s.pairs := rfl
@[simp] theorem setTeam_topo (s : State) (k : Nat) (t : Team) : (s.setTeam k t).topo = s.topo := rfl
@[simp] theorem setTeam_topoGen (s : State) (k : Nat) (t : Team) : (s.setTeam k t).topoGen = s.topoGen := rfl
@[simp] theorem setTeam_topoDue (s : State) (k : Nat) (t : Team) : (s.setTeam k t).topoDue = s.topoDue := rfl
@[simp] theorem setTeam_routes (s : State) (k : Nat) (t : Team) : (s.setTeam k t).routes = s.routes := rfl
@[simp] theorem setTeam_agenda (s : State) (k : Nat) (t : Team) : (s.setTeam k t).agenda = s.agenda := rfl
@[simp] theorem setTeam_cur (s : State) (k : Nat) (t : Team) : (s.setTeam k t).cur = s.cur := rfl
@[simp] theorem setTeam_word (s : State) (k : Nat) (t : Team) : (s.setTeam k t).word = s.word := rfl
@[simp] theorem setTeam_left (s : State) (k : Nat) (t : Team) : (s.setTeam k t).left = s.left := rfl
@[simp] theorem setTeam_released (s : State) (k : Nat) (t : Team) : (s.setTeam k t).released = s.released := rfl
@[simp] theorem setTeam_freeCtr (s : State) (k : Nat) (t : Team) : (s.setTeam k t).freeCtr = s.freeCtr := rfl
@[simp] theorem setTeam_fresh (s : State) (k : Nat) (t : Team) : (s.setTeam k t).fresh = s.fresh := rfl

@[simp] theorem setGrid_time (s : State) (g : Nat) (x : Grid) : (s.setGrid g x).time = s.time := rfl
@[simp] theorem setGrid_mem (s : State) (g : Nat) (x : Grid) : (s.setGrid g x).mem = s.mem := rfl
@[simp] theorem setGrid_l2 (s : State) (g : Nat) (x : Grid) : (s.setGrid g x).l2 = s.l2 := rfl
@[simp] theorem setGrid_bad (s : State) (g : Nat) (x : Grid) : (s.setGrid g x).bad = s.bad := rfl
@[simp] theorem setGrid_soft (s : State) (g : Nat) (x : Grid) : (s.setGrid g x).soft = s.soft := rfl
@[simp] theorem setGrid_dir (s : State) (g : Nat) (x : Grid) : (s.setGrid g x).dir = s.dir := rfl
@[simp] theorem setGrid_threads (s : State) (g : Nat) (x : Grid) : (s.setGrid g x).threads = s.threads := rfl
@[simp] theorem setGrid_groups (s : State) (g : Nat) (x : Grid) : (s.setGrid g x).groups = s.groups := rfl
@[simp] theorem setGrid_teams (s : State) (g : Nat) (x : Grid) : (s.setGrid g x).teams = s.teams := rfl
@[simp] theorem setGrid_cohorts (s : State) (g : Nat) (x : Grid) : (s.setGrid g x).cohorts = s.cohorts := rfl
@[simp] theorem setGrid_grids (s : State) (g : Nat) (x : Grid) : (s.setGrid g x).grids = AMap.put s.grids g x := rfl
@[simp] theorem setGrid_past (s : State) (g : Nat) (x : Grid) : (s.setGrid g x).past = s.past := rfl
@[simp] theorem setGrid_cores (s : State) (g : Nat) (x : Grid) : (s.setGrid g x).cores = s.cores := rfl
@[simp] theorem setGrid_clusters (s : State) (g : Nat) (x : Grid) : (s.setGrid g x).clusters = s.clusters := rfl
@[simp] theorem setGrid_dies (s : State) (g : Nat) (x : Grid) : (s.setGrid g x).dies = s.dies := rfl
@[simp] theorem setGrid_sites (s : State) (g : Nat) (x : Grid) : (s.setGrid g x).sites = s.sites := rfl
@[simp] theorem setGrid_nacked (s : State) (g : Nat) (x : Grid) : (s.setGrid g x).nacked = s.nacked := rfl
@[simp] theorem setGrid_wire (s : State) (g : Nat) (x : Grid) : (s.setGrid g x).wire = s.wire := rfl
@[simp] theorem setGrid_pending (s : State) (g : Nat) (x : Grid) : (s.setGrid g x).pending = s.pending := rfl
@[simp] theorem setGrid_boot (s : State) (g : Nat) (x : Grid) : (s.setGrid g x).boot = s.boot := rfl
@[simp] theorem setGrid_anchor (s : State) (g : Nat) (x : Grid) : (s.setGrid g x).anchor = s.anchor := rfl
@[simp] theorem setGrid_hbmWiped (s : State) (g : Nat) (x : Grid) : (s.setGrid g x).hbmWiped = s.hbmWiped := rfl
@[simp] theorem setGrid_image (s : State) (g : Nat) (x : Grid) : (s.setGrid g x).image = s.image := rfl
@[simp] theorem setGrid_imgTries (s : State) (g : Nat) (x : Grid) : (s.setGrid g x).imgTries = s.imgTries := rfl
@[simp] theorem setGrid_imgNext (s : State) (g : Nat) (x : Grid) : (s.setGrid g x).imgNext = s.imgNext := rfl
@[simp] theorem setGrid_imgLen (s : State) (g : Nat) (x : Grid) : (s.setGrid g x).imgLen = s.imgLen := rfl
@[simp] theorem setGrid_running (s : State) (g : Nat) (x : Grid) : (s.setGrid g x).running = s.running := rfl
@[simp] theorem setGrid_challenge (s : State) (g : Nat) (x : Grid) : (s.setGrid g x).challenge = s.challenge := rfl
@[simp] theorem setGrid_cmdRun (s : State) (g : Nat) (x : Grid) : (s.setGrid g x).cmdRun = s.cmdRun := rfl
@[simp] theorem setGrid_pairs (s : State) (g : Nat) (x : Grid) : (s.setGrid g x).pairs = s.pairs := rfl
@[simp] theorem setGrid_topo (s : State) (g : Nat) (x : Grid) : (s.setGrid g x).topo = s.topo := rfl
@[simp] theorem setGrid_topoGen (s : State) (g : Nat) (x : Grid) : (s.setGrid g x).topoGen = s.topoGen := rfl
@[simp] theorem setGrid_topoDue (s : State) (g : Nat) (x : Grid) : (s.setGrid g x).topoDue = s.topoDue := rfl
@[simp] theorem setGrid_routes (s : State) (g : Nat) (x : Grid) : (s.setGrid g x).routes = s.routes := rfl
@[simp] theorem setGrid_agenda (s : State) (g : Nat) (x : Grid) : (s.setGrid g x).agenda = s.agenda := rfl
@[simp] theorem setGrid_cur (s : State) (g : Nat) (x : Grid) : (s.setGrid g x).cur = s.cur := rfl
@[simp] theorem setGrid_word (s : State) (g : Nat) (x : Grid) : (s.setGrid g x).word = s.word := rfl
@[simp] theorem setGrid_left (s : State) (g : Nat) (x : Grid) : (s.setGrid g x).left = s.left := rfl
@[simp] theorem setGrid_released (s : State) (g : Nat) (x : Grid) : (s.setGrid g x).released = s.released := rfl
@[simp] theorem setGrid_freeCtr (s : State) (g : Nat) (x : Grid) : (s.setGrid g x).freeCtr = s.freeCtr := rfl
@[simp] theorem setGrid_fresh (s : State) (g : Nat) (x : Grid) : (s.setGrid g x).fresh = s.fresh := rfl

@[simp] theorem setCohort_time (s : State) (k : Nat) (x : Cohort) : (s.setCohort k x).time = s.time := rfl
@[simp] theorem setCohort_mem (s : State) (k : Nat) (x : Cohort) : (s.setCohort k x).mem = s.mem := rfl
@[simp] theorem setCohort_l2 (s : State) (k : Nat) (x : Cohort) : (s.setCohort k x).l2 = s.l2 := rfl
@[simp] theorem setCohort_bad (s : State) (k : Nat) (x : Cohort) : (s.setCohort k x).bad = s.bad := rfl
@[simp] theorem setCohort_soft (s : State) (k : Nat) (x : Cohort) : (s.setCohort k x).soft = s.soft := rfl
@[simp] theorem setCohort_dir (s : State) (k : Nat) (x : Cohort) : (s.setCohort k x).dir = s.dir := rfl
@[simp] theorem setCohort_threads (s : State) (k : Nat) (x : Cohort) : (s.setCohort k x).threads = s.threads := rfl
@[simp] theorem setCohort_groups (s : State) (k : Nat) (x : Cohort) : (s.setCohort k x).groups = s.groups := rfl
@[simp] theorem setCohort_teams (s : State) (k : Nat) (x : Cohort) : (s.setCohort k x).teams = s.teams := rfl
@[simp] theorem setCohort_cohorts (s : State) (k : Nat) (x : Cohort) : (s.setCohort k x).cohorts = AMap.put s.cohorts k x := rfl
@[simp] theorem setCohort_grids (s : State) (k : Nat) (x : Cohort) : (s.setCohort k x).grids = s.grids := rfl
@[simp] theorem setCohort_past (s : State) (k : Nat) (x : Cohort) : (s.setCohort k x).past = s.past := rfl
@[simp] theorem setCohort_cores (s : State) (k : Nat) (x : Cohort) : (s.setCohort k x).cores = s.cores := rfl
@[simp] theorem setCohort_clusters (s : State) (k : Nat) (x : Cohort) : (s.setCohort k x).clusters = s.clusters := rfl
@[simp] theorem setCohort_dies (s : State) (k : Nat) (x : Cohort) : (s.setCohort k x).dies = s.dies := rfl
@[simp] theorem setCohort_sites (s : State) (k : Nat) (x : Cohort) : (s.setCohort k x).sites = s.sites := rfl
@[simp] theorem setCohort_nacked (s : State) (k : Nat) (x : Cohort) : (s.setCohort k x).nacked = s.nacked := rfl
@[simp] theorem setCohort_wire (s : State) (k : Nat) (x : Cohort) : (s.setCohort k x).wire = s.wire := rfl
@[simp] theorem setCohort_pending (s : State) (k : Nat) (x : Cohort) : (s.setCohort k x).pending = s.pending := rfl
@[simp] theorem setCohort_boot (s : State) (k : Nat) (x : Cohort) : (s.setCohort k x).boot = s.boot := rfl
@[simp] theorem setCohort_anchor (s : State) (k : Nat) (x : Cohort) : (s.setCohort k x).anchor = s.anchor := rfl
@[simp] theorem setCohort_hbmWiped (s : State) (k : Nat) (x : Cohort) : (s.setCohort k x).hbmWiped = s.hbmWiped := rfl
@[simp] theorem setCohort_image (s : State) (k : Nat) (x : Cohort) : (s.setCohort k x).image = s.image := rfl
@[simp] theorem setCohort_imgTries (s : State) (k : Nat) (x : Cohort) : (s.setCohort k x).imgTries = s.imgTries := rfl
@[simp] theorem setCohort_imgNext (s : State) (k : Nat) (x : Cohort) : (s.setCohort k x).imgNext = s.imgNext := rfl
@[simp] theorem setCohort_imgLen (s : State) (k : Nat) (x : Cohort) : (s.setCohort k x).imgLen = s.imgLen := rfl
@[simp] theorem setCohort_running (s : State) (k : Nat) (x : Cohort) : (s.setCohort k x).running = s.running := rfl
@[simp] theorem setCohort_challenge (s : State) (k : Nat) (x : Cohort) : (s.setCohort k x).challenge = s.challenge := rfl
@[simp] theorem setCohort_cmdRun (s : State) (k : Nat) (x : Cohort) : (s.setCohort k x).cmdRun = s.cmdRun := rfl
@[simp] theorem setCohort_pairs (s : State) (k : Nat) (x : Cohort) : (s.setCohort k x).pairs = s.pairs := rfl
@[simp] theorem setCohort_topo (s : State) (k : Nat) (x : Cohort) : (s.setCohort k x).topo = s.topo := rfl
@[simp] theorem setCohort_topoGen (s : State) (k : Nat) (x : Cohort) : (s.setCohort k x).topoGen = s.topoGen := rfl
@[simp] theorem setCohort_topoDue (s : State) (k : Nat) (x : Cohort) : (s.setCohort k x).topoDue = s.topoDue := rfl
@[simp] theorem setCohort_routes (s : State) (k : Nat) (x : Cohort) : (s.setCohort k x).routes = s.routes := rfl
@[simp] theorem setCohort_agenda (s : State) (k : Nat) (x : Cohort) : (s.setCohort k x).agenda = s.agenda := rfl
@[simp] theorem setCohort_cur (s : State) (k : Nat) (x : Cohort) : (s.setCohort k x).cur = s.cur := rfl
@[simp] theorem setCohort_word (s : State) (k : Nat) (x : Cohort) : (s.setCohort k x).word = s.word := rfl
@[simp] theorem setCohort_left (s : State) (k : Nat) (x : Cohort) : (s.setCohort k x).left = s.left := rfl
@[simp] theorem setCohort_released (s : State) (k : Nat) (x : Cohort) : (s.setCohort k x).released = s.released := rfl
@[simp] theorem setCohort_freeCtr (s : State) (k : Nat) (x : Cohort) : (s.setCohort k x).freeCtr = s.freeCtr := rfl
@[simp] theorem setCohort_fresh (s : State) (k : Nat) (x : Cohort) : (s.setCohort k x).fresh = s.fresh := rfl

@[simp] theorem setDir_time (s : State) (l : Nat) (d : DirLine) : (s.setDir l d).time = s.time := rfl
@[simp] theorem setDir_mem (s : State) (l : Nat) (d : DirLine) : (s.setDir l d).mem = s.mem := rfl
@[simp] theorem setDir_l2 (s : State) (l : Nat) (d : DirLine) : (s.setDir l d).l2 = s.l2 := rfl
@[simp] theorem setDir_bad (s : State) (l : Nat) (d : DirLine) : (s.setDir l d).bad = s.bad := rfl
@[simp] theorem setDir_soft (s : State) (l : Nat) (d : DirLine) : (s.setDir l d).soft = s.soft := rfl
@[simp] theorem setDir_threads (s : State) (l : Nat) (d : DirLine) : (s.setDir l d).threads = s.threads := rfl
@[simp] theorem setDir_groups (s : State) (l : Nat) (d : DirLine) : (s.setDir l d).groups = s.groups := rfl
@[simp] theorem setDir_teams (s : State) (l : Nat) (d : DirLine) : (s.setDir l d).teams = s.teams := rfl
@[simp] theorem setDir_cohorts (s : State) (l : Nat) (d : DirLine) : (s.setDir l d).cohorts = s.cohorts := rfl
@[simp] theorem setDir_grids (s : State) (l : Nat) (d : DirLine) : (s.setDir l d).grids = s.grids := rfl
@[simp] theorem setDir_past (s : State) (l : Nat) (d : DirLine) : (s.setDir l d).past = s.past := rfl
@[simp] theorem setDir_cores (s : State) (l : Nat) (d : DirLine) : (s.setDir l d).cores = s.cores := rfl
@[simp] theorem setDir_clusters (s : State) (l : Nat) (d : DirLine) : (s.setDir l d).clusters = s.clusters := rfl
@[simp] theorem setDir_dies (s : State) (l : Nat) (d : DirLine) : (s.setDir l d).dies = s.dies := rfl
@[simp] theorem setDir_sites (s : State) (l : Nat) (d : DirLine) : (s.setDir l d).sites = s.sites := rfl
@[simp] theorem setDir_nacked (s : State) (l : Nat) (d : DirLine) : (s.setDir l d).nacked = s.nacked := rfl
@[simp] theorem setDir_wire (s : State) (l : Nat) (d : DirLine) : (s.setDir l d).wire = s.wire := rfl
@[simp] theorem setDir_pending (s : State) (l : Nat) (d : DirLine) : (s.setDir l d).pending = s.pending := rfl
@[simp] theorem setDir_boot (s : State) (l : Nat) (d : DirLine) : (s.setDir l d).boot = s.boot := rfl
@[simp] theorem setDir_anchor (s : State) (l : Nat) (d : DirLine) : (s.setDir l d).anchor = s.anchor := rfl
@[simp] theorem setDir_hbmWiped (s : State) (l : Nat) (d : DirLine) : (s.setDir l d).hbmWiped = s.hbmWiped := rfl
@[simp] theorem setDir_image (s : State) (l : Nat) (d : DirLine) : (s.setDir l d).image = s.image := rfl
@[simp] theorem setDir_imgTries (s : State) (l : Nat) (d : DirLine) : (s.setDir l d).imgTries = s.imgTries := rfl
@[simp] theorem setDir_imgNext (s : State) (l : Nat) (d : DirLine) : (s.setDir l d).imgNext = s.imgNext := rfl
@[simp] theorem setDir_imgLen (s : State) (l : Nat) (d : DirLine) : (s.setDir l d).imgLen = s.imgLen := rfl
@[simp] theorem setDir_running (s : State) (l : Nat) (d : DirLine) : (s.setDir l d).running = s.running := rfl
@[simp] theorem setDir_challenge (s : State) (l : Nat) (d : DirLine) : (s.setDir l d).challenge = s.challenge := rfl
@[simp] theorem setDir_cmdRun (s : State) (l : Nat) (d : DirLine) : (s.setDir l d).cmdRun = s.cmdRun := rfl
@[simp] theorem setDir_pairs (s : State) (l : Nat) (d : DirLine) : (s.setDir l d).pairs = s.pairs := rfl
@[simp] theorem setDir_topo (s : State) (l : Nat) (d : DirLine) : (s.setDir l d).topo = s.topo := rfl
@[simp] theorem setDir_topoGen (s : State) (l : Nat) (d : DirLine) : (s.setDir l d).topoGen = s.topoGen := rfl
@[simp] theorem setDir_topoDue (s : State) (l : Nat) (d : DirLine) : (s.setDir l d).topoDue = s.topoDue := rfl
@[simp] theorem setDir_routes (s : State) (l : Nat) (d : DirLine) : (s.setDir l d).routes = s.routes := rfl
@[simp] theorem setDir_agenda (s : State) (l : Nat) (d : DirLine) : (s.setDir l d).agenda = s.agenda := rfl
@[simp] theorem setDir_cur (s : State) (l : Nat) (d : DirLine) : (s.setDir l d).cur = s.cur := rfl
@[simp] theorem setDir_word (s : State) (l : Nat) (d : DirLine) : (s.setDir l d).word = s.word := rfl
@[simp] theorem setDir_left (s : State) (l : Nat) (d : DirLine) : (s.setDir l d).left = s.left := rfl
@[simp] theorem setDir_released (s : State) (l : Nat) (d : DirLine) : (s.setDir l d).released = s.released := rfl
@[simp] theorem setDir_freeCtr (s : State) (l : Nat) (d : DirLine) : (s.setDir l d).freeCtr = s.freeCtr := rfl
@[simp] theorem setDir_fresh (s : State) (l : Nat) (d : DirLine) : (s.setDir l d).fresh = s.fresh := rfl

@[simp] theorem modTh_time (s : State) (u : Nat) (f : Thread → Thread) : (s.modTh u f).time = s.time := by unfold modTh; split <;> rfl
@[simp] theorem modTh_mem (s : State) (u : Nat) (f : Thread → Thread) : (s.modTh u f).mem = s.mem := by unfold modTh; split <;> rfl
@[simp] theorem modTh_l2 (s : State) (u : Nat) (f : Thread → Thread) : (s.modTh u f).l2 = s.l2 := by unfold modTh; split <;> rfl
@[simp] theorem modTh_bad (s : State) (u : Nat) (f : Thread → Thread) : (s.modTh u f).bad = s.bad := by unfold modTh; split <;> rfl
@[simp] theorem modTh_soft (s : State) (u : Nat) (f : Thread → Thread) : (s.modTh u f).soft = s.soft := by unfold modTh; split <;> rfl
@[simp] theorem modTh_dir (s : State) (u : Nat) (f : Thread → Thread) : (s.modTh u f).dir = s.dir := by unfold modTh; split <;> rfl
@[simp] theorem modTh_groups (s : State) (u : Nat) (f : Thread → Thread) : (s.modTh u f).groups = s.groups := by unfold modTh; split <;> rfl
@[simp] theorem modTh_teams (s : State) (u : Nat) (f : Thread → Thread) : (s.modTh u f).teams = s.teams := by unfold modTh; split <;> rfl
@[simp] theorem modTh_cohorts (s : State) (u : Nat) (f : Thread → Thread) : (s.modTh u f).cohorts = s.cohorts := by unfold modTh; split <;> rfl
@[simp] theorem modTh_grids (s : State) (u : Nat) (f : Thread → Thread) : (s.modTh u f).grids = s.grids := by unfold modTh; split <;> rfl
@[simp] theorem modTh_past (s : State) (u : Nat) (f : Thread → Thread) : (s.modTh u f).past = s.past := by unfold modTh; split <;> rfl
@[simp] theorem modTh_cores (s : State) (u : Nat) (f : Thread → Thread) : (s.modTh u f).cores = s.cores := by unfold modTh; split <;> rfl
@[simp] theorem modTh_clusters (s : State) (u : Nat) (f : Thread → Thread) : (s.modTh u f).clusters = s.clusters := by unfold modTh; split <;> rfl
@[simp] theorem modTh_dies (s : State) (u : Nat) (f : Thread → Thread) : (s.modTh u f).dies = s.dies := by unfold modTh; split <;> rfl
@[simp] theorem modTh_sites (s : State) (u : Nat) (f : Thread → Thread) : (s.modTh u f).sites = s.sites := by unfold modTh; split <;> rfl
@[simp] theorem modTh_nacked (s : State) (u : Nat) (f : Thread → Thread) : (s.modTh u f).nacked = s.nacked := by unfold modTh; split <;> rfl
@[simp] theorem modTh_wire (s : State) (u : Nat) (f : Thread → Thread) : (s.modTh u f).wire = s.wire := by unfold modTh; split <;> rfl
@[simp] theorem modTh_pending (s : State) (u : Nat) (f : Thread → Thread) : (s.modTh u f).pending = s.pending := by unfold modTh; split <;> rfl
@[simp] theorem modTh_boot (s : State) (u : Nat) (f : Thread → Thread) : (s.modTh u f).boot = s.boot := by unfold modTh; split <;> rfl
@[simp] theorem modTh_anchor (s : State) (u : Nat) (f : Thread → Thread) : (s.modTh u f).anchor = s.anchor := by unfold modTh; split <;> rfl
@[simp] theorem modTh_hbmWiped (s : State) (u : Nat) (f : Thread → Thread) : (s.modTh u f).hbmWiped = s.hbmWiped := by unfold modTh; split <;> rfl
@[simp] theorem modTh_image (s : State) (u : Nat) (f : Thread → Thread) : (s.modTh u f).image = s.image := by unfold modTh; split <;> rfl
@[simp] theorem modTh_imgTries (s : State) (u : Nat) (f : Thread → Thread) : (s.modTh u f).imgTries = s.imgTries := by unfold modTh; split <;> rfl
@[simp] theorem modTh_imgNext (s : State) (u : Nat) (f : Thread → Thread) : (s.modTh u f).imgNext = s.imgNext := by unfold modTh; split <;> rfl
@[simp] theorem modTh_imgLen (s : State) (u : Nat) (f : Thread → Thread) : (s.modTh u f).imgLen = s.imgLen := by unfold modTh; split <;> rfl
@[simp] theorem modTh_running (s : State) (u : Nat) (f : Thread → Thread) : (s.modTh u f).running = s.running := by unfold modTh; split <;> rfl
@[simp] theorem modTh_challenge (s : State) (u : Nat) (f : Thread → Thread) : (s.modTh u f).challenge = s.challenge := by unfold modTh; split <;> rfl
@[simp] theorem modTh_cmdRun (s : State) (u : Nat) (f : Thread → Thread) : (s.modTh u f).cmdRun = s.cmdRun := by unfold modTh; split <;> rfl
@[simp] theorem modTh_pairs (s : State) (u : Nat) (f : Thread → Thread) : (s.modTh u f).pairs = s.pairs := by unfold modTh; split <;> rfl
@[simp] theorem modTh_topo (s : State) (u : Nat) (f : Thread → Thread) : (s.modTh u f).topo = s.topo := by unfold modTh; split <;> rfl
@[simp] theorem modTh_topoGen (s : State) (u : Nat) (f : Thread → Thread) : (s.modTh u f).topoGen = s.topoGen := by unfold modTh; split <;> rfl
@[simp] theorem modTh_topoDue (s : State) (u : Nat) (f : Thread → Thread) : (s.modTh u f).topoDue = s.topoDue := by unfold modTh; split <;> rfl
@[simp] theorem modTh_routes (s : State) (u : Nat) (f : Thread → Thread) : (s.modTh u f).routes = s.routes := by unfold modTh; split <;> rfl
@[simp] theorem modTh_agenda (s : State) (u : Nat) (f : Thread → Thread) : (s.modTh u f).agenda = s.agenda := by unfold modTh; split <;> rfl
@[simp] theorem modTh_cur (s : State) (u : Nat) (f : Thread → Thread) : (s.modTh u f).cur = s.cur := by unfold modTh; split <;> rfl
@[simp] theorem modTh_word (s : State) (u : Nat) (f : Thread → Thread) : (s.modTh u f).word = s.word := by unfold modTh; split <;> rfl
@[simp] theorem modTh_left (s : State) (u : Nat) (f : Thread → Thread) : (s.modTh u f).left = s.left := by unfold modTh; split <;> rfl
@[simp] theorem modTh_released (s : State) (u : Nat) (f : Thread → Thread) : (s.modTh u f).released = s.released := by unfold modTh; split <;> rfl
@[simp] theorem modTh_freeCtr (s : State) (u : Nat) (f : Thread → Thread) : (s.modTh u f).freeCtr = s.freeCtr := by unfold modTh; split <;> rfl
@[simp] theorem modTh_fresh (s : State) (u : Nat) (f : Thread → Thread) : (s.modTh u f).fresh = s.fresh := by unfold modTh; split <;> rfl

@[simp] theorem first_time (s : State) (ts : List Turn) : (s.first ts).time = s.time := rfl
@[simp] theorem first_mem (s : State) (ts : List Turn) : (s.first ts).mem = s.mem := rfl
@[simp] theorem first_l2 (s : State) (ts : List Turn) : (s.first ts).l2 = s.l2 := rfl
@[simp] theorem first_bad (s : State) (ts : List Turn) : (s.first ts).bad = s.bad := rfl
@[simp] theorem first_soft (s : State) (ts : List Turn) : (s.first ts).soft = s.soft := rfl
@[simp] theorem first_dir (s : State) (ts : List Turn) : (s.first ts).dir = s.dir := rfl
@[simp] theorem first_threads (s : State) (ts : List Turn) : (s.first ts).threads = s.threads := rfl
@[simp] theorem first_groups (s : State) (ts : List Turn) : (s.first ts).groups = s.groups := rfl
@[simp] theorem first_teams (s : State) (ts : List Turn) : (s.first ts).teams = s.teams := rfl
@[simp] theorem first_cohorts (s : State) (ts : List Turn) : (s.first ts).cohorts = s.cohorts := rfl
@[simp] theorem first_grids (s : State) (ts : List Turn) : (s.first ts).grids = s.grids := rfl
@[simp] theorem first_past (s : State) (ts : List Turn) : (s.first ts).past = s.past := rfl
@[simp] theorem first_cores (s : State) (ts : List Turn) : (s.first ts).cores = s.cores := rfl
@[simp] theorem first_clusters (s : State) (ts : List Turn) : (s.first ts).clusters = s.clusters := rfl
@[simp] theorem first_dies (s : State) (ts : List Turn) : (s.first ts).dies = s.dies := rfl
@[simp] theorem first_sites (s : State) (ts : List Turn) : (s.first ts).sites = s.sites := rfl
@[simp] theorem first_nacked (s : State) (ts : List Turn) : (s.first ts).nacked = s.nacked := rfl
@[simp] theorem first_wire (s : State) (ts : List Turn) : (s.first ts).wire = s.wire := rfl
@[simp] theorem first_pending (s : State) (ts : List Turn) : (s.first ts).pending = s.pending := rfl
@[simp] theorem first_boot (s : State) (ts : List Turn) : (s.first ts).boot = s.boot := rfl
@[simp] theorem first_anchor (s : State) (ts : List Turn) : (s.first ts).anchor = s.anchor := rfl
@[simp] theorem first_hbmWiped (s : State) (ts : List Turn) : (s.first ts).hbmWiped = s.hbmWiped := rfl
@[simp] theorem first_image (s : State) (ts : List Turn) : (s.first ts).image = s.image := rfl
@[simp] theorem first_imgTries (s : State) (ts : List Turn) : (s.first ts).imgTries = s.imgTries := rfl
@[simp] theorem first_imgNext (s : State) (ts : List Turn) : (s.first ts).imgNext = s.imgNext := rfl
@[simp] theorem first_imgLen (s : State) (ts : List Turn) : (s.first ts).imgLen = s.imgLen := rfl
@[simp] theorem first_running (s : State) (ts : List Turn) : (s.first ts).running = s.running := rfl
@[simp] theorem first_challenge (s : State) (ts : List Turn) : (s.first ts).challenge = s.challenge := rfl
@[simp] theorem first_cmdRun (s : State) (ts : List Turn) : (s.first ts).cmdRun = s.cmdRun := rfl
@[simp] theorem first_pairs (s : State) (ts : List Turn) : (s.first ts).pairs = s.pairs := rfl
@[simp] theorem first_topo (s : State) (ts : List Turn) : (s.first ts).topo = s.topo := rfl
@[simp] theorem first_topoGen (s : State) (ts : List Turn) : (s.first ts).topoGen = s.topoGen := rfl
@[simp] theorem first_topoDue (s : State) (ts : List Turn) : (s.first ts).topoDue = s.topoDue := rfl
@[simp] theorem first_routes (s : State) (ts : List Turn) : (s.first ts).routes = s.routes := rfl
@[simp] theorem first_cur (s : State) (ts : List Turn) : (s.first ts).cur = s.cur := rfl
@[simp] theorem first_word (s : State) (ts : List Turn) : (s.first ts).word = s.word := rfl
@[simp] theorem first_left (s : State) (ts : List Turn) : (s.first ts).left = s.left := rfl
@[simp] theorem first_released (s : State) (ts : List Turn) : (s.first ts).released = s.released := rfl
@[simp] theorem first_freeCtr (s : State) (ts : List Turn) : (s.first ts).freeCtr = s.freeCtr := rfl
@[simp] theorem first_fresh (s : State) (ts : List Turn) : (s.first ts).fresh = s.fresh := rfl

@[simp] theorem freshen_time (s : State) : s.freshen.time = s.time := rfl
@[simp] theorem freshen_mem (s : State) : s.freshen.mem = s.mem := rfl
@[simp] theorem freshen_l2 (s : State) : s.freshen.l2 = s.l2 := rfl
@[simp] theorem freshen_bad (s : State) : s.freshen.bad = s.bad := rfl
@[simp] theorem freshen_soft (s : State) : s.freshen.soft = s.soft := rfl
@[simp] theorem freshen_dir (s : State) : s.freshen.dir = s.dir := rfl
@[simp] theorem freshen_threads (s : State) : s.freshen.threads = s.threads := rfl
@[simp] theorem freshen_groups (s : State) : s.freshen.groups = s.groups := rfl
@[simp] theorem freshen_teams (s : State) : s.freshen.teams = s.teams := rfl
@[simp] theorem freshen_cohorts (s : State) : s.freshen.cohorts = s.cohorts := rfl
@[simp] theorem freshen_grids (s : State) : s.freshen.grids = s.grids := rfl
@[simp] theorem freshen_past (s : State) : s.freshen.past = s.past := rfl
@[simp] theorem freshen_cores (s : State) : s.freshen.cores = s.cores := rfl
@[simp] theorem freshen_clusters (s : State) : s.freshen.clusters = s.clusters := rfl
@[simp] theorem freshen_dies (s : State) : s.freshen.dies = s.dies := rfl
@[simp] theorem freshen_sites (s : State) : s.freshen.sites = s.sites := rfl
@[simp] theorem freshen_nacked (s : State) : s.freshen.nacked = s.nacked := rfl
@[simp] theorem freshen_wire (s : State) : s.freshen.wire = s.wire := rfl
@[simp] theorem freshen_pending (s : State) : s.freshen.pending = s.pending := rfl
@[simp] theorem freshen_boot (s : State) : s.freshen.boot = s.boot := rfl
@[simp] theorem freshen_anchor (s : State) : s.freshen.anchor = s.anchor := rfl
@[simp] theorem freshen_hbmWiped (s : State) : s.freshen.hbmWiped = s.hbmWiped := rfl
@[simp] theorem freshen_image (s : State) : s.freshen.image = s.image := rfl
@[simp] theorem freshen_imgTries (s : State) : s.freshen.imgTries = s.imgTries := rfl
@[simp] theorem freshen_imgNext (s : State) : s.freshen.imgNext = s.imgNext := rfl
@[simp] theorem freshen_imgLen (s : State) : s.freshen.imgLen = s.imgLen := rfl
@[simp] theorem freshen_running (s : State) : s.freshen.running = s.running := rfl
@[simp] theorem freshen_challenge (s : State) : s.freshen.challenge = s.challenge := rfl
@[simp] theorem freshen_cmdRun (s : State) : s.freshen.cmdRun = s.cmdRun := rfl
@[simp] theorem freshen_pairs (s : State) : s.freshen.pairs = s.pairs := rfl
@[simp] theorem freshen_topo (s : State) : s.freshen.topo = s.topo := rfl
@[simp] theorem freshen_topoGen (s : State) : s.freshen.topoGen = s.topoGen := rfl
@[simp] theorem freshen_topoDue (s : State) : s.freshen.topoDue = s.topoDue := rfl
@[simp] theorem freshen_routes (s : State) : s.freshen.routes = s.routes := rfl
@[simp] theorem freshen_agenda (s : State) : s.freshen.agenda = s.agenda := rfl
@[simp] theorem freshen_cur (s : State) : s.freshen.cur = s.cur := rfl
@[simp] theorem freshen_word (s : State) : s.freshen.word = s.word := rfl
@[simp] theorem freshen_left (s : State) : s.freshen.left = s.left := rfl
@[simp] theorem freshen_released (s : State) : s.freshen.released = s.released := rfl
@[simp] theorem freshen_freeCtr (s : State) : s.freshen.freeCtr = s.freeCtr := rfl

end Sys2Proof.Machine.State
end

