-- ==== Sys2Proof/Laws/Home.lean ====
section
/-! SUPPORT. Home copies: what writing bytes at their home changes, and that it keeps the canonical form of the slices' dirty bytes. -/
namespace Sys2Proof.Machine

namespace State

/-- Putting bytes into the home copies changes the slices' dirty bytes alone. -/
theorem homePut_eq (bs : List (BitVec 8)) (s : State) (pa : Nat) : s.homePut pa bs = { s with l2 := (s.homePut pa bs).l2 } := by
  induction bs generalizing s pa with
  | nil => rfl
  | cons b bs ih =>
    simp only [homePut]
    rw [ih]

/-- The dirty bytes keep rising addresses. -/
theorem homePut_rises (bs : List (BitVec 8)) (s : State) (pa : Nat) (h : risesFrom 0 s.l2 = true) :
    risesFrom 0 (s.homePut pa bs).l2 = true := by
  induction bs generalizing s pa with
  | nil => exact h
  | cons b bs ih => exact ih _ _ (risesFrom_put s.l2 0 pa b (Nat.zero_le _) h)

/-- A home copy after bytes have been put: the byte put, or the copy as it was. -/
theorem homePut_homeByte (bs : List (BitVec 8)) (s : State) (pa a : Nat) :
    (s.homePut pa bs).homeByte a = if pa ≤ a ∧ a < pa + bs.length then bs.getD (a - pa) 0 else s.homeByte a := by
  induction bs generalizing s pa with
  | nil =>
    have h : ¬(pa ≤ a ∧ a < pa + ([] : List (BitVec 8)).length) := by simp
    rw [if_neg h]
    rfl
  | cons b bs ih =>
    simp only [homePut, ih, List.length_cons]
    by_cases h1 : a = pa
    · subst h1
      rw [if_neg (by omega), if_pos (by omega)]
      simp [homeByte]
    · by_cases h2 : pa + 1 ≤ a ∧ a < pa + 1 + bs.length
      · rw [if_pos h2, if_pos (by omega)]
        obtain ⟨k, hk⟩ : ∃ k, a - pa = k + 1 := ⟨a - pa - 1, by omega⟩
        have hk2 : a - (pa + 1) = k := by omega
        rw [hk, hk2, List.getD_cons_succ]
      · rw [if_neg h2, if_neg (by omega)]
        simp only [homeByte]
        rw [AMap.get?_put_ne s.l2 pa a b h1]

/-- What every turn of a fold keeps, the fold keeps. -/
theorem foldl_keeps {α β : Type} (f : State → α → State) (g : State → β) (h : ∀ s a, g (f s a) = g s) (xs : List α) (s : State) :
    g (xs.foldl f s) = g s := by
  induction xs generalizing s with
  | nil => rfl
  | cons x xs ih => exact (ih (f s x)).trans (h s x)

/-- One message leaves memory as it is. -/
theorem sendOne_memory (s : State) (p : Packet) : (s.sendOne p).l2 = s.l2 ∧ (s.sendOne p).mem = s.mem := by
  unfold sendOne
  dsimp only
  split
  · exact ⟨rfl, rfl⟩
  · split <;> exact ⟨rfl, rfl⟩

/-- Messages leave memory as it is. -/
theorem send_memory (s : State) (ps : List Packet) : (s.send ps).l2 = s.l2 ∧ (s.send ps).mem = s.mem :=
  ⟨foldl_keeps _ (·.l2) (fun s p => (sendOne_memory s p).1) _ _, foldl_keeps _ (·.mem) (fun s p => (sendOne_memory s p).2) _ _⟩

/-- A message to an agent leaves memory as it is. -/
theorem toAgent_memory (s : State) (site : Nat) (p : Packet) : (s.toAgent site p).l2 = s.l2 ∧ (s.toAgent site p).mem = s.mem := by
  unfold toAgent toSite
  dsimp only
  split
  · split
    · exact sendOne_memory _ _
    · exact ⟨rfl, rfl⟩
  · exact sendOne_memory _ _

/-- A copy that follows its home leaves memory as it is. -/
theorem refresh_memory (s : State) (die core pa : Nat) (bs : List (BitVec 8)) (stamp : Nat) :
    (s.refresh die core pa bs stamp).l2 = s.l2 ∧ (s.refresh die core pa bs stamp).mem = s.mem := by
  unfold refresh patchWindows
  dsimp only
  split <;> split <;> exact ⟨rfl, rfl⟩

/-- Watches deliver values, wake dispatchers and send notices, and leave memory as it is. -/
theorem notify_memory (s : State) (pa n : Nat) : (s.notify pa n).l2 = s.l2 ∧ (s.notify pa n).mem = s.mem := by
  have h : ∀ (s : State) (h : Nat) (w : Watch), (s.serveWatch h w).l2 = s.l2 ∧ (s.serveWatch h w).mem = s.mem := by
    intro s h w
    unfold serveWatch
    dsimp only
    split
    · exact toAgent_memory _ _ _
    · split
      · exact ⟨rfl, rfl⟩
      · split
        · exact ⟨rfl, rfl⟩
        · exact ⟨(refresh_memory _ _ _ _ _ _).1.trans (by simp [deliverWatch]), (refresh_memory _ _ _ _ _ _).2.trans (by simp [deliverWatch])⟩
  exact ⟨foldl_keeps _ (·.l2) (fun s w => (h s _ w).1) _ _, foldl_keeps _ (·.mem) (fun s w => (h s _ w).2) _ _⟩

/-- A write of the writer's own remote copy leaves the home copies as they are. -/
theorem rdcUpdate_memory (s : State) (d pa : Nat) (bs : List (BitVec 8)) :
    (s.rdcUpdate d pa bs).l2 = s.l2 ∧ (s.rdcUpdate d pa bs).mem = s.mem := by
  unfold rdcUpdate
  split
  · exact ⟨rfl, rfl⟩
  · dsimp only
    split <;> exact ⟨rfl, rfl⟩

/-- What a write applied at its home leaves in memory: the bytes among the home copies, and the backing as it was (R193). -/
theorem applyAtHome_memory (s : State) (d pa : Nat) (bs : List (BitVec 8)) :
    (s.applyAtHome d pa bs).1.l2 = (s.homePut pa bs).l2 ∧ (s.applyAtHome d pa bs).1.mem = s.mem := by
  have hput : ∀ (x : State), x.l2 = s.l2 → (x.homePut pa bs).l2 = (s.homePut pa bs).l2 := by
    have h : ∀ (bs : List (BitVec 8)) (pa : Nat) (x y : State), x.l2 = y.l2 → (x.homePut pa bs).l2 = (y.homePut pa bs).l2 := by
      intro bs
      induction bs with
      | nil => exact fun _ _ _ h => h
      | cons b bs ih => exact fun pa x y h => ih _ _ _ (by simp [h])
    exact fun x hx => h bs pa x s hx
  have hmem : ∀ (x : State), (x.homePut pa bs).mem = x.mem := fun x => by rw [homePut_eq]
  have hf : ∀ (x : State) (n : Nat), (x.freshChecks pa n).l2 = x.l2 ∧ (x.freshChecks pa n).mem = x.mem := by
    intro x n
    unfold freshChecks
    split <;> exact ⟨rfl, rfl⟩
  unfold applyAtHome
  simp only
  refine ⟨?_, ?_⟩
  · rw [(rdcUpdate_memory _ _ _ _).1, (notify_memory _ _ _).1, (hf _ _).1]
    exact hput _ rfl
  · rw [(rdcUpdate_memory _ _ _ _).2, (notify_memory _ _ _).2, (hf _ _).2]
    exact hmem _

end State

end Sys2Proof.Machine
end

