-- ==== Sys2Proof/Laws/Operands.lean ====
section
/-! SUPPORT. What the shared operations of a word's meaning answer: one lemma for each of them, on the thread that issues the word. -/
namespace Sys2Proof.Machine

/-! ### Sequencing -/

/-- The rest of a meaning runs on what its first part answers. -/
theorem M.bind_ok {α β : Type} {x : M α} {f : α → M β} {s s' : State} {a : α} (h : x s = .ok (a, s')) : (x >>= f) s = f a s' := by
  show Except.bind (x s) _ = _
  rw [h]
  rfl

/-- A stop ends the meaning. -/
theorem M.bind_stop {α β : Type} {x : M α} {f : α → M β} {s : State} {e : Stop} (h : x s = .error e) : (x >>= f) s = .error e := by
  show Except.bind (x s) _ = _
  rw [h]
  rfl

/-- A value answered. -/
theorem M.pure_eq {α : Type} (a : α) (s : State) : (pure a : M α) s = .ok (a, s) := rfl

/-- A trap answered. -/
theorem M.trap_eq {α : Type} (c : Nat) (a x : Word) (s : State) : (trap c a x : M α) s = .error (.trap c a x) := rfl

/-- A list of readings, each of which answers. -/
theorem M.mapM_ok {α β : Type} (xs : List α) (f : α → M β) (g : α → β) (s : State) (h : ∀ x ∈ xs, f x s = .ok (g x, s)) :
    (xs.mapM f) s = .ok (xs.map g, s) := by
  induction xs with
  | nil => rfl
  | cons x xs ih =>
    rw [List.mapM_cons, M.bind_ok (h x (by simp)), M.bind_ok (ih fun y hy => h y (by simp [hy]))]
    rfl

/-! ### The running thread -/

/-- A thread that was put is found. -/
theorem State.th?_setTh (s : State) (u : Nat) (t : Thread) : (s.setTh u t).th? u = some t := AMap.get?_put_self ..

/-- Of two updates of one thread the later one stands. -/
theorem State.setTh_setTh (s : State) (u : Nat) (t t' : Thread) : (s.setTh u t).setTh u t' = s.setTh u t' := by
  simp only [State.setTh, AMap.put_put]

/-- A known thread is changed in place. -/
theorem State.modTh_eq {s : State} {u : Nat} {t : Thread} (f : Thread → Thread) (h : s.th? u = some t) : s.modTh u f = s.setTh u (f t) := by
  simp only [State.modTh, h]

/-- The running thread as a source. -/
theorem cur_eq {s : State} {t : Thread} (h : s.th? s.cur = some t) : cur s = .ok (t, s) := by simp only [cur, h, Option.getD_some]

/-- A change of the running thread. -/
theorem modCur_eq {s : State} {t : Thread} (f : Thread → Thread) (h : s.th? s.cur = some t) : modCur f s = .ok ((), s.setTh s.cur (f t)) := by
  simp only [modCur, State.modTh_eq f h]

/-- prc as a source. -/
theorem readPrc_eq {s : State} {t : Thread} (h : s.th? s.cur = some t) : readPrc s = .ok (t.prc, s) := by
  rw [readPrc, M.bind_ok (cur_eq h)]
  rfl

/-- A predicate as a source. -/
theorem readPred_eq {s : State} {t : Thread} (k : Nat) (h : s.th? s.cur = some t) : readPred k s = .ok (t.predVal k, s) := by
  rw [readPred, M.bind_ok (cur_eq h)]
  rfl

/-- The named length of the running thread's role. -/
theorem namedLen_eq {s : State} {t : Thread} (h : s.th? s.cur = some t) : namedLen s = .ok ((s.gridOf t).len t.tid, s) := by
  simp only [namedLen, h, Option.getD_some]

/-! ### Words -/

/-- A word that issues has the effect of its body. -/
theorem runWord_ok {i : Instr} {b : M Unit} {s s' : State} {t : Thread} (h : Issues i s t) (hb : b s = .ok ((), s')) :
    runWord i b s = .next s' := by
  simp only [runWord, h.1, if_neg h.2.1, h.2.2, hb, settleWord]

/-- A word whose body traps takes the trap. -/
theorem runWord_trap {i : Instr} {b : M Unit} {s : State} {t : Thread} {c : Nat} {a x : Word} (h : Issues i s t)
    (hb : b s = .error (.trap c a x)) : runWord i b s = .next (s.trapCur c a x) := by
  simp only [runWord, h.1, if_neg h.2.1, h.2.2, hb, settleWord]

/-- A word whose body parks parks its thread. -/
theorem runWord_park {i : Instr} {b : M Unit} {s s' : State} {t : Thread} {w : Park} (h : Issues i s t)
    (hb : b s = .error (.park w s')) : runWord i b s = .next (s'.parkCur w) := by
  simp only [runWord, h.1, if_neg h.2.1, h.2.2, hb, settleWord]

/-- A word with a decode-time cause takes it (R48). -/
theorem runWord_cause {i : Instr} {b : M Unit} {s : State} {t : Thread} {c : Nat} {x : Word} (ht : s.th? s.cur = some t)
    (hs : t.status ≠ .ended) (hc : decodeCause (s.gridOf t) t i = some (c, x)) : runWord i b s = .next (s.trapCur c 0 x) := by
  simp only [runWord, ht, if_neg hs, hc]

/-! ### Sources -/

/-- A readable slot is read. -/
theorem readOp_eq {s : State} {t : Thread} {sp : Spec} (h : s.th? s.cur = some t) (hr : s.reads t sp = true) :
    readOp sp s = .ok (t.value sp, s) := by
  simp only [State.reads, Bool.and_eq_true, Bool.or_eq_true, decide_eq_true_eq, Bool.not_eq_true'] at hr
  have hb : (t.badAt sp.toNat && t.fromStore sp.toNat) = false := by revert hr; cases t.badAt sp.toNat <;> cases t.fromStore sp.toNat <;> simp
  have hs : (t.softAt sp.toNat && t.fromStore sp.toNat) = false := by revert hr; cases t.softAt sp.toNat <;> cases t.fromStore sp.toNat <;> simp
  simp only [readOp, h, Option.getD_some, Thread.value]
  rw [if_neg (by omega), hb, hs]
  rfl

/-- Consecutive readable slots are read. -/
theorem readOps_eq {s : State} {t : Thread} {sp : Spec} {k : Nat} (h : s.th? s.cur = some t) (hr : s.readsAll t sp k = true) :
    readOps sp k s = .ok (t.values sp k, s) := by
  simp only [State.readsAll, Bool.and_eq_true, List.all_eq_true] at hr
  have hm : ((List.range k).mapM fun i => readOp (slotAfter sp i)) s = .ok (t.values sp k, s) :=
    M.mapM_ok _ _ _ s fun i hi => readOp_eq h (hr.2 i hi)
  rw [readOps, M.bind_ok (namedLen_eq h)]
  by_cases hq : sp.toNat < 16
  · simp only [hq, if_true, decide_eq_true_eq] at hr
    rw [if_pos hq, if_neg (by omega)]
    exact hm
  · simp only [hq, if_false, decide_eq_true_eq] at hr
    rw [if_neg hq, if_neg (by omega)]
    exact hm

/-- A readable VF value is read. -/
theorem readVf_eq {s : State} {t : Thread} {sp : Spec} (h : s.th? s.cur = some t) (hr : s.readsVf t sp = true) :
    readVf sp s = .ok (t.vfValue sp, s) := by
  simp only [State.readsVf, Bool.and_eq_true] at hr
  rw [readVf, M.bind_ok (readOp_eq h hr.1), M.bind_ok (readOps_eq h hr.2)]
  rfl

/-! ### Destinations -/

/-- A destination within reach passes its check. -/
theorem checkReach_eq {s : State} {t : Thread} {d : Spec} {k : Nat} (h : s.th? s.cur = some t) (hr : s.reaches t d k = true) :
    checkReach d k s = .ok ((), s) := by
  simp only [State.reaches, Bool.or_eq_true, decide_eq_true_eq] at hr
  rw [checkReach, M.bind_ok (namedLen_eq h), if_neg (by omega)]
  rfl

/-- Targets at a destination within reach. -/
theorem reserve_eq {s : State} {t : Thread} {d : Spec} {k : Nat} (h : s.th? s.cur = some t) (hr : s.reaches t d k = true) :
    reserve d k s = .ok (t.targets d k, s.setTh s.cur (t.reserved d k)) := by
  simp only [State.reaches, Bool.or_eq_true, decide_eq_true_eq] at hr
  simp only [reserve, Thread.targets, Thread.reserved]
  by_cases hq : d.toNat < 16
  · simp only [hq, if_true]
    rw [M.bind_ok (cur_eq h), M.bind_ok (modCur_eq _ h)]
    rfl
  · simp only [hq, if_false]
    rw [M.bind_ok (namedLen_eq h), if_neg (by omega)]
    show Except.ok _ = _
    rw [State.setTh, AMap.put_get _ _ _ h]

/-- Values of reserved targets. -/
theorem fill_eq {s : State} {t : Thread} (dist : Option Nat) (gs : List Target) (vs : List Word) (h : s.th? s.cur = some t) :
    fill dist gs vs s = .ok ((), s.setTh s.cur (t.filled dist gs vs)) := modCur_eq _ h

/-- Slots recorded at a destination within reach. -/
theorem writeOps_eq {s : State} {t : Thread} {dist : Option Nat} {d : Spec} {vs : List Word} (h : s.th? s.cur = some t)
    (hr : s.reaches t d vs.length = true) : writeOps dist d vs s = .ok ((), s.setTh s.cur (t.wrote dist d vs)) := by
  rw [writeOps, M.bind_ok (reserve_eq h hr), fill_eq (t := t.reserved d vs.length) _ _ _ (State.th?_setTh ..)]
  simp only [State.setTh_setTh, Thread.wrote]

/-- One slot recorded at a destination within reach. -/
theorem writeOp_eq {s : State} {t : Thread} {dist : Option Nat} {d : Spec} {v : Word} (h : s.th? s.cur = some t)
    (hr : s.reaches t d 1 = true) : writeOp dist d v s = .ok ((), s.setTh s.cur (t.wrote dist d [v])) :=
  writeOps_eq (vs := [v]) h hr

/-- A predicate recorded. -/
theorem writePred_eq {s : State} {t : Thread} (k : Nat) (v : Bool) (h : s.th? s.cur = some t) :
    writePred k v s = .ok ((), s.setTh s.cur (t.wrotePred k v)) := modCur_eq _ h

/-! ### Flags and VF results -/

/-- Flags with no enabled cause join the run's results (R70). -/
theorem raise_ok {s : State} {t : Thread} {f : Flags} {cls kept : Nat} (h : s.th? s.cur = some t) (hc : trapCause t.prc f = none) :
    raise f cls kept s = .ok ((), s.setTh s.cur (t.flagged f)) := by
  rw [raise, M.bind_ok (readPrc_eq h), hc]
  by_cases hf : f = {}
  · simp only [if_pos hf, Thread.flagged, M.pure_eq, State.setTh, AMap.put_get _ _ _ h]
  · simp only [if_neg hf, Thread.flagged]
    exact modCur_eq _ h

/-- An enabled flag traps (R71). -/
theorem raise_trap {s : State} {t : Thread} {f : Flags} {cls kept c : Nat} (h : s.th? s.cur = some t) (hc : trapCause t.prc f = some c) :
    raise f cls kept s = .error (.trap c 0 (arithInfo f cls kept)) := by
  rw [raise, M.bind_ok (readPrc_eq h), hc]
  rfl

/-- Recording flags leaves a thread's place and length alone. -/
theorem Thread.flagged_keeps (t : Thread) (f : Flags) :
    (t.flagged f).grid = t.grid ∧ (t.flagged f).tid = t.tid ∧ (t.flagged f).head = t.head := by
  unfold Thread.flagged
  split <;> exact ⟨rfl, rfl, rfl⟩

/-- Reach does not depend on what a run has recorded. -/
theorem State.reaches_setTh {s : State} {t t' : Thread} (u : Nat) (d : Spec) (k : Nat) (hg : t'.grid = t.grid) (hd : t'.tid = t.tid) :
    (s.setTh u t').reaches t' d k = s.reaches t d k := by
  simp only [State.reaches, State.gridOf, State.grid?, hg, hd]

/-- Slots of a VF value in register form. -/
theorem vfToSlots_length (v : Vf) : (vfToSlots v).length = slotsOf v.cls := by simp [vfToSlots, splitSlots]

end Sys2Proof.Machine
end

