-- ==== Sys2Proof/Laws/PerInstr.lean ====
section
/-! SUPPORT. Statements made per instruction: an encoded instruction decodes to itself, with one lemma for each constructor of Instr. -/
namespace Sys2Proof.Laws

set_option linter.unusedSimpArgs false

/-- An event has no encoding; the word of a well-formed instruction with any bits C and B decodes to that instruction and those bits (R27, R42 to R52). A reserved
opcode is held as its whole word, whose bits 31 and 30 are then C and B. -/
def RoundTrip.Statement (i : Instr) : Prop :=
  if 177 < i.ctorIdx then ∀ c b : Bool, encode ⟨c, b, i⟩ = none
  else ∀ c b : Bool, SlotWord.wf ⟨c, b, i⟩ = true → (∀ x, i = .reservedOpcode x → x.getLsbD 31 = c ∧ x.getLsbD 30 = b) →
    ∃ w, encode ⟨c, b, i⟩ = some w ∧ decodeWord w = some ⟨c, b, i⟩

/-- A word whose layout decodes to its instruction whatever its bits C and B. -/
theorem RoundTrip.word (i : Instr) (op : BitVec 6) (body : BitVec 24) (hk : i.ctorIdx ≤ 177) (he : encodeBody i = some (op, body))
    (hd : ∀ w, decodeBody op.toNat body w = some i) : RoundTrip.Statement i := by
  unfold RoundTrip.Statement
  rw [if_neg (Nat.not_lt.mpr hk)]
  intro c b hw _
  exact ⟨e1 c ++ e1 b ++ op ++ body, by simp only [encode, encodeWord, he, Option.map_some], decode_word c b op body i (hd _) hw⟩

theorem RoundTrip.nop : RoundTrip.Statement (.nop) := by
  exact RoundTrip.word _ _ _ (Nat.le_of_ble_eq_true rfl) rfl fun _ => rfl

theorem RoundTrip.pool (count : BitVec 20) : RoundTrip.Statement (.pool count) := by
  refine RoundTrip.word _ _ _ (Nat.le_of_ble_eq_true rfl) rfl fun w => ?_
  show decodeCtl _ = _
  unfold decodeCtl
  simp (discharger := decide) only [fN, f1, fD, fA, fB, fE, zeroed, field_above, field_below, bit_above, bit_below, field_whole, flag_bit, BitVec.toNat_ofNat, Nat.reducePow, Nat.reduceMod, Nat.reduceSub, if_true]
  try rfl

theorem RoundTrip.exit : RoundTrip.Statement (.exit) := by
  exact RoundTrip.word _ _ _ (Nat.le_of_ble_eq_true rfl) rfl fun _ => rfl

theorem RoundTrip.ret : RoundTrip.Statement (.ret) := by
  exact RoundTrip.word _ _ _ (Nat.le_of_ble_eq_true rfl) rfl fun _ => rfl

theorem RoundTrip.yield : RoundTrip.Statement (.yield) := by
  exact RoundTrip.word _ _ _ (Nat.le_of_ble_eq_true rfl) rfl fun _ => rfl

theorem RoundTrip.rft : RoundTrip.Statement (.rft) := by
  exact RoundTrip.word _ _ _ (Nat.le_of_ble_eq_true rfl) rfl fun _ => rfl

theorem RoundTrip.rftSkip : RoundTrip.Statement (.rftSkip) := by
  exact RoundTrip.word _ _ _ (Nat.le_of_ble_eq_true rfl) rfl fun _ => rfl

theorem RoundTrip.brkpt (code : BitVec 20) : RoundTrip.Statement (.brkpt code) := by
  refine RoundTrip.word _ _ _ (Nat.le_of_ble_eq_true rfl) rfl fun w => ?_
  show decodeCtl _ = _
  unfold decodeCtl
  simp (discharger := decide) only [fN, f1, fD, fA, fB, fE, zeroed, field_above, field_below, bit_above, bit_below, field_whole, flag_bit, BitVec.toNat_ofNat, Nat.reducePow, Nat.reduceMod, Nat.reduceSub, if_true]
  try rfl

theorem RoundTrip.last (x : Spec) (y : Spec) (z : Spec) : RoundTrip.Statement (.last x y z) := by
  refine RoundTrip.word _ _ _ (Nat.le_of_ble_eq_true rfl) rfl fun w => ?_
  show decodeCtl _ = _
  unfold decodeCtl
  simp (discharger := decide) only [fN, f1, fD, fA, fB, fE, zeroed, field_above, field_below, bit_above, bit_below, field_whole, flag_bit, BitVec.toNat_ofNat, Nat.reducePow, Nat.reduceMod, Nat.reduceSub, if_true]
  try rfl

theorem RoundTrip.add (d : Spec) (a : Spec) (b : Spec) (w_ : Bool) : RoundTrip.Statement (.add d a b w_) := by
  refine RoundTrip.word _ _ _ (Nat.le_of_ble_eq_true rfl) rfl fun w => ?_
  show decodeIalu _ = _
  unfold decodeIalu
  simp (discharger := decide) only [fN, f1, fD, fA, fB, fE, zeroed, field_above, field_below, bit_above, bit_below, field_whole, flag_bit, BitVec.toNat_ofNat, Nat.reducePow, Nat.reduceMod, Nat.reduceSub, if_true]
  try rfl

theorem RoundTrip.sub (d : Spec) (a : Spec) (b : Spec) (w_ : Bool) : RoundTrip.Statement (.sub d a b w_) := by
  refine RoundTrip.word _ _ _ (Nat.le_of_ble_eq_true rfl) rfl fun w => ?_
  show decodeIalu _ = _
  unfold decodeIalu
  simp (discharger := decide) only [fN, f1, fD, fA, fB, fE, zeroed, field_above, field_below, bit_above, bit_below, field_whole, flag_bit, BitVec.toNat_ofNat, Nat.reducePow, Nat.reduceMod, Nat.reduceSub, if_true]
  try rfl

theorem RoundTrip.mul (d : Spec) (a : Spec) (b : Spec) (w_ : Bool) : RoundTrip.Statement (.mul d a b w_) := by
  refine RoundTrip.word _ _ _ (Nat.le_of_ble_eq_true rfl) rfl fun w => ?_
  show decodeIalu _ = _
  unfold decodeIalu
  simp (discharger := decide) only [fN, f1, fD, fA, fB, fE, zeroed, field_above, field_below, bit_above, bit_below, field_whole, flag_bit, BitVec.toNat_ofNat, Nat.reducePow, Nat.reduceMod, Nat.reduceSub, if_true]
  try rfl

theorem RoundTrip.mulh (d : Spec) (a : Spec) (b : Spec) (w_ : Bool) : RoundTrip.Statement (.mulh d a b w_) := by
  refine RoundTrip.word _ _ _ (Nat.le_of_ble_eq_true rfl) rfl fun w => ?_
  show decodeIalu _ = _
  unfold decodeIalu
  simp (discharger := decide) only [fN, f1, fD, fA, fB, fE, zeroed, field_above, field_below, bit_above, bit_below, field_whole, flag_bit, BitVec.toNat_ofNat, Nat.reducePow, Nat.reduceMod, Nat.reduceSub, if_true]
  try rfl

theorem RoundTrip.mulhn (d : Spec) (a : Spec) (b : Spec) (w_ : Bool) : RoundTrip.Statement (.mulhn d a b w_) := by
  refine RoundTrip.word _ _ _ (Nat.le_of_ble_eq_true rfl) rfl fun w => ?_
  show decodeIalu _ = _
  unfold decodeIalu
  simp (discharger := decide) only [fN, f1, fD, fA, fB, fE, zeroed, field_above, field_below, bit_above, bit_below, field_whole, flag_bit, BitVec.toNat_ofNat, Nat.reducePow, Nat.reduceMod, Nat.reduceSub, if_true]
  try rfl

theorem RoundTrip.div (d : Spec) (a : Spec) (b : Spec) (w_ : Bool) : RoundTrip.Statement (.div d a b w_) := by
  refine RoundTrip.word _ _ _ (Nat.le_of_ble_eq_true rfl) rfl fun w => ?_
  show decodeIalu _ = _
  unfold decodeIalu
  simp (discharger := decide) only [fN, f1, fD, fA, fB, fE, zeroed, field_above, field_below, bit_above, bit_below, field_whole, flag_bit, BitVec.toNat_ofNat, Nat.reducePow, Nat.reduceMod, Nat.reduceSub, if_true]
  try rfl

theorem RoundTrip.divn (d : Spec) (a : Spec) (b : Spec) (w_ : Bool) : RoundTrip.Statement (.divn d a b w_) := by
  refine RoundTrip.word _ _ _ (Nat.le_of_ble_eq_true rfl) rfl fun w => ?_
  show decodeIalu _ = _
  unfold decodeIalu
  simp (discharger := decide) only [fN, f1, fD, fA, fB, fE, zeroed, field_above, field_below, bit_above, bit_below, field_whole, flag_bit, BitVec.toNat_ofNat, Nat.reducePow, Nat.reduceMod, Nat.reduceSub, if_true]
  try rfl

theorem RoundTrip.rem (d : Spec) (a : Spec) (b : Spec) (w_ : Bool) : RoundTrip.Statement (.rem d a b w_) := by
  refine RoundTrip.word _ _ _ (Nat.le_of_ble_eq_true rfl) rfl fun w => ?_
  show decodeIalu _ = _
  unfold decodeIalu
  simp (discharger := decide) only [fN, f1, fD, fA, fB, fE, zeroed, field_above, field_below, bit_above, bit_below, field_whole, flag_bit, BitVec.toNat_ofNat, Nat.reducePow, Nat.reduceMod, Nat.reduceSub, if_true]
  try rfl

theorem RoundTrip.remn (d : Spec) (a : Spec) (b : Spec) (w_ : Bool) : RoundTrip.Statement (.remn d a b w_) := by
  refine RoundTrip.word _ _ _ (Nat.le_of_ble_eq_true rfl) rfl fun w => ?_
  show decodeIalu _ = _
  unfold decodeIalu
  simp (discharger := decide) only [fN, f1, fD, fA, fB, fE, zeroed, field_above, field_below, bit_above, bit_below, field_whole, flag_bit, BitVec.toNat_ofNat, Nat.reducePow, Nat.reduceMod, Nat.reduceSub, if_true]
  try rfl

theorem RoundTrip.min (d : Spec) (a : Spec) (b : Spec) (w_ : Bool) : RoundTrip.Statement (.min d a b w_) := by
  refine RoundTrip.word _ _ _ (Nat.le_of_ble_eq_true rfl) rfl fun w => ?_
  show decodeIalu _ = _
  unfold decodeIalu
  simp (discharger := decide) only [fN, f1, fD, fA, fB, fE, zeroed, field_above, field_below, bit_above, bit_below, field_whole, flag_bit, BitVec.toNat_ofNat, Nat.reducePow, Nat.reduceMod, Nat.reduceSub, if_true]
  try rfl

theorem RoundTrip.max (d : Spec) (a : Spec) (b : Spec) (w_ : Bool) : RoundTrip.Statement (.max d a b w_) := by
  refine RoundTrip.word _ _ _ (Nat.le_of_ble_eq_true rfl) rfl fun w => ?_
  show decodeIalu _ = _
  unfold decodeIalu
  simp (discharger := decide) only [fN, f1, fD, fA, fB, fE, zeroed, field_above, field_below, bit_above, bit_below, field_whole, flag_bit, BitVec.toNat_ofNat, Nat.reducePow, Nat.reduceMod, Nat.reduceSub, if_true]
  try rfl

theorem RoundTrip.minn (d : Spec) (a : Spec) (b : Spec) (w_ : Bool) : RoundTrip.Statement (.minn d a b w_) := by
  refine RoundTrip.word _ _ _ (Nat.le_of_ble_eq_true rfl) rfl fun w => ?_
  show decodeIalu _ = _
  unfold decodeIalu
  simp (discharger := decide) only [fN, f1, fD, fA, fB, fE, zeroed, field_above, field_below, bit_above, bit_below, field_whole, flag_bit, BitVec.toNat_ofNat, Nat.reducePow, Nat.reduceMod, Nat.reduceSub, if_true]
  try rfl

theorem RoundTrip.maxn (d : Spec) (a : Spec) (b : Spec) (w_ : Bool) : RoundTrip.Statement (.maxn d a b w_) := by
  refine RoundTrip.word _ _ _ (Nat.le_of_ble_eq_true rfl) rfl fun w => ?_
  show decodeIalu _ = _
  unfold decodeIalu
  simp (discharger := decide) only [fN, f1, fD, fA, fB, fE, zeroed, field_above, field_below, bit_above, bit_below, field_whole, flag_bit, BitVec.toNat_ofNat, Nat.reducePow, Nat.reduceMod, Nat.reduceSub, if_true]
  try rfl

theorem RoundTrip.and (d : Spec) (a : Spec) (b : Spec) (w_ : Bool) : RoundTrip.Statement (.and d a b w_) := by
  refine RoundTrip.word _ _ _ (Nat.le_of_ble_eq_true rfl) rfl fun w => ?_
  show decodeIalu _ = _
  unfold decodeIalu
  simp (discharger := decide) only [fN, f1, fD, fA, fB, fE, zeroed, field_above, field_below, bit_above, bit_below, field_whole, flag_bit, BitVec.toNat_ofNat, Nat.reducePow, Nat.reduceMod, Nat.reduceSub, if_true]
  try rfl

theorem RoundTrip.or (d : Spec) (a : Spec) (b : Spec) (w_ : Bool) : RoundTrip.Statement (.or d a b w_) := by
  refine RoundTrip.word _ _ _ (Nat.le_of_ble_eq_true rfl) rfl fun w => ?_
  show decodeIalu _ = _
  unfold decodeIalu
  simp (discharger := decide) only [fN, f1, fD, fA, fB, fE, zeroed, field_above, field_below, bit_above, bit_below, field_whole, flag_bit, BitVec.toNat_ofNat, Nat.reducePow, Nat.reduceMod, Nat.reduceSub, if_true]
  try rfl

theorem RoundTrip.xor (d : Spec) (a : Spec) (b : Spec) (w_ : Bool) : RoundTrip.Statement (.xor d a b w_) := by
  refine RoundTrip.word _ _ _ (Nat.le_of_ble_eq_true rfl) rfl fun w => ?_
  show decodeIalu _ = _
  unfold decodeIalu
  simp (discharger := decide) only [fN, f1, fD, fA, fB, fE, zeroed, field_above, field_below, bit_above, bit_below, field_whole, flag_bit, BitVec.toNat_ofNat, Nat.reducePow, Nat.reduceMod, Nat.reduceSub, if_true]
  try rfl

theorem RoundTrip.andn (d : Spec) (a : Spec) (b : Spec) (w_ : Bool) : RoundTrip.Statement (.andn d a b w_) := by
  refine RoundTrip.word _ _ _ (Nat.le_of_ble_eq_true rfl) rfl fun w => ?_
  show decodeIalu _ = _
  unfold decodeIalu
  simp (discharger := decide) only [fN, f1, fD, fA, fB, fE, zeroed, field_above, field_below, bit_above, bit_below, field_whole, flag_bit, BitVec.toNat_ofNat, Nat.reducePow, Nat.reduceMod, Nat.reduceSub, if_true]
  try rfl

theorem RoundTrip.shl (d : Spec) (a : Spec) (b : Spec) (w_ : Bool) : RoundTrip.Statement (.shl d a b w_) := by
  refine RoundTrip.word _ _ _ (Nat.le_of_ble_eq_true rfl) rfl fun w => ?_
  show decodeIalu _ = _
  unfold decodeIalu
  simp (discharger := decide) only [fN, f1, fD, fA, fB, fE, zeroed, field_above, field_below, bit_above, bit_below, field_whole, flag_bit, BitVec.toNat_ofNat, Nat.reducePow, Nat.reduceMod, Nat.reduceSub, if_true]
  try rfl

theorem RoundTrip.shr (d : Spec) (a : Spec) (b : Spec) (w_ : Bool) : RoundTrip.Statement (.shr d a b w_) := by
  refine RoundTrip.word _ _ _ (Nat.le_of_ble_eq_true rfl) rfl fun w => ?_
  show decodeIalu _ = _
  unfold decodeIalu
  simp (discharger := decide) only [fN, f1, fD, fA, fB, fE, zeroed, field_above, field_below, bit_above, bit_below, field_whole, flag_bit, BitVec.toNat_ofNat, Nat.reducePow, Nat.reduceMod, Nat.reduceSub, if_true]
  try rfl

theorem RoundTrip.sar (d : Spec) (a : Spec) (b : Spec) (w_ : Bool) : RoundTrip.Statement (.sar d a b w_) := by
  refine RoundTrip.word _ _ _ (Nat.le_of_ble_eq_true rfl) rfl fun w => ?_
  show decodeIalu _ = _
  unfold decodeIalu
  simp (discharger := decide) only [fN, f1, fD, fA, fB, fE, zeroed, field_above, field_below, bit_above, bit_below, field_whole, flag_bit, BitVec.toNat_ofNat, Nat.reducePow, Nat.reduceMod, Nat.reduceSub, if_true]
  try rfl

theorem RoundTrip.rot (d : Spec) (a : Spec) (b : Spec) (w_ : Bool) : RoundTrip.Statement (.rot d a b w_) := by
  refine RoundTrip.word _ _ _ (Nat.le_of_ble_eq_true rfl) rfl fun w => ?_
  show decodeIalu _ = _
  unfold decodeIalu
  simp (discharger := decide) only [fN, f1, fD, fA, fB, fE, zeroed, field_above, field_below, bit_above, bit_below, field_whole, flag_bit, BitVec.toNat_ofNat, Nat.reducePow, Nat.reduceMod, Nat.reduceSub, if_true]
  try rfl

theorem RoundTrip.clz (d : Spec) (a : Spec) (w_ : Bool) : RoundTrip.Statement (.clz d a w_) := by
  refine RoundTrip.word _ _ _ (Nat.le_of_ble_eq_true rfl) rfl fun w => ?_
  show decodeIalu _ = _
  unfold decodeIalu
  simp (discharger := decide) only [fN, f1, fD, fA, fB, fE, zeroed, field_above, field_below, bit_above, bit_below, field_whole, flag_bit, BitVec.toNat_ofNat, Nat.reducePow, Nat.reduceMod, Nat.reduceSub, if_true]
  try rfl

theorem RoundTrip.popc (d : Spec) (a : Spec) (w_ : Bool) : RoundTrip.Statement (.popc d a w_) := by
  refine RoundTrip.word _ _ _ (Nat.le_of_ble_eq_true rfl) rfl fun w => ?_
  show decodeIalu _ = _
  unfold decodeIalu
  simp (discharger := decide) only [fN, f1, fD, fA, fB, fE, zeroed, field_above, field_below, bit_above, bit_below, field_whole, flag_bit, BitVec.toNat_ofNat, Nat.reducePow, Nat.reduceMod, Nat.reduceSub, if_true]
  try rfl

theorem RoundTrip.brev (d : Spec) (a : Spec) (w_ : Bool) : RoundTrip.Statement (.brev d a w_) := by
  refine RoundTrip.word _ _ _ (Nat.le_of_ble_eq_true rfl) rfl fun w => ?_
  show decodeIalu _ = _
  unfold decodeIalu
  simp (discharger := decide) only [fN, f1, fD, fA, fB, fE, zeroed, field_above, field_below, bit_above, bit_below, field_whole, flag_bit, BitVec.toNat_ofNat, Nat.reducePow, Nat.reduceMod, Nat.reduceSub, if_true]
  try rfl

theorem RoundTrip.abs (d : Spec) (a : Spec) (w_ : Bool) : RoundTrip.Statement (.abs d a w_) := by
  refine RoundTrip.word _ _ _ (Nat.le_of_ble_eq_true rfl) rfl fun w => ?_
  show decodeIalu _ = _
  unfold decodeIalu
  simp (discharger := decide) only [fN, f1, fD, fA, fB, fE, zeroed, field_above, field_below, bit_above, bit_below, field_whole, flag_bit, BitVec.toNat_ofNat, Nat.reducePow, Nat.reduceMod, Nat.reduceSub, if_true]
  try rfl

theorem RoundTrip.neg (d : Spec) (a : Spec) (w_ : Bool) : RoundTrip.Statement (.neg d a w_) := by
  refine RoundTrip.word _ _ _ (Nat.le_of_ble_eq_true rfl) rfl fun w => ?_
  show decodeIalu _ = _
  unfold decodeIalu
  simp (discharger := decide) only [fN, f1, fD, fA, fB, fE, zeroed, field_above, field_below, bit_above, bit_below, field_whole, flag_bit, BitVec.toNat_ofNat, Nat.reducePow, Nat.reduceMod, Nat.reduceSub, if_true]
  try rfl

theorem RoundTrip.sext (d : Spec) (a : Spec) : RoundTrip.Statement (.sext d a) := by
  refine RoundTrip.word _ _ _ (Nat.le_of_ble_eq_true rfl) rfl fun w => ?_
  show decodeIalu _ = _
  unfold decodeIalu
  simp (discharger := decide) only [fN, f1, fD, fA, fB, fE, zeroed, field_above, field_below, bit_above, bit_below, field_whole, flag_bit, BitVec.toNat_ofNat, Nat.reducePow, Nat.reduceMod, Nat.reduceSub, if_true]
  try rfl

theorem RoundTrip.zext (d : Spec) (a : Spec) : RoundTrip.Statement (.zext d a) := by
  refine RoundTrip.word _ _ _ (Nat.le_of_ble_eq_true rfl) rfl fun w => ?_
  show decodeIalu _ = _
  unfold decodeIalu
  simp (discharger := decide) only [fN, f1, fD, fA, fB, fE, zeroed, field_above, field_below, bit_above, bit_below, field_whole, flag_bit, BitVec.toNat_ofNat, Nat.reducePow, Nat.reduceMod, Nat.reduceSub, if_true]
  try rfl

theorem RoundTrip.mov (d : Spec) (a : Spec) (w_ : Bool) : RoundTrip.Statement (.mov d a w_) := by
  refine RoundTrip.word _ _ _ (Nat.le_of_ble_eq_true rfl) rfl fun w => ?_
  show decodeIalu _ = _
  unfold decodeIalu
  simp (discharger := decide) only [fN, f1, fD, fA, fB, fE, zeroed, field_above, field_below, bit_above, bit_below, field_whole, flag_bit, BitVec.toNat_ofNat, Nat.reducePow, Nat.reduceMod, Nat.reduceSub, if_true]
  try rfl

theorem RoundTrip.addi (d : Spec) (a : Spec) (i : BitVec 12) : RoundTrip.Statement (.addi d a i) := by
  refine RoundTrip.word _ _ _ (Nat.le_of_ble_eq_true rfl) rfl fun w => ?_
  show some _ = some _
  simp (discharger := decide) only [fN, f1, fD, fA, fB, fE, zeroed, field_above, field_below, bit_above, bit_below, field_whole, flag_bit, BitVec.toNat_ofNat, Nat.reducePow, Nat.reduceMod, Nat.reduceSub, if_true]
  try rfl

theorem RoundTrip.andi (d : Spec) (a : Spec) (i : BitVec 10) : RoundTrip.Statement (.andi d a i) := by
  refine RoundTrip.word _ _ _ (Nat.le_of_ble_eq_true rfl) rfl fun w => ?_
  show decodeLogi _ = _
  unfold decodeLogi
  simp (discharger := decide) only [fN, f1, fD, fA, fB, fE, zeroed, field_above, field_below, bit_above, bit_below, field_whole, flag_bit, BitVec.toNat_ofNat, Nat.reducePow, Nat.reduceMod, Nat.reduceSub, if_true]
  try rfl

theorem RoundTrip.ori (d : Spec) (a : Spec) (i : BitVec 10) : RoundTrip.Statement (.ori d a i) := by
  refine RoundTrip.word _ _ _ (Nat.le_of_ble_eq_true rfl) rfl fun w => ?_
  show decodeLogi _ = _
  unfold decodeLogi
  simp (discharger := decide) only [fN, f1, fD, fA, fB, fE, zeroed, field_above, field_below, bit_above, bit_below, field_whole, flag_bit, BitVec.toNat_ofNat, Nat.reducePow, Nat.reduceMod, Nat.reduceSub, if_true]
  try rfl

theorem RoundTrip.xori (d : Spec) (a : Spec) (i : BitVec 10) : RoundTrip.Statement (.xori d a i) := by
  refine RoundTrip.word _ _ _ (Nat.le_of_ble_eq_true rfl) rfl fun w => ?_
  show decodeLogi _ = _
  unfold decodeLogi
  simp (discharger := decide) only [fN, f1, fD, fA, fB, fE, zeroed, field_above, field_below, bit_above, bit_below, field_whole, flag_bit, BitVec.toNat_ofNat, Nat.reducePow, Nat.reduceMod, Nat.reduceSub, if_true]
  try rfl

theorem RoundTrip.andni (d : Spec) (a : Spec) (i : BitVec 10) : RoundTrip.Statement (.andni d a i) := by
  refine RoundTrip.word _ _ _ (Nat.le_of_ble_eq_true rfl) rfl fun w => ?_
  show decodeLogi _ = _
  unfold decodeLogi
  simp (discharger := decide) only [fN, f1, fD, fA, fB, fE, zeroed, field_above, field_below, bit_above, bit_below, field_whole, flag_bit, BitVec.toNat_ofNat, Nat.reducePow, Nat.reduceMod, Nat.reduceSub, if_true]
  try rfl

theorem RoundTrip.shli (d : Spec) (a : Spec) (w_ : Bool) (s : Spec) : RoundTrip.Statement (.shli d a w_ s) := by
  refine RoundTrip.word _ _ _ (Nat.le_of_ble_eq_true rfl) rfl fun w => ?_
  show decodeShi _ = _
  unfold decodeShi
  simp (discharger := decide) only [fN, f1, fD, fA, fB, fE, zeroed, field_above, field_below, bit_above, bit_below, field_whole, flag_bit, BitVec.toNat_ofNat, Nat.reducePow, Nat.reduceMod, Nat.reduceSub, if_true]
  try rfl

theorem RoundTrip.shri (d : Spec) (a : Spec) (w_ : Bool) (s : Spec) : RoundTrip.Statement (.shri d a w_ s) := by
  refine RoundTrip.word _ _ _ (Nat.le_of_ble_eq_true rfl) rfl fun w => ?_
  show decodeShi _ = _
  unfold decodeShi
  simp (discharger := decide) only [fN, f1, fD, fA, fB, fE, zeroed, field_above, field_below, bit_above, bit_below, field_whole, flag_bit, BitVec.toNat_ofNat, Nat.reducePow, Nat.reduceMod, Nat.reduceSub, if_true]
  try rfl

theorem RoundTrip.sari (d : Spec) (a : Spec) (w_ : Bool) (s : Spec) : RoundTrip.Statement (.sari d a w_ s) := by
  refine RoundTrip.word _ _ _ (Nat.le_of_ble_eq_true rfl) rfl fun w => ?_
  show decodeShi _ = _
  unfold decodeShi
  simp (discharger := decide) only [fN, f1, fD, fA, fB, fE, zeroed, field_above, field_below, bit_above, bit_below, field_whole, flag_bit, BitVec.toNat_ofNat, Nat.reducePow, Nat.reduceMod, Nat.reduceSub, if_true]
  try rfl

theorem RoundTrip.roti (d : Spec) (a : Spec) (w_ : Bool) (s : Spec) : RoundTrip.Statement (.roti d a w_ s) := by
  refine RoundTrip.word _ _ _ (Nat.le_of_ble_eq_true rfl) rfl fun w => ?_
  show decodeShi _ = _
  unfold decodeShi
  simp (discharger := decide) only [fN, f1, fD, fA, fB, fE, zeroed, field_above, field_below, bit_above, bit_below, field_whole, flag_bit, BitVec.toNat_ofNat, Nat.reducePow, Nat.reduceMod, Nat.reduceSub, if_true]
  try rfl

theorem RoundTrip.icmp (cond : BitVec 3) (p : BitVec 3) (a : Spec) (b : Spec) (comb : BitVec 3) (w_ : Bool) : RoundTrip.Statement (.icmp cond p a b comb w_) := by
  refine RoundTrip.word _ _ _ (Nat.le_of_ble_eq_true rfl) rfl fun w => ?_
  show zeroed _ _ = _
  simp (discharger := decide) only [fN, f1, fD, fA, fB, fE, zeroed, field_above, field_below, bit_above, bit_below, field_whole, flag_bit, BitVec.toNat_ofNat, Nat.reducePow, Nat.reduceMod, Nat.reduceSub, if_true]
  try rfl

theorem RoundTrip.icmpi (cond : BitVec 3) (p : BitVec 3) (a : Spec) (immHi : Spec) (comb : BitVec 3) (immLo : BitVec 3) : RoundTrip.Statement (.icmpi cond p a immHi comb immLo) := by
  refine RoundTrip.word _ _ _ (Nat.le_of_ble_eq_true rfl) rfl fun w => ?_
  show some _ = some _
  simp (discharger := decide) only [fN, f1, fD, fA, fB, fE, zeroed, field_above, field_below, bit_above, bit_below, field_whole, flag_bit, BitVec.toNat_ofNat, Nat.reducePow, Nat.reduceMod, Nat.reduceSub, if_true]
  try rfl

theorem RoundTrip.sel (d : Spec) (a : Spec) (b : Spec) (k : BitVec 3) : RoundTrip.Statement (.sel d a b k) := by
  refine RoundTrip.word _ _ _ (Nat.le_of_ble_eq_true rfl) rfl fun w => ?_
  show decodeBits _ = _
  unfold decodeBits
  simp (discharger := decide) only [fN, f1, fD, fA, fB, fE, zeroed, field_above, field_below, bit_above, bit_below, field_whole, flag_bit, BitVec.toNat_ofNat, Nat.reducePow, Nat.reduceMod, Nat.reduceSub, if_true]
  try rfl

theorem RoundTrip.bfx (d : Spec) (a : Spec) (b : Spec) (sx : Bool) : RoundTrip.Statement (.bfx d a b sx) := by
  refine RoundTrip.word _ _ _ (Nat.le_of_ble_eq_true rfl) rfl fun w => ?_
  show decodeBits _ = _
  unfold decodeBits
  simp (discharger := decide) only [fN, f1, fD, fA, fB, fE, zeroed, field_above, field_below, bit_above, bit_below, field_whole, flag_bit, BitVec.toNat_ofNat, Nat.reducePow, Nat.reduceMod, Nat.reduceSub, if_true]
  try rfl

theorem RoundTrip.bfi (d : Spec) (a : Spec) (b : Spec) : RoundTrip.Statement (.bfi d a b) := by
  refine RoundTrip.word _ _ _ (Nat.le_of_ble_eq_true rfl) rfl fun w => ?_
  show decodeBits _ = _
  unfold decodeBits
  simp (discharger := decide) only [fN, f1, fD, fA, fB, fE, zeroed, field_above, field_below, bit_above, bit_below, field_whole, flag_bit, BitVec.toNat_ofNat, Nat.reducePow, Nat.reduceMod, Nat.reduceSub, if_true]
  try rfl

theorem RoundTrip.pmov (d : Spec) : RoundTrip.Statement (.pmov d) := by
  refine RoundTrip.word _ _ _ (Nat.le_of_ble_eq_true rfl) rfl fun w => ?_
  show decodeBits _ = _
  unfold decodeBits
  simp (discharger := decide) only [fN, f1, fD, fA, fB, fE, zeroed, field_above, field_below, bit_above, bit_below, field_whole, flag_bit, BitVec.toNat_ofNat, Nat.reducePow, Nat.reduceMod, Nat.reduceSub, if_true]
  try rfl

theorem RoundTrip.setp (a : Spec) : RoundTrip.Statement (.setp a) := by
  refine RoundTrip.word _ _ _ (Nat.le_of_ble_eq_true rfl) rfl fun w => ?_
  show decodeBits _ = _
  unfold decodeBits
  simp (discharger := decide) only [fN, f1, fD, fA, fB, fE, zeroed, field_above, field_below, bit_above, bit_below, field_whole, flag_bit, BitVec.toNat_ofNat, Nat.reducePow, Nat.reduceMod, Nat.reduceSub, if_true]
  try rfl

theorem RoundTrip.bperm (d : Spec) (a : Spec) (b : Spec) : RoundTrip.Statement (.bperm d a b) := by
  refine RoundTrip.word _ _ _ (Nat.le_of_ble_eq_true rfl) rfl fun w => ?_
  show decodeBits _ = _
  unfold decodeBits
  simp (discharger := decide) only [fN, f1, fD, fA, fB, fE, zeroed, field_above, field_below, bit_above, bit_below, field_whole, flag_bit, BitVec.toNat_ofNat, Nat.reducePow, Nat.reduceMod, Nat.reduceSub, if_true]
  try rfl

theorem RoundTrip.ldlit (d : Spec) (off : BitVec 18) : RoundTrip.Statement (.ldlit d off) := by
  refine RoundTrip.word _ _ _ (Nat.le_of_ble_eq_true rfl) rfl fun w => ?_
  show some _ = some _
  simp (discharger := decide) only [fN, f1, fD, fA, fB, fE, zeroed, field_above, field_below, bit_above, bit_below, field_whole, flag_bit, BitVec.toNat_ofNat, Nat.reducePow, Nat.reduceMod, Nat.reduceSub, if_true]
  try rfl

theorem RoundTrip.addr (d : Spec) (a : Spec) (b : Spec) (scale : BitVec 3) : RoundTrip.Statement (.addr d a b scale) := by
  refine RoundTrip.word _ _ _ (Nat.le_of_ble_eq_true rfl) rfl fun w => ?_
  show zeroed _ _ = _
  simp (discharger := decide) only [fN, f1, fD, fA, fB, fE, zeroed, field_above, field_below, bit_above, bit_below, field_whole, flag_bit, BitVec.toNat_ofNat, Nat.reducePow, Nat.reduceMod, Nat.reduceSub, if_true]
  try rfl

theorem RoundTrip.sprGet (x : Spec) (num : BitVec 12) : RoundTrip.Statement (.sprGet x num) := by
  refine RoundTrip.word _ _ _ (Nat.le_of_ble_eq_true rfl) rfl fun w => ?_
  show decodeSpr _ = _
  unfold decodeSpr
  simp (discharger := decide) only [fN, f1, fD, fA, fB, fE, zeroed, field_above, field_below, bit_above, bit_below, field_whole, flag_bit, BitVec.toNat_ofNat, Nat.reducePow, Nat.reduceMod, Nat.reduceSub, if_true]
  try rfl

theorem RoundTrip.sprSet (x : Spec) (num : BitVec 12) : RoundTrip.Statement (.sprSet x num) := by
  refine RoundTrip.word _ _ _ (Nat.le_of_ble_eq_true rfl) rfl fun w => ?_
  show decodeSpr _ = _
  unfold decodeSpr
  simp (discharger := decide) only [fN, f1, fD, fA, fB, fE, zeroed, field_above, field_below, bit_above, bit_below, field_whole, flag_bit, BitVec.toNat_ofNat, Nat.reducePow, Nat.reduceMod, Nat.reduceSub, if_true]
  try rfl

theorem RoundTrip.sprSwap (x : Spec) (num : BitVec 12) : RoundTrip.Statement (.sprSwap x num) := by
  refine RoundTrip.word _ _ _ (Nat.le_of_ble_eq_true rfl) rfl fun w => ?_
  show decodeSpr _ = _
  unfold decodeSpr
  simp (discharger := decide) only [fN, f1, fD, fA, fB, fE, zeroed, field_above, field_below, bit_above, bit_below, field_whole, flag_bit, BitVec.toNat_ofNat, Nat.reducePow, Nat.reduceMod, Nat.reduceSub, if_true]
  try rfl

theorem RoundTrip.redo (a : Spec) (base : Spec) (b : Spec) (scope : BitVec 3) : RoundTrip.Statement (.redo a base b scope) := by
  refine RoundTrip.word _ _ _ (Nat.le_of_ble_eq_true rfl) rfl fun w => ?_
  show zeroed _ _ = _
  simp (discharger := decide) only [fN, f1, fD, fA, fB, fE, zeroed, field_above, field_below, bit_above, bit_below, field_whole, flag_bit, BitVec.toNat_ofNat, Nat.reducePow, Nat.reduceMod, Nat.reduceSub, if_true]
  try rfl

theorem RoundTrip.fadd (d : Spec) (a : Spec) (b : Spec) (rnd : BitVec 2) (cls : BitVec 4) : RoundTrip.Statement (.fadd d a b rnd cls) := by
  refine RoundTrip.word _ _ _ (Nat.le_of_ble_eq_true rfl) rfl fun w => ?_
  show some _ = some _
  simp (discharger := decide) only [fN, f1, fD, fA, fB, fE, zeroed, field_above, field_below, bit_above, bit_below, field_whole, flag_bit, BitVec.toNat_ofNat, Nat.reducePow, Nat.reduceMod, Nat.reduceSub, if_true]
  try rfl

theorem RoundTrip.fsub (d : Spec) (a : Spec) (b : Spec) (rnd : BitVec 2) (cls : BitVec 4) : RoundTrip.Statement (.fsub d a b rnd cls) := by
  refine RoundTrip.word _ _ _ (Nat.le_of_ble_eq_true rfl) rfl fun w => ?_
  show some _ = some _
  simp (discharger := decide) only [fN, f1, fD, fA, fB, fE, zeroed, field_above, field_below, bit_above, bit_below, field_whole, flag_bit, BitVec.toNat_ofNat, Nat.reducePow, Nat.reduceMod, Nat.reduceSub, if_true]
  try rfl

theorem RoundTrip.fmul (d : Spec) (a : Spec) (b : Spec) (rnd : BitVec 2) (cls : BitVec 4) : RoundTrip.Statement (.fmul d a b rnd cls) := by
  refine RoundTrip.word _ _ _ (Nat.le_of_ble_eq_true rfl) rfl fun w => ?_
  show some _ = some _
  simp (discharger := decide) only [fN, f1, fD, fA, fB, fE, zeroed, field_above, field_below, bit_above, bit_below, field_whole, flag_bit, BitVec.toNat_ofNat, Nat.reducePow, Nat.reduceMod, Nat.reduceSub, if_true]
  try rfl

theorem RoundTrip.fmin (d : Spec) (a : Spec) (b : Spec) (cls : BitVec 4) : RoundTrip.Statement (.fmin d a b cls) := by
  refine RoundTrip.word _ _ _ (Nat.le_of_ble_eq_true rfl) rfl fun w => ?_
  show decodeFmm _ = _
  unfold decodeFmm
  simp (discharger := decide) only [fN, f1, fD, fA, fB, fE, zeroed, field_above, field_below, bit_above, bit_below, field_whole, flag_bit, BitVec.toNat_ofNat, Nat.reducePow, Nat.reduceMod, Nat.reduceSub, if_true]
  try rfl

theorem RoundTrip.fmax (d : Spec) (a : Spec) (b : Spec) (cls : BitVec 4) : RoundTrip.Statement (.fmax d a b cls) := by
  refine RoundTrip.word _ _ _ (Nat.le_of_ble_eq_true rfl) rfl fun w => ?_
  show decodeFmm _ = _
  unfold decodeFmm
  simp (discharger := decide) only [fN, f1, fD, fA, fB, fE, zeroed, field_above, field_below, bit_above, bit_below, field_whole, flag_bit, BitVec.toNat_ofNat, Nat.reducePow, Nat.reduceMod, Nat.reduceSub, if_true]
  try rfl

theorem RoundTrip.fminm (d : Spec) (a : Spec) (b : Spec) (cls : BitVec 4) : RoundTrip.Statement (.fminm d a b cls) := by
  refine RoundTrip.word _ _ _ (Nat.le_of_ble_eq_true rfl) rfl fun w => ?_
  show decodeFmm _ = _
  unfold decodeFmm
  simp (discharger := decide) only [fN, f1, fD, fA, fB, fE, zeroed, field_above, field_below, bit_above, bit_below, field_whole, flag_bit, BitVec.toNat_ofNat, Nat.reducePow, Nat.reduceMod, Nat.reduceSub, if_true]
  try rfl

theorem RoundTrip.fmaxm (d : Spec) (a : Spec) (b : Spec) (cls : BitVec 4) : RoundTrip.Statement (.fmaxm d a b cls) := by
  refine RoundTrip.word _ _ _ (Nat.le_of_ble_eq_true rfl) rfl fun w => ?_
  show decodeFmm _ = _
  unfold decodeFmm
  simp (discharger := decide) only [fN, f1, fD, fA, fB, fE, zeroed, field_above, field_below, bit_above, bit_below, field_whole, flag_bit, BitVec.toNat_ofNat, Nat.reducePow, Nat.reduceMod, Nat.reduceSub, if_true]
  try rfl

theorem RoundTrip.ffma (d : Spec) (a : Spec) (b : Spec) (e : Spec) : RoundTrip.Statement (.ffma d a b e) := by
  refine RoundTrip.word _ _ _ (Nat.le_of_ble_eq_true rfl) rfl fun w => ?_
  show some _ = some _
  simp (discharger := decide) only [fN, f1, fD, fA, fB, fE, zeroed, field_above, field_below, bit_above, bit_below, field_whole, flag_bit, BitVec.toNat_ofNat, Nat.reducePow, Nat.reduceMod, Nat.reduceSub, if_true]
  try rfl

theorem RoundTrip.ffms (d : Spec) (a : Spec) (b : Spec) (e : Spec) : RoundTrip.Statement (.ffms d a b e) := by
  refine RoundTrip.word _ _ _ (Nat.le_of_ble_eq_true rfl) rfl fun w => ?_
  show some _ = some _
  simp (discharger := decide) only [fN, f1, fD, fA, fB, fE, zeroed, field_above, field_below, bit_above, bit_below, field_whole, flag_bit, BitVec.toNat_ofNat, Nat.reducePow, Nat.reduceMod, Nat.reduceSub, if_true]
  try rfl

theorem RoundTrip.fnma (d : Spec) (a : Spec) (b : Spec) (e : Spec) : RoundTrip.Statement (.fnma d a b e) := by
  refine RoundTrip.word _ _ _ (Nat.le_of_ble_eq_true rfl) rfl fun w => ?_
  show some _ = some _
  simp (discharger := decide) only [fN, f1, fD, fA, fB, fE, zeroed, field_above, field_below, bit_above, bit_below, field_whole, flag_bit, BitVec.toNat_ofNat, Nat.reducePow, Nat.reduceMod, Nat.reduceSub, if_true]
  try rfl

theorem RoundTrip.fabs (d : Spec) (a : Spec) (rnd : BitVec 2) (cls : BitVec 4) : RoundTrip.Statement (.fabs d a rnd cls) := by
  refine RoundTrip.word _ _ _ (Nat.le_of_ble_eq_true rfl) rfl fun w => ?_
  show decodeFun _ = _
  unfold decodeFun
  simp (discharger := decide) only [fN, f1, fD, fA, fB, fE, zeroed, field_above, field_below, bit_above, bit_below, field_whole, flag_bit, BitVec.toNat_ofNat, Nat.reducePow, Nat.reduceMod, Nat.reduceSub, if_true]
  try rfl

theorem RoundTrip.fneg (d : Spec) (a : Spec) (rnd : BitVec 2) (cls : BitVec 4) : RoundTrip.Statement (.fneg d a rnd cls) := by
  refine RoundTrip.word _ _ _ (Nat.le_of_ble_eq_true rfl) rfl fun w => ?_
  show decodeFun _ = _
  unfold decodeFun
  simp (discharger := decide) only [fN, f1, fD, fA, fB, fE, zeroed, field_above, field_below, bit_above, bit_below, field_whole, flag_bit, BitVec.toNat_ofNat, Nat.reducePow, Nat.reduceMod, Nat.reduceSub, if_true]
  try rfl

theorem RoundTrip.frnd (d : Spec) (a : Spec) (rnd : BitVec 2) (cls : BitVec 4) : RoundTrip.Statement (.frnd d a rnd cls) := by
  refine RoundTrip.word _ _ _ (Nat.le_of_ble_eq_true rfl) rfl fun w => ?_
  show decodeFun _ = _
  unfold decodeFun
  simp (discharger := decide) only [fN, f1, fD, fA, fB, fE, zeroed, field_above, field_below, bit_above, bit_below, field_whole, flag_bit, BitVec.toNat_ofNat, Nat.reducePow, Nat.reduceMod, Nat.reduceSub, if_true]
  try rfl

theorem RoundTrip.gete (d : Spec) (a : Spec) : RoundTrip.Statement (.gete d a) := by
  refine RoundTrip.word _ _ _ (Nat.le_of_ble_eq_true rfl) rfl fun w => ?_
  show decodeFun _ = _
  unfold decodeFun
  simp (discharger := decide) only [fN, f1, fD, fA, fB, fE, zeroed, field_above, field_below, bit_above, bit_below, field_whole, flag_bit, BitVec.toNat_ofNat, Nat.reducePow, Nat.reduceMod, Nat.reduceSub, if_true]
  try rfl

theorem RoundTrip.getm (d : Spec) (a : Spec) (rnd : BitVec 2) (cls : BitVec 4) : RoundTrip.Statement (.getm d a rnd cls) := by
  refine RoundTrip.word _ _ _ (Nat.le_of_ble_eq_true rfl) rfl fun w => ?_
  show decodeFun _ = _
  unfold decodeFun
  simp (discharger := decide) only [fN, f1, fD, fA, fB, fE, zeroed, field_above, field_below, bit_above, bit_below, field_whole, flag_bit, BitVec.toNat_ofNat, Nat.reducePow, Nat.reduceMod, Nat.reduceSub, if_true]
  try rfl

theorem RoundTrip.fclass (d : Spec) (a : Spec) : RoundTrip.Statement (.fclass d a) := by
  refine RoundTrip.word _ _ _ (Nat.le_of_ble_eq_true rfl) rfl fun w => ?_
  show decodeFun _ = _
  unfold decodeFun
  simp (discharger := decide) only [fN, f1, fD, fA, fB, fE, zeroed, field_above, field_below, bit_above, bit_below, field_whole, flag_bit, BitVec.toNat_ofNat, Nat.reducePow, Nat.reduceMod, Nat.reduceSub, if_true]
  try rfl

theorem RoundTrip.reclass (d : Spec) (a : Spec) (rnd : BitVec 2) (cls : BitVec 4) : RoundTrip.Statement (.reclass d a rnd cls) := by
  refine RoundTrip.word _ _ _ (Nat.le_of_ble_eq_true rfl) rfl fun w => ?_
  show decodeFun _ = _
  unfold decodeFun
  simp (discharger := decide) only [fN, f1, fD, fA, fB, fE, zeroed, field_above, field_below, bit_above, bit_below, field_whole, flag_bit, BitVec.toNat_ofNat, Nat.reducePow, Nat.reduceMod, Nat.reduceSub, if_true]
  try rfl

theorem RoundTrip.fcmp (cond : BitVec 3) (p : BitVec 3) (a : Spec) (b : Spec) (comb : BitVec 3) (sig : Bool) : RoundTrip.Statement (.fcmp cond p a b comb sig) := by
  refine RoundTrip.word _ _ _ (Nat.le_of_ble_eq_true rfl) rfl fun w => ?_
  show zeroed _ _ = _
  simp (discharger := decide) only [fN, f1, fD, fA, fB, fE, zeroed, field_above, field_below, bit_above, bit_below, field_whole, flag_bit, BitVec.toNat_ofNat, Nat.reducePow, Nat.reduceMod, Nat.reduceSub, if_true]
  try rfl

theorem RoundTrip.twosum (d : Spec) (a : Spec) (b : Spec) (cls : BitVec 4) : RoundTrip.Statement (.twosum d a b cls) := by
  refine RoundTrip.word _ _ _ (Nat.le_of_ble_eq_true rfl) rfl fun w => ?_
  show decodeFtwo _ = _
  unfold decodeFtwo
  simp (discharger := decide) only [fN, f1, fD, fA, fB, fE, zeroed, field_above, field_below, bit_above, bit_below, field_whole, flag_bit, BitVec.toNat_ofNat, Nat.reducePow, Nat.reduceMod, Nat.reduceSub, if_true]
  try rfl

theorem RoundTrip.twoprod (d : Spec) (a : Spec) (b : Spec) (cls : BitVec 4) : RoundTrip.Statement (.twoprod d a b cls) := by
  refine RoundTrip.word _ _ _ (Nat.le_of_ble_eq_true rfl) rfl fun w => ?_
  show decodeFtwo _ = _
  unfold decodeFtwo
  simp (discharger := decide) only [fN, f1, fD, fA, fB, fE, zeroed, field_above, field_below, bit_above, bit_below, field_whole, flag_bit, BitVec.toNat_ofNat, Nat.reducePow, Nat.reduceMod, Nat.reduceSub, if_true]
  try rfl

theorem RoundTrip.cvtin (d : Spec) (a : Spec) (ty : BitVec 4) (rnd : BitVec 2) (cls : BitVec 4) : RoundTrip.Statement (.cvtin d a ty rnd cls) := by
  refine RoundTrip.word _ _ _ (Nat.le_of_ble_eq_true rfl) rfl fun w => ?_
  show decodeCvt _ = _
  unfold decodeCvt
  simp (discharger := decide) only [fN, f1, fD, fA, fB, fE, zeroed, field_above, field_below, bit_above, bit_below, field_whole, flag_bit, BitVec.toNat_ofNat, Nat.reducePow, Nat.reduceMod, Nat.reduceSub, if_true]
  try rfl

theorem RoundTrip.cvtout (d : Spec) (a : Spec) (ty : BitVec 4) (rnd : BitVec 2) : RoundTrip.Statement (.cvtout d a ty rnd) := by
  refine RoundTrip.word _ _ _ (Nat.le_of_ble_eq_true rfl) rfl fun w => ?_
  show decodeCvt _ = _
  unfold decodeCvt
  simp (discharger := decide) only [fN, f1, fD, fA, fB, fE, zeroed, field_above, field_below, bit_above, bit_below, field_whole, flag_bit, BitVec.toNat_ofNat, Nat.reducePow, Nat.reduceMod, Nat.reduceSub, if_true]
  try rfl

theorem RoundTrip.fscl (d : Spec) (a : Spec) (b : Spec) (rnd : BitVec 2) (cls : BitVec 4) : RoundTrip.Statement (.fscl d a b rnd cls) := by
  refine RoundTrip.word _ _ _ (Nat.le_of_ble_eq_true rfl) rfl fun w => ?_
  show some _ = some _
  simp (discharger := decide) only [fN, f1, fD, fA, fB, fE, zeroed, field_above, field_below, bit_above, bit_below, field_whole, flag_bit, BitVec.toNat_ofNat, Nat.reducePow, Nat.reduceMod, Nat.reduceSub, if_true]
  try rfl

theorem RoundTrip.rcp (d : Spec) (a : Spec) (rnd : BitVec 2) (cls : BitVec 4) : RoundTrip.Statement (.rcp d a rnd cls) := by
  refine RoundTrip.word _ _ _ (Nat.le_of_ble_eq_true rfl) rfl fun w => ?_
  show decodeSfu _ = _
  unfold decodeSfu
  simp (discharger := decide) only [fN, f1, fD, fA, fB, fE, zeroed, field_above, field_below, bit_above, bit_below, field_whole, flag_bit, BitVec.toNat_ofNat, Nat.reducePow, Nat.reduceMod, Nat.reduceSub, if_true]
  try rfl

theorem RoundTrip.rsq (d : Spec) (a : Spec) (rnd : BitVec 2) (cls : BitVec 4) : RoundTrip.Statement (.rsq d a rnd cls) := by
  refine RoundTrip.word _ _ _ (Nat.le_of_ble_eq_true rfl) rfl fun w => ?_
  show decodeSfu _ = _
  unfold decodeSfu
  simp (discharger := decide) only [fN, f1, fD, fA, fB, fE, zeroed, field_above, field_below, bit_above, bit_below, field_whole, flag_bit, BitVec.toNat_ofNat, Nat.reducePow, Nat.reduceMod, Nat.reduceSub, if_true]
  try rfl

theorem RoundTrip.sqrt (d : Spec) (a : Spec) (rnd : BitVec 2) (cls : BitVec 4) : RoundTrip.Statement (.sqrt d a rnd cls) := by
  refine RoundTrip.word _ _ _ (Nat.le_of_ble_eq_true rfl) rfl fun w => ?_
  show decodeSfu _ = _
  unfold decodeSfu
  simp (discharger := decide) only [fN, f1, fD, fA, fB, fE, zeroed, field_above, field_below, bit_above, bit_below, field_whole, flag_bit, BitVec.toNat_ofNat, Nat.reducePow, Nat.reduceMod, Nat.reduceSub, if_true]
  try rfl

theorem RoundTrip.exp2 (d : Spec) (a : Spec) (rnd : BitVec 2) (cls : BitVec 4) : RoundTrip.Statement (.exp2 d a rnd cls) := by
  refine RoundTrip.word _ _ _ (Nat.le_of_ble_eq_true rfl) rfl fun w => ?_
  show decodeSfu _ = _
  unfold decodeSfu
  simp (discharger := decide) only [fN, f1, fD, fA, fB, fE, zeroed, field_above, field_below, bit_above, bit_below, field_whole, flag_bit, BitVec.toNat_ofNat, Nat.reducePow, Nat.reduceMod, Nat.reduceSub, if_true]
  try rfl

theorem RoundTrip.log2 (d : Spec) (a : Spec) (rnd : BitVec 2) (cls : BitVec 4) : RoundTrip.Statement (.log2 d a rnd cls) := by
  refine RoundTrip.word _ _ _ (Nat.le_of_ble_eq_true rfl) rfl fun w => ?_
  show decodeSfu _ = _
  unfold decodeSfu
  simp (discharger := decide) only [fN, f1, fD, fA, fB, fE, zeroed, field_above, field_below, bit_above, bit_below, field_whole, flag_bit, BitVec.toNat_ofNat, Nat.reducePow, Nat.reduceMod, Nat.reduceSub, if_true]
  try rfl

theorem RoundTrip.sin (d : Spec) (a : Spec) (rnd : BitVec 2) (cls : BitVec 4) : RoundTrip.Statement (.sin d a rnd cls) := by
  refine RoundTrip.word _ _ _ (Nat.le_of_ble_eq_true rfl) rfl fun w => ?_
  show decodeSfu _ = _
  unfold decodeSfu
  simp (discharger := decide) only [fN, f1, fD, fA, fB, fE, zeroed, field_above, field_below, bit_above, bit_below, field_whole, flag_bit, BitVec.toNat_ofNat, Nat.reducePow, Nat.reduceMod, Nat.reduceSub, if_true]
  try rfl

theorem RoundTrip.cos (d : Spec) (a : Spec) (rnd : BitVec 2) (cls : BitVec 4) : RoundTrip.Statement (.cos d a rnd cls) := by
  refine RoundTrip.word _ _ _ (Nat.le_of_ble_eq_true rfl) rfl fun w => ?_
  show decodeSfu _ = _
  unfold decodeSfu
  simp (discharger := decide) only [fN, f1, fD, fA, fB, fE, zeroed, field_above, field_below, bit_above, bit_below, field_whole, flag_bit, BitVec.toNat_ofNat, Nat.reducePow, Nat.reduceMod, Nat.reduceSub, if_true]
  try rfl

theorem RoundTrip.tanh (d : Spec) (a : Spec) (rnd : BitVec 2) (cls : BitVec 4) : RoundTrip.Statement (.tanh d a rnd cls) := by
  refine RoundTrip.word _ _ _ (Nat.le_of_ble_eq_true rfl) rfl fun w => ?_
  show decodeSfu _ = _
  unfold decodeSfu
  simp (discharger := decide) only [fN, f1, fD, fA, fB, fE, zeroed, field_above, field_below, bit_above, bit_below, field_whole, flag_bit, BitVec.toNat_ofNat, Nat.reducePow, Nat.reduceMod, Nat.reduceSub, if_true]
  try rfl

theorem RoundTrip.xpull (d : Spec) (a : Spec) (b : Spec) (k : BitVec 3) : RoundTrip.Statement (.xpull d a b k) := by
  refine RoundTrip.word _ _ _ (Nat.le_of_ble_eq_true rfl) rfl fun w => ?_
  show decodeXlane _ = _
  unfold decodeXlane
  simp (discharger := decide) only [fN, f1, fD, fA, fB, fE, zeroed, field_above, field_below, bit_above, bit_below, field_whole, flag_bit, BitVec.toNat_ofNat, Nat.reducePow, Nat.reduceMod, Nat.reduceSub, if_true]
  try rfl

theorem RoundTrip.xrank (d : Spec) (a : Spec) (b : Spec) (k : BitVec 3) : RoundTrip.Statement (.xrank d a b k) := by
  refine RoundTrip.word _ _ _ (Nat.le_of_ble_eq_true rfl) rfl fun w => ?_
  show decodeXlane _ = _
  unfold decodeXlane
  simp (discharger := decide) only [fN, f1, fD, fA, fB, fE, zeroed, field_above, field_below, bit_above, bit_below, field_whole, flag_bit, BitVec.toNat_ofNat, Nat.reducePow, Nat.reduceMod, Nat.reduceSub, if_true]
  try rfl

theorem RoundTrip.xsegb (d : Spec) (a : Spec) (b : Spec) (k : BitVec 3) : RoundTrip.Statement (.xsegb d a b k) := by
  refine RoundTrip.word _ _ _ (Nat.le_of_ble_eq_true rfl) rfl fun w => ?_
  show decodeXlane _ = _
  unfold decodeXlane
  simp (discharger := decide) only [fN, f1, fD, fA, fB, fE, zeroed, field_above, field_below, bit_above, bit_below, field_whole, flag_bit, BitVec.toNat_ofNat, Nat.reducePow, Nat.reduceMod, Nat.reduceSub, if_true]
  try rfl

theorem RoundTrip.xrev (d : Spec) (a : Spec) (b : Spec) (k : BitVec 3) : RoundTrip.Statement (.xrev d a b k) := by
  refine RoundTrip.word _ _ _ (Nat.le_of_ble_eq_true rfl) rfl fun w => ?_
  show decodeXlane _ = _
  unfold decodeXlane
  simp (discharger := decide) only [fN, f1, fD, fA, fB, fE, zeroed, field_above, field_below, bit_above, bit_below, field_whole, flag_bit, BitVec.toNat_ofNat, Nat.reducePow, Nat.reduceMod, Nat.reduceSub, if_true]
  try rfl

theorem RoundTrip.xcount (d : Spec) (neg : Bool) (j : BitVec 3) (k : BitVec 3) : RoundTrip.Statement (.xcount d neg j k) := by
  refine RoundTrip.word _ _ _ (Nat.le_of_ble_eq_true rfl) rfl fun w => ?_
  show decodeXlane _ = _
  unfold decodeXlane
  simp (discharger := decide) only [fN, f1, fD, fA, fB, fE, zeroed, field_above, field_below, bit_above, bit_below, field_whole, flag_bit, BitVec.toNat_ofNat, Nat.reducePow, Nat.reduceMod, Nat.reduceSub, if_true]
  try rfl

theorem RoundTrip.xfirst (d : Spec) (neg : Bool) (j : BitVec 3) (k : BitVec 3) : RoundTrip.Statement (.xfirst d neg j k) := by
  refine RoundTrip.word _ _ _ (Nat.le_of_ble_eq_true rfl) rfl fun w => ?_
  show decodeXlane _ = _
  unfold decodeXlane
  simp (discharger := decide) only [fN, f1, fD, fA, fB, fE, zeroed, field_above, field_below, bit_above, bit_below, field_whole, flag_bit, BitVec.toNat_ofNat, Nat.reducePow, Nat.reduceMod, Nat.reduceSub, if_true]
  try rfl

theorem RoundTrip.xmask (d : Spec) (neg : Bool) (j : BitVec 3) (k : BitVec 3) : RoundTrip.Statement (.xmask d neg j k) := by
  refine RoundTrip.word _ _ _ (Nat.le_of_ble_eq_true rfl) rfl fun w => ?_
  show decodeXlane _ = _
  unfold decodeXlane
  simp (discharger := decide) only [fN, f1, fD, fA, fB, fE, zeroed, field_above, field_below, bit_above, bit_below, field_whole, flag_bit, BitVec.toNat_ofNat, Nat.reducePow, Nat.reduceMod, Nat.reduceSub, if_true]
  try rfl

theorem RoundTrip.gbcast (d : Spec) (a : Spec) (k : BitVec 3) : RoundTrip.Statement (.gbcast d a k) := by
  refine RoundTrip.word _ _ _ (Nat.le_of_ble_eq_true rfl) rfl fun w => ?_
  show decodeXlane _ = _
  unfold decodeXlane
  simp (discharger := decide) only [fN, f1, fD, fA, fB, fE, zeroed, field_above, field_below, bit_above, bit_below, field_whole, flag_bit, BitVec.toNat_ofNat, Nat.reducePow, Nat.reduceMod, Nat.reduceSub, if_true]
  try rfl

theorem RoundTrip.gred (d : Spec) (a : Spec) (op_ : BitVec 4) (k : BitVec 3) : RoundTrip.Statement (.gred d a op_ k) := by
  refine RoundTrip.word _ _ _ (Nat.le_of_ble_eq_true rfl) rfl fun w => ?_
  show decodeGred _ = _
  unfold decodeGred
  simp (discharger := decide) only [fN, f1, fD, fA, fB, fE, zeroed, field_above, field_below, bit_above, bit_below, field_whole, flag_bit, BitVec.toNat_ofNat, Nat.reducePow, Nat.reduceMod, Nat.reduceSub, if_true]
  try rfl

theorem RoundTrip.gscan (d : Spec) (a : Spec) (op_ : BitVec 4) (excl : Bool) (k : BitVec 3) : RoundTrip.Statement (.gscan d a op_ excl k) := by
  refine RoundTrip.word _ _ _ (Nat.le_of_ble_eq_true rfl) rfl fun w => ?_
  show decodeGscan _ = _
  unfold decodeGscan
  simp (discharger := decide) only [fN, f1, fD, fA, fB, fE, zeroed, field_above, field_below, bit_above, bit_below, field_whole, flag_bit, BitVec.toNat_ofNat, Nat.reducePow, Nat.reduceMod, Nat.reduceSub, if_true]
  try rfl

theorem RoundTrip.pack6 (d : Spec) (a : Spec) (b : Spec) : RoundTrip.Statement (.pack6 d a b) := by
  refine RoundTrip.word _ _ _ (Nat.le_of_ble_eq_true rfl) rfl fun w => ?_
  show decodeNarrow _ = _
  unfold decodeNarrow
  simp (discharger := decide) only [fN, f1, fD, fA, fB, fE, zeroed, field_above, field_below, bit_above, bit_below, field_whole, flag_bit, BitVec.toNat_ofNat, Nat.reducePow, Nat.reduceMod, Nat.reduceSub, if_true]
  try rfl

theorem RoundTrip.unpk6 (d : Spec) (a : Spec) (cls : BitVec 4) : RoundTrip.Statement (.unpk6 d a cls) := by
  refine RoundTrip.word _ _ _ (Nat.le_of_ble_eq_true rfl) rfl fun w => ?_
  show decodeNarrow _ = _
  unfold decodeNarrow
  simp (discharger := decide) only [fN, f1, fD, fA, fB, fE, zeroed, field_above, field_below, bit_above, bit_below, field_whole, flag_bit, BitVec.toNat_ofNat, Nat.reducePow, Nat.reduceMod, Nat.reduceSub, if_true]
  try rfl

theorem RoundTrip.xpr (in0 : Spec) (in1 : Spec) (in2 : Spec) (in3 : Spec) : RoundTrip.Statement (.xpr in0 in1 in2 in3) := by
  refine RoundTrip.word _ _ _ (Nat.le_of_ble_eq_true rfl) rfl fun w => ?_
  show some _ = some _
  simp (discharger := decide) only [fN, f1, fD, fA, fB, fE, zeroed, field_above, field_below, bit_above, bit_below, field_whole, flag_bit, BitVec.toNat_ofNat, Nat.reducePow, Nat.reduceMod, Nat.reduceSub, if_true]
  try rfl

theorem RoundTrip.cmma (d : Spec) (a : Spec) (b : Spec) (k : BitVec 3) : RoundTrip.Statement (.cmma d a b k) := by
  refine RoundTrip.word _ _ _ (Nat.le_of_ble_eq_true rfl) rfl fun w => ?_
  show zeroed _ _ = _
  simp (discharger := decide) only [fN, f1, fD, fA, fB, fE, zeroed, field_above, field_below, bit_above, bit_below, field_whole, flag_bit, BitVec.toNat_ofNat, Nat.reducePow, Nat.reduceMod, Nat.reduceSub, if_true]
  try rfl

theorem RoundTrip.ld (d : Spec) (base : Spec) (space : BitVec 2) (size : BitVec 3) (reuse : BitVec 2) (off : BitVec 5) : RoundTrip.Statement (.ld d base space size reuse off) := by
  refine RoundTrip.word _ _ _ (Nat.le_of_ble_eq_true rfl) rfl fun w => ?_
  show some _ = some _
  simp (discharger := decide) only [fN, f1, fD, fA, fB, fE, zeroed, field_above, field_below, bit_above, bit_below, field_whole, flag_bit, BitVec.toNat_ofNat, Nat.reducePow, Nat.reduceMod, Nat.reduceSub, if_true]
  try rfl

theorem RoundTrip.st (src : Spec) (base : Spec) (space : BitVec 2) (size : BitVec 3) (reuse : BitVec 2) (off : BitVec 5) : RoundTrip.Statement (.st src base space size reuse off) := by
  refine RoundTrip.word _ _ _ (Nat.le_of_ble_eq_true rfl) rfl fun w => ?_
  show some _ = some _
  simp (discharger := decide) only [fN, f1, fD, fA, fB, fE, zeroed, field_above, field_below, bit_above, bit_below, field_whole, flag_bit, BitVec.toNat_ofNat, Nat.reducePow, Nat.reduceMod, Nat.reduceSub, if_true]
  try rfl

theorem RoundTrip.lda (d : Spec) (base : Spec) (space : BitVec 2) (size : BitVec 3) (reuse : BitVec 2) (peek : Bool) (scope : BitVec 3) : RoundTrip.Statement (.lda d base space size reuse peek scope) := by
  refine RoundTrip.word _ _ _ (Nat.le_of_ble_eq_true rfl) rfl fun w => ?_
  show decodeLda _ = _
  unfold decodeLda
  simp (discharger := decide) only [fN, f1, fD, fA, fB, fE, zeroed, field_above, field_below, bit_above, bit_below, field_whole, flag_bit, BitVec.toNat_ofNat, Nat.reducePow, Nat.reduceMod, Nat.reduceSub, if_true]
  try rfl

theorem RoundTrip.strl (src : Spec) (base : Spec) (space : BitVec 2) (size : BitVec 3) (reuse : BitVec 2) (scope : BitVec 3) : RoundTrip.Statement (.strl src base space size reuse scope) := by
  refine RoundTrip.word _ _ _ (Nat.le_of_ble_eq_true rfl) rfl fun w => ?_
  show decodeStrl _ = _
  unfold decodeStrl
  simp (discharger := decide) only [fN, f1, fD, fA, fB, fE, zeroed, field_above, field_below, bit_above, bit_below, field_whole, flag_bit, BitVec.toNat_ofNat, Nat.reducePow, Nat.reduceMod, Nat.reduceSub, if_true]
  try rfl

theorem RoundTrip.pref (base : Spec) (space : BitVec 2) (reuse : BitVec 2) (off : BitVec 5) : RoundTrip.Statement (.pref base space reuse off) := by
  refine RoundTrip.word _ _ _ (Nat.le_of_ble_eq_true rfl) rfl fun w => ?_
  show decodePref _ = _
  unfold decodePref
  simp (discharger := decide) only [fN, f1, fD, fA, fB, fE, zeroed, field_above, field_below, bit_above, bit_below, field_whole, flag_bit, BitVec.toNat_ofNat, Nat.reducePow, Nat.reduceMod, Nat.reduceSub, if_true]
  try rfl

theorem RoundTrip.prefL1 (base : Spec) (space : BitVec 2) (reuse : BitVec 2) (off : BitVec 5) : RoundTrip.Statement (.prefL1 base space reuse off) := by
  refine RoundTrip.word _ _ _ (Nat.le_of_ble_eq_true rfl) rfl fun w => ?_
  show decodePref _ = _
  unfold decodePref
  simp (discharger := decide) only [fN, f1, fD, fA, fB, fE, zeroed, field_above, field_below, bit_above, bit_below, field_whole, flag_bit, BitVec.toNat_ofNat, Nat.reducePow, Nat.reduceMod, Nat.reduceSub, if_true]
  try rfl

theorem RoundTrip.prefHome (die : Spec) : RoundTrip.Statement (.prefHome die) := by
  refine RoundTrip.word _ _ _ (Nat.le_of_ble_eq_true rfl) rfl fun w => ?_
  show decodePref _ = _
  unfold decodePref
  simp (discharger := decide) only [fN, f1, fD, fA, fB, fE, zeroed, field_above, field_below, bit_above, bit_below, field_whole, flag_bit, BitVec.toNat_ofNat, Nat.reducePow, Nat.reduceMod, Nat.reduceSub, if_true]
  try rfl

theorem RoundTrip.wmap (d : Spec) (a : Spec) : RoundTrip.Statement (.wmap d a) := by
  refine RoundTrip.word _ _ _ (Nat.le_of_ble_eq_true rfl) rfl fun w => ?_
  show decodeWin _ = _
  unfold decodeWin
  simp (discharger := decide) only [fN, f1, fD, fA, fB, fE, zeroed, field_above, field_below, bit_above, bit_below, field_whole, flag_bit, BitVec.toNat_ofNat, Nat.reducePow, Nat.reduceMod, Nat.reduceSub, if_true]
  try rfl

theorem RoundTrip.wunmap (d : Spec) (a : Spec) : RoundTrip.Statement (.wunmap d a) := by
  refine RoundTrip.word _ _ _ (Nat.le_of_ble_eq_true rfl) rfl fun w => ?_
  show decodeWin _ = _
  unfold decodeWin
  simp (discharger := decide) only [fN, f1, fD, fA, fB, fE, zeroed, field_above, field_below, bit_above, bit_below, field_whole, flag_bit, BitVec.toNat_ofNat, Nat.reducePow, Nat.reduceMod, Nat.reduceSub, if_true]
  try rfl

theorem RoundTrip.wflush (d : Spec) (a : Spec) : RoundTrip.Statement (.wflush d a) := by
  refine RoundTrip.word _ _ _ (Nat.le_of_ble_eq_true rfl) rfl fun w => ?_
  show decodeWin _ = _
  unfold decodeWin
  simp (discharger := decide) only [fN, f1, fD, fA, fB, fE, zeroed, field_above, field_below, bit_above, bit_below, field_whole, flag_bit, BitVec.toNat_ofNat, Nat.reducePow, Nat.reduceMod, Nat.reduceSub, if_true]
  try rfl

theorem RoundTrip.wdrop (d : Spec) (a : Spec) : RoundTrip.Statement (.wdrop d a) := by
  refine RoundTrip.word _ _ _ (Nat.le_of_ble_eq_true rfl) rfl fun w => ?_
  show decodeWin _ = _
  unfold decodeWin
  simp (discharger := decide) only [fN, f1, fD, fA, fB, fE, zeroed, field_above, field_below, bit_above, bit_below, field_whole, flag_bit, BitVec.toNat_ofNat, Nat.reducePow, Nat.reduceMod, Nat.reduceSub, if_true]
  try rfl

theorem RoundTrip.wquery (d : Spec) (a : Spec) : RoundTrip.Statement (.wquery d a) := by
  refine RoundTrip.word _ _ _ (Nat.le_of_ble_eq_true rfl) rfl fun w => ?_
  show decodeWin _ = _
  unfold decodeWin
  simp (discharger := decide) only [fN, f1, fD, fA, fB, fE, zeroed, field_above, field_below, bit_above, bit_below, field_whole, flag_bit, BitVec.toNat_ofNat, Nat.reducePow, Nat.reduceMod, Nat.reduceSub, if_true]
  try rfl

theorem RoundTrip.atom (d : Spec) (base : Spec) (b : Spec) (scope : BitVec 3) (op_ : BitVec 3) : RoundTrip.Statement (.atom d base b scope op_) := by
  refine RoundTrip.word _ _ _ (Nat.le_of_ble_eq_true rfl) rfl fun w => ?_
  show some _ = some _
  simp (discharger := decide) only [fN, f1, fD, fA, fB, fE, zeroed, field_above, field_below, bit_above, bit_below, field_whole, flag_bit, BitVec.toNat_ofNat, Nat.reducePow, Nat.reduceMod, Nat.reduceSub, if_true]
  try rfl

theorem RoundTrip.red (a : Spec) (base : Spec) (scope : BitVec 3) (op_ : BitVec 3) (w_ : Bool) : RoundTrip.Statement (.red a base scope op_ w_) := by
  refine RoundTrip.word _ _ _ (Nat.le_of_ble_eq_true rfl) rfl fun w => ?_
  show zeroed _ _ = _
  simp (discharger := decide) only [fN, f1, fD, fA, fB, fE, zeroed, field_above, field_below, bit_above, bit_below, field_whole, flag_bit, BitVec.toNat_ofNat, Nat.reducePow, Nat.reduceMod, Nat.reduceSub, if_true]
  try rfl

theorem RoundTrip.fenceRel (scope : BitVec 3) : RoundTrip.Statement (.fenceRel scope) := by
  refine RoundTrip.word _ _ _ (Nat.le_of_ble_eq_true rfl) rfl fun w => ?_
  show decodeFence _ = _
  unfold decodeFence
  simp (discharger := decide) only [fN, f1, fD, fA, fB, fE, zeroed, field_above, field_below, bit_above, bit_below, field_whole, flag_bit, BitVec.toNat_ofNat, Nat.reducePow, Nat.reduceMod, Nat.reduceSub, if_true]
  try rfl

theorem RoundTrip.fenceAcq (scope : BitVec 3) : RoundTrip.Statement (.fenceAcq scope) := by
  refine RoundTrip.word _ _ _ (Nat.le_of_ble_eq_true rfl) rfl fun w => ?_
  show decodeFence _ = _
  unfold decodeFence
  simp (discharger := decide) only [fN, f1, fD, fA, fB, fE, zeroed, field_above, field_below, bit_above, bit_below, field_whole, flag_bit, BitVec.toNat_ofNat, Nat.reducePow, Nat.reduceMod, Nat.reduceSub, if_true]
  try rfl

theorem RoundTrip.fenceFull (scope : BitVec 3) : RoundTrip.Statement (.fenceFull scope) := by
  refine RoundTrip.word _ _ _ (Nat.le_of_ble_eq_true rfl) rfl fun w => ?_
  show decodeFence _ = _
  unfold decodeFence
  simp (discharger := decide) only [fN, f1, fD, fA, fB, fE, zeroed, field_above, field_below, bit_above, bit_below, field_whole, flag_bit, BitVec.toNat_ofNat, Nat.reducePow, Nat.reduceMod, Nat.reduceSub, if_true]
  try rfl

theorem RoundTrip.cpya (a : Spec) (t : Spec) (sspace : BitVec 2) (dspace : BitVec 2) : RoundTrip.Statement (.cpya a t sspace dspace) := by
  refine RoundTrip.word _ _ _ (Nat.le_of_ble_eq_true rfl) rfl fun w => ?_
  show decodeCpya _ = _
  unfold decodeCpya
  simp (discharger := decide) only [fN, f1, fD, fA, fB, fE, zeroed, field_above, field_below, bit_above, bit_below, field_whole, flag_bit, BitVec.toNat_ofNat, Nat.reducePow, Nat.reduceMod, Nat.reduceSub, if_true]
  try rfl

theorem RoundTrip.gath (a : Spec) (t : Spec) (mode : BitVec 2) (i64 : Bool) (istash : Bool) (dstash : Bool) : RoundTrip.Statement (.gath a t mode i64 istash dstash) := by
  refine RoundTrip.word _ _ _ (Nat.le_of_ble_eq_true rfl) rfl fun w => ?_
  show decodeGath _ = _
  unfold decodeGath
  simp (discharger := decide) only [fN, f1, fD, fA, fB, fE, zeroed, field_above, field_below, bit_above, bit_below, field_whole, flag_bit, BitVec.toNat_ofNat, Nat.reducePow, Nat.reduceMod, Nat.reduceSub, if_true]
  try rfl

theorem RoundTrip.scat (a : Spec) (t : Spec) (mode : BitVec 2) (i64 : Bool) (istash : Bool) (dstash : Bool) : RoundTrip.Statement (.scat a t mode i64 istash dstash) := by
  refine RoundTrip.word _ _ _ (Nat.le_of_ble_eq_true rfl) rfl fun w => ?_
  show decodeScat _ = _
  unfold decodeScat
  simp (discharger := decide) only [fN, f1, fD, fA, fB, fE, zeroed, field_above, field_below, bit_above, bit_below, field_whole, flag_bit, BitVec.toNat_ofNat, Nat.reducePow, Nat.reduceMod, Nat.reduceSub, if_true]
  try rfl

theorem RoundTrip.scatReduce (a : Spec) (t : Spec) (mode : BitVec 2) (i64 : Bool) (istash : Bool) (dstash : Bool) (op_ : BitVec 3) (scope : BitVec 3) : RoundTrip.Statement (.scatReduce a t mode i64 istash dstash op_ scope) := by
  refine RoundTrip.word _ _ _ (Nat.le_of_ble_eq_true rfl) rfl fun w => ?_
  show decodeScat _ = _
  unfold decodeScat
  simp (discharger := decide) only [fN, f1, fD, fA, fB, fE, zeroed, field_above, field_below, bit_above, bit_below, field_whole, flag_bit, BitVec.toNat_ofNat, Nat.reducePow, Nat.reduceMod, Nat.reduceSub, if_true]
  try rfl

theorem RoundTrip.drain (d : Spec) (a : Spec) : RoundTrip.Statement (.drain d a) := by
  refine RoundTrip.word _ _ _ (Nat.le_of_ble_eq_true rfl) rfl fun w => ?_
  show decodeDrain _ = _
  unfold decodeDrain
  simp (discharger := decide) only [fN, f1, fD, fA, fB, fE, zeroed, field_above, field_below, bit_above, bit_below, field_whole, flag_bit, BitVec.toNat_ofNat, Nat.reducePow, Nat.reduceMod, Nat.reduceSub, if_true]
  try rfl

theorem RoundTrip.drainAll (d : Spec) : RoundTrip.Statement (.drainAll d) := by
  refine RoundTrip.word _ _ _ (Nat.le_of_ble_eq_true rfl) rfl fun w => ?_
  show decodeDrain _ = _
  unfold decodeDrain
  simp (discharger := decide) only [fN, f1, fD, fA, fB, fE, zeroed, field_above, field_below, bit_above, bit_below, field_whole, flag_bit, BitVec.toNat_ofNat, Nat.reducePow, Nat.reduceMod, Nat.reduceSub, if_true]
  try rfl

theorem RoundTrip.drainPass (d : Spec) : RoundTrip.Statement (.drainPass d) := by
  refine RoundTrip.word _ _ _ (Nat.le_of_ble_eq_true rfl) rfl fun w => ?_
  show decodeDrain _ = _
  unfold decodeDrain
  simp (discharger := decide) only [fN, f1, fD, fA, fB, fE, zeroed, field_above, field_below, bit_above, bit_below, field_whole, flag_bit, BitVec.toNat_ofNat, Nat.reducePow, Nat.reduceMod, Nat.reduceSub, if_true]
  try rfl

theorem RoundTrip.atomw (d : Spec) (base : Spec) (b : Spec) (scope : BitVec 3) (op_ : BitVec 3) : RoundTrip.Statement (.atomw d base b scope op_) := by
  refine RoundTrip.word _ _ _ (Nat.le_of_ble_eq_true rfl) rfl fun w => ?_
  show some _ = some _
  simp (discharger := decide) only [fN, f1, fD, fA, fB, fE, zeroed, field_above, field_below, bit_above, bit_below, field_whole, flag_bit, BitVec.toNat_ofNat, Nat.reducePow, Nat.reduceMod, Nat.reduceSub, if_true]
  try rfl

theorem RoundTrip.atomc (d : Spec) (base : Spec) (b : Spec) (scope : BitVec 3) (w_ : Bool) : RoundTrip.Statement (.atomc d base b scope w_) := by
  refine RoundTrip.word _ _ _ (Nat.le_of_ble_eq_true rfl) rfl fun w => ?_
  show zeroed _ _ = _
  simp (discharger := decide) only [fN, f1, fD, fA, fB, fE, zeroed, field_above, field_below, bit_above, bit_below, field_whole, flag_bit, BitVec.toNat_ofNat, Nat.reducePow, Nat.reduceMod, Nat.reduceSub, if_true]
  try rfl

theorem RoundTrip.bra (neg : Bool) (p : BitVec 3) (u : Bool) (off : BitVec 19) : RoundTrip.Statement (.bra neg p u off) := by
  refine RoundTrip.word _ _ _ (Nat.le_of_ble_eq_true rfl) rfl fun w => ?_
  show some _ = some _
  simp (discharger := decide) only [fN, f1, fD, fA, fB, fE, zeroed, field_above, field_below, bit_above, bit_below, field_whole, flag_bit, BitVec.toNat_ofNat, Nat.reducePow, Nat.reduceMod, Nat.reduceSub, if_true]
  try rfl

theorem RoundTrip.call (neg : Bool) (p : BitVec 3) (u : Bool) (off : BitVec 19) : RoundTrip.Statement (.call neg p u off) := by
  refine RoundTrip.word _ _ _ (Nat.le_of_ble_eq_true rfl) rfl fun w => ?_
  show some _ = some _
  simp (discharger := decide) only [fN, f1, fD, fA, fB, fE, zeroed, field_above, field_below, bit_above, bit_below, field_whole, flag_bit, BitVec.toNat_ofNat, Nat.reducePow, Nat.reduceMod, Nat.reduceSub, if_true]
  try rfl

theorem RoundTrip.jmpr (neg : Bool) (p : BitVec 3) (u : Bool) (a : Spec) : RoundTrip.Statement (.jmpr neg p u a) := by
  refine RoundTrip.word _ _ _ (Nat.le_of_ble_eq_true rfl) rfl fun w => ?_
  show decodeJmpr _ = _
  unfold decodeJmpr
  simp (discharger := decide) only [fN, f1, fD, fA, fB, fE, zeroed, field_above, field_below, bit_above, bit_below, field_whole, flag_bit, BitVec.toNat_ofNat, Nat.reducePow, Nat.reduceMod, Nat.reduceSub, if_true]
  try rfl

theorem RoundTrip.callr (neg : Bool) (p : BitVec 3) (u : Bool) (a : Spec) : RoundTrip.Statement (.callr neg p u a) := by
  refine RoundTrip.word _ _ _ (Nat.le_of_ble_eq_true rfl) rfl fun w => ?_
  show decodeJmpr _ = _
  unfold decodeJmpr
  simp (discharger := decide) only [fN, f1, fD, fA, fB, fE, zeroed, field_above, field_below, bit_above, bit_below, field_whole, flag_bit, BitVec.toNat_ofNat, Nat.reducePow, Nat.reduceMod, Nat.reduceSub, if_true]
  try rfl

theorem RoundTrip.loop (i : BitVec 2) (n : Spec) (len : BitVec 12) : RoundTrip.Statement (.loop i n len) := by
  refine RoundTrip.word _ _ _ (Nat.le_of_ble_eq_true rfl) rfl fun w => ?_
  show zeroed _ _ = _
  simp (discharger := decide) only [fN, f1, fD, fA, fB, fE, zeroed, field_above, field_below, bit_above, bit_below, field_whole, flag_bit, BitVec.toNat_ofNat, Nat.reducePow, Nat.reduceMod, Nat.reduceSub, if_true]
  try rfl

theorem RoundTrip.join (k : BitVec 4) : RoundTrip.Statement (.join k) := by
  refine RoundTrip.word _ _ _ (Nat.le_of_ble_eq_true rfl) rfl fun w => ?_
  show decodeMask _ = _
  unfold decodeMask
  simp (discharger := decide) only [fN, f1, fD, fA, fB, fE, zeroed, field_above, field_below, bit_above, bit_below, field_whole, flag_bit, BitVec.toNat_ofNat, Nat.reducePow, Nat.reduceMod, Nat.reduceSub, if_true]
  try rfl

theorem RoundTrip.leave (k : BitVec 4) : RoundTrip.Statement (.leave k) := by
  refine RoundTrip.word _ _ _ (Nat.le_of_ble_eq_true rfl) rfl fun w => ?_
  show decodeMask _ = _
  unfold decodeMask
  simp (discharger := decide) only [fN, f1, fD, fA, fB, fE, zeroed, field_above, field_below, bit_above, bit_below, field_whole, flag_bit, BitVec.toNat_ofNat, Nat.reducePow, Nat.reduceMod, Nat.reduceSub, if_true]
  try rfl

theorem RoundTrip.waitm (k : BitVec 4) (j : BitVec 4) : RoundTrip.Statement (.waitm k j) := by
  refine RoundTrip.word _ _ _ (Nat.le_of_ble_eq_true rfl) rfl fun w => ?_
  show decodeMask _ = _
  unfold decodeMask
  simp (discharger := decide) only [fN, f1, fD, fA, fB, fE, zeroed, field_above, field_below, bit_above, bit_below, field_whole, flag_bit, BitVec.toNat_ofNat, Nat.reducePow, Nat.reduceMod, Nat.reduceSub, if_true]
  try rfl

theorem RoundTrip.mget (d : Spec) (k : BitVec 4) : RoundTrip.Statement (.mget d k) := by
  refine RoundTrip.word _ _ _ (Nat.le_of_ble_eq_true rfl) rfl fun w => ?_
  show decodeMask _ = _
  unfold decodeMask
  simp (discharger := decide) only [fN, f1, fD, fA, fB, fE, zeroed, field_above, field_below, bit_above, bit_below, field_whole, flag_bit, BitVec.toNat_ofNat, Nat.reducePow, Nat.reduceMod, Nat.reduceSub, if_true]
  try rfl

theorem RoundTrip.mset (a : Spec) (k : BitVec 4) : RoundTrip.Statement (.mset a k) := by
  refine RoundTrip.word _ _ _ (Nat.le_of_ble_eq_true rfl) rfl fun w => ?_
  show decodeMask _ = _
  unfold decodeMask
  simp (discharger := decide) only [fN, f1, fD, fA, fB, fE, zeroed, field_above, field_below, bit_above, bit_below, field_whole, flag_bit, BitVec.toNat_ofNat, Nat.reducePow, Nat.reduceMod, Nat.reduceSub, if_true]
  try rfl

theorem RoundTrip.msave (k : BitVec 4) (j : BitVec 4) : RoundTrip.Statement (.msave k j) := by
  refine RoundTrip.word _ _ _ (Nat.le_of_ble_eq_true rfl) rfl fun w => ?_
  show decodeMask _ = _
  unfold decodeMask
  simp (discharger := decide) only [fN, f1, fD, fA, fB, fE, zeroed, field_above, field_below, bit_above, bit_below, field_whole, flag_bit, BitVec.toNat_ofNat, Nat.reducePow, Nat.reduceMod, Nat.reduceSub, if_true]
  try rfl

theorem RoundTrip.mrst (k : BitVec 4) : RoundTrip.Statement (.mrst k) := by
  refine RoundTrip.word _ _ _ (Nat.le_of_ble_eq_true rfl) rfl fun w => ?_
  show decodeMask _ = _
  unfold decodeMask
  simp (discharger := decide) only [fN, f1, fD, fA, fB, fE, zeroed, field_above, field_below, bit_above, bit_below, field_whole, flag_bit, BitVec.toNat_ofNat, Nat.reducePow, Nat.reduceMod, Nat.reduceSub, if_true]
  try rfl

theorem RoundTrip.waitc (d : Spec) (a : Spec) (n : BitVec 2) (all : Bool) (t : Bool) : RoundTrip.Statement (.waitc d a n all t) := by
  refine RoundTrip.word _ _ _ (Nat.le_of_ble_eq_true rfl) rfl fun w => ?_
  show zeroed _ _ = _
  simp (discharger := decide) only [fN, f1, fD, fA, fB, fE, zeroed, field_above, field_below, bit_above, bit_below, field_whole, flag_bit, BitVec.toNat_ofNat, Nat.reducePow, Nat.reduceMod, Nat.reduceSub, if_true]
  try rfl

theorem RoundTrip.latchArrive (d : Spec) (num : BitVec 4) (count : BitVec 12) : RoundTrip.Statement (.latchArrive d num count) := by
  refine RoundTrip.word _ _ _ (Nat.le_of_ble_eq_true rfl) rfl fun w => ?_
  show decodeLatch _ = _
  unfold decodeLatch
  simp (discharger := decide) only [fN, f1, fD, fA, fB, fE, zeroed, field_above, field_below, bit_above, bit_below, field_whole, flag_bit, BitVec.toNat_ofNat, Nat.reducePow, Nat.reduceMod, Nat.reduceSub, if_true]
  try rfl

theorem RoundTrip.latchSync (d : Spec) (num : BitVec 4) (count : BitVec 12) : RoundTrip.Statement (.latchSync d num count) := by
  refine RoundTrip.word _ _ _ (Nat.le_of_ble_eq_true rfl) rfl fun w => ?_
  show decodeLatch _ = _
  unfold decodeLatch
  simp (discharger := decide) only [fN, f1, fD, fA, fB, fE, zeroed, field_above, field_below, bit_above, bit_below, field_whole, flag_bit, BitVec.toNat_ofNat, Nat.reducePow, Nat.reduceMod, Nat.reduceSub, if_true]
  try rfl

theorem RoundTrip.latchWait (d : Spec) (num : BitVec 4) : RoundTrip.Statement (.latchWait d num) := by
  refine RoundTrip.word _ _ _ (Nat.le_of_ble_eq_true rfl) rfl fun w => ?_
  show decodeLatch _ = _
  unfold decodeLatch
  simp (discharger := decide) only [fN, f1, fD, fA, fB, fE, zeroed, field_above, field_below, bit_above, bit_below, field_whole, flag_bit, BitVec.toNat_ofNat, Nat.reducePow, Nat.reduceMod, Nat.reduceSub, if_true]
  try rfl

theorem RoundTrip.latchX (d : Spec) (num : BitVec 4) : RoundTrip.Statement (.latchX d num) := by
  refine RoundTrip.word _ _ _ (Nat.le_of_ble_eq_true rfl) rfl fun w => ?_
  show decodeLatch _ = _
  unfold decodeLatch
  simp (discharger := decide) only [fN, f1, fD, fA, fB, fE, zeroed, field_above, field_below, bit_above, bit_below, field_whole, flag_bit, BitVec.toNat_ofNat, Nat.reducePow, Nat.reduceMod, Nat.reduceSub, if_true]
  try rfl

theorem RoundTrip.tbarArrive (d : Spec) (num : BitVec 4) (count : BitVec 11) : RoundTrip.Statement (.tbarArrive d num count) := by
  refine RoundTrip.word _ _ _ (Nat.le_of_ble_eq_true rfl) rfl fun w => ?_
  show decodeTbar _ = _
  unfold decodeTbar
  simp (discharger := decide) only [fN, f1, fD, fA, fB, fE, zeroed, field_above, field_below, bit_above, bit_below, field_whole, flag_bit, BitVec.toNat_ofNat, Nat.reducePow, Nat.reduceMod, Nat.reduceSub, if_true]
  try rfl

theorem RoundTrip.tbarSync (d : Spec) (num : BitVec 4) (count : BitVec 11) : RoundTrip.Statement (.tbarSync d num count) := by
  refine RoundTrip.word _ _ _ (Nat.le_of_ble_eq_true rfl) rfl fun w => ?_
  show decodeTbar _ = _
  unfold decodeTbar
  simp (discharger := decide) only [fN, f1, fD, fA, fB, fE, zeroed, field_above, field_below, bit_above, bit_below, field_whole, flag_bit, BitVec.toNat_ofNat, Nat.reducePow, Nat.reduceMod, Nat.reduceSub, if_true]
  try rfl

theorem RoundTrip.tbarWait (d : Spec) (num : BitVec 4) : RoundTrip.Statement (.tbarWait d num) := by
  refine RoundTrip.word _ _ _ (Nat.le_of_ble_eq_true rfl) rfl fun w => ?_
  show decodeTbar _ = _
  unfold decodeTbar
  simp (discharger := decide) only [fN, f1, fD, fA, fB, fE, zeroed, field_above, field_below, bit_above, bit_below, field_whole, flag_bit, BitVec.toNat_ofNat, Nat.reducePow, Nat.reduceMod, Nat.reduceSub, if_true]
  try rfl

theorem RoundTrip.cbarArrive (d : Spec) (num : BitVec 3) (count : BitVec 12) : RoundTrip.Statement (.cbarArrive d num count) := by
  refine RoundTrip.word _ _ _ (Nat.le_of_ble_eq_true rfl) rfl fun w => ?_
  show decodeCbar _ = _
  unfold decodeCbar
  simp (discharger := decide) only [fN, f1, fD, fA, fB, fE, zeroed, field_above, field_below, bit_above, bit_below, field_whole, flag_bit, BitVec.toNat_ofNat, Nat.reducePow, Nat.reduceMod, Nat.reduceSub, if_true]
  try rfl

theorem RoundTrip.cbarSync (d : Spec) (num : BitVec 3) (count : BitVec 12) : RoundTrip.Statement (.cbarSync d num count) := by
  refine RoundTrip.word _ _ _ (Nat.le_of_ble_eq_true rfl) rfl fun w => ?_
  show decodeCbar _ = _
  unfold decodeCbar
  simp (discharger := decide) only [fN, f1, fD, fA, fB, fE, zeroed, field_above, field_below, bit_above, bit_below, field_whole, flag_bit, BitVec.toNat_ofNat, Nat.reducePow, Nat.reduceMod, Nat.reduceSub, if_true]
  try rfl

theorem RoundTrip.cbarWait (d : Spec) (num : BitVec 3) : RoundTrip.Statement (.cbarWait d num) := by
  refine RoundTrip.word _ _ _ (Nat.le_of_ble_eq_true rfl) rfl fun w => ?_
  show decodeCbar _ = _
  unfold decodeCbar
  simp (discharger := decide) only [fN, f1, fD, fA, fB, fE, zeroed, field_above, field_below, bit_above, bit_below, field_whole, flag_bit, BitVec.toNat_ofNat, Nat.reducePow, Nat.reduceMod, Nat.reduceSub, if_true]
  try rfl

theorem RoundTrip.launch (d : Spec) (a : Spec) : RoundTrip.Statement (.launch d a) := by
  refine RoundTrip.word _ _ _ (Nat.le_of_ble_eq_true rfl) rfl fun w => ?_
  show zeroed _ _ = _
  simp (discharger := decide) only [fN, f1, fD, fA, fB, fE, zeroed, field_above, field_below, bit_above, bit_below, field_whole, flag_bit, BitVec.toNat_ofNat, Nat.reducePow, Nat.reduceMod, Nat.reduceSub, if_true]
  try rfl

theorem RoundTrip.mpassDense (d : Spec) (s : Spec) : RoundTrip.Statement (.mpassDense d s) := by
  refine RoundTrip.word _ _ _ (Nat.le_of_ble_eq_true rfl) rfl fun w => ?_
  show decodeMpass _ = _
  unfold decodeMpass
  simp (discharger := decide) only [fN, f1, fD, fA, fB, fE, zeroed, field_above, field_below, bit_above, bit_below, field_whole, flag_bit, BitVec.toNat_ofNat, Nat.reducePow, Nat.reduceMod, Nat.reduceSub, if_true]
  try rfl

theorem RoundTrip.mpassReduce (d : Spec) (s : Spec) : RoundTrip.Statement (.mpassReduce d s) := by
  refine RoundTrip.word _ _ _ (Nat.le_of_ble_eq_true rfl) rfl fun w => ?_
  show decodeMpass _ = _
  unfold decodeMpass
  simp (discharger := decide) only [fN, f1, fD, fA, fB, fE, zeroed, field_above, field_below, bit_above, bit_below, field_whole, flag_bit, BitVec.toNat_ofNat, Nat.reducePow, Nat.reduceMod, Nat.reduceSub, if_true]
  try rfl

theorem RoundTrip.mpassBatch (d : Spec) (s : Spec) : RoundTrip.Statement (.mpassBatch d s) := by
  refine RoundTrip.word _ _ _ (Nat.le_of_ble_eq_true rfl) rfl fun w => ?_
  show decodeMpass _ = _
  unfold decodeMpass
  simp (discharger := decide) only [fN, f1, fD, fA, fB, fE, zeroed, field_above, field_below, bit_above, bit_below, field_whole, flag_bit, BitVec.toNat_ofNat, Nat.reducePow, Nat.reduceMod, Nat.reduceSub, if_true]
  try rfl

theorem RoundTrip.mpassMvec (d : Spec) (s : Spec) : RoundTrip.Statement (.mpassMvec d s) := by
  refine RoundTrip.word _ _ _ (Nat.le_of_ble_eq_true rfl) rfl fun w => ?_
  show decodeMpass _ = _
  unfold decodeMpass
  simp (discharger := decide) only [fN, f1, fD, fA, fB, fE, zeroed, field_above, field_below, bit_above, bit_below, field_whole, flag_bit, BitVec.toNat_ofNat, Nat.reducePow, Nat.reduceMod, Nat.reduceSub, if_true]
  try rfl

theorem RoundTrip.accinit (d : Spec) (a : Spec) (keep : Bool) (kind : BitVec 2) : RoundTrip.Statement (.accinit d a keep kind) := by
  refine RoundTrip.word _ _ _ (Nat.le_of_ble_eq_true rfl) rfl fun w => ?_
  show decodeMctl _ = _
  unfold decodeMctl
  simp (discharger := decide) only [fN, f1, fD, fA, fB, fE, zeroed, field_above, field_below, bit_above, bit_below, field_whole, flag_bit, BitVec.toNat_ofNat, Nat.reducePow, Nat.reduceMod, Nat.reduceSub, if_true]
  try rfl

theorem RoundTrip.mcancel (d : Spec) (a : Spec) (tile : Bool) : RoundTrip.Statement (.mcancel d a tile) := by
  refine RoundTrip.word _ _ _ (Nat.le_of_ble_eq_true rfl) rfl fun w => ?_
  show decodeMctl _ = _
  unfold decodeMctl
  simp (discharger := decide) only [fN, f1, fD, fA, fB, fE, zeroed, field_above, field_below, bit_above, bit_below, field_whole, flag_bit, BitVec.toNat_ofNat, Nat.reducePow, Nat.reduceMod, Nat.reduceSub, if_true]
  try rfl

theorem RoundTrip.mquery (d : Spec) (a : Spec) (tile : Bool) : RoundTrip.Statement (.mquery d a tile) := by
  refine RoundTrip.word _ _ _ (Nat.le_of_ble_eq_true rfl) rfl fun w => ?_
  show decodeMctl _ = _
  unfold decodeMctl
  simp (discharger := decide) only [fN, f1, fD, fA, fB, fE, zeroed, field_above, field_below, bit_above, bit_below, field_whole, flag_bit, BitVec.toNat_ofNat, Nat.reducePow, Nat.reduceMod, Nat.reduceSub, if_true]
  try rfl

theorem RoundTrip.fdiv (d : Spec) (a : Spec) (b : Spec) (rnd : BitVec 2) (cls : BitVec 4) : RoundTrip.Statement (.fdiv d a b rnd cls) := by
  refine RoundTrip.word _ _ _ (Nat.le_of_ble_eq_true rfl) rfl fun w => ?_
  show some _ = some _
  simp (discharger := decide) only [fN, f1, fD, fA, fB, fE, zeroed, field_above, field_below, bit_above, bit_below, field_whole, flag_bit, BitVec.toNat_ofNat, Nat.reducePow, Nat.reduceMod, Nat.reduceSub, if_true]
  try rfl

theorem RoundTrip.fman (d : Spec) (a : Spec) (b : Spec) (e : Spec) : RoundTrip.Statement (.fman d a b e) := by
  refine RoundTrip.word _ _ _ (Nat.le_of_ble_eq_true rfl) rfl fun w => ?_
  show some _ = some _
  simp (discharger := decide) only [fN, f1, fD, fA, fB, fE, zeroed, field_above, field_below, bit_above, bit_below, field_whole, flag_bit, BitVec.toNat_ofNat, Nat.reducePow, Nat.reduceMod, Nat.reduceSub, if_true]
  try rfl

theorem RoundTrip.trap (x : BitVec 8) : RoundTrip.Statement (.trap x) := by
  refine RoundTrip.word _ _ _ (Nat.le_of_ble_eq_true rfl) rfl fun w => ?_
  show decodeSys _ = _
  unfold decodeSys
  simp (discharger := decide) only [fN, f1, fD, fA, fB, fE, zeroed, field_above, field_below, bit_above, bit_below, field_whole, flag_bit, BitVec.toNat_ofNat, Nat.reducePow, Nat.reduceMod, Nat.reduceSub, if_true]
  try rfl

theorem RoundTrip.svc (a : Spec) (x : BitVec 8) : RoundTrip.Statement (.svc a x) := by
  refine RoundTrip.word _ _ _ (Nat.le_of_ble_eq_true rfl) rfl fun w => ?_
  show decodeSys _ = _
  unfold decodeSys
  simp (discharger := decide) only [fN, f1, fD, fA, fB, fE, zeroed, field_above, field_below, bit_above, bit_below, field_whole, flag_bit, BitVec.toNat_ofNat, Nat.reducePow, Nat.reduceMod, Nat.reduceSub, if_true]
  try rfl

theorem RoundTrip.saveq (a : Spec) : RoundTrip.Statement (.saveq a) := by
  refine RoundTrip.word _ _ _ (Nat.le_of_ble_eq_true rfl) rfl fun w => ?_
  show decodeSys _ = _
  unfold decodeSys
  simp (discharger := decide) only [fN, f1, fD, fA, fB, fE, zeroed, field_above, field_below, bit_above, bit_below, field_whole, flag_bit, BitVec.toNat_ofNat, Nat.reducePow, Nat.reduceMod, Nat.reduceSub, if_true]
  try rfl

theorem RoundTrip.rstq (a : Spec) : RoundTrip.Statement (.rstq a) := by
  refine RoundTrip.word _ _ _ (Nat.le_of_ble_eq_true rfl) rfl fun w => ?_
  show decodeSys _ = _
  unfold decodeSys
  simp (discharger := decide) only [fN, f1, fD, fA, fB, fE, zeroed, field_above, field_below, bit_above, bit_below, field_whole, flag_bit, BitVec.toNat_ofNat, Nat.reducePow, Nat.reduceMod, Nat.reduceSub, if_true]
  try rfl

theorem RoundTrip.gets (d : Spec) (x : BitVec 8) : RoundTrip.Statement (.gets d x) := by
  refine RoundTrip.word _ _ _ (Nat.le_of_ble_eq_true rfl) rfl fun w => ?_
  show decodeSys _ = _
  unfold decodeSys
  simp (discharger := decide) only [fN, f1, fD, fA, fB, fE, zeroed, field_above, field_below, bit_above, bit_below, field_whole, flag_bit, BitVec.toNat_ofNat, Nat.reducePow, Nat.reduceMod, Nat.reduceSub, if_true]
  try rfl

theorem RoundTrip.sets (a : Spec) (x : BitVec 8) : RoundTrip.Statement (.sets a x) := by
  refine RoundTrip.word _ _ _ (Nat.le_of_ble_eq_true rfl) rfl fun w => ?_
  show decodeSys _ = _
  unfold decodeSys
  simp (discharger := decide) only [fN, f1, fD, fA, fB, fE, zeroed, field_above, field_below, bit_above, bit_below, field_whole, flag_bit, BitVec.toNat_ofNat, Nat.reducePow, Nat.reduceMod, Nat.reduceSub, if_true]
  try rfl

theorem RoundTrip.tlbiPage (d : Spec) (a : Spec) : RoundTrip.Statement (.tlbiPage d a) := by
  refine RoundTrip.word _ _ _ (Nat.le_of_ble_eq_true rfl) rfl fun w => ?_
  show decodeSys _ = _
  unfold decodeSys
  simp (discharger := decide) only [fN, f1, fD, fA, fB, fE, zeroed, field_above, field_below, bit_above, bit_below, field_whole, flag_bit, BitVec.toNat_ofNat, Nat.reducePow, Nat.reduceMod, Nat.reduceSub, if_true]
  try rfl

theorem RoundTrip.tlbiAsid (d : Spec) (a : Spec) : RoundTrip.Statement (.tlbiAsid d a) := by
  refine RoundTrip.word _ _ _ (Nat.le_of_ble_eq_true rfl) rfl fun w => ?_
  show decodeSys _ = _
  unfold decodeSys
  simp (discharger := decide) only [fN, f1, fD, fA, fB, fE, zeroed, field_above, field_below, bit_above, bit_below, field_whole, flag_bit, BitVec.toNat_ofNat, Nat.reducePow, Nat.reduceMod, Nat.reduceSub, if_true]
  try rfl

theorem RoundTrip.tlbiAll (d : Spec) (a : Spec) : RoundTrip.Statement (.tlbiAll d a) := by
  refine RoundTrip.word _ _ _ (Nat.le_of_ble_eq_true rfl) rfl fun w => ?_
  show decodeSys _ = _
  unfold decodeSys
  simp (discharger := decide) only [fN, f1, fD, fA, fB, fE, zeroed, field_above, field_below, bit_above, bit_below, field_whole, flag_bit, BitVec.toNat_ofNat, Nat.reducePow, Nat.reduceMod, Nat.reduceSub, if_true]
  try rfl

theorem RoundTrip.invl : RoundTrip.Statement (.invl) := by
  exact RoundTrip.word _ _ _ (Nat.le_of_ble_eq_true rfl) rfl fun _ => rfl

theorem RoundTrip.wbl (d : Spec) (a : Spec) : RoundTrip.Statement (.wbl d a) := by
  refine RoundTrip.word _ _ _ (Nat.le_of_ble_eq_true rfl) rfl fun w => ?_
  show decodeSys _ = _
  unfold decodeSys
  simp (discharger := decide) only [fN, f1, fD, fA, fB, fE, zeroed, field_above, field_below, bit_above, bit_below, field_whole, flag_bit, BitVec.toNat_ofNat, Nat.reducePow, Nat.reduceMod, Nat.reduceSub, if_true]
  try rfl

theorem RoundTrip.wipe (d : Spec) (a : Spec) : RoundTrip.Statement (.wipe d a) := by
  refine RoundTrip.word _ _ _ (Nat.le_of_ble_eq_true rfl) rfl fun w => ?_
  show decodeSys _ = _
  unfold decodeSys
  simp (discharger := decide) only [fN, f1, fD, fA, fB, fE, zeroed, field_above, field_below, bit_above, bit_below, field_whole, flag_bit, BitVec.toNat_ofNat, Nat.reducePow, Nat.reduceMod, Nat.reduceSub, if_true]
  try rfl

theorem RoundTrip.reservedOpcode (w_ : Code) : RoundTrip.Statement (.reservedOpcode w_) := by
  unfold RoundTrip.Statement
  rw [if_neg (Nat.not_lt.mpr (Nat.le_of_ble_eq_true rfl))]
  intro c b hw hx
  exact reserved_word c b w_ hw (hx w_ rfl)

theorem RoundTrip.waitcPoll (th : Nat) (c_ : Nat) : RoundTrip.Statement (.waitcPoll th c_) := by
  exact fun _ _ => rfl

theorem RoundTrip.waitcTimeout (th : Nat) : RoundTrip.Statement (.waitcTimeout th) := by
  exact fun _ _ => rfl

theorem RoundTrip.latchRelease (num : BitVec 4) (die : DieId) : RoundTrip.Statement (.latchRelease num die) := by
  exact fun _ _ => rfl

theorem RoundTrip.runForcedEnd (th : Nat) : RoundTrip.Statement (.runForcedEnd th) := by
  exact fun _ _ => rfl

theorem RoundTrip.longResultReturn (th : Nat) : RoundTrip.Statement (.longResultReturn th) := by
  exact fun _ _ => rfl

theorem RoundTrip.formGang (die : DieId) (core : CoreId) : RoundTrip.Statement (.formGang die core) := by
  exact fun _ _ => rfl

theorem RoundTrip.parkResume (th : Nat) : RoundTrip.Statement (.parkResume th) := by
  exact fun _ _ => rfl

theorem RoundTrip.threadFaultRecord (th : Nat) : RoundTrip.Statement (.threadFaultRecord th) := by
  exact fun _ _ => rfl

theorem RoundTrip.leaseExpiry (die : DieId) : RoundTrip.Statement (.leaseExpiry die) := by
  exact fun _ _ => rfl

theorem RoundTrip.clusterBufferWriteback (die : DieId) (cl : ClusterId) (line : Nat) : RoundTrip.Statement (.clusterBufferWriteback die cl line) := by
  exact fun _ _ => rfl

theorem RoundTrip.stashFillComplete (die : DieId) (core : CoreId) (line : Nat) : RoundTrip.Statement (.stashFillComplete die core line) := by
  exact fun _ _ => rfl

theorem RoundTrip.accinitApply (die : DieId) (cl : ClusterId) (key : Nat) : RoundTrip.Statement (.accinitApply die cl key) := by
  exact fun _ _ => rfl

theorem RoundTrip.matrixGrant (die : DieId) (cl : ClusterId) : RoundTrip.Statement (.matrixGrant die cl) := by
  exact fun _ _ => rfl

theorem RoundTrip.passPriorityAging (die : DieId) (cl : ClusterId) (key : Nat) : RoundTrip.Statement (.passPriorityAging die cl key) := by
  exact fun _ _ => rfl

theorem RoundTrip.kStep (die : DieId) (cl : ClusterId) (key : Nat) : RoundTrip.Statement (.kStep die cl key) := by
  exact fun _ _ => rfl

theorem RoundTrip.partialResend (key : Nat) : RoundTrip.Statement (.partialResend key) := by
  exact fun _ _ => rfl

theorem RoundTrip.passPreemptStop (die : DieId) (cl : ClusterId) (key : Nat) : RoundTrip.Statement (.passPreemptStop die cl key) := by
  exact fun _ _ => rfl

theorem RoundTrip.asyncOpComplete (die : DieId) (core : CoreId) (key : Nat) : RoundTrip.Statement (.asyncOpComplete die core key) := by
  exact fun _ _ => rfl

theorem RoundTrip.knockerWrite (die : DieId) (q : BitVec 6) : RoundTrip.Statement (.knockerWrite die q) := by
  exact fun _ _ => rfl

theorem RoundTrip.cohortPlace (die : DieId) : RoundTrip.Statement (.cohortPlace die) := by
  exact fun _ _ => rfl

theorem RoundTrip.dispatcherPreempt (die : DieId) : RoundTrip.Statement (.dispatcherPreempt die) := by
  exact fun _ _ => rfl

theorem RoundTrip.idleSteal (die : DieId) (grid : Nat) : RoundTrip.Statement (.idleSteal die grid) := by
  exact fun _ _ => rfl

theorem RoundTrip.cohortSaved (grid : Nat) (cohort : Nat) : RoundTrip.Statement (.cohortSaved grid cohort) := by
  exact fun _ _ => rfl

theorem RoundTrip.cohortRestore (grid : Nat) (cohort : Nat) : RoundTrip.Statement (.cohortRestore grid cohort) := by
  exact fun _ _ => rfl

theorem RoundTrip.gridEnd (grid : Nat) : RoundTrip.Statement (.gridEnd grid) := by
  exact fun _ _ => rfl

theorem RoundTrip.faultReportReoffer (die : DieId) : RoundTrip.Statement (.faultReportReoffer die) := by
  exact fun _ _ => rfl

theorem RoundTrip.lastingError (die : DieId) (unit : FailedUnit) : RoundTrip.Statement (.lastingError die unit) := by
  exact fun _ _ => rfl

theorem RoundTrip.clockAdjust (die : DieId) (steps : BitVec 5) : RoundTrip.Statement (.clockAdjust die steps) := by
  exact fun _ _ => rfl

theorem RoundTrip.moduleReset : RoundTrip.Statement (.moduleReset) := by
  exact fun _ _ => rfl

theorem RoundTrip.electQuiet : RoundTrip.Statement (.electQuiet) := by
  exact fun _ _ => rfl

theorem RoundTrip.helloTimeout (site : SiteId) : RoundTrip.Statement (.helloTimeout site) := by
  exact fun _ _ => rfl

theorem RoundTrip.imgreqTimeout : RoundTrip.Statement (.imgreqTimeout) := by
  exact fun _ _ => rfl

theorem RoundTrip.edgeRequestTimeout (site : SiteId) (txn : BitVec 16) : RoundTrip.Statement (.edgeRequestTimeout site txn) := by
  exact fun _ _ => rfl

theorem RoundTrip.mcastTimeout (th : Nat) : RoundTrip.Statement (.mcastTimeout th) := by
  exact fun _ _ => rfl

theorem RoundTrip.ucieModuleError (die : DieId) (dir : BitVec 2) (m : BitVec 2) : RoundTrip.Statement (.ucieModuleError die dir m) := by
  exact fun _ _ => rfl

theorem RoundTrip.sitePowerCut (site : SiteId) : RoundTrip.Statement (.sitePowerCut site) := by
  exact fun _ _ => rfl

theorem RoundTrip.rd (m : Msg) : RoundTrip.Statement (.rd m) := by
  exact fun _ _ => rfl

theorem RoundTrip.rdn (m : Msg) : RoundTrip.Statement (.rdn m) := by
  exact fun _ _ => rfl

theorem RoundTrip.rdo (m : Msg) : RoundTrip.Statement (.rdo m) := by
  exact fun _ _ => rfl

theorem RoundTrip.wr (m : Msg) : RoundTrip.Statement (.wr m) := by
  exact fun _ _ => rfl

theorem RoundTrip.wrm (m : Msg) : RoundTrip.Statement (.wrm m) := by
  exact fun _ _ => rfl

theorem RoundTrip.atm (m : Msg) : RoundTrip.Statement (.atm m) := by
  exact fun _ _ => rfl

theorem RoundTrip.watch (m : Msg) : RoundTrip.Statement (.watch m) := by
  exact fun _ _ => rfl

theorem RoundTrip.unwatch (m : Msg) : RoundTrip.Statement (.unwatch m) := by
  exact fun _ _ => rfl

theorem RoundTrip.wb (m : Msg) : RoundTrip.Statement (.wb m) := by
  exact fun _ _ => rfl

theorem RoundTrip.probe (m : Msg) : RoundTrip.Statement (.probe m) := by
  exact fun _ _ => rfl

theorem RoundTrip.recall (m : Msg) : RoundTrip.Statement (.recall m) := by
  exact fun _ _ => rfl

theorem RoundTrip.ack (m : Msg) : RoundTrip.Statement (.ack m) := by
  exact fun _ _ => rfl

theorem RoundTrip.nack (m : Msg) : RoundTrip.Statement (.nack m) := by
  exact fun _ _ => rfl

theorem RoundTrip.remap (m : Msg) : RoundTrip.Statement (.remap m) := by
  exact fun _ _ => rfl

theorem RoundTrip.done (m : Msg) : RoundTrip.Statement (.done m) := by
  exact fun _ _ => rfl

theorem RoundTrip.err (m : Msg) : RoundTrip.Statement (.err m) := by
  exact fun _ _ => rfl

theorem RoundTrip.data (m : Msg) : RoundTrip.Statement (.data m) := by
  exact fun _ _ => rfl

theorem RoundTrip.pdata (m : Msg) : RoundTrip.Statement (.pdata m) := by
  exact fun _ _ => rfl

theorem RoundTrip.redu (m : Msg) : RoundTrip.Statement (.redu m) := by
  exact fun _ _ => rfl

theorem RoundTrip.redw (m : Msg) : RoundTrip.Statement (.redw m) := by
  exact fun _ _ => rfl

theorem RoundTrip.part (m : Msg) : RoundTrip.Statement (.part m) := by
  exact fun _ _ => rfl

theorem RoundTrip.hello (m : Msg) : RoundTrip.Statement (.hello m) := by
  exact fun _ _ => rfl

theorem RoundTrip.timex (m : Msg) : RoundTrip.Statement (.timex m) := by
  exact fun _ _ => rfl

theorem RoundTrip.elect (m : Msg) : RoundTrip.Statement (.elect m) := by
  exact fun _ _ => rfl

theorem RoundTrip.assign (m : Msg) : RoundTrip.Statement (.assign m) := by
  exact fun _ _ => rfl

theorem RoundTrip.epoch (m : Msg) : RoundTrip.Statement (.epoch m) := by
  exact fun _ _ => rfl

theorem RoundTrip.watchv (m : Msg) : RoundTrip.Statement (.watchv m) := by
  exact fun _ _ => rfl

theorem RoundTrip.steal (m : Msg) : RoundTrip.Statement (.steal m) := by
  exact fun _ _ => rfl

theorem RoundTrip.img (m : Msg) : RoundTrip.Statement (.img m) := by
  exact fun _ _ => rfl

theorem RoundTrip.hingeWipe (m : Msg) : RoundTrip.Statement (.hingeWipe m) := by
  exact fun _ _ => rfl

theorem RoundTrip.wiped (m : Msg) : RoundTrip.Statement (.wiped m) := by
  exact fun _ _ => rfl

theorem RoundTrip.imgreq (m : Msg) : RoundTrip.Statement (.imgreq m) := by
  exact fun _ _ => rfl

theorem RoundTrip.replayRetry (die : DieId) (tag : BitVec 32) : RoundTrip.Statement (.replayRetry die tag) := by
  exact fun _ _ => rfl

theorem RoundTrip.replayFail (die : DieId) (tag : BitVec 32) : RoundTrip.Statement (.replayFail die tag) := by
  exact fun _ _ => rfl

theorem RoundTrip.threadcmdRetry (die : DieId) (tag : BitVec 32) : RoundTrip.Statement (.threadcmdRetry die tag) := by
  exact fun _ _ => rfl

theorem RoundTrip.threadcmdSkip (die : DieId) (tag : BitVec 32) : RoundTrip.Statement (.threadcmdSkip die tag) := by
  exact fun _ _ => rfl

theorem RoundTrip.threadcmdUpcall (die : DieId) (tag : BitVec 32) : RoundTrip.Statement (.threadcmdUpcall die tag) := by
  exact fun _ _ => rfl

theorem RoundTrip.threadcmdAbort (die : DieId) (tag : BitVec 32) : RoundTrip.Statement (.threadcmdAbort die tag) := by
  exact fun _ _ => rfl

theorem RoundTrip.qslotMap (die : DieId) (q : BitVec 6) (desc : Word) : RoundTrip.Statement (.qslotMap die q desc) := by
  exact fun _ _ => rfl

theorem RoundTrip.qslotUnmap (die : DieId) (q : BitVec 6) : RoundTrip.Statement (.qslotUnmap die q) := by
  exact fun _ _ => rfl

theorem RoundTrip.qslotUnmapComplete (die : DieId) (q : BitVec 6) : RoundTrip.Statement (.qslotUnmapComplete die q) := by
  exact fun _ _ => rfl

theorem RoundTrip.preemptCore (die : DieId) (core : CoreId) : RoundTrip.Statement (.preemptCore die core) := by
  exact fun _ _ => rfl

theorem RoundTrip.preemptDie (die : DieId) : RoundTrip.Statement (.preemptDie die) := by
  exact fun _ _ => rfl

theorem RoundTrip.preemptAsidDie (die : DieId) (asid : BitVec 16) : RoundTrip.Statement (.preemptAsidDie die asid) := by
  exact fun _ _ => rfl

theorem RoundTrip.preemptAsidModule (die : DieId) (asid : BitVec 16) : RoundTrip.Statement (.preemptAsidModule die asid) := by
  exact fun _ _ => rfl

theorem RoundTrip.quantumWrite (die : DieId) (v : Word) : RoundTrip.Statement (.quantumWrite die v) := by
  exact fun _ _ => rfl

theorem RoundTrip.rdcsizeWrite (die : DieId) (v : Word) : RoundTrip.Statement (.rdcsizeWrite die v) := by
  exact fun _ _ => rfl

theorem RoundTrip.powercapWrite (die : DieId) (v : Word) : RoundTrip.Statement (.powercapWrite die v) := by
  exact fun _ _ => rfl

theorem RoundTrip.modidWrite (die : DieId) (v : Word) : RoundTrip.Statement (.modidWrite die v) := by
  exact fun _ _ => rfl

theorem RoundTrip.accareaWrite (die : DieId) (v : Word) : RoundTrip.Statement (.accareaWrite die v) := by
  exact fun _ _ => rfl

theorem RoundTrip.lsegWrite (die : DieId) (l : BitVec 4) (v : Word) : RoundTrip.Statement (.lsegWrite die l v) := by
  exact fun _ _ => rfl

theorem RoundTrip.lexcWrite (die : DieId) (l : BitVec 4) (high : Bool) (v : Word) : RoundTrip.Statement (.lexcWrite die l high v) := by
  exact fun _ _ => rfl

theorem RoundTrip.challenge (die : DieId) (block : Word) : RoundTrip.Statement (.challenge die block) := by
  exact fun _ _ => rfl

theorem RoundTrip.quote (die : DieId) (block : Word) : RoundTrip.Statement (.quote die block) := by
  exact fun _ _ => rfl

theorem RoundTrip.cert (die : DieId) (block : Word) : RoundTrip.Statement (.cert die block) := by
  exact fun _ _ => rfl

theorem RoundTrip.command (die : DieId) (block : Word) : RoundTrip.Statement (.command die block) := by
  exact fun _ _ => rfl

theorem RoundTrip.registerWrite (die : DieId) (off : BitVec 16) (v : Word) : RoundTrip.Statement (.registerWrite die off v) := by
  exact fun _ _ => rfl

theorem RoundTrip.droppedMessage (die : DieId) (cls : BitVec 3) (op_ : BitVec 5) (follow : BitVec 3) : RoundTrip.Statement (.droppedMessage die cls op_ follow) := by
  exact fun _ _ => rfl

theorem RoundTrip.malformedRequest (die : DieId) (block : Word) : RoundTrip.Statement (.malformedRequest die block) := by
  exact fun _ _ => rfl

theorem RoundTrip.flitCredits (die : DieId) (dir : BitVec 2) (credits : BitVec 48) : RoundTrip.Statement (.flitCredits die dir credits) := by
  exact fun _ _ => rfl

theorem RoundTrip.linkErrorRetry (die : DieId) (dir : BitVec 2) : RoundTrip.Statement (.linkErrorRetry die dir) := by
  exact fun _ _ => rfl

theorem RoundTrip.storageError (place : Place) (soft : Bool) : RoundTrip.Statement (.storageError place soft) := by
  exact fun _ _ => rfl

theorem RoundTrip.hbmWipeComplete : RoundTrip.Statement (.hbmWipeComplete) := by
  exact fun _ _ => rfl

theorem RoundTrip.sliceRetirementComplete (die : DieId) (slice : BitVec 5) : RoundTrip.Statement (.sliceRetirementComplete die slice) := by
  exact fun _ _ => rfl

theorem RoundTrip.portLiveChange (site : SiteId) (live : BitVec 4) : RoundTrip.Statement (.portLiveChange site live) := by
  exact fun _ _ => rfl

end Sys2Proof.Laws
end

