-- ==== Sys2Proof/Tests/Slice0.lean ====
section
/-! SUPPORT. Tests: words written out from the spec's encodings, ill-formed terms that are refused, one step of small states with the spec's results, and
for each statement states and operands that meet its hypotheses. -/
open Sys2Proof Sys2Proof.Machine

namespace Sys2Proof.Tests

set_option Elab.async false

/-! ### Small states -/

/-- A lane of a supervisor grid that is about to issue a NOP. -/
def base : State := State.reset.withFetchWord 32 0
/-- The conductor of the same grid. -/
def condBase : State := State.reset.withFetchWord 32 0x3A024000
/-- The running thread. -/
def State.me (s : State) : Thread := (s.th? s.cur).getD noThread
def lane : Thread := State.me base
def conductor : Thread := State.me condBase
/-- A state whose running thread is changed. -/
def with_ (f : Thread → Thread) (s : State := base) : State := s.setTh s.cur (f (State.me s))
/-- Named slots with values from n16 on. -/
def named (vs : List Word) : Vector Word 48 := Vector.ofFn fun (i : Fin 48) => if i.val < 16 then 0 else vs.getD (i.val - 16) 0
/-- The same grid, its running thread with values from n16 on. -/
def slots (vs : List Word) (s : State := base) : State := with_ (fun t => { t with n := named vs }) s
/-- The same grid in user mode. -/
def userBase : State := { base with grids := AMap.put base.grids 1 { Fetch.grid with super := false } }
/-- The values that the running thread has recorded for a named slot, after an instruction. -/
def recorded (o : Host.Outcome State Fault Refusal) : List (Target × Word) :=
  match o with
  | .next s => (State.me s).run.map fun p => (p.tgt, p.val)
  | _ => []
/-- What the running thread is after an instruction. -/
def after {β : Type} (o : Host.Outcome State Fault Refusal) (f : State → β) (x : β) : β :=
  match o with
  | .next s => f s
  | _ => x
/-- Words 1 to 20 of the opcode table, with a value in every field: the table's match bits and fields, written out. -/
def words1 : List (Code × SlotWord) :=
   [(0x40000000, ⟨false, true, .nop⟩),
    (0x401ABCDE, ⟨false, true, .pool 703710⟩),
    (0x40200000, ⟨false, true, .exit⟩),
    (0x40300000, ⟨false, true, .ret⟩),
    (0x40400000, ⟨false, true, .yield⟩),
    (0x40500000, ⟨false, true, .rft⟩),
    (0x40500001, ⟨false, true, .rftSkip⟩),
    (0x406ABCDE, ⟨false, true, .brkpt 703710⟩),
    (0x8071403F, ⟨true, false, .last 20 0 63⟩),
    (0x41921CA0, ⟨false, true, .add 36 33 50 true⟩),
    (0x41921CA1, ⟨false, true, .sub 36 33 50 true⟩),
    (0x41921CA2, ⟨false, true, .mul 36 33 50 true⟩),
    (0x41921CA3, ⟨false, true, .mulh 36 33 50 true⟩),
    (0x41921CA4, ⟨false, true, .mulhn 36 33 50 true⟩),
    (0x41921CA5, ⟨false, true, .div 36 33 50 true⟩),
    (0x41921CA6, ⟨false, true, .divn 36 33 50 true⟩),
    (0x41921CA7, ⟨false, true, .rem 36 33 50 true⟩),
    (0x41921CA8, ⟨false, true, .remn 36 33 50 true⟩),
    (0x41921CA9, ⟨false, true, .min 36 33 50 true⟩),
    (0x41921CAA, ⟨false, true, .max 36 33 50 true⟩)]

/-- Words 21 to 40 of the opcode table, with a value in every field: the table's match bits and fields, written out. -/
def words2 : List (Code × SlotWord) :=
   [(0x41921CAB, ⟨false, true, .minn 36 33 50 true⟩),
    (0x41921CAC, ⟨false, true, .maxn 36 33 50 true⟩),
    (0x41921CAD, ⟨false, true, .and 36 33 50 true⟩),
    (0x41921CAE, ⟨false, true, .or 36 33 50 true⟩),
    (0x41921CAF, ⟨false, true, .xor 36 33 50 true⟩),
    (0x41921CB0, ⟨false, true, .andn 36 33 50 true⟩),
    (0x41921CB1, ⟨false, true, .shl 36 33 50 true⟩),
    (0x41921CB2, ⟨false, true, .shr 36 33 50 true⟩),
    (0x41921CB3, ⟨false, true, .sar 36 33 50 true⟩),
    (0x41921CB4, ⟨false, true, .rot 36 33 50 true⟩),
    (0x41921035, ⟨false, true, .clz 36 33 true⟩),
    (0x41921036, ⟨false, true, .popc 36 33 true⟩),
    (0x41921037, ⟨false, true, .brev 36 33 true⟩),
    (0x41921038, ⟨false, true, .abs 36 33 true⟩),
    (0x41921039, ⟨false, true, .neg 36 33 true⟩),
    (0x4192103A, ⟨false, true, .sext 36 33⟩),
    (0x4192103B, ⟨false, true, .zext 36 33⟩),
    (0x4192103C, ⟨false, true, .mov 36 33 true⟩),
    (0x42921801, ⟨false, true, .addi 36 33 2049⟩),
    (0x43921201, ⟨false, true, .andi 36 33 513⟩)]

/-- Words 41 to 60 of the opcode table, with a value in every field: the table's match bits and fields, written out. -/
def words3 : List (Code × SlotWord) :=
   [(0x43921601, ⟨false, true, .ori 36 33 513⟩),
    (0x43921A01, ⟨false, true, .xori 36 33 513⟩),
    (0x43921E01, ⟨false, true, .andni 36 33 513⟩),
    (0x44921115, ⟨false, true, .shli 36 33 true 21⟩),
    (0x44921315, ⟨false, true, .shri 36 33 true 21⟩),
    (0x44921515, ⟨false, true, .sari 36 33 true 21⟩),
    (0x44921715, ⟨false, true, .roti 36 33 true 21⟩),
    (0x45BA1C94, ⟨false, true, .icmp 5 6 33 50 2 true⟩),
    (0x46BA1155, ⟨false, true, .icmpi 5 6 33 5 2 5⟩),
    (0x47921C85, ⟨false, true, .sel 36 33 50 5⟩),
    (0x47921C89, ⟨false, true, .bfx 36 33 50 true⟩),
    (0x47921C90, ⟨false, true, .bfi 36 33 50⟩),
    (0x47900018, ⟨false, true, .pmov 36⟩),
    (0x47021020, ⟨false, true, .setp 33⟩),
    (0x47921CA8, ⟨false, true, .bperm 36 33 50⟩),
    (0x4893FFF0, ⟨false, true, .ldlit 36 262128⟩),
    (0x49921CA8, ⟨false, true, .addr 36 33 50 5⟩),
    (0x4A500041, ⟨false, true, .sprGet 20 65⟩),
    (0x4A510041, ⟨false, true, .sprSet 20 65⟩),
    (0x4A520041, ⟨false, true, .sprSwap 20 65⟩)]

/-- Words 61 to 80 of the opcode table, with a value in every field: the table's match bits and fields, written out. -/
def words4 : List (Code × SlotWord) :=
   [(0x4B851CA8, ⟨false, true, .redo 33 17 50 5⟩),
    (0x4C921CBB, ⟨false, true, .fadd 36 33 50 3 11⟩),
    (0x4D921CBB, ⟨false, true, .fsub 36 33 50 3 11⟩),
    (0x4E921CBB, ⟨false, true, .fmul 36 33 50 3 11⟩),
    (0x4F921C8B, ⟨false, true, .fmin 36 33 50 11⟩),
    (0x4F921C9B, ⟨false, true, .fmax 36 33 50 11⟩),
    (0x4F921CAB, ⟨false, true, .fminm 36 33 50 11⟩),
    (0x4F921CBB, ⟨false, true, .fmaxm 36 33 50 11⟩),
    (0x50921C91, ⟨false, true, .ffma 36 33 50 17⟩),
    (0x51921C91, ⟨false, true, .ffms 36 33 50 17⟩),
    (0x52921C91, ⟨false, true, .fnma 36 33 50 17⟩),
    (0x5392103B, ⟨false, true, .fabs 36 33 3 11⟩),
    (0x5392107B, ⟨false, true, .fneg 36 33 3 11⟩),
    (0x539210BB, ⟨false, true, .frnd 36 33 3 11⟩),
    (0x539210C0, ⟨false, true, .gete 36 33⟩),
    (0x5392113B, ⟨false, true, .getm 36 33 3 11⟩),
    (0x53921140, ⟨false, true, .fclass 36 33⟩),
    (0x539211BB, ⟨false, true, .reclass 36 33 3 11⟩),
    (0x54BA1C94, ⟨false, true, .fcmp 5 6 33 50 2 true⟩),
    (0x55921C8B, ⟨false, true, .twosum 36 33 50 11⟩)]

/-- Words 81 to 100 of the opcode table, with a value in every field: the table's match bits and fields, written out. -/
def words5 : List (Code × SlotWord) :=
   [(0x55921CAB, ⟨false, true, .twoprod 36 33 50 11⟩),
    (0x5692193B, ⟨false, true, .cvtin 36 33 9 3 11⟩),
    (0x569219B0, ⟨false, true, .cvtout 36 33 9 3⟩),
    (0x57921CBB, ⟨false, true, .fscl 36 33 50 3 11⟩),
    (0x5892103B, ⟨false, true, .rcp 36 33 3 11⟩),
    (0x5892123B, ⟨false, true, .rsq 36 33 3 11⟩),
    (0x5892143B, ⟨false, true, .sqrt 36 33 3 11⟩),
    (0x5892163B, ⟨false, true, .exp2 36 33 3 11⟩),
    (0x5892183B, ⟨false, true, .log2 36 33 3 11⟩),
    (0x58921A3B, ⟨false, true, .sin 36 33 3 11⟩),
    (0x58921C3B, ⟨false, true, .cos 36 33 3 11⟩),
    (0x58921E3B, ⟨false, true, .tanh 36 33 3 11⟩),
    (0x59921C85, ⟨false, true, .xpull 36 33 50 5⟩),
    (0x59921C8D, ⟨false, true, .xrank 36 33 50 5⟩),
    (0x59921C95, ⟨false, true, .xsegb 36 33 50 5⟩),
    (0x59921C9D, ⟨false, true, .xrev 36 33 50 5⟩),
    (0x5990D025, ⟨false, true, .xcount 36 true 5 5⟩),
    (0x5990D02D, ⟨false, true, .xfirst 36 true 5 5⟩),
    (0x5990D035, ⟨false, true, .xmask 36 true 5 5⟩),
    (0x5992103D, ⟨false, true, .gbcast 36 33 5⟩)]

/-- Words 101 to 120 of the opcode table, with a value in every field: the table's match bits and fields, written out. -/
def words6 : List (Code × SlotWord) :=
   [(0x5A921928, ⟨false, true, .gred 36 33 9 5⟩),
    (0x5B9219A8, ⟨false, true, .gscan 36 33 9 true 5⟩),
    (0x5C921C80, ⟨false, true, .pack6 36 33 50⟩),
    (0x5C92101B, ⟨false, true, .unpk6 36 33 11⟩),
    (0x9D872440, ⟨true, false, .xpr 33 50 17 0⟩),
    (0x5F921CA8, ⟨false, true, .cmma 36 33 50 5⟩),
    (0x60921651, ⟨false, true, .ld 36 33 1 4 2 17⟩),
    (0x61921651, ⟨false, true, .st 36 33 1 4 2 17⟩),
    (0x6292164D, ⟨false, true, .lda 36 33 1 4 2 true 5⟩),
    (0x63921645, ⟨false, true, .strl 36 33 1 4 2 5⟩),
    (0x64021451, ⟨false, true, .pref 33 1 2 17⟩),
    (0x640214D1, ⟨false, true, .prefL1 33 1 2 17⟩),
    (0x64140100, ⟨false, true, .prefHome 5⟩),
    (0x65921000, ⟨false, true, .wmap 36 33⟩),
    (0x65921200, ⟨false, true, .wunmap 36 33⟩),
    (0x65921400, ⟨false, true, .wflush 36 33⟩),
    (0x65921600, ⟨false, true, .wdrop 36 33⟩),
    (0x65921800, ⟨false, true, .wquery 36 33⟩),
    (0x66921CAE, ⟨false, true, .atom 36 33 50 5 6⟩),
    (0x67872B20, ⟨false, true, .red 33 50 5 4 true⟩)]

/-- Words 121 to 140 of the opcode table, with a value in every field: the table's match bits and fields, written out. -/
def words7 : List (Code × SlotWord) :=
   [(0x68000029, ⟨false, true, .fenceRel 5⟩),
    (0x6800002A, ⟨false, true, .fenceAcq 5⟩),
    (0x6800002B, ⟨false, true, .fenceFull 5⟩),
    (0x69866400, ⟨false, true, .cpya 33 38 1 0⟩),
    (0x6A866B80, ⟨false, true, .gath 33 38 2 true true true⟩),
    (0x6B866B80, ⟨false, true, .scat 33 38 2 true true true⟩),
    (0x6B866B9D, ⟨false, true, .scatReduce 33 38 2 true true true 1 5⟩),
    (0x6C921000, ⟨false, true, .drain 36 33⟩),
    (0x6C900400, ⟨false, true, .drainAll 36⟩),
    (0x6C900800, ⟨false, true, .drainPass 36⟩),
    (0x6E921CAE, ⟨false, true, .atomw 36 33 50 5 6⟩),
    (0x6F921CAC, ⟨false, true, .atomc 36 33 50 5 true⟩),
    (0x70EFFFFB, ⟨false, true, .bra true 6 true 524283⟩),
    (0x71EFFFFB, ⟨false, true, .call true 6 true 524283⟩),
    (0x72EA1000, ⟨false, true, .jmpr true 6 true 33⟩),
    (0x72EE1000, ⟨false, true, .callr true 6 true 33⟩),
    (0x73822801, ⟨false, true, .loop 2 34 2049⟩),
    (0x740000A0, ⟨false, true, .join 10⟩),
    (0x740001A0, ⟨false, true, .leave 10⟩),
    (0x740002A3, ⟨false, true, .waitm 10 3⟩)]

/-- Words 141 to 160 of the opcode table, with a value in every field: the table's match bits and fields, written out. -/
def words8 : List (Code × SlotWord) :=
   [(0x749003A0, ⟨false, true, .mget 36 10⟩),
    (0x740214A0, ⟨false, true, .mset 33 10⟩),
    (0x740005A3, ⟨false, true, .msave 10 3⟩),
    (0x740006A0, ⟨false, true, .mrst 10⟩),
    (0x75921B00, ⟨false, true, .waitc 36 33 2 true true⟩),
    (0x7690C801, ⟨false, true, .latchArrive 36 12 2049⟩),
    (0x7691C801, ⟨false, true, .latchSync 36 12 2049⟩),
    (0x7692C000, ⟨false, true, .latchWait 36 12⟩),
    (0x7693C000, ⟨false, true, .latchX 36 12⟩),
    (0x7790C401, ⟨false, true, .tbarArrive 36 12 1025⟩),
    (0x7791C401, ⟨false, true, .tbarSync 36 12 1025⟩),
    (0x7792C000, ⟨false, true, .tbarWait 36 12⟩),
    (0x78905801, ⟨false, true, .cbarArrive 36 5 2049⟩),
    (0x78915801, ⟨false, true, .cbarSync 36 5 2049⟩),
    (0x78925000, ⟨false, true, .cbarWait 36 5⟩),
    (0x79921000, ⟨false, true, .launch 36 33⟩),
    (0x7A929000, ⟨false, true, .mpassDense 36 41⟩),
    (0x7A929400, ⟨false, true, .mpassReduce 36 41⟩),
    (0x7A929800, ⟨false, true, .mpassBatch 36 41⟩),
    (0x7A929C00, ⟨false, true, .mpassMvec 36 41⟩)]

/-- Words 161 to 177 of the opcode table, with a value in every field: the table's match bits and fields, written out. -/
def words9 : List (Code × SlotWord) :=
   [(0x7B921180, ⟨false, true, .accinit 36 33 true 2⟩),
    (0x7B921500, ⟨false, true, .mcancel 36 33 true⟩),
    (0x7B921900, ⟨false, true, .mquery 36 33 true⟩),
    (0x7C921CBB, ⟨false, true, .fdiv 36 33 50 3 11⟩),
    (0x7D921C91, ⟨false, true, .fman 36 33 50 17⟩),
    (0x7E0000A5, ⟨false, true, .trap 165⟩),
    (0x7E0211A5, ⟨false, true, .svc 33 165⟩),
    (0x7E021200, ⟨false, true, .saveq 33⟩),
    (0x7E021300, ⟨false, true, .rstq 33⟩),
    (0x7E900404, ⟨false, true, .gets 36 4⟩),
    (0x7E021508, ⟨false, true, .sets 33 8⟩),
    (0x7E921600, ⟨false, true, .tlbiPage 36 33⟩),
    (0x7E921601, ⟨false, true, .tlbiAsid 36 33⟩),
    (0x7E921602, ⟨false, true, .tlbiAll 36 33⟩),
    (0x7E000700, ⟨false, true, .invl⟩),
    (0x7E921800, ⟨false, true, .wbl 36 33⟩),
    (0x7E921900, ⟨false, true, .wipe 36 33⟩)]


theorem test_decode_words1 : ∀ p ∈ words1, decodeWord p.1 = some p.2 := by decide +kernel
theorem test_decode_words2 : ∀ p ∈ words2, decodeWord p.1 = some p.2 := by decide +kernel
theorem test_decode_words3 : ∀ p ∈ words3, decodeWord p.1 = some p.2 := by decide +kernel
theorem test_decode_words4 : ∀ p ∈ words4, decodeWord p.1 = some p.2 := by decide +kernel
theorem test_decode_words5 : ∀ p ∈ words5, decodeWord p.1 = some p.2 := by decide +kernel
theorem test_decode_words6 : ∀ p ∈ words6, decodeWord p.1 = some p.2 := by decide +kernel
theorem test_decode_words7 : ∀ p ∈ words7, decodeWord p.1 = some p.2 := by decide +kernel
theorem test_decode_words8 : ∀ p ∈ words8, decodeWord p.1 = some p.2 := by decide +kernel
theorem test_decode_words9 : ∀ p ∈ words9, decodeWord p.1 = some p.2 := by decide +kernel
/-- R52: opcodes 45 and 63 are reserved. -/
theorem test_decode_reserved : decodeWord 0x2D000000 = some ⟨false, false, .reservedOpcode 0x2D000000⟩ ∧
    decodeWord 0xBF123456 = some ⟨true, false, .reservedOpcode 0xBF123456⟩ := by decide +kernel

/-! ### Ill-formed terms, each refused by one check -/

theorem test_wf_destination : ∀ i ∈ [Instr.add 1 34 35 false, .add 15 34 35 true, .sext 7 34, .ld 3 36 0 3 0 0, .latchWait 9 3, .gets 5 8, .fadd 2 32 33 0 0],
    i.wf = false := by decide +kernel
theorem test_wf_named : ∀ i ∈ [Instr.bfi 0 34 35, .cmma 15 32 33 1, .wmap 30 15, .cpya 14 0 0 0, .waitc 0 9 0 false false, .accinit 0 3 false 0], i.wf = false := by
  decide +kernel
theorem test_wf_mark : Instr.wf (.last 1 0 0) = false ∧ Instr.wf (.last 0 15 0) = false ∧ Instr.wf (.last 0 0 7) = false := by decide +kernel
theorem test_wf_class : Instr.wf (.fadd 36 32 33 0 1) = false ∧ Instr.wf (.unpk6 36 32 7) = false ∧ Instr.wf (.fdiv 36 32 33 0 5) = false := by
  decide +kernel
theorem test_wf_amount : Instr.wf (.shli 36 34 true 32) = false ∧ Instr.wf (.roti 36 34 true 63) = false ∧ Instr.wf (.shli 36 34 false 63) = true := by
  decide +kernel
theorem test_wf_predicate : Instr.wf (.icmp 0 0 34 35 0 false) = false ∧ Instr.wf (.icmpi 4 2 34 0 3 0) = false ∧ Instr.wf (.fcmp 0 0 34 35 0 false) = false := by
  decide +kernel
theorem test_wf_special : Instr.wf (.sprGet 36 5) = false ∧ Instr.wf (.sprSet 36 0x30) = false ∧ Instr.wf (.sprSwap 36 0) = false := by decide +kernel
theorem test_wf_scope : Instr.wf (.fenceRel 7) = false ∧ Instr.wf (.atom 36 34 35 7 0) = false ∧ Instr.wf (.redo 36 34 35 3) = false ∧
    Instr.wf (.redo 36 34 35 7) = false ∧ Instr.wf (.scatReduce 36 0 0 false false false 0 7) = false := by decide +kernel
theorem test_wf_conversion : Instr.wf (.cvtin 36 34 3 0 0) = false ∧ Instr.wf (.cvtout 36 34 12 0) = false := by decide +kernel
theorem test_wf_space : Instr.wf (.ld 36 34 3 3 0 0) = false ∧ Instr.wf (.st 36 34 0 5 0 0) = false ∧ Instr.wf (.cpya 36 0 2 0) = false ∧
    Instr.wf (.pref 34 3 0 0) = false := by decide +kernel
theorem test_wf_reduction : Instr.wf (.red 36 34 4 1 true) = false ∧ Instr.wf (.gred 36 32 11 1) = false ∧ Instr.wf (.gscan 36 32 15 false 1) = false ∧
    Instr.wf (.gath 36 0 3 false false false) = false := by decide +kernel
theorem test_wf_masks : Instr.wf (.join 0) = false ∧ Instr.wf (.mset 34 12) = false ∧ Instr.wf (.mget 36 12) = false ∧ Instr.wf (.waitm 0 1) = false ∧
    Instr.wf (.msave 1 0) = false := by decide +kernel
theorem test_wf_system : Instr.wf (.gets 36 5) = false ∧ Instr.wf (.sets 36 0) = false ∧ Instr.wf (.reservedOpcode 0) = false := by decide +kernel
theorem test_wf_counts : Instr.wf (.loop 3 34 4) = false ∧ Instr.wf (.loop 1 34 0) = false ∧ Instr.wf (.tbarSync 0 3 0) = false ∧
    Instr.wf (.cbarArrive 0 3 0) = false ∧ Instr.wf (.latchArrive 0 3 0) = false := by decide +kernel
/-- R33, R41, R49, R53, R270: bits C and B. -/
theorem test_wf_flags : ∀ sw ∈ [(⟨false, false, .last 24 0 0⟩ : SlotWord), ⟨true, true, .last 24 0 0⟩, ⟨false, false, .xpr 32 33 0 34⟩, ⟨true, false, .pool 3⟩,
    ⟨true, false, .loop 1 34 4⟩, ⟨false, false, .bra false 2 false 0⟩, ⟨false, false, .exit⟩], sw.wf = false := by decide +kernel
/-- A word with an ill-formed field decodes, and is ILLEGAL (R52). -/
theorem test_wf_illegal_is_taken : (match exec (.add 1 34 35 false) base with | .next s => (State.me s).trapcause | _ => 0) = 1 := by decide +kernel

/-! ### One instruction on a small state: the spec's own examples, and the corners of its tables -/

/-- R87's example of DIV.w. -/
theorem test_div_w : recorded (exec (.div 36 32 33 true) (slots [0xFFFFFFFF80000000, 0xFFFFFFFFFFFFFFFF])) = [(.named 20, 0xFFFFFFFF80000000)] := by
  decide +kernel
/-- R88: a divisor of zero. -/
theorem test_div_zero : recorded (exec (.div 36 32 33 false) (slots [5, 0])) = [(.named 20, 0xFFFFFFFFFFFFFFFF)] ∧
    recorded (exec (.remn 36 32 33 false) (slots [5, 0])) = [(.named 20, 5)] := by decide +kernel
theorem test_add_wraps : recorded (exec (.add 36 32 33 false) (slots [0xFFFFFFFFFFFFFFFF, 2])) = [(.named 20, 1)] ∧
    recorded (exec (.add 36 32 33 true) (slots [0x7FFFFFFF, 1])) = [(.named 20, 0xFFFFFFFF80000000)] := by decide +kernel
theorem test_sub_order : recorded (exec (.sub 36 32 33 false) (slots [3, 5])) = [(.named 20, 0xFFFFFFFFFFFFFFFE)] := by decide +kernel
theorem test_mulh_signs : recorded (exec (.mulh 36 32 33 false) (slots [0xFFFFFFFFFFFFFFFF, 2])) = [(.named 20, 0xFFFFFFFFFFFFFFFF)] ∧
    recorded (exec (.mulhn 36 32 33 false) (slots [0xFFFFFFFFFFFFFFFF, 2])) = [(.named 20, 1)] := by decide +kernel
/-- R87: a shift takes its amount modulo the width. -/
theorem test_shift_amount : recorded (exec (.shl 36 32 33 false) (slots [1, 65])) = [(.named 20, 2)] ∧
    recorded (exec (.sar 36 32 33 true) (slots [0x80000000, 33])) = [(.named 20, 0xFFFFFFFFC0000000)] := by decide +kernel
theorem test_clz_zero : recorded (exec (.clz 36 32 true) (slots [0xFFFFFFFF00000000])) = [(.named 20, 32)] := by decide +kernel
/-- R89, R90: ADDI sign-extends, LOGI zero-extends. -/
theorem test_immediates : recorded (exec (.addi 36 32 0xFFF) (slots [5])) = [(.named 20, 4)] ∧
    recorded (exec (.andi 36 32 0x3FF) (slots [0xFFFFFFFFFFFFFFFF])) = [(.named 20, 0x3FF)] := by decide +kernel
/-- R92's example: ICMPI.gt p2, n18, 0. -/
theorem test_icmpi_gt : recorded (exec (.icmpi 4 2 34 0 0 0) (slots [0, 0, 1])) = [(.pred 2, 1)] ∧
    recorded (exec (.icmpi 4 2 34 0 0 0) (slots [0, 0, 0xFFFFFFFFFFFFFFFF])) = [(.pred 2, 0)] := by decide +kernel
/-- R96: ADDR adds b shifted left. -/
theorem test_addr : recorded (exec (.addr 36 32 33 3) (slots [0x1000, 5])) = [(.named 20, 0x1028)] := by decide +kernel
/-- R107's example, with the values above it: s at q1 and e at q0. -/
theorem test_twosum : recorded (exec (.twosum 0 32 33 8) (slots [0x07FF000000000000, 0x07EF800000000000])) =
    [(.ring 14, 0x87EE000000000000), (.ring 15, 0x07FF000200000000)] := by decide +kernel
/-- R109's example: CVTOUT.i32 of −3.25 at class 2. -/
theorem test_cvtout_i32 : ((recorded (exec (.cvtout 0 32 6 0) (slots [0xA800A00000000000]))).map Prod.snd).contains 0xFFFFFFFFFFFFFFFD = true := by
  decide +kernel
/-- R62, R103: 2⁴⁰ + 3.25 at class 2. -/
theorem test_fadd_class2 : recorded (exec (.fadd 36 32 33 0 10) (slots [0x0827000000000000, 0x0800A00000000000])) = [(.named 20, 0x2827000000000340)] := by
  decide +kernel
/-- R112's example: SIN.c0 of 2^30 is the default NaN, with RANGE on its way to the sticky field. -/
theorem test_sin_range : ((recorded (exec (.sin 36 32 0 8) (slots [0x081D000000000000]))).filter fun p => p.1 == .named 20) =
    [(.named 20, 0x0FFF800000000000)] := by decide +kernel
/-- R119's table for m1 = 0xF5, each lane holding 100 + v. -/
def six (b : Word) : List Arrival := [0, 2, 4, 5, 6, 7].map fun v => { lane := v, a := [w64 (100 + v)], b := [b], prc := 0, slot := 0, pred := v == 2 || v == 5 }
theorem test_xrank : (six 1).map (fun x => (collResult (.xrank 36 32 33 1) (six 1) x).vals) = [[102], [104], [105], [106], [107], [100]] ∧
    (six (-1)).map (fun x => (collResult (.xrank 36 32 33 1) (six (-1)) x).vals) = [[107], [100], [102], [104], [105], [106]] := by decide +kernel
theorem test_xsegb_xrev : (six 2).map (fun x => (collResult (.xsegb 36 32 33 1) (six 2) x).vals) = [[100], [100], [104], [104], [104], [104]] ∧
    (six 2).map (fun x => (collResult (.xrev 36 32 33 1) (six 2) x).vals) = [[100], [102], [107], [106], [105], [104]] := by decide +kernel
theorem test_xcount : ∀ x ∈ six 0, (collResult (.xcount 36 false 3 1) (six 0) x).vals = [0x0602] ∧ (collResult (.xfirst 36 false 3 1) (six 0) x).vals = [2] ∧
    (collResult (.xmask 36 false 3 1) (six 0) x).vals = [0x24] := by decide +kernel
/-- R121's table: the fixed tree at class 0. -/
def four : List Arrival := [0x07FF000000000000, 0x07EE000000000000, 0x07EE000000000000, 0x07EE000000000000].zipIdx.map fun p => { lane := p.2, a := [p.1], prc := 0, slot := 0 }
theorem test_gred_tree : ∀ x ∈ four, collResult (.gred 36 32 8 1) four x = { vals := [0x07FF000100000000], flags := { inx := true } } := by decide +kernel
theorem test_gscan_tree : four.map (fun x => (collResult (.gscan 36 32 8 false 1) four x).vals) =
    [[0x07FF000000000000], [0x07FF000000000000], [0x07FF000000000000], [0x07FF000100000000]] := by decide +kernel
/-- R232's example: 1 + 2^−16 + 2^−17 at class 0 ties to the even fraction 0x0002. -/
theorem test_red_fadd : (reduceBytes 1 [0xFF, 0x07, 0x01, 0x00] (vfOfSlots [0x07EE000000000000]) 0).1 = [0xFF, 0x07, 0x02, 0x00] := by decide +kernel
/-- Chapter 3's example of a block: L6 codes 4, 34 and 16 at scale −3. -/
theorem test_narrow_values : (Narrow.value 0 0x10).isZero = true ∧ Machine.Num.cmp (Narrow.scale (Narrow.value 0 4) (-3)) (.fin false 1 (-2)) = 0 ∧
    Machine.Num.cmp (Narrow.scale (Narrow.value 0 0x22) (-3)) (.fin true 0xB504F3 (-26)) = 0 ∧ Machine.Num.cmp (Narrow.scale (Narrow.value 0 0) (-3)) (.fin false 1 (-3)) = 0 := by
  decide +kernel
/-- R299, R314: TRAP 0x42 leaves cause 0x20 and its code, and waits for system software. -/
theorem test_trap : after (exec (.trap 0x42) base) (fun s => ((State.me s).trapcause, (State.me s).trapinfo, (State.me s).status)) (0, 0, .ready) =
    (0x20, 0x42, .awaiting none) := by decide +kernel
/-- R260: a branch counts packets of 12 bytes. -/
theorem test_bra_back : after (exec (.bra false 0 false (-5)) base) (fun s => (State.me s).next) none = some (0x3000 - 60) := by decide +kernel
/-- R161: word 3 of lane 5 of a group lies at gbase_priv + 1,576. -/
theorem test_private_interleave : privAddr Fetch.grid { lane with tid := 5 } 24 = 0x100000 + 1576 := by decide +kernel
/-- A step fetches and runs what stands at the pc: ADDI n20, n16, 7. -/
theorem test_step_runs : after (step (State.reset.withFetchWord 32 0x02920007)) (fun s => recorded (.next s)) [] = [(.named 20, 7)] := by decide +kernel
/-- R44, R160: a load of a thread's global address through the tables, at its home: LD.s32 n20, [n16]. -/
theorem test_ld_global : recorded (exec (.ld 36 32 0 2 0 0) { slots [0x5000] with mem := writeCells base.mem 0x5000 [0x78, 0x56, 0x34, 0x92] }) =
    [(.named 20, 0x92345678)] := by decide +kernel
/-- R44: size 7 sign-extends. -/
theorem test_ld_signed : recorded (exec (.ld 36 32 0 7 0 1) { slots [0x4FFC] with mem := writeCells base.mem 0x5000 [0x78, 0x56, 0x34, 0x92] }) =
    [(.named 20, 0xFFFFFFFF92345678)] := by decide +kernel
/-- R211: a misaligned load raises ALIGN with the address and access code 0. -/
theorem test_ld_align : after (exec (.ld 36 32 0 3 0 0) (slots [0x5004])) (fun s => ((State.me s).trapcause, (State.me s).trapaddr, (State.me s).trapinfo)) (0, 0, 0) =
    (BitVec.ofNat 64 cALIGN, 0x5004, 0) := by decide +kernel
/-- R218: ATOM.add at SYS scope returns the old word and leaves the sum at the home. -/
theorem test_atom_add : after (exec (.atom 36 32 33 6 0) { slots [0x5000, 3] with mem := writeCells base.mem 0x5000 [0xFF, 0xFF] })
    (fun s => (recorded (.next s), s.homeBytes 0x5000 3)) ([], []) = ([(.named 20, 0xFFFF)], [2, 0, 1]) := by decide +kernel

/-! ### Witnesses: for each statement, states and operands that meet its hypotheses, clause by clause -/

/-- A state whose grid has slot j of its launch packet changed. -/
def packetWith (j : Nat) (v : Word) (s : State := base) : State :=
  { s with grids := AMap.put s.grids 1 { Fetch.grid with packet := vset Fetch.packet j v } }
/-- An access answers, with p of its answer and state. -/
def answers {ε α : Type} (x : Except ε (α × State)) (p : α → State → Bool) : Bool :=
  match x with
  | .ok (a, s) => p a s
  | .error _ => false
/-- The lane with values in n16 and on. -/
def laneOf (vs : List Word) : Thread := State.me (slots vs)

theorem witness_IntegerTwoOperandResult : ∀ p ∈ integerTwo, ∀ d ∈ [(0 : Spec), 16, 63], ∀ w ∈ [false, true],
    Issues (p.1 d 63 0 w) base lane ∧ base.reads lane 63 = true ∧ base.reads lane 0 = true ∧ base.reaches lane d 1 = true := by decide +kernel
theorem witness_IntegerOneOperandResult :
    (∀ p ∈ integerOne, Issues (p.1 63 15 true) base lane ∧ base.reads lane 15 = true ∧ base.reaches lane 63 1 = true) ∧
    (∀ p ∈ integerShift, Issues (p.1 0 63 false 63) base lane ∧ Issues (p.1 16 63 true 31) base lane ∧ base.reads lane 63 = true ∧
      base.reaches lane 0 1 = true ∧ base.reaches lane 16 1 = true) ∧
    (∀ p ∈ integerImmediate 63 16 0xFFF 0x3FF, Issues p.1 base lane ∧ base.reads lane 16 = true ∧ base.reaches lane 63 1 = true) := by decide +kernel
theorem witness_IntegerCompareSetsPredicate :
    (∀ comb ∈ [(0 : BitVec 3), 1, 2], ∀ cond ∈ [(0 : BitVec 3), 7], Issues (.icmp cond 7 16 63 comb true) base lane ∧
      Issues (.icmpi cond 1 16 63 comb 7) base lane) ∧ base.reads lane 16 = true ∧ base.reads lane 63 = true := by decide +kernel
theorem witness_BitInstructionResult :
    (∀ i ∈ [Instr.sel 63 16 0 7, .addr 63 16 0 7, .bfx 63 16 0 true, .bfi 63 16 0, .bperm 63 16 0, .pmov 63, .setp 16], Issues i base lane) ∧
    base.reads lane 16 = true ∧ base.reads lane 0 = true ∧ base.reads lane 63 = true ∧ base.reaches lane 63 1 = true := by decide +kernel
theorem witness_SpecialRegisterEffect :
    (∀ p ∈ specialRegisters, Issues (.sprGet 63 (BitVec.ofNat 12 p.1)) base lane) ∧ base.reaches lane 63 1 = true ∧ base.reads lane 63 = true ∧
    (∀ p ∈ writableRegisters, Issues (.sprSet 63 (BitVec.ofNat 12 p.1)) base lane ∧ Issues (.sprSwap 63 (BitVec.ofNat 12 p.1)) base lane ∧
      ∃ old ∈ specialRegisters, old.1 = p.1) := by decide +kernel
theorem witness_SystemRegisterAccess :
    (∀ p ∈ systemRegisters, Issues (.gets 63 p.1) base lane) ∧ base.reaches lane 63 1 = true ∧ (0x05 ∉ systemRegisters.map Prod.fst) ∧
    base.th? base.cur = some lane ∧ lane.status ≠ .ended ∧ Issues (.sets 63 0x08) base lane ∧ base.reads lane 63 = true ∧
    userBase.th? userBase.cur = some lane ∧ (userBase.gridOf lane).super = false ∧ Instr.wf (.gets 63 8) = true ∧ Instr.wf (.sets 63 8) = true := by
  decide +kernel
theorem witness_TrapInstructionsRaise : Issues (.trap 0xFF) base lane ∧ Issues (.brkpt 0xFFFFF) base lane ∧ Issues (.svc 63 0xFF) base lane ∧
    base.reads lane 63 = true ∧ Issues (.reservedOpcode 0x2D000000) base lane ∧ Issues (.reservedOpcode 0xFFFFFFFF) base lane := by decide +kernel
theorem witness_ExceptionEntry :
    base.th? base.cur = some lane ∧ base.word < 4 ∧ (0xFFFFFF : Word).toNat < 2 ^ 24 ∧ isUserCause 0x20 = true ∧ isUserCause cTRANSLATION = false ∧
    (base.gridOf lane).trapentry = 0 ∧ ((packetWith 1 0x6000).gridOf lane).trapentry ≠ 0 ∧ lane.first = false ∧
    (packetWith 1 0x6000).th? (packetWith 1 0x6000).cur = some lane := by decide +kernel
/-- A grid whose lanes have 8 named slots. -/
def shortBase : State := packetWith 6 0x0000600040000000
theorem witness_DecodeCauseOrder :
    Instr.wf (.add 1 34 35 false) = false ∧ (isPrivileged .invl = true ∧ Instr.wf .invl = true ∧ (userBase.gridOf lane).super = false) ∧
    (Instr.wf (.mpassDense 0 16) = true ∧ needsCond (.mpassDense 0 16) = true ∧ lane.isCond = false ∧ (base.gridOf lane).super = true) ∧
    (Instr.wf (.join 1) = true ∧ needsGroup (.join 1) = true ∧ conductor.isCond = true) ∧
    (Instr.wf (.add 16 24 23 false) = true ∧ ((24, 1) : Spec × Nat) ∈ wordRegs (.add 16 24 23 false) ∧
      (shortBase.gridOf lane).len lane.tid < (24 : Spec).toNat - 16 + 1) ∧
    shortBase.th? shortBase.cur = some lane ∧ base.th? base.cur = some lane ∧ condBase.th? condBase.cur = some conductor := by decide +kernel

/-- 1.0 and 3 × 2^−17 at class 0, and a signalling NaN: VF values in n16 to n18. -/
def floats : State := slots [0x07FF000000000000, 0x07EF800000000000, 0x0FFF400000000000]
/-- The same with every arithmetic trap enabled. -/
def trapping : State := with_ (fun t => { t with prc := 0x000000000807E000 }) floats
theorem witness_FloatOperandsResult :
    (∀ p ∈ floatTwo, Issues (p.1 63 32 33 3 0) floats (State.me floats) ∧ Issues (p.1 0 32 33 0 8) floats (State.me floats)) ∧
    (∀ p ∈ floatChoice, Issues (p.1 0 32 34 8) floats (State.me floats)) ∧ (∀ p ∈ floatFused, Issues (p.1 63 32 33 32) floats (State.me floats)) ∧
    (∀ sp ∈ [(32 : Spec), 33, 34], floats.readsVf (State.me floats) sp = true) ∧ floats.reaches (State.me floats) 63 (slotsOf 0) = true := by
  decide +kernel
theorem witness_FloatOneOperandResult :
    (∀ p ∈ floatOne, Issues (p.1 63 32 0 0) floats (State.me floats)) ∧ Issues (.fscl 63 32 16 0 0) floats (State.me floats) ∧
    Issues (.cvtin 63 16 11 0 0) floats (State.me floats) ∧ Issues (.cvtin 0 16 0 3 15) floats (State.me floats) ∧
    floats.readsVf (State.me floats) 32 = true ∧ floats.reads (State.me floats) 16 = true ∧ floats.reaches (State.me floats) 63 (slotsOf 0) = true := by
  decide +kernel
theorem witness_SignInstructionResult :
    (∀ p ∈ floatSign, Issues (p.1 63 34 0 0) floats (State.me floats) ∧
      (p.2 (((State.me floats).vfValue 34).src false)).isNan = true ∧ (p.2 (((State.me floats).vfValue 32).src false)).isNan = false) ∧
    floats.readsVf (State.me floats) 34 = true ∧ floats.readsVf (State.me floats) 32 = true ∧ floats.reaches (State.me floats) 63 (slotsOf 0) = true := by
  decide +kernel
theorem witness_FloatToSlotResult :
    (∀ i ∈ [Instr.gete 63 32, .fclass 63 32, .cvtout 63 32 11 3, .fcmp 7 7 32 34 2 true], Issues i floats (State.me floats)) ∧
    floats.readsVf (State.me floats) 32 = true ∧ floats.readsVf (State.me floats) 34 = true ∧ floats.reaches (State.me floats) 63 1 = true := by
  decide +kernel
theorem witness_ErrorFreePairResult :
    (∀ p ∈ floatPair, Issues (p.1 0 32 33 8) floats (State.me floats) ∧ Issues (p.1 62 32 33 8) floats (State.me floats)) ∧
    floats.readsVf (State.me floats) 32 = true ∧ floats.readsVf (State.me floats) 33 = true ∧ floats.reaches (State.me floats) 0 2 = true ∧
    floats.reaches (State.me floats) 62 2 = true ∧
    trapCause 0 {} = none ∧ (trapCause (State.me trapping).prc { inv := true }).isSome = true := by decide +kernel
theorem witness_NarrowInstructionResult :
    (∀ i ∈ [Instr.pack6 63 32 16, .unpk6 63 16 0, .fman 63 16 17 32], Issues i floats (State.me floats)) ∧
    floats.readsVf (State.me floats) 32 = true ∧ floats.reads (State.me floats) 16 = true ∧ floats.reaches (State.me floats) 63 1 = true ∧
    narrowOk ((State.me floats).value 16) = true ∧ narrowOk ((State.me floats).value 32) = false := by decide +kernel

theorem witness_PlainControlEffect :
    ∀ i ∈ [Instr.nop, .yield, .pool 0, .pool 0xFFFFF, .prefHome 63, .last 63 16 0], Issues i base lane := by decide +kernel
theorem witness_BranchTransfersControl :
    (∀ i ∈ [Instr.bra false 0 true 0x1FFFF, .bra true 7 false (-1), .jmpr false 0 false 32], Issues i base lane) ∧ base.reads lane 32 = true ∧
    lane.predVal 0 ≠ false ∧ lane.predVal 1 = false ∧ targetTrap 0 = none ∧ targetTrap 4 = some cALIGN ∧ targetTrap (1 <<< 62) = some cPROTECTION ∧
    splitVote base lane base.cur = false := by decide +kernel

/-- The lane with a call depth. -/
def deep (n : Word) (s : State := base) : State := with_ (fun t => { t with cd := n }) s
/-- The return address that stands at depth 1 of the lane's private stack. -/
def returnTo (ra : Nat) : State :=
  let s := deep 1
  { s with mem := writeCells s.mem (privAddr Fetch.grid lane 4088).toNat (toBytes 8 ra) }
theorem witness_CallAndReturnEffect :
    (∀ i ∈ [Instr.call false 0 true 0x1FFFF, .callr false 0 false 32, .callr true 1 false 0], Issues i base lane) ∧ base.reads lane 32 = true ∧
    splitVote base lane base.cur = false ∧ lane.predVal 0 ≠ false ∧ lane.predVal 1 = false ∧
    (base.gridOf lane).psize < 8 * ((512 : Word).toNat + 1) ∧ (8 * (lane.cd.toNat + 1) ≤ (base.gridOf lane).psize) ∧
    Issues (.call false 0 false 4) (deep 512) (State.me (deep 512)) ∧
    answers (storeSpace .priv (BitVec.ofNat 64 (base.gridOf lane).psize - 8) (toBytes 8 0x3004) 8 (base.agentOf lane) base)
      (fun _ s => (s.th? s.cur).isSome) = true ∧
    (Issues .ret base lane ∧ lane.cd = 0) ∧
    (∀ ra ∈ [0x3004, 0x3002, 2 ^ 60], Issues .ret (returnTo ra) (State.me (returnTo ra)) ∧ (State.me (returnTo ra)).cd ≠ 0 ∧
      answers (loadSpace .priv (BitVec.ofNat 64 ((returnTo ra).gridOf (State.me (returnTo ra))).psize - 8 * 1) 8 8 {}
        ((returnTo ra).agentOf (State.me (returnTo ra))) (returnTo ra))
        (fun x s => (s.th? s.cur).isSome && s.cur == ((s.th? s.cur).getD noThread).key && ofBytes x.bytes == ra) = true) ∧
    canonical 0x3004 = true ∧ canonical (2 ^ 60) = false := by decide +kernel

/-- The lane in a handler, after a trap with a cause at a pc. -/
def handler (cause info : Word) (pc : Word := 0x3004) : State :=
  with_ (fun t => { t with trapcause := cause, trappc := pc, trapinfo := info, first := true })
theorem witness_ReturnFromTrap :
    (∀ i ∈ [Instr.rft, .rftSkip], Issues i base lane ∧ lane.trapcause = 0 ∧
      Issues i (handler 0x20 0) (State.me (handler 0x20 0)) ∧ (State.me (handler 0x20 0)).trapcause ≠ 0) ∧
    fetchTrap (State.me (handler 0x20 0)) = false ∧
    fetchTrap (State.me (handler 0x11 3)) = true ∧
    answers (fetchPacket (State.me (handler 0x20 0)).trappc (handler 0x20 0))
      (fun _ s => s.th? s.cur == some (State.me (handler 0x20 0))) = true := by decide +kernel

/-- LOOP lc1, n18, 4 with its body, and a count in n18. -/
def loopBase (n : Nat) : State := slots [0, 0, w64 n] (State.reset.withFetchWord 32 0x33422004)
theorem witness_LoopAndExitEffect :
    (∀ n ∈ [0, 1, 0xFFFFFFFFFFFFFFFF], Issues (.loop 1 34 4) (loopBase n) (State.me (loopBase n)) ∧ (loopBase n).reads (State.me (loopBase n)) 34 = true ∧
      (State.me (loopBase n)).value 34 = w64 n ∧
      answers (access 3 [] (fun g => fetchWord g (packetStart (State.me (loopBase n)).pc + 12 * 4 + 8)) (loopBase n))
        (fun w s => w.getLsbD 30 && s.th? s.cur == some (State.me (loopBase n))) = true) ∧
    (Issues (.loop 2 34 1) base lane ∧ answers (access 3 [] (fun g => fetchWord g (packetStart lane.pc + 12 * 1 + 8)) base)
      (fun w s => !w.getLsbD 30 && s.th? s.cur == some lane && s.reads lane 34) = true) ∧
    Issues .exit base lane ∧ risesFrom 0 base.threads = true := by decide +kernel
theorem witness_LiteralLoadOrder : Issues (.ldlit 63 0) base lane ∧ Issues (.ldlit 0 (-1)) base lane ∧
    answers (fetchBytes (packetStart lane.pc + (0 : BitVec 18).signExtend 64 * 4) 8 base)
      (fun bs s => bs.length == 8 && s.th? s.cur == some lane && s.reaches lane 63 1) = true := by decide +kernel

/-- The lane's group with masks m1 and m0. -/
def masked (m1 : Nat) (m0 : Word := BitVec.allOnes 64) : State :=
  base.setGroup lane.groupKey { base.group lane.groupKey with m := vset (vset (Vector.replicate 12 (BitVec.allOnes 64)) 1 (w64 m1)) 0 m0 }
theorem witness_MaskAndWaitmEffect :
    lane.tid < 1024 ∧ (∀ n < 12, base.maskWaiters lane.groupKey n = []) ∧ (base.group lane.groupKey).opens = [] ∧ (base.group lane.groupKey).held = [] ∧
    (∀ i ∈ [Instr.join 11, .leave 1, .mset 63 11, .msave 0 11, .mrst 1, .mget 63 0, .mget 63 11, .waitm 11 0], Issues i base lane) ∧
    base.reads lane 63 = true ∧ base.reaches lane 63 1 = true ∧ LaneThread base lane ∧ lane.status = .ready ∧
    (∀ m ∈ [0, 1, 3], Issues (.waitm 1 0) (masked m) lane ∧ LaneThread (masked m) lane ∧ (∀ n < 12, (masked m).maskWaiters lane.groupKey n = [])) ∧
    ((masked 0).group lane.groupKey).mask 1 &&& 1 = 0 ∧ ((masked 1).group lane.groupKey).mask 1 &&& 1 ≠ 0 ∧
    (((masked 1).group lane.groupKey).mask 1 &&& ~~~1) &&& ((masked 1).group lane.groupKey).mask 0 = 0 ∧
    (((masked 3).group lane.groupKey).mask 1 &&& ~~~1) &&& ((masked 3).group lane.groupKey).mask 0 ≠ 0 := by decide +kernel
/-- One instruction of each collective form, over m1. -/
def collectives : List Instr :=
  [.xpull 63 32 33 1, .xrank 63 32 33 1, .xsegb 63 32 33 1, .xrev 63 32 33 1, .xcount 63 false 0 1, .xfirst 63 true 0 1, .xmask 63 false 0 1,
   .gbcast 63 32 1, .gred 63 32 7 1, .gscan 63 32 0 true 1]
theorem witness_CollectiveArrivalEffect :
    (∀ i ∈ collectives, (arrivalOf lane i).isSome = true ∧ (arrivalOf lane i).map (·.1) = some 1 ∧ collectiveVf i = false ∧
      (∀ m ∈ [0, 1, 3], Issues i (masked m) lane ∧ collectiveReads (masked m) lane i = true ∧ LaneThread (masked m) lane)) ∧
    ((masked 0).group lane.groupKey).mask 1 &&& 1 = 0 ∧ ((masked 3).group lane.groupKey).opens = [] ∧ ((masked 3).group lane.groupKey).mask 1 &&& 1 ≠ 0 ∧
    ((masked 3).group lane.groupKey).participants 1 &&& ~~~1 ≠ 0 ∧
    ((masked 1).group lane.groupKey).participants 1 = 1 <<< (lane.tid % 64) ∧ ((masked 1).group lane.groupKey).held = [] ∧
    (∀ n < 12, (masked 1).maskWaiters lane.groupKey n = []) ∧ lane.run = [] ∧ lane.waits = [] ∧
    (∀ i ∈ collectives ++ [Instr.gred 63 32 8 1, .gscan 63 32 10 false 1, .cmma 63 32 33 1], Issues i (masked 1) lane ∧
      collectiveReads (masked 1) lane i = true ∧ (arrivalOf lane i).isSome = true ∧
      (match arrivalOf lane i with
        | some (_, x) => (masked 1).reaches lane (collDest i) (collResult i [{ x with prc := lane.prc }] { x with prc := lane.prc }).vals.length &&
            (trapCause lane.prc (collResult i [{ x with prc := lane.prc }] { x with prc := lane.prc }).flags).isNone
        | none => false) = true) := by decide +kernel
theorem witness_CrossLaneResultByLane :
    ((six 2).map (·.lane)).Pairwise (· < ·) ∧ (∀ y ∈ six 2, y.lane < 64) ∧ (∀ x ∈ six 2, x ∈ six 2) ∧ six 2 ≠ [] ∧
    (∃ y ∈ six 2, y.lane = ((six 2).getD 0 y |>.b.headD 0).toNat) ∧ (∀ y ∈ six 3, y.lane ≠ 3) ∧ (7 : BitVec 4).toNat < 8 := by decide +kernel

/-- Words at 0x5000, with its address in n16 and operands in n17 to n19. -/
def data (vs : List Word := [0x5000, 0x07EE000000000000, 0, 1]) : State := { slots vs with mem := writeCells base.mem 0x5000 [0xFF, 0x07, 1, 0] }
/-- A base of n16 that is not canonical, and one that is misaligned for every size but a byte. -/
def badBase : State := slots [1 <<< 60]
def oddBase : State := slots [0x5001]
theorem witness_LoadDeliversBytes :
    (∀ i ∈ [Instr.ld 63 32 0 3 0 15, .ld 63 32 0 4 1 16, .ld 63 32 0 0 0 0, .lda 63 32 0 4 0 true 6, .lda 63 32 2 3 0 false 0], Issues i (data) (State.me (data)) ∧
      Issues i badBase (State.me badBase) ∧ Issues i oddBase (State.me oddBase)) ∧ (data).reads (State.me (data)) 32 = true ∧
    canonical ((State.me badBase).value 32) = false ∧ canonical ((State.me oddBase).value 32) = true ∧ ((State.me oddBase).value 32).toNat % 8 ≠ 0 ∧
    (∀ size ∈ [(0 : BitVec 3), 1, 2, 3, 4, 5, 6, 7], answers (loadNoted (Space.ofCode 0) (offsetAddress 0x5000 0 (accessBytes size)) size {} ((data).agentOf (State.me (data))) (data))
      (fun x s => (s.th? s.cur).isSome && s.reaches (State.me s) 62 (loadedSlots size x.bytes).length) = true) ∧
    answers (loadNoted (Space.ofCode 0) 0x5000 4 { scope := 6, peek := true } ((data).agentOf (State.me (data))) (data)) (fun _ s => (s.th? s.cur).isSome) = true ∧
    answers (loadNoted (Space.ofCode 2) 0xFF8 3 {} ((data).agentOf (State.me (data))) (data)) (fun _ s => (s.th? s.cur).isSome) = true := by decide +kernel
theorem witness_StoreWritesBytes :
    (∀ size ∈ [(0 : BitVec 3), 1, 2, 3, 4], ∀ i ∈ [Instr.st 33 32 0 size 0 0, .strl 33 32 0 size 0 5], Issues i (data) (State.me (data)) ∧
      (data).readsStored (State.me (data)) 33 size = true ∧ Issues i badBase (State.me badBase) ∧ Issues i oddBase (State.me oddBase) ∧
      badBase.readsStored (State.me badBase) 33 size = true ∧
      answers (storeSpace (Space.ofCode 0) 0x5000 ((State.me (data)).storedBytes 33 size) (accessBytes size) ((data).agentOf (State.me (data))) (data)) (fun _ _ => true) = true) ∧
    (data).reads (State.me (data)) 32 = true ∧
    answers (release 5 (data)) (fun _ s => (s.th? s.cur).isSome &&
      answers (storeSpace (Space.ofCode 2) 0 (toBytes 8 5) 8 (s.agentOf (State.me s)) s) (fun _ _ => true)) = true := by decide +kernel
theorem witness_QueueSaveAndRestore :
    (data).reads (State.me (data)) 32 = true ∧ (∀ i ∈ [Instr.saveq 32, .rstq 32], Issues i (data) (State.me (data)) ∧ Issues i badBase (State.me badBase) ∧
      Issues i oddBase (State.me oddBase)) ∧
    answers (storeSpace .glob 0x5000 ((List.range 16).flatMap fun j => toBytes 8 ((State.me (data)).value (BitVec.ofNat 6 j)).toNat) 64
      ((data).agentOf (State.me (data))) (data)) (fun _ _ => true) = true ∧
    answers (loadSpace .glob 0x5000 128 64 {} ((data).agentOf (State.me (data))) (data))
      (fun _ s => (s.th? s.cur).isSome && s.cur == (State.me (data)).key) = true := by decide +kernel
/-- A thread that has observed a write due at time 100, and one whose writes are visible by then. -/
def observer (n : Nat) : State := with_ fun t => { t with obs := n, hor := n }
theorem witness_PrefetchAndFenceEffect :
    (∀ i ∈ [Instr.pref 32 0 0 15, .prefL1 32 2 3 16, .fenceRel 0, .fenceRel 3, .fenceRel 4, .fenceRel 6, .fenceAcq 1, .fenceAcq 3, .fenceAcq 4, .fenceAcq 5,
      .fenceAcq 6, .fenceFull 6, .fenceFull 0], Issues i base lane ∧ Issues i (observer 100) (State.me (observer 100))) ∧
    base.reads lane 32 = true ∧ base.nothingRefused = true ∧ max lane.hor lane.obs ≤ base.now lane.die ∧
    (base.releaseWrites base.cur).th? base.cur = some lane ∧
    (((observer 100).releaseWrites (observer 100).cur).th? (observer 100).cur).map (fun t => decide ((observer 100).now t.die < max t.hor t.obs)) = some true ∧
    risesFrom 0 (base.cluster (clusterKey lane.die lane.cluster)).buf = true ∧ lane.obs ≤ base.now lane.die ∧
    (observer 100).now 0 < (State.me (observer 100)).obs ∧ (State.me (observer 100)).acq = none ∧
    answers (release 6 base) (fun _ s => (s.th? s.cur).isSome) = true := by decide +kernel

/-! Windows, atomics, the copy unit, waits -/

/-- The core's own part, changed. -/
def coreWith (f : Core → Core) (s : State := base) : State := s.modCore 0 f
/-- A descriptor of four slots in n16 to n19: base, d1, d2, d3. -/
def windowSlots (gb d1 d2 d3 : Nat) : List Word := [w64 gb, w64 d1, w64 d2, w64 d3]
def goodWindow : List Word := windowSlots 0x10000 0x0000040400000008 0x0007000000000000 0
/-- Four words of eight-byte records at 0x10000, window 7, mapped. -/
def theWindow : Window := { d0 := 0x10000, d1 := 0x0000040400000008, d2 := 0x0007000000000000, asid := 1, root := 0x200000, super := true, grid := 1, team := 0 }
def windowed (id : Nat) : State := coreWith (fun c => { c with windows := [theWindow] }) (slots [w64 id])
theorem witness_WindowInstructionEffect :
    (∀ s ∈ [slots goodWindow, slots (windowSlots 0x10000 0x0000040400000003 0x0007000000000000 0), slots (windowSlots (2 ^ 60) 0x0000040400000008 0x0007000000000000 0),
        slots (windowSlots 0x10000 0x0000040800000004 0x0007000000000000 0), slots (windowSlots 0x10000 0x0000040400000008 0x0007000000080000 0)],
      Issues (.wmap 63 32) s (State.me s) ∧ s.readsAll (State.me s) 32 4 = true ∧ s.reaches (State.me s) 63 1 = true) ∧
    badFields theWindow 0 = false ∧ theWindow.scratch = false ∧ canonical theWindow.gbase = true ∧ theWindow.span ≤ theWindow.stride ∧
    theWindow.stop ≤ stashBytes 0 ∧ (base.core 0).windows = [] ∧
    badFields { theWindow with d1 := 0x0000040400000003 } 0 = true ∧ badFields theWindow 1 = true ∧
    canonical ({ theWindow with d0 := 1 <<< 60 } : Window).gbase = false ∧
    ({ theWindow with d1 := 0x0000040800000004 } : Window).stride < ({ theWindow with d1 := 0x0000040800000004 } : Window).span ∧
    badFields { theWindow with d1 := 0x0000040800000004 } 0 = false ∧ badFields { theWindow with d2 := 0x0007000000080000 } 0 = false ∧
    stashBytes 0 < ({ theWindow with d2 := 0x0007000000080000 } : Window).stop ∧
    (Issues (.wmap 63 32) (coreWith (fun c => { c with windows := [theWindow] }) (slots goodWindow)) (laneOf goodWindow)) ∧
    (∀ id ∈ [7, 8, 0xFFFF, 0x10000], ∀ i ∈ [Instr.wunmap 63 32, .wflush 63 32, .wdrop 63 32, .wquery 63 32], Issues i (windowed id) (State.me (windowed id)) ∧
      (windowed id).reads (State.me (windowed id)) 32 = true ∧ (windowed id).reaches (State.me (windowed id)) 63 1 = true) ∧
    (((windowed 7).core 0).windows.find? fun w => w.asid == 1 && w.id == 7) = some theWindow ∧ (windowed 7).windowOp 0 theWindow = none ∧
    (windowed 7).windowWaits 0 (windowed 7).cur 1 7 = false ∧
    (((windowed 7).unmapWindow 0 0 theWindow).1.th? (windowed 7).cur).isSome = true ∧
    (((windowed 7).flushWindow 0 0 theWindow).1.th? (windowed 7).cur).isSome = true := by decide +kernel

/-- The conditions of an atomic form on three states. -/
def atomicWitness (scope : BitVec 3) (p : Instr × Nat × Nat) : Prop :=
  Issues p.1 (data) (State.me (data)) ∧ Issues p.1 badBase (State.me badBase) ∧ Issues p.1 oddBase (State.me oddBase) ∧
    answers (rmw ((data).agentOf (State.me (data))) scope.toNat 0x5000 p.2.2 (atomRequest p.2.1 (decide (p.2.2 = 4)) 0x07EE000000000000 0)
      (atomUpdate p.2.1 (decide (p.2.2 = 4)) 0x07EE000000000000 0) (data)) (fun _ s => (s.th? s.cur).isSome && s.reaches (State.me s) 63 1) = true
theorem witness_AtomicReturnsOldValue :
    (∀ p ∈ atomicForms 63 32 33 0 0, atomicWitness 0 p) ∧ (∀ p ∈ atomicForms 63 32 33 6 7, atomicWitness 6 p) ∧
    (∀ p ∈ atomicForms 63 32 33 3 6, atomicWitness 3 p) ∧ (data).reads (State.me (data)) 32 = true ∧ (data).reads (State.me (data)) 33 = true ∧
    canonical 0x5000 = true := by unfold atomicWitness; decide +kernel

/-- A line that takes part in an accumulator tile. -/
def sidecar : Sidecar :=
  { tile := ⟨1, 0x5000, 64, 0, 0, 8, 8⟩, ordered := false, progress := 0, expect := 1, flags := {}, status := 0, stword := 0, grid := 1, team := 0, seq := 0 }
/-- The same data, its line in the ACC state. -/
def accumulating : State := { data with dir := [(0x5000 / 64, { acc := some sidecar })] }
/-- An element at 0x5000, its ordinal word at 0x5008 with next and expect, a contribution in q0's ordinal. -/
def ordered (ord next expect : Nat) (e : Nat := 0x5000) (w : Nat := 0x5008) : State :=
  let s := with_ (fun t => { t with q := Vector.replicate 16 (w64 ord) }) (slots [w64 e, w64 w, 0x07EE000000000000])
  { s with mem := writeCells (writeCells base.mem e [0xFF, 0x07, 1, 0]) w (toBytes 2 next ++ toBytes 2 expect) }
/-- A slice whose sixteen reorder entries are all in use. -/
def fullSlice : State :=
  (ordered 2 1 4).modDie 0 fun d => { d with reorder := (List.range 16).map fun i => (sliceOf 0x5000, .redo 0x6000 0x6008 (i + 1) default 0 0) }
def redoEnd (s : State) (ord : Nat) : RedoEnd :=
  match translate (s.agentOf (State.me s)) 0x5000 .rw s with
  | .ok (_, s1) => (redoArrive (s1.ownFirst (s.agentOf (State.me s)) [(0x5000, 2)]) 0x5000 0x5008 ord ((State.me s).vfValue 34) s.cur 0x5000).2
  | .error _ => .nack
/-- The conditions of an integer RED on four states. -/
def redWitness (op : BitVec 3) (w : Bool) : Prop :=
  redIsVf op.toNat = false ∧ Issues (.red 33 32 6 op w) (data) (State.me (data)) ∧ Issues (.red 33 32 6 op w) badBase (State.me badBase) ∧
    Issues (.red 33 32 6 op w) oddBase (State.me oddBase) ∧
    answers (rmw ((data).agentOf (State.me (data))) 6 0x5000 (if w then 4 else 8) (redRequest op.toNat w default 0x07EE000000000000)
      (fun e => some (reduceBytes op.toNat e default 0x07EE000000000000).1) (data)) (fun _ _ => true) = true ∧
    (match rmw (accumulating.agentOf (State.me accumulating)) 6 0x5000 (if w then 4 else 8) (redRequest op.toNat w default 0x07EE000000000000)
      (fun e => some (reduceBytes op.toNat e default 0x07EE000000000000).1) accumulating with | .error (.acc _, _) => true | _ => false) = true
theorem witness_ReductionEffect_integer : redWitness 0 false ∧ redWitness 0 true ∧ redWitness 4 true ∧ redWitness 7 false ∧
    (data).reads (State.me (data)) 32 = true ∧ (data).reads (State.me (data)) 33 = true := by unfold redWitness; decide +kernel
theorem witness_ReductionEffect :
    (∀ op ∈ [(1 : BitVec 3), 2, 3], redIsVf op.toNat = true ∧ Issues (.red 33 32 4 op false) (data) (State.me (data)) ∧ (data).readsVf (State.me (data)) 33 = true ∧
      answers (rmw ((data).agentOf (State.me (data))) 4 0x5000 2 (redRequest op.toNat false (vfOfSlots [0x07EE000000000000]) 0) (fun _ => none) (data)) (fun h s =>
        answers (rmw ((data).agentOf (State.me (data))) 4 0x5000 (2 * headerClass (ofBytes h) + 4) (redRequest op.toNat false (vfOfSlots [0x07EE000000000000]) 0)
          (fun e => some (reduceBytes op.toNat e (vfOfSlots [0x07EE000000000000]) 0).1) s) (fun _ _ => true)) = true) ∧
    (∀ s ∈ [ordered 1 1 4, ordered 2 1 4, ordered 0 1 4, fullSlice, ordered 1 1 4 0x5002 0x5000, ordered 1 1 4 0x503E 0x5000],
      Issues (.redo 34 32 33 4) s (State.me s) ∧ s.readsVf (State.me s) 34 = true ∧ s.reads (State.me s) 32 = true ∧ s.reads (State.me s) 33 = true ∧
      answers (translate (s.agentOf (State.me s)) ((State.me s).value 32) .rw s) (fun x s1 =>
        (s1.conflictOp (s.agentOf (State.me s)) false ((State.me s).value 32).toNat 2 true).isNone && decide (x.1 = ((State.me s).value 32).toNat) &&
          !s1.isAcc (x.1 / 64) && !s1.anyBad 0x5008 8 && decide (regionOf x.1 = .hbm 0 x.1)) = true) ∧
    (match redoEnd (ordered 1 1 4) 1 with | .applied _ => true | _ => false) = true ∧ redoEnd (ordered 2 1 4) 2 = .held ∧ redoEnd (ordered 0 1 4) 0 = .order ∧
    redoEnd fullSlice 2 = .nack := by decide +kernel

/-- A copy of eight bytes in two rows from 0x5000 to 0x6000: the five slots of CPYA's descriptor, and GATH's six. -/
def copySlots : List Word := [0x5000, 0x6000, 0x0001000000000008, 0x0000001000000010, 0]
def gatherSlots : List Word := [0x5000, 0x6000, 0x7000, 0x0000020800000010, 0, 0]
def postingState (kind : Nat) (vs : List Word) (busy : Nat) : State :=
  coreWith (fun c => { c with ops := List.replicate busy { key := 0, grid := 9, team := 0, tid := 0, seq := 0, kind := kind, desc := Vector.replicate 6 0, control := 0 } }) (slots vs)
theorem witness_AsyncFormsPostOperation :
    (∀ p ∈ asyncForms 32 63 2 0 0 true false false 0 6, ∀ s ∈ [postingState 1 copySlots 0, postingState 2 gatherSlots 0, postingState 1 copySlots 32, postingState 2 gatherSlots 32],
      Issues p.1 s (State.me s) ∧ s.readsAll (State.me s) 32 p.2.2.1 = true ∧ s.reaches (State.me s) 63 1 = true) ∧
    (∀ o ∈ ((asyncForms 32 63 2 0 0 true false false 0 6).take 1).map fun p => (laneOf copySlots).posts 1 p.2.1 ((laneOf copySlots).values 32 p.2.2.1) p.2.2.2,
      asyncBadFields o = false ∧ asyncBadRanges o.footprints = false ∧ (∀ f ∈ o.footprints, f.stash = false ∧ canonical (BitVec.ofNat 64 f.lo) = true)) ∧
    (∀ o ∈ ((asyncForms 32 63 2 0 0 true false false 0 6).drop 1).map fun p => (laneOf gatherSlots).posts 1 p.2.1 ((laneOf gatherSlots).values 32 p.2.2.1) p.2.2.2,
      asyncBadFields o = false ∧ asyncBadRanges o.footprints = false ∧ (∀ f ∈ o.footprints, f.stash = false ∧ canonical (BitVec.ofNat 64 f.lo) = true)) ∧
    asyncBadFields (lane.posts 1 1 [0x5000, 0x6000, 0, 0, 0] 0) = true ∧
    (asyncBadFields (lane.posts 1 1 [0x5000, 0x5004, 8, 0, 0] 0) = false ∧ asyncBadRanges (lane.posts 1 1 [0x5000, 0x5004, 8, 0, 0] 0).footprints = true) ∧
    32 ≤ ((postingState 1 copySlots 32).core 0).ops.length := by decide +kernel

/-- The thread has one operation under way; its team has one posted pass. -/
def busyCore : State :=
  let s := coreWith (fun c => { c with ops := [{ key := 5, grid := 1, team := 0, tid := 0, seq := 0, kind := 1, desc := Vector.replicate 6 0, control := 0 }] }) (slots [0x2000000000000000])
  with_ (fun t => { t with aseq := 1 })
    (s.modCluster 0 fun c => { c with table := [{ key := 6, grid := 1, team := 0, seq := 0, kind := 0, desc := Vector.replicate 6 0 }] })
theorem witness_DrainCountsOpenTickets :
    Issues (.drain 63 32) (slots [1 <<< 63]) (laneOf [1 <<< 63]) ∧ ticketOf (slots [1 <<< 63]) (laneOf [1 <<< 63]) ((laneOf [1 <<< 63]).value 32) = none ∧
    (∀ i ∈ [Instr.drain 63 32, .drainAll 63, .drainPass 63], Issues i busyCore (State.me busyCore) ∧ Issues i base lane) ∧ busyCore.reads (State.me busyCore) 32 = true ∧
    busyCore.reaches (State.me busyCore) 63 1 = true ∧ ticketOf busyCore (State.me busyCore) ((State.me busyCore).value 32) = some (2, 0, 0) ∧
    busyCore.ticketDone 1 0 2 0 0 = false ∧ busyCore.ticketDone 1 0 1 1024 0 = false ∧
    ((busyCore.core 0).ops.filter fun o => o.grid == 1 && o.team == 0 && o.tid == 0).map (fun o => (2, 0, o.seq.toNat)) = [(2, 0, 0)] ∧
    (base.core 0).ops = [] ∧ (base.cluster 0).table = [] := by decide +kernel

/-- WAITC's descriptor with one memory condition on 0x5000, with one ticket, with a bad kind, and with a mask condition. -/
def memWait : List Word := [0x0000006400000020, 0x5000, 1]
def badWait : List Word := [0xE0, 0, 0]
def maskWait : List Word := [0xFFFFFFFF000000A0, 11, 0]
def condSlots (vs : List Word) : State := with_ (fun t => { t with n := named vs }) condBase
theorem witness_WaitcStartsConditions :
    (∀ s ∈ [slots memWait, slots badWait, slots maskWait, condSlots maskWait, condSlots memWait], ∀ i ∈ [Instr.waitc 63 32 0 true false, .waitc 0 32 0 false true],
      Issues i s (State.me s) ∧ s.readsAll (State.me s) 32 3 = true) ∧
    (State.me (condSlots maskWait)).isCond = true ∧ (condOf 0xA0 11 0).kind = 5 ∧ (condOf 0x20 0x5000 1).kind = 1 ∧
    badCond (slots memWait) (laneOf memWait) 0x20 (condOf 0x20 0x5000 1) = false ∧ badCond base lane 0xE0 (condOf 0xE0 0 0) = true ∧
    badCond base lane 0xA0 (condOf 0xA0 11 0) = false ∧
    answers (startConds 0 [condOf 0x20 0x5000 1] (slots memWait)) (fun cs s => cs.length == 1 && (s.th? s.cur).isSome && s.reaches (State.me s) 63 1) = true ∧
    answers (startConds 0 [condOf 0xA0 11 0] (slots maskWait)) (fun _ s => (s.th? s.cur).isSome) = true ∧
    Issues (.waitc 63 32 3 true true) base lane ∧ base.readsAll lane 32 9 = true := by decide +kernel

/-! Barriers, latches, matrix work, maintenance, triples -/

theorem witness_BarrierArrivalCounts :
    (∀ i ∈ [Instr.tbarWait 63 15, .tbarArrive 63 15 1, .tbarSync 0 0 0x7FF, .cbarArrive 63 7 1, .cbarSync 0 0 0xFFF, .cbarWait 63 7], Issues i base lane ∧
      base.reaches lane 63 1 = true ∧ Issues i (packetWith 6 0x00006DA000000000) lane) ∧
    base.nothingRefused = true ∧ (base.teamBar lane 15).agrees 1 ∧
    ((base.setTeamBar lane 15 { phase := 0, expect := 2, count := 1 }).teamBar lane 15).agrees 2 ∧
    ¬((base.setTeamBar lane 15 { phase := 0, expect := 2, count := 1 }).teamBar lane 15).agrees 3 ∧
    Issues (.tbarSync 63 15 3) (base.setTeamBar lane 15 { phase := 0, expect := 2, count := 1 }) lane ∧
    ((base.gridOf lane).cbar = true ∧ (base.cluster (clusterKey lane.die lane.cluster)).owner = some (lane.grid, base.cohortOf lane.grid lane.team)) ∧
    ((packetWith 6 0x00006DA000000000).gridOf lane).cbar = false ∧ (base.clusterBar lane 7).agrees 0xFFF ∧
    ((base.modCluster 0 fun c => { c with bars := listSet c.bars 7 { phase := 0, expect := 2, count := 1 } }).clusterBar lane 7).expect = 2 ∧
    ((base.swapCluster 0 0 7).th? base.cur).isSome = true := by decide +kernel

/-- A core's latch 15 in a state. -/
def latched (x : LatchCore) (s : State := base) : State := s.setLatch 0 15 x
theorem witness_LatchArrivalCounts :
    (∀ s ∈ [base, latched { raised := true }, latched { raised := true, nexpect := 2, ncount := 2 }, latched { expect := 3 }, latched { raised := true, nexpect := 3 },
        packetWith 11 0x7FFF], ∀ i ∈ [Instr.latchArrive 63 15 2, .latchSync 63 15 2, .latchWait 63 15, .latchX 63 15], Issues i s lane ∧ s.reaches lane 63 1 = true ∧
      answers (release 5 s) (fun _ s1 => (s1.th? s1.cur).isSome && (State.me s1).die == 0 && (State.me s1).core == 0) = true) ∧
    bits ((base.gridOf lane).slot 11) 15 1 = 1 ∧ bits (((packetWith 11 0x7FFF).gridOf lane).slot 11) 15 1 = 0 ∧
    ((latched { raised := true, nexpect := 2, ncount := 2 }).latchCore 0 15).raised = true := by decide +kernel

/-- A descriptor that R130 passes, for DENSE at class 0: bases, strides, K = 32; and ACCINIT's. -/
def passSlots : List Word := [0x10000, 0x20000, 0x30000, 0x0000002000000020, 0x0000002000000080, 0]
def initSlots : List Word := [0x5000, 0, 0x30000, 0, 0x0000000000000080, 0x0001000000000000]
def matrixState (vs : List Word) (busy : Nat := 0) : State :=
  (with_ (fun t => { t with n := named vs }) condBase).modCluster 0 fun c =>
    { c with table := (List.range busy).map fun i => { key := i, grid := 1, team := 0, seq := BitVec.ofNat 16 i, kind := 0, desc := Vector.replicate 6 0 } }
def postsFrom (s : State) : Bool :=
  let s1 := s.releaseWrites s.cur
  (s1.team? (teamKey 1 0)).isSome && (s1.th? s.cur).isSome
theorem witness_MatrixFormsPostEntry :
    (∀ p ∈ (matrixForms 63 32 false 0).take 4, ∀ s ∈ [matrixState passSlots, matrixState [0, 0, 1, 0, 0, 0], matrixState passSlots 8], Issues p.1 s (State.me s) ∧
      s.readsAll (State.me s) 32 6 = true ∧ s.reaches (State.me s) 63 1 = true) ∧
    (∀ k ∈ [0, 1, 2], ∀ j < 6, badSlot (Vector.ofFn fun (i : Fin 6) => passSlots.getD i.val 0) k false j = false) ∧
    badSlot (Vector.ofFn fun (i : Fin 6) => passSlots.getD i.val 0) 3 false 4 = false ∧
    badSlot (Vector.ofFn fun (i : Fin 6) => ([0, 0, 1, 0, 0, 0] : List Word).getD i.val 0) 0 false 2 = true ∧
    (∀ kind ∈ [(0 : BitVec 2), 3], Issues (.accinit 63 32 true kind) (matrixState initSlots) (State.me (matrixState initSlots)) ∧
      ∀ j < 6, badSlot (Vector.ofFn fun (i : Fin 6) => initSlots.getD i.val 0) kind.toNat true j = false) ∧
    (matrixState passSlots).tableRoom (State.me (matrixState passSlots)) = true ∧ (matrixState passSlots 8).tableRoom (State.me (matrixState passSlots 8)) = false ∧
    postsFrom (matrixState passSlots) = true ∧
    (∀ s ∈ [matrixState [0x1000000000000000] 1, matrixState [0x2000000000000000]], ∀ i ∈ [Instr.mquery 63 32 true, .mquery 63 32 false, .mcancel 63 32 true, .mcancel 63 32 false],
      Issues i s (State.me s) ∧ s.reads (State.me s) 32 = true ∧ s.reaches (State.me s) 63 1 = true ∧
      ((cancelTicket s (State.me s) 0).th? s.cur).isSome = true) ∧ (0x1000000000000000 : Word).toNat / 2 ^ 16 = 2 ^ 44 := by decide +kernel

/-- A state whose cluster has a granted pass, which uses translations. -/
def granted (s : State) : State := s.modCluster 0 fun c =>
  { c with table := [{ key := 6, grid := 1, team := 0, seq := 0, kind := 0, desc := Vector.replicate 6 0, status := .run, lines := [(0xC00, 0xC00)] }] }
theorem witness_MaintenanceEffect :
    (∀ s ∈ [slots [1, 0x5000], slots [0x10000, 0x5000]], ∀ i ∈ [Instr.tlbiPage 32 33, .tlbiAsid 32 33, .tlbiAll 32 33], Issues i s (State.me s) ∧
      s.reads (State.me s) 32 = true ∧ s.reads (State.me s) 33 = true) ∧ ((laneOf [0x10000, 0x5000]).value 32).toNat = 2 ^ 16 ∧
    answers (release 5 (slots [1, 0x5000])) (fun _ _ => true) = true ∧ Issues .invl base lane ∧ answers (release 5 base) (fun _ _ => true) = true ∧
    (∀ s ∈ [slots [128, 0x5000], slots [128, 0x5001], slots [65, 0x5000], slots [2 ^ 30 + 64, 0x5000]], ∀ i ∈ [Instr.wbl 32 33, .wipe 32 33], Issues i s (State.me s)) ∧
    answers (rangeLines 0x5000 0 128 .r ((data).agentOf (State.me (data))) (data)) (fun _ _ => true) = true ∧
    (∀ p ∈ (slots [1, 0x5000]).clusters, ∀ e ∈ p.2.table, e.lines = []) ∧
    (∃ p ∈ (granted (slots [1, 0x5000])).clusters, ∃ e ∈ p.2.table, e.lines ≠ []) ∧
    (∀ i ∈ [Instr.tlbiPage 32 33, .tlbiAsid 32 33, .tlbiAll 32 33], Issues i (granted (slots [1, 0x5000])) (State.me (granted (slots [1, 0x5000])))) := by
  decide +kernel

/-- R51's triple in its packet: XPR n16, n17, n18, n19 and the tokens in0 in1 in2 fma in3 max end. -/
def tripleBase (b : Nat) : State :=
  let s := slots [0x07FF800000000000, 0x0800A00000000000, 0x07FE000000000000, 0x0801400000000000] (State.reset.withFetchWord 32 0x9D8218A3)
  { s with mem := writeCells s.mem 0x3004 (toBytes 4 b ++ toBytes 4 0x1E000000) }
theorem witness_ExpressionTripleResult :
    (∀ b ∈ [0x9E12384A, 0x9E1238AA, 0x1E12384A], Issues (.xpr 32 33 34 35) (tripleBase b) (State.me (tripleBase b)) ∧
      answers (fetchPacket (State.me (tripleBase b)).pc (tripleBase b)) (fun _ s => s.th? s.cur == some (State.me (tripleBase b))) = true) ∧
    answers (fetchPacket (State.me (tripleBase 0x9E12384A)).pc (tripleBase 0x9E12384A)) (fun p s =>
      tripleOk p && tokensOk 0 0 (tokensOf (p.getD 1 0) (p.getD 2 0)) && s.readsVf (State.me s) 32 && s.readsVf (State.me s) 33 && s.readsVf (State.me s) 34 &&
        s.readsVf (State.me s) 35) = true ∧
    answers (fetchPacket 0x3000 (tripleBase 0x9E1238AA)) (fun p _ => tripleOk p && !tokensOk 0 0 (tokensOf (p.getD 1 0) (p.getD 2 0))) = true ∧
    answers (fetchPacket 0x3000 (tripleBase 0x1E12384A)) (fun p _ => !tripleOk p) = true := by decide +kernel
/-- R51 and R117: the triple pushes 5.375, and raises no flag. -/
theorem test_triple : recorded (exec (.xpr 32 33 34 35) (tripleBase 0x9E12384A)) = [(.ring 15, 0x0801580000000000)] := by decide +kernel


/-! Events -/

theorem witness_ThreadEventEffect :
    ((with_ fun t => { t with status := .longs }).th? base.cur).map (·.status) = some .longs ∧
    ((with_ fun t => { t with runCount := 24 }).th? base.cur).map (fun t => decide (t.status = .ready ∧ 24 ≤ t.runCount)) = some true ∧ (base.core 0).gangs = [] ∧
    lane.runCount = 0 ∧ lane.waits = [] ∧ base.th? base.cur = some lane ∧
    (∀ why ∈ [Park.reservation, .footprint, .until 5, .replay 1, .answer 3], ((with_ fun t => { t with status := .parked why }).th? base.cur).map (·.status) = some (.parked why)) ∧
    ((with_ fun t => { t with status := .awaiting none }).th? base.cur).map (·.status) = some (.awaiting none) ∧
    (match startConds 0 [condOf 0xA0 11 0] (slots maskWait) with | .ok (cs, s) => (cs.map (condHolds s (State.me s))) | .error _ => []) = [true] ∧
    condHolds (slots maskWait) (laneOf maskWait) (condOf 0xA0 11 1) = false ∧
    answers (readCond (condOf 0x20 0x5000 1) ((data).agentOf (State.me (data))) (data)) (fun _ s => (s.th? s.cur).isSome) = true ∧
    base.gatherable 0 0 ≠ [] ∧ base.gatherable 0 1 = [] ∧ AMap.get? (base.core 0).gangs 0 = none := by decide +kernel

/-- Die 0 forms a segment of latch 15, all of its cores excused but core 0, which raises. -/
def segment : State :=
  let s := base.modDie 0 fun x => { x with segs := AMap.put x.segs 15 { seg := 1, root := 0, member := true } }
  (List.range 128).foldl (fun s c => s.setLatch c 15 { raised := decide (c = 0), excuse := decide (c ≠ 0) }) s
/-- A core with a fill under way on line 0 of a scratch window. -/
def scratchWindow : Window := { d0 := 0, d1 := 0x0000010000000000, d2 := 0, asid := 1, root := 0, super := true, grid := 1, team := 0 }
def filling : State := coreWith fun c => { c with windows := [scratchWindow], lines := [(0, { filling := some 0 })] }
/-- A report that a ring at 0x8000 holds up or takes. -/
def heldReport (room : Nat) : State :=
  ({ base with mem := writeCells base.mem 0x8010 (toBytes 1 room) } : State).modDie 0 fun x => { x with heldReports := [(0x8000, Vector.replicate 8 0)] }
theorem witness_CacheAndLatchEventEffect :
    (segment.segFormed 0 15 && segment.latchReady (segment.segDies 0 15) 15) = true ∧ (base.segFormed 0 15 && base.latchReady (base.segDies 0 15) 15) = false ∧
    segment.segDies 0 15 = [0] ∧ risesFrom 0 base.dir = true ∧
    (base.stashLine 0 0).filling = none ∧ (filling.stashLine 0 0).filling.isSome = true ∧ filling.lineWindow 0 0 = some scratchWindow ∧
    (filling.completeFill 0 0 0 false).isSome = true ∧ (∀ s ∈ filling.completeFill 0 0 0 false, ∀ p ∈ s.threads, p.2.status ≠ .parked (.stashLine 0)) ∧
    ((heldReport 3).die 0).heldReports ≠ [] ∧ (heldReport 3).ringRoom 0x8000 = true ∧ (heldReport 0).homeNat 0x8010 1 = 0 ∧
    (∀ r ∈ (base.die 0).heldReports, base.ringRoom r.1 = false) ∧
    (5 ∉ base.bad) ∧ (5 ∉ base.soft) ∧ (5 ∉ (base.core 0).bad) ∧ (5 ∉ (base.core 0).soft) ∧ base.th? base.cur = some lane := by decide +kernel

/-- A tile's ACCINIT posted by the team, and a pass of it, at a stage. -/
def entryOf (kind : Nat) (vs : List Word) (f : Entry → Entry := id) : Entry :=
  f { key := 6, grid := 1, team := 0, seq := 0, kind := kind, desc := Vector.ofFn fun (i : Fin 6) => vs.getD i.val 0, since := some 0 }
def engine (e : Entry) (s : State := base) : State := s.modCluster 0 fun c => { c with table := [e] }
def initEntry : Entry := entryOf 15 initSlots
def runEntry (step : Nat) (stop : Bool) : Entry := entryOf 1 passSlots fun e => { e with status := .run, step := step, stop := stop }
theorem witness_EngineEventEffect :
    (engine initEntry).entry? 0 6 = some initEntry ∧ initEntry.kind = 15 ∧ initEntry.doneAt = none ∧ initEntry.status = .wait ∧
    (∀ x ∈ [0, 100], ((engine { initEntry with doneAt := some x }).entry? 0 6).map (·.doneAt) = some (some x)) ∧
    answers (mapTile initEntry.desc 0 (engineAgent (engine initEntry) 0 0 initEntry) (engine initEntry)) (fun m s =>
      m.all (fun p => !s.isAcc p.2 && !s.anyBad (64 * p.2) 64) && (List.range 64).all (fun h => let n := (m.filter fun p => homeDie (64 * p.2) == h).length
        decide (n = 0 ∨ 128 * (accHomed s h + n) ≤ s.accBytes h))) = true ∧
    answers (mapTile initEntry.desc 0 (engineAgent (engine initEntry) 0 0 initEntry) (engine initEntry)) (fun m s =>
      m.any fun p => ({ s with dir := [(0x30000 / 64, { acc := some sidecar })] } : State).isAcc p.2) = true ∧
    (∀ e ∈ [runEntry 31 false, runEntry 32 true, runEntry 0 false], (engine e).entry? 0 6 = some e ∧ e.kind ≠ 15 ∧ e.status = .run ∧ e.sent = false ∧
      releasedAt (engine e) 0 e = true) ∧
    answers (fetchBlock (runEntry 0 false).desc 1 0 [] (engineAgent (engine (runEntry 0 false)) 0 0 (runEntry 0 false)) (engine (runEntry 0 false))) (fun _ _ => true) = true ∧
    ((engine (runEntry 0 false)).cohort? (cohortKey 1 ((engine (runEntry 0 false)).cohortOf 1 0))).isSome = true ∧
    (let s1 := noteReady (engine (entryOf 1 passSlots)) 0 0
     ((s1.cluster 0).table.filter fun e => e.status == .run && e.kind != 15).length < 4 ∧
       (s1.cluster 0).table.filter (·.since.isSome) = [] ++ entryOf 1 passSlots :: []) ∧
    (ordered 1 1 4).isAcc (0x5000 / 64) = false ∧ ((ordered 1 1 4).th? (ordered 1 1 4).cur).isSome = true ∧
    (redoArrive (ordered 2 1 4) 0x5000 0x5008 2 (vfOfSlots [0x07EE000000000000]) 0 0).2 = .held ∧
    (busyCore.core 0).ops.length = 1 ∧ ((busyCore.core 0).ops.map (·.tag)) = [none] := by decide +kernel

/-- A queue descriptor at 0x9000 of die 0 that a map takes: root table, ring, knocker and rings as R293 has them. -/
def queueWords : List Word := [0xA000, 0x0001000000000000, 0x200000, 0xB000, 2, 0x800000, 0x800000, 1]
def queueBase (knock : Nat) : State :=
  let m := writeCells (writeCells base.mem 0x9000 (queueWords.flatMap fun w => toBytes 8 w.toNat)) 0xB000 (toBytes 8 knock)
  { base with mem := m }
/-- The slot that has mapped it. -/
def mappedQueue : QSlot := { state := .mapped, desc := 0x9000, slots := Vector.ofFn fun (i : Fin 8) => queueWords.getD i.val 0 }
/-- A launch packet in memory at 0x5000, with n16 on it: no thread yet. -/
def launching (busy : Nat) : State :=
  let s := slots [0x5000]
  let m := writeCells base.mem 0x5000 ((List.range 16).flatMap fun i => toBytes 8 (vget Fetch.packet i).toNat)
  { s with mem := m, grids := (List.range busy).foldl (fun g i => AMap.put g (i + 10) { Fetch.grid with started := false, ranges := [(0, [(0, 1)])], parent := some s.cur }) s.grids }
theorem witness_QueueAndLaunchEffect :
    (∀ x ∈ [SlotState.free, .refused, .mapped, .unmapping], ((queueBase 0).setQslot 0 63 { state := x }).qslot 0 63 = { state := x }) ∧
    (queueBase 0).populated 0x9000 64 = true ∧ (queueBase 0).anyBad 0x9000 64 = false ∧
    (queueBase 0).refusesMap (State.wordsOf ((queueBase 0).homeRead 0 0x9000 64).1 8) = false ∧
    base.refusesMap (State.wordsOf (base.homeRead 0 0x9000 64).1 8) = true ∧ bits (0x9000 : Word) 6 46 * 64 = 0x9000 ∧
    (∀ p ∈ base.grids, p.2.queue ≠ some (0, 63)) ∧
    (∀ k ∈ [2, 3, 4], let s := (queueBase k).setQslot 0 63 mappedQueue
      (match (s.readQueue 0 63 ((s.qslot 0 63).slot 3) 8).2 with
        | some (bs, stamp) => decide ((BitVec.ofNat 64 (ofBytes bs) - (s.qslot 0 63).rdidx).toNat = k - 2) && decide (stamp ≤ s.now 0)
        | none => false) = true ∧ 2 ^ (s.qslot 0 63).lsize = 1) ∧
    (let s := (queueBase 3).setQslot 0 63 { mappedQueue with slots := vset mappedQueue.slots 3 (2 ^ 60) }
     (s.readQueue 0 63 ((s.qslot 0 63).slot 3) 8).2 = none) ∧
    (∀ x ∈ [0, 100], (({ mappedQueue with due := some (3, x) } : QSlot).state = .mapped) ∧ (base.now 0 < x ∨ x ≤ base.now 0)) ∧ base.now 0 < 100 ∧
    (let s := ({ queueBase 3 with dir := [(0xB000 / 64, { leases := [{ lo := 0, hi := 15, expiry := 100, len := 64, written := true }] })] } : State).setQslot 0 63 mappedQueue
     (match (s.readQueue 0 63 ((s.qslot 0 63).slot 3) 8).2 with | some (_, stamp) => decide (s.now 0 < stamp) | none => false) = true) ∧
    (∃ p ∈ ({ base with grids := [(1, { Fetch.grid with queue := some (0, 63), ranges := [(0, [(0, 1)])] })] } : State).grids,
      p.2.queue = some (0, 63) ∧ p.2.dispatched = false) ∧
    (Issues (.launch 63 32) (launching 0) (State.me (launching 0)) ∧ (launching 0).reads (State.me (launching 0)) 32 = true) ∧
    answers (release 5 (launching 0)) (fun _ s0 => (s0.th? s0.cur).isSome && s0.cur == (State.me s0).key &&
      answers (loadSpace .glob 0x5000 128 64 {} (s0.agentOf (State.me s0)) s0) (fun _ s1 => (s1.th? s1.cur).isSome && s1.cur == (State.me s0).key &&
        s1.parkOver (State.me s1) .launchFull)) = true ∧
    (launching 16).parkOver (State.me (launching 16)) .launchFull = false := by decide +kernel

/-- A second grid waits on die 0, with a save pool there; or on a die mask of two with all its cohorts at die 1. -/
def pooled (s : State) : State := s.modDie 0 fun x => { x with savepool := 0x10000000, savepoolsz := 0x1000000 }
def waitingGrid (ranges : AMap (List (Nat × Nat))) (dmask : Word := 1) : Grid := { Fetch.grid with packet := vset (vset Fetch.packet 7 dmask) 11 0, ranges := ranges }
def dispatching : State := pooled { base with grids := AMap.put base.grids 2 (waitingGrid [(0, [(0, 1)])]) }
def stealing : State := pooled { base with grids := AMap.put base.grids 2 (waitingGrid [(1, [(0, 3)])] 3) }
def waiter2 : State.Waiter := ((dispatching.chosen 0).getD ⟨0, 0, 0, false, 0, 0⟩)
/-- Every core of the die is taken by the grid's cohort, whose quantum has passed. -/
def crowded : State :=
  let s := (List.range 32).foldl (fun s c => s.modCluster c fun x => { x with owner := some (1, 0) }) dispatching
  { s with time := 4000000, cohorts := AMap.put s.cohorts (cohortKey 1 0) { grid := 1, cohort := 0, cores := (List.range 32).map fun i => (i, 4 * i) } }
/-- The placed grid once its work is done. -/
def doneGrid (release : Option Nat) : State :=
  { base with cohorts := [], threads := [], grids := AMap.put base.grids 1 { Fetch.grid with release := release } }
theorem witness_DispatcherEventEffect :
    dispatching.boot = .running ∧ dispatching.chosen 0 = some waiter2 ∧ waiter2.saved = false ∧ (dispatching.planWaiter 0 waiter2).isSome = true ∧
    (∀ p ∈ dispatching.planWaiter 0 waiter2, (p.2.1.map (·.1)).Nodup) ∧ base.chosen 0 = none ∧
    (let stopping := (crowded.cohorts.filter fun p => match p.2.status with | .stopping _ => true | _ => false).map (·.1)
     (crowded.chosen 0).isSome = true ∧ (crowded.enough 0 waiter2 stopping ((crowded.displaceable 0 waiter2).map (·.1))).isSome = true) ∧
    (match stealing.grid? 2 with
      | some g => g.started && !g.aborted && stealing.victimOf g == some 1 && decide (2 ≤ rangeCount (g.left 1)) && stealing.idleFor 0 2 g 1
      | none => false) = true ∧ 2 ∉ (stealing.die 0).asking ∧ 2 ∈ ((stealing.modDie 0 fun x => { x with asking := [2] }).die 0).asking ∧
    (match dispatching.grid? 2 with | some g => dispatching.victimOf g == some 0 | none => false) = true ∧
    risesFrom 0 base.grids = true ∧ base.gridDone 1 Fetch.grid = false ∧
    (∀ r ∈ [none, some 0, some 100], (match (doneGrid r).grid? 1 with | some g => (doneGrid r).gridDone 1 g && g.release == r | none => false) = true) := by
  decide +kernel

/-- The cohort at a stage of a pre-emption, its one thread at a boundary; and saved, waiting to be restored. -/
def cohortAt (st : CohortStatus) : State :=
  pooled { base with cohorts := AMap.put base.cohorts (cohortKey 1 0) { grid := 1, cohort := 0, cores := [(0, 0)], status := st, area := some (0x10000000, 0x1000000) } }
def savedCohort : State :=
  let s := cohortAt .waiting
  { s with threads := [], teams := [], groups := [], clusters := [], grids := AMap.put s.grids 1 (waitingGrid []) }
theorem witness_PreemptionEffect :
    (base.die 0).preemptBusy = [] ∧ ((base.modDie 0 fun x => { x with preemptBusy := [1] }).die 0).preemptBusy ≠ [] ∧
    (base.cohortsOn fun _ k => k == coreKey 0 0) ≠ [] ∧ (base.cohortsOn fun _ k => k == coreKey 63 127) = [] ∧
    (base.cohortsOn fun _ k => k / 128 == 0) ≠ [] ∧ (base.cohortsOn fun x k => base.hasAsid x 1 && k / 128 == 0) ≠ [] ∧
    (base.cohortsOn fun x _ => base.hasAsid x 2) = [] ∧
    ((cohortAt (.stopping 0)).cohort? (cohortKey 1 0)).map (·.status) = some (.stopping 0) ∧ (base.cohort? (cohortKey 1 0)).map (·.status) = some .resident ∧
    (match (cohortAt (.stopping 0)).cohort? (cohortKey 1 0), (cohortAt (.stopping 0)).grid? 1 with
      | some x, some g => let ts := (cohortAt (.stopping 0)).liveTeams x
                  let s1 := ((cohortAt (.stopping 0)).cohortThreads 1 ts).foldl (fun s p => checkLongs s p.1) (cohortAt (.stopping 0))
                  let s2 := (s1.cohortThreads 1 ts).foldl (fun s p => s.releaseWrites p.1) s1
                  let ths := s2.cohortThreads 1 ts
                  s1.readyToSave 1 g ts && ths.all (fun p => decide (s2.releaseTime p.1 ≤ s2.now p.2.die) && p.2.status != .awaiting none && s2.th? p.1 == some p.2) &&
                    decide (ths.length = 1) && s2.dir == []
      | _, _ => false) = true ∧
    ((savedCohort.chosen 0).map fun w => (w.grid, w.cohort, w.saved)) = some (1, 0, true) ∧
    (match savedCohort.chosen 0, savedCohort.cohort? (cohortKey 1 0) with
      | some w, some x => (match savedCohort.planWaiter 0 w with
          | some (g, plan, area) => let s2 := (savedCohort.occupy 0 1 0 g plan area).loadImage g x plan
                                    s2.noClash plan && (keySet (plan.map (·.2 / 4))).all fun ck => decide ((s2.cluster ck).table.length ≤ 16)
          | none => false)
      | _, _ => false) = true := by decide +kernel

/-- The lane waits on record 1, with its fault entry; or on a thread-fault record of tag 1. -/
def replaying : State :=
  let s := with_ fun t => { t with status := .parked (.replay 1) }
  (coreWith (fun c => { c with faults := [⟨s.cur, 0, 1, 0x5000, [], 1, false⟩] }) s).modDie 0 fun x => { x with records := [(1, ⟨1, 0, 0, 1, 0x5000, []⟩)] }
def awaitingCommand (entry : Word) : State :=
  let s := packetWith 1 entry (with_ fun t => { t with status := .awaiting (some 1), trappc := 0x3000, trapcause := 0x20 })
  s.modDie 0 fun x => { x with faults := [(1, s.cur)] }
theorem witness_ReplayAndThreadCommandEffect :
    AMap.get? (base.die 0).records 1 = none ∧ (AMap.get? (replaying.die 0).records 1).isSome = true ∧ replaying.stoppedEntries 0 1 = [] ∧
    replaying.stoppedOps 0 1 = [] ∧ risesFrom 0 replaying.threads = true ∧ (State.me replaying).status = .parked (.replay 1) ∧ (State.me replaying).die = 0 ∧
    ((replaying.core 0).faults.find? fun f => f.th == replaying.cur).isSome = true ∧
    AMap.get? (base.die 0).faults 1 = none ∧
    (∀ s ∈ [awaitingCommand 0, awaitingCommand 0x6000], AMap.get? (s.die 0).faults 1 = some s.cur ∧ s.th? s.cur = some (State.me s) ∧
      State.gridOfKey s.cur = (State.me s).grid) ∧
    ((awaitingCommand 0).gridOf lane).trapentry = 0 ∧ ((awaitingCommand 0x6000).gridOf lane).trapentry ≠ 0 := by decide +kernel

/-! Registers of a die, the mailbox -/

theorem witness_RegisterWriteEffect :
    base.numberOwned 0 15 = true ∧ (packetWith 11 0).numberOwned 0 15 = false ∧
    (0x0038 : BitVec 16) ≠ 0x0060 ∧ (0x0070 : BitVec 16) ∉ [(0x0038 : BitVec 16), 0x0060, 0x0068] := by decide +kernel

/-- A request block at 0x9000 of the anchor, die 0, whose input stands at 0xA000 and whose output at 0xB000. -/
def asked (cmd arg outcap : Nat) (input : List (BitVec 8) := []) : State :=
  let block : List Word := [w64 (cmd * 2 ^ 56), w64 arg, 0xA000, 0xB000, w64 outcap, 0, 0, 0]
  let s := { base with anchor := some 0, mem := writeCells (writeCells base.mem 0x9000 (block.flatMap fun (w : Word) => toBytes 8 w.toNat)) 0xA000 input }
  s.modDie 0 fun x => { x with serial := 1, cert := [1, 2, 3] }
/-- The bytes of a signed command that names die 0, and its signature under the exponent 1: the encoded message itself, with a salt of zeros. -/
def commandBytes (cmd serial : Nat) : List (BitVec 8) :=
  [0x4C, 0x56, 0x58, 0x2D, 0x43, 0x4D, 0x44, 0x31] ++ toBytes 4 cmd ++ toBytes 4 0 ++ List.replicate 64 0 ++ toBytes 8 serial ++ List.replicate 504 0 ++
    List.replicate 48 0
def signature : List (BitVec 8) := beBytes 512
  0x6bf579817e5243e29c93c5ac386e9d4fbaf682a179d6da61670a5800772419a7efa7ded65f3f5e49fd385e17e3f9b49e653571a21b4e936692239b4a8efc9dc638bcd71dd933db1764c7dbb83a778a353df6766bf4469e96fec397f07228bedf38f2909eb49ff811ebf7a94ac9ff31853ee0c8291f7b58c2d9dad21e1fbbcf44ba910467dad5264c93cd85637bdf369e0ff60a22a45865681a16287f5c99c62e2098f4b8666f89a6645d5e9cb385befa3cf3fc7e8eb1096f771f86294c67af7238f748f81e7d0ee5401e51b38ff38b843407477cb725e3cc430a9c7bfbcdfc666920b826c17584d5123e9c0b02ac98ea04acab8d4ca3dbe9aac11af5cde18136865d8096bc594531f84b9b7b2ee72cfee36833171e039f670f0a920705d778e6595cfba55215661eef584e4426ed45632ed029b4ab6d1c822c9a8a99036486c4d92aebda17a142bc44308393d50f2b6dff61c1e26a852a60ee315d7c281a654f0e0caad71aca9a63d48954ea32e68d402de4f338828995194057fe72cf56decee6dfe53ffe05e01a444a72e02f7a291b202d3c1494af81891e072493f0e30bbdf97a1b89f33c930decc7bd1aeed9d68acee7ac178d48d9a6ecf83a0dfbcd8591575b6a57de05132873bb8959ebbda5823573718ce560e64f828bfc3eac216132a13c0e8199ccdfd28281c7551500c4887d770215867467f7570070bbc4aefebc
def commanded (cmd serial lc : Nat) : State :=
  { (asked 4 0 0 (commandBytes cmd serial ++ signature)).modDie 0 fun x => { x with lcstate := BitVec.ofNat 8 lc } with
    challenge := some (List.replicate 64 0)
    running := some (List.replicate 64 0 ++ [0x80] ++ List.replicate 511 0 ++ [1, 0, 0, 0]) }
/-- What the anchor reads of a request. -/
def request (s : State) (k : Nat) : Option (Nat × Option Request) := s.requestAt 0 0x9000 (· == k)
theorem witness_MailboxRequestResult :
    base.anchor ≠ some 0 ∧ (asked 1 0 64).anchor = some 0 ∧ bits (0x9000 : Word) 52 12 = 0 ∧ bits (0x9000 : Word) 0 6 = 0 ∧ bits (0x9001 : Word) 0 6 ≠ 0 ∧
    (asked 5 0 0).requestAt 0 0x9000 (fun c => c == 0 || decide (4 < c)) = some (5, none) ∧
    (∀ k ∈ [1, 2, 4], request (asked k 1 0) k = some (k, none)) ∧ request ((asked 3 0 64).homePut 0x9007 [3, 0, 0, 0, 0, 0, 0, 0, 0, 1]) 3 = some (3, none) ∧
    (∀ c ∈ [63, 64], request (asked 1 0 c) 1 = some (1, some ⟨0x9000, 0, 0xA000, 0xB000, c⟩)) ∧
    (∀ c ∈ [799, 800], request (asked 2 0 c) 2 = some (2, some ⟨0x9000, 0, 0xA000, 0xB000, c⟩)) ∧ ((asked 2 0 800).die 0).lcstate = 2 ∧
    (((asked 2 0 800).modDie 0 fun x => { x with lcstate := 3 }).die 0).lcstate = 3 ∧
    (∀ a ∈ [0, 64], request (asked 3 a 64) 3 = some (3, some ⟨0x9000, w64 a, 0xA000, 0xB000, 64⟩)) ∧ base.alive 0 = true ∧ ((asked 3 0 64).die 0).cert.length = 3 ∧
    request (asked 4 0 0) 4 = some (4, some ⟨0x9000, 0, 0xA000, 0xB000, 0⟩) ∧ parseSigned ((asked 4 0 0).managerRead 0 0xA000 1152) = none := by decide +kernel
/-- A command that is valid, right and allowed, and ones that fail each check. -/
theorem witness_MailboxRequestResult_command :
    (match parseSigned ((commanded 1 1 2).managerRead 0 0xA000 1152) with
      | some c => (commanded 1 1 2).challenge == some c.challenge && c.named.all (fun e => (commanded 1 1 2).alive e && ((commanded 1 1 2).die e).serial.toNat == c.serials.getD e 0) &&
          c.allowed (commanded 1 1 2) 0 && c.cmd == 1 && decide (c.named = [0]) &&
          !c.allowed ((commanded 1 1 2).modDie 0 fun x => { x with minSvn := 1 }) 0 &&
          (((commanded 1 1 2).modDie 0 fun x => { x with serial := 7 }).die 0).serial.toNat != c.serials.getD 0 0
      | none => false) = true ∧
    pssVerify (2 ^ 4095) 1 (commandBytes 1 1) signature = true ∧ pssVerify (2 ^ 4095) 1 (commandBytes 1 1) [] = false := by decide +kernel

/-! Hinge -/

/-- A request of die 1 to die 0 for the line of 0x5000, with slots. -/
def msgOf (xs : List (BitVec 128)) (f : Nat := xs.length) : Msg := { follow := BitVec.ofNat 3 f, dst := 0, src := 1, txn := 1, payload := 0x5000, slots := xs }
def req (f : Nat) : Msg := msgOf (List.replicate f 0)
/-- Home memory at 0x5000 with the same request already served, at time 0. -/
def servedBase : State := base.modDie 0 fun x => { x with served := [⟨1, 0, 1, 0, []⟩] }
/-- A line of an ordered tile, and a slice whose reorder entries are all in use. -/
def tileSidecar : Sidecar := { sidecar with tile := ⟨1, 0x5000, 128, 0, 1, 0, 0⟩, ordered := true, expect := 20 }
def orderedTile (busy : Nat) : State :=
  ({ base with dir := (List.range 128).map fun i => (320 + i, { acc := some tileSidecar }) } : State).modDie 0 fun d =>
    { d with reorder := (List.range busy).map fun i => (sliceOf 0x5000, .part 320 (i + 2) [] 0) }
def partResult (ord busy : Nat) : Option PartEnd :=
  let s := orderedTile busy
  let g := { s.gridAgent 1 0 with asid := 1 }
  match mapTile #v[0, 0, 0x5000, 0, 128, 0] 1 g s with
  | .ok (lines, s1) => if (lines.find? fun p => p.2 == 320) = some (320, 320) then some (partArrive s1 tileSidecar.tile lines 320 ord (partElems tileSidecar.tile 320 (req 5)) 0).2 else none
  | .error _ => none
/-- REDW's slots: ordinal, and the ordinal word's offset 8. -/
def redwMsg (ord : Nat) : Msg := msgOf [0x07EE, BitVec.ofNat 128 (ord + 8 * 2 ^ 16)]
theorem witness_HingeRequestIsServed :
    (∀ f ∈ [0, 1, 2, 4, 5], ∀ p ∈ requestForms (req f), p.2.2 = f → Serves base p.2.1 f 0x5000 ∧ Arrives servedBase p.2.1 f ∧
      base.arrivesLater p.2.1 = false) ∧
    (∀ f ∈ [0, 1, 2, 4, 5], ∀ p ∈ requestForms (req 3), (req 3).follow.toNat ≠ f ∧ base.arrivesLater p.2.1 = false) ∧
    ((servedBase.die 0).served.find? fun x => decide (x.src = 1) && decide (x.site = 0) && decide (x.txn = 1) && decide (servedBase.now 0 ≤ x.time + 65536)).isSome = true ∧
    (∀ m ∈ [{ req 0 with payload := 0xFFF0000000000000 }], ∀ c ∈ [(0, 0), (0, 3)], placeOf base m c.1 c.2 = .bad cPROTECTION ∧ Arrives base ⟨0, 0, m⟩ 0 ∧ Unserved base m) ∧
    base.plainLine (0x5000 / 64) ∧ (req 0).edge = false ∧ 0x5000 % 8 = 0 := by
  unfold Serves Unserved Arrives; decide +kernel
theorem witness_HingeRequestIsServed_ordered :
    (∀ p ∈ [(1, ordered 1 1 4), (2, ordered 2 1 4), (0, ordered 0 1 4), (2, fullSlice)], Serves p.2 ⟨4, 1, redwMsg p.1⟩ 2 0x5000 ∧ p.2.plainLine 320) ∧
    (match (redoArrive (ordered 1 1 4) 0x5000 0x5008 1 default 0 0).2 with | .applied _ => true | _ => false) = true ∧
    (redoArrive (ordered 2 1 4) 0x5000 0x5008 2 default 0 0).2 = .held ∧ (redoArrive (ordered 0 1 4) 0x5000 0x5008 0 default 0 0).2 = .order ∧
    (redoArrive fullSlice 0x5000 0x5008 2 default 0 0).2 = .nack ∧
    (∀ busy ∈ [0, 16], Serves (orderedTile busy) ⟨4, 2, req 5⟩ 5 0x5000 ∧ ((orderedTile busy).dirLine 320).acc = some tileSidecar) ∧
    partResult 0 0 = some .applied ∧ partResult 1 16 = some .nack := by
  unfold Serves Unserved Arrives; decide +kernel

/-- A request of the lane's that waits for its answer. -/
def pendingReq : Pending := { th := base.cur, pa := 0x5000, since := 0, packet := ⟨0, 1, { dst := 1, src := 0, txn := 1, payload := 0x5000 }⟩, site := 0 }
def requesting : State := { base with pending := [(1, pendingReq)] }
def answerOf (f : Nat) : Msg := { msgOf (List.replicate f 0) with dst := 0, src := 1 }
/-- A stash line of die 0 owns the first word of the line, or of a scratch of nothing; a thread watches a word there; a grid has cohorts to give. -/
def ownedLine : State := { base with dir := [(320, { owners := [⟨1, 0, 0, 0⟩] })] }
def watched (txn : Nat) : State := base.modDie 1 fun x => { x with watches := [{ pa := 0x5000, th := base.cur, cond := 0, txn := txn }] }
def stealMsg (lo hi : Nat) : Msg := { answerOf 1 with payload := 2, slots := [BitVec.ofNat 128 (lo + hi * 2 ^ 64)] }
theorem witness_HingeAnswerEffect :
    AMap.get? requesting.pending 1 = some pendingReq ∧ pendingReq.reply = none ∧ (answerOf 0).dst = pendingReq.packet.msg.src ∧
    (requesting.th? pendingReq.th).isSome = true ∧
    (∀ p ∈ [((⟨2, 0, answerOf 1⟩ : Packet), 1), (⟨2, 1, answerOf 0⟩, 0), (⟨2, 2, answerOf 0⟩, 0), (⟨2, 3, answerOf 0⟩, 0), (⟨2, 4, answerOf 0⟩, 0), (⟨3, 0, answerOf 4⟩, 4),
        (⟨3, 1, answerOf 4⟩, 4), (⟨1, 0, answerOf 1⟩, 1), (⟨1, 1, answerOf 1⟩, 1), (⟨5, 4, answerOf 0⟩, 0), (⟨5, 5, answerOf 0⟩, 0), (⟨5, 6, stealMsg 0 0⟩, 1)],
      Arrives requesting p.1 p.2 ∧ Arrives ownedLine p.1 p.2 ∧ Arrives (watched 1) p.1 p.2) ∧
    ownedWords base 0 320 0xFFFF = [] ∧ ownedWords ownedLine 0 320 1 = [0] ∧ (ownedLine.ownerOf 320 0).isSome = true ∧
    (base.die 1).watches = [] ∧ ((watched 1).die 1).watches.map (fun w => (w.remote, w.txn)) = [(false, 1)] ∧ lane.die = 0 ∧
    (match stealing.grid? 2 with | some g => g.started && !g.aborted && g.dmask.getLsbD 0 && decide ((splitTop (rangeCount (g.left 0) / 2) (g.left 0)).2 = []) | none => false) = true ∧
    (stealMsg 0 0).slots = [0] ∧ (stealMsg 0 4).slots ≠ [0] ∧ (splitTop (rangeCount [(0, 4)] / 2) [(0, 4)]).2 ≠ [] ∧
    (⟨5, 6, stealMsg 0 4⟩ : Packet) ∈ ({ stealing with wire := [⟨5, 6, stealMsg 0 4⟩] } : State).wire ∧
    Arrives { stealing with wire := [⟨5, 6, stealMsg 0 4⟩] } ⟨5, 6, stealMsg 0 4⟩ 1 := by
  unfold Arrives; decide +kernel

/-! Discovery -/

/-- Discovery under way on die 0, with an anchor or none. -/
def starting (anchor : Option Nat := none) : State := { State.reset with anchor := anchor, running := none }
/-- A message from a site that abuts die 0, or from die 1. -/
def fromSite (i : Nat) (payload : Word) (xs : List (BitVec 128)) : Msg :=
  { follow := BitVec.ofNat 3 xs.length, dst := BitVec.ofNat 6 (abutting i), src := BitVec.ofNat 6 (abutting i), site := BitVec.ofNat 6 (32 + i), payload := payload, slots := xs }
def discoveryArrivals (s : State) (m : Msg) : Prop :=
  ∀ p ∈ [((⟨5, 0, m⟩ : Packet), 2), (⟨5, 1, m⟩, 0), (⟨5, 2, m⟩, 0), (⟨5, 3, m⟩, 0), (⟨5, 7, m⟩, 4), (⟨5, 8, m⟩, 0), (⟨5, 9, m⟩, 0), (⟨5, 10, m⟩, 0)],
    m.slots.length = p.2 → Arrives s p.1 p.2
theorem witness_DiscoveryMessageEffect :
    (∀ xs ∈ [[], [0, 0], [0, 0, 0, 0]], discoveryArrivals (starting) (fromSite 1 0 xs) ∧ discoveryArrivals (starting) { fromSite 1 0 xs with site := 0, src := 1, dst := 0 }) ∧
    (fromSite 1 0 []).edge = true ∧ ({ fromSite 1 0 [] with site := 0 } : Msg).edge = false ∧ (State.dirTo 0 1).isSome = true ∧
    (starting.site 1).answered = false ∧ ((starting.setSite 1 { answered := true }).site 1).answered = true ∧ starting.anchor ≠ some 0 ∧ (starting (some 0)).anchor = some 0 ∧
    (starting.die 0).best = none ∧ ((starting.modDie 0 fun x => { x with best := some 3 }).die 0).best = some 3 ∧ (0x100 : Word).getLsbD 8 = true ∧
    (starting.die 0).assigned = none ∧ ((starting.modDie 0 fun x => { x with assigned := some 5 }).die 0).assigned = some 5 ∧
    (∃ i < 32, abutting i = 0) ∧ (starting.die 9).depth = 0 ∧ (∀ i < 32, abutting i ≠ 9) ∧ (starting.die 9).lcstate = (starting.die (starting.anchor.getD 0)).lcstate ∧
    starting.boot = .starting ∧ ({ starting with imgLen := some 64 } : State).imgLen = some (0 + 64) ∧ ({ starting with imgNext := 1024 } : State).imgNext = 1024 ∧
    (starting.modDie 1 fun x => { x with depth := 1 }).memoryInv = true ∧ ((starting.setSite 1 { type := 4 }).site 1).type = 4 := by
  unfold discoveryArrivals Arrives; decide +kernel
/-- Every condition of an event of discovery, once. -/
theorem witness_DiscoveryEventEffect :
    (let s := starting.modDie 0 fun x => { x with best := some 3 }
     s.liveDies.filterMap (fun d => (s.die d).best) = [3] ∧ s.boot = .starting ∧ s.anchor = none ∧
       ((∀ d ∈ ({ s with time := 20000 } : State).liveDies, (s.die d).best = none ∨ (s.die d).bestAt + 20000 ≤ ({ s with time := 20000 } : State).now d)) ∧
       ¬(∀ d ∈ s.liveDies, (s.die d).best = none ∨ (s.die d).bestAt + 20000 ≤ s.now d)) ∧
    starting.liveDies.filterMap (fun d => (starting.die d).best) = [] ∧
    ((List.range (({ starting (some 0) with imgNext := 1024 } : State).imgNext / 64)).map (64 * ·)).filter (fun o => (AMap.get? starting.image o).isNone) ≠ [] ∧
    base.boot = .running ∧
    (∃ d ∈ (starting.modDie 0 fun x => { x with imageCheck := some 1 }).liveDies, ((starting.modDie 0 fun x => { x with imageCheck := some 1 }).die d).imageCheck = some 1) ∧
    (∀ r ∈ [false, true], AMap.get? ([(1, { pendingReq with site := 1, resent := r })] : AMap Pending) 1 = some { pendingReq with site := 1, resent := r }) ∧
    pendingReq.since + 20000 ≤ ({ base with time := 20000 } : State).now 0 ∧ base.now 0 < pendingReq.since + 20000 ∧
    (base.site 1).type ≠ 1 ∧ ((base.setSite 1 { type := 1 }).site 1).type = 1 ∧
    (match regionOf (2 ^ 48 * 2) with | .system .. => true | _ => false) = true ∧ pendingReq.since + 1000000 ≤ ({ base with time := 1000000 } : State).now 0 ∧
    (base.link 0 1).retrained = [] ∧ ((((base.modDie 0 fun x => { x with links := [(1, { modules := 1, retrained := [2] })] }).link 0 1).retrained.filter (· = 2)).length = 1) ∧
    neighbour 0 1 = some 1 ∧ neighbour 0 0 = none ∧ ((base.modDie 0 fun x => { x with retiring := some (31, 33) }).die 0).retiring = some (31, 33) ∧
    (base.die 0).retiring = none ∧ (base.die 0).slices.getD 31 none = some 31 ∧ (base.die 0).loops.getD 15 none = some 15 ∧
    (31 ∉ (base.die 0).leaving) ∧ base.clusterOk 0 31 = true ∧ ({ base with cohorts := [] } : State).cohorts = [] := by decide +kernel

/-! Accesses, frames, steps -/

/-- The page of address 0 is buffered on the lane's core. -/
def mappedBase (vs : List Word) : State :=
  coreWith (fun c => { c with tlb := [{ asid := 1, page := 0, bits := 30, pte := 0x79 }] }) (data vs)
theorem witness_GlobalAccessAtHome :
    (∀ size ∈ [(0 : BitVec 3), 3, 7], Issues (.ld 63 32 0 size 0 0) (mappedBase [0x5000, 7]) (State.me (mappedBase [0x5000, 7])) ∧
      Issues (.ld 63 33 2 size 0 0) (mappedBase [0x5000, 8]) (State.me (mappedBase [0x5000, 8]))) ∧
    (∀ size ∈ [(0 : BitVec 3), 3], Issues (.st 33 32 0 size 0 0) (mappedBase [0x5000, 7]) (State.me (mappedBase [0x5000, 7]))) ∧
    (∀ p ∈ atomicForms 63 32 33 4 7, Issues p.1 (mappedBase [0x5000, 7]) (State.me (mappedBase [0x5000, 7]))) ∧
    (mappedBase [0x5000, 7]).reads (State.me (mappedBase [0x5000, 7])) 32 = true ∧ (mappedBase [0x5000, 7]).reads (State.me (mappedBase [0x5000, 7])) 33 = true ∧
    (mappedBase [0x5000, 7]).reaches (State.me (mappedBase [0x5000, 7])) 63 1 = true ∧
    ((mappedBase [0x5000, 7]).core 0).tlb = [{ asid := 1, page := 0, bits := 30, pte := 0x79 }] ∧
    ((mappedBase [0x5000, 7]).cur = (State.me (mappedBase [0x5000, 7])).key ∧ ((mappedBase [0x5000, 7]).core 0).ops = [] ∧ ((mappedBase [0x5000, 7]).core 0).l1 = [] ∧
      ((mappedBase [0x5000, 7]).cluster 0).buf = [] ∧ ((mappedBase [0x5000, 7]).die 0).watches = []) := by decide +kernel
theorem witness_GlobalAccessAtHome_mapped :
    (∀ p ∈ [Perm.r, .w, .rw], permits true 0x79 p = true) ∧
    (∀ va ∈ [0x5000, (privAddr Fetch.grid lane 8).toNat], canonical (w64 va) = true ∧ (mappedBase [0x5000, 7]).paFault va = none ∧
      regionOf va = .hbm 0 va ∧ leafPa 0x79 30 (va % 2 ^ 57) = va ∧ ({ asid := 1, page := 0, bits := 30, pte := 0x79 } : Tlb).serves 1 (va % 2 ^ 57) = true ∧
      homeDie va = 0 ∧ (mappedBase [0x5000, 7]).plainLine (va / 64)) := by decide +kernel
/-- A buffered line with its first and last byte written. -/
def dirty : DirtyLine := { bytes := [(0, 1), (63, 2)] }
theorem witness_GlobalAccessAtHome_buffer :
    AMap.get? ((base.modCluster 0 fun c => { c with buf := [(320, dirty)] }).cluster 0).buf 320 = some dirty ∧ base.plainLine 320 ∧
    risesFrom 0 dirty.bytes = true ∧ (∀ c ∈ dirty.bytes, c.1 < 64) := by decide +kernel
/-- A present line of a scratch window, at stash offset 0. -/
def stashBase (ro : Bool) : State :=
  coreWith (fun c => { c with windows := [{ scratchWindow with d2 := if ro then 0x0000000400000000 else 0 }], lines := [(0, { present := true })] }) (slots [24, 7])
theorem witness_StashAccess :
    (∀ size ∈ [(0 : BitVec 3), 3, 7], Issues (.ld 63 32 1 size 0 0) (stashBase false) (State.me (stashBase false))) ∧
    (∀ size ∈ [(0 : BitVec 3), 3], Issues (.st 33 32 1 size 0 0) (stashBase true) (State.me (stashBase true)) ∧ Issues (.st 33 32 1 size 0 0) (stashBase false) (State.me (stashBase false))) ∧
    (∀ ro ∈ [false, true], (stashBase ro).reads (State.me (stashBase ro)) 32 = true ∧ (stashBase ro).reads (State.me (stashBase ro)) 33 = true ∧
      ((stashBase ro).windowAt 0 1 24 8 false).map (·.ro) = some ro ∧ ((stashBase ro).core 0).soft = [] ∧ ((stashBase ro).core 0).bad = [] ∧ (∀ l ∈ touchedLines 24 8, (stashBase ro).linePresent 0 l = true) ∧
      (stashBase ro).cur = (State.me (stashBase ro)).key ∧ ((stashBase ro).core 0).ops = [] ∧ ((stashBase ro).core 0).l1 = [] ∧ ((stashBase ro).cluster 0).buf = []) := by
  decide +kernel
theorem witness_RegisterInstructionFrame :
    (∀ i ∈ [Instr.nop, .add 63 32 33 false, .sprSet 32 0x20, .gets 63 8, .ffma 63 32 33 32, .trap 5, .sin 63 32 0 0, .unpk6 63 16 0, .fdiv 63 32 33 0 0, .rft, .pool 3,
        .prefHome 63], isRegisterOnly i = true ∧
      (match exec i floats with | .next _ => true | _ => false) = true) := by decide +kernel
theorem witness_StepRunsDecodedInstruction :
    base.issuesAlone lane ∧
    answers (fetchPacket lane.pc (base.pickedAlone lane)) (fun packet s2 =>
      packet[wordIdx lane.pc]? == some 0 && decide (decodeWord 0 = some ⟨false, false, .nop⟩) && decide (decodeCause (s2.gridOf lane) lane .nop = none) &&
        (match chainAt (Prc.wc lane.prc) (wordIdx lane.pc) packet with | .ok c => decide (lane.runCount = 0) && (chainCause (s2.gridOf lane) lane c.words).isNone | .error _ => false))
      = true ∧
    (match chainAt 0 0 [0x3A024000, 0, 0] with | .ok c => (chainCause Fetch.grid lane c.words).isSome | .error _ => false) = true := by unfold State.issuesAlone; decide +kernel
theorem witness_EncodingRoundTrip :
    (∀ p ∈ words1 ++ words9, p.2.instr.isEvent = false ∧ p.2.wf = true ∧ decodeWord p.1 = some p.2) ∧
    (∃ sw : SlotWord, decodeWord 0xBF123456 = some sw) := ⟨by decide +kernel, ⟨_, rfl⟩⟩
theorem witness_StepKeepsMemoryForm : State.reset.memoryInv = true ∧ base.memoryInv = true ∧ (match step base with | .next s => s.memoryInv | _ => false) = true := by
  decide +kernel

/-! Clauses under explicit conditions -/

/-- The page of an address is buffered with a right, and its address lies in populated HBM: what State.mapped says, to be evaluated. -/
def mappedHere (s : State) (t : Thread) (va : Word) (p : Perm) (pa : Nat) : Bool :=
  canonical va && decide (s.paFault pa = none) && (match regionOf pa with | .hbm _ _ => true | _ => false) &&
    match (s.core (coreKey t.die t.core)).tlb.find? fun e => e.serves (s.gridOf t).asid (va.toNat % 2 ^ 57) with
    | some e => decide (16 ≤ e.bits) && permits (s.gridOf t).super e.pte p && leafPa e.pte e.bits (va.toNat % 2 ^ 57) == pa
    | none => false
theorem mappedHere_mapped {s : State} {t : Thread} {va : Word} {p : Perm} {pa : Nat} (h : mappedHere s t va p pa = true) : s.mapped t va p pa := by
  unfold mappedHere at h
  simp only [Bool.and_eq_true, decide_eq_true_eq] at h
  obtain ⟨⟨⟨hc, hf⟩, hr⟩, ht⟩ := h
  refine ⟨hc, hf, ?_, ?_⟩
  · split at hr
    · exact ⟨_, _, ‹_›⟩
    · cases hr
  · split at ht
    · simp only [Bool.and_eq_true, decide_eq_true_eq, beq_iff_eq] at ht
      exact ⟨_, ‹_›, ht.1.1, ht.1.2, ht.2⟩
    · cases ht
/-- The core's page with the right to execute, and code words in its fetch buffer from 0x3000 on. -/
def codeBase (ws : List Nat) (vs : List Word := []) : State :=
  coreWith (fun c => { c with tlb := [{ asid := 1, page := 0, bits := 30, pte := 0x7F }], code := (List.range ws.length).map fun i => (0x3000 + 4 * i, w32 (ws.getD i 0)) })
    (data vs)
where w32 (n : Nat) : Code := BitVec.ofNat 32 n
theorem witness_coded : (codeBase [0x9D8218A3, 0x9E12384A, 0x1E000000]).codedPacket (State.me (codeBase [0x9D8218A3, 0x9E12384A, 0x1E000000])) 0x3000
    [0x9D8218A3, 0x9E12384A, 0x1E000000] := by
  refine ⟨rfl, fun k hk => ?_⟩
  obtain rfl | rfl | rfl : k = 0 ∨ k = 1 ∨ k = 2 := by omega
  · exact ⟨0x3000, mappedHere_mapped (by decide +kernel), by decide +kernel⟩
  · exact ⟨0x3004, mappedHere_mapped (by decide +kernel), by decide +kernel⟩
  · exact ⟨0x3008, mappedHere_mapped (by decide +kernel), by decide +kernel⟩

/-- The ordered element with its page buffered. -/
def mappedOrdered : State := coreWith (fun c => { c with tlb := [{ asid := 1, page := 0, bits := 30, pte := 0x7F }] }) (ordered 1 1 4)
theorem witness_releasesNow : (∀ n < 8, base.releasesNow lane n) ∧ (codeBase []).releasesNow (State.me (codeBase [])) 5 := by
  unfold State.releasesNow; decide +kernel
theorem witness_quiet : (∀ s ∈ [codeBase [], mappedBase [0x5000, 7], mappedOrdered], s.coreQuiet (State.me s)) ∧
    (∀ s ∈ [codeBase [], mappedBase [0x5000, 7], mappedOrdered], ∀ pa ∈ [0x5000, 0x5040, (privAddr Fetch.grid lane 4088).toNat], s.homeQuiet (State.me s) pa) := by
  unfold State.coreQuiet State.homeQuiet; decide +kernel
theorem witness_CallAndReturnEffect_mapped : ∀ p ∈ [Perm.w, .r],
    (codeBase []).stackReady (State.me (codeBase [])) 4088 p (privAddr Fetch.grid lane 4088).toNat := by
  have q := witness_quiet
  intro p hp
  refine ⟨by decide +kernel, by decide +kernel, mappedHere_mapped ?_, q.1 _ (by simp), q.2 _ (by simp) _ (by simp)⟩
  revert p; decide +kernel
theorem witness_QueueSaveAndRestore_mapped : ∀ p ∈ [Perm.w, .r], (codeBase []).spanReady (State.me (codeBase [])) 0x5000 p 0x5000 := by
  have q := witness_quiet
  intro p hp
  refine ⟨by decide +kernel, by decide +kernel, mappedHere_mapped ?_, by decide +kernel, q.1 _ (by simp), q.2 _ (by simp) _ (by simp), q.2 _ (by simp) _ (by simp)⟩
  revert p; decide +kernel
theorem witness_LiteralLoadOrder_mapped :
    (codeBase []).literalReady (State.me (codeBase [])) 0x3000 ((codeBase []).homeBytes 0x3000 8) ∧ ((codeBase []).homeBytes 0x3000 8).length = 8 :=
  ⟨⟨0x3000, mappedHere_mapped (by decide +kernel), by decide +kernel, by decide +kernel, by decide +kernel, by decide +kernel, rfl⟩, by decide +kernel⟩
/-- The lines of a part of 64 KiB at address 0, in pieces. -/
def linesFrom (n : Nat) : List Piece := (List.range n).map fun i => { off := 64 * i, pa := 64 * i, len := 64 }
theorem witness_MaintenanceEffect_mapped : ∀ p ∈ [Perm.r, .w], ∀ n ∈ [128, 65536],
    (codeBase []).linesMapped (State.me (codeBase [])) 0 0 n p (linesFrom (n / 64)) := by
  intro p hp n hn
  have h : ∀ p ∈ [Perm.r, .w], ∀ i < 1024, mappedHere (codeBase []) (State.me (codeBase [])) (0 + BitVec.ofNat 64 (0 + 64 * i)) p (64 * i) = true := by decide +kernel
  have hi : n / 64 ≤ 1024 := by simp at hn; omega
  refine ⟨by simp [linesFrom], fun i h' => ⟨64 * i, mappedHere_mapped (h p hp i (by omega)), by simp [linesFrom, h']⟩⟩
theorem witness_MaintenanceEffect_wipe : ((codeBase []).core 0).ops = [] ∧
    (∀ p ∈ linesFrom 1024, (codeBase []).dirLine (p.pa / 64) = {} ∧ AMap.get? ((codeBase []).cluster 0).buf (p.pa / 64) = none) := by decide +kernel

/-- A core with windows, and the thread's operand slots; one of its lanes may be parked on a fill of a line. -/
def windowsBase (ws : List Window) (f : Thread → Thread := id) (vs : List Word := goodWindow) : State :=
  coreWith (fun c => { c with windows := ws }) (with_ (fun t => f { t with n := named vs }))
/-- A second thread of the core, parked on a fill of the window's first line. -/
def filler : Thread := { lane with tid := 1, status := .parked (.stashLine 0), lineWait := [0] }
theorem witness_WindowInstructionEffect_clauses :
    (let s := windowsBase [{ theWindow with d2 := 0x0008000000000000 }]
     Issues (.wmap 63 32) s (State.me s) ∧ ((s.core 0).windows.any fun v => v.asid == 1 && v.id == 7) = false ∧
       (∀ v ∈ (s.core 0).windows, v.persist = false) ∧ (∃ v ∈ (s.core 0).windows, theWindow.clash v = true)) ∧
    (let s := windowsBase ((List.range 32).map fun i => { theWindow with d2 := BitVec.ofNat 64 ((100 + i) * 2 ^ 48 + 0x1000 * (i + 1)) })
     Issues (.wmap 63 32) s (State.me s) ∧ ((s.core 0).windows.any fun v => v.asid == 1 && v.id == 7) = false ∧
       (∀ v ∈ (s.core 0).windows, v.persist = false ∧ theWindow.clash v = false) ∧ 32 ≤ (s.core 0).windows.length) ∧
    (let s := windowsBase [theWindow]
     Issues (.wmap 63 32) s (State.me s) ∧ ((s.core 0).windows.any fun v => v.asid == 1 && v.id == 7) = true) ∧
    (let s := coreWith (fun c => { c with ops := [(laneOf copySlots).posts 9 1 [0x5000, 0, 8, 0x10, 0] (0b0001 <<< 8)] }) (windowed 7)
     Issues (.wunmap 63 32) s (State.me s) ∧ s.windowOp 0 theWindow = some 9) ∧
    (let s := { windowed 7 with threads := AMap.put (windowed 7).threads (thKey 1 0 1) filler }
     Issues (.wunmap 63 32) s (State.me s) ∧ s.windowOp 0 theWindow = none ∧ s.windowWaits 0 s.cur 1 7 = true) := by decide +kernel
/-- The thread and another with a mask written in their run. -/
def viewing (s : State := masked 3) : State := with_ (fun t => { t with views := [(1, 5)] }) s
theorem witness_MaskAndWaitmEffect_views : base.soleWriter lane ∧ (masked 0).soleWriter lane ∧ (masked 1).soleWriter lane ∧ (masked 3).soleWriter lane ∧
    (viewing).soleWriter (State.me (viewing)) ∧ LaneThread (viewing) (State.me (viewing)) ∧ Issues (.waitm 1 0) (viewing) (State.me (viewing)) ∧
    (State.me (viewing)).seesMask 1 (((viewing).group lane.groupKey).mask 1) = 5 ∧ lane.seesMask 1 3 = 3 := by
  unfold State.soleWriter; decide +kernel
theorem witness_CollectiveArrivalEffect_seen : lane.seesMask 1 (((masked 0).group lane.groupKey).mask 1) &&& 1 = 0 ∧
    lane.seesMask 1 (((masked 3).group lane.groupKey).mask 1) &&& ((masked 3).group lane.groupKey).mask 0 &&& ~~~1 ≠ 0 ∧
    lane.seesMask 1 (((masked 1).group lane.groupKey).mask 1) &&& ((masked 1).group lane.groupKey).mask 0 = 1 <<< (lane.tid % 64) := by decide +kernel

theorem witness_ReductionEffect_mapped :
    (∀ s ∈ [mappedBase [0x5000, 7]], ∀ i ∈ [Instr.red 33 32 4 1 false, .red 33 32 6 0 true, .red 33 32 4 7 false], Issues i s (State.me s)) ∧
    (State.me (mappedBase [0x5000, 7])).value 32 = 0x5000 ∧ (mappedBase [0x5000, 7]).readsVf (State.me (mappedBase [0x5000, 7])) 33 = true ∧
    2 * headerClass (ofBytes ((mappedBase [0x5000, 7]).homeBytes 0x5000 2)) + 4 = 4 ∧
    Issues (.redo 34 32 33 4) mappedOrdered (State.me mappedOrdered) ∧ (mappedOrdered.die 0).reorder = [] ∧
    mappedOrdered.readsVf (State.me mappedOrdered) 34 = true ∧
    (let word := BitVec.ofNat 64 (ofBytes (mappedOrdered.homeBytes 0x5008 8))
     (word.extractLsb' 0 16).toNat = ((State.me mappedOrdered).value 0).toNat % 2 ^ 16 ∧ ((State.me mappedOrdered).value 0).toNat % 2 ^ 16 < (word.extractLsb' 16 16).toNat) := by
  decide +kernel
theorem witness_ReductionEffect_pages : (mappedBase [0x5000, 7]).mapped (State.me (mappedBase [0x5000, 7])) 0x5000 .rw 0x5000 ∧
    mappedOrdered.mapped (State.me mappedOrdered) 0x5000 .rw 0x5000 := ⟨mappedHere_mapped (by decide +kernel), mappedHere_mapped (by decide +kernel)⟩
/-- A copy out of a window of the stash. -/
theorem witness_AsyncFormsPostOperation_stash :
    (let s := coreWith (fun c => { c with windows := [theWindow] }) (slots [0, 0x6000, 8, 0x10, 0])
     let o := (State.me s).posts s.fresh 1 ((State.me s).values 32 5) 0x400
     Issues (.cpya 32 63 1 0) s (State.me s) ∧ asyncBadFields o = false ∧ asyncBadRanges o.footprints = false ∧
       (∃ f ∈ o.footprints, f.stash = true) ∧ (∀ f ∈ o.footprints, f.stash = true → asyncWindow s 0 1 f = true)) := by decide +kernel
theorem witness_WaitcStartsConditions_plainly :
    (∀ k ∈ [3, 5], (base.startsPlainly lane { condOf 0xA0 11 0 with kind := k })) ∧
    ((windowed 7).startsPlainly (State.me (windowed 7)) { condOf 0x40 8 1 with kind := 2 }) ∧
    (base.startsPlainly lane { condOf 0x80 15 1 with kind := 4 }) ∧ (condOf 0x40 8 1).kind = 2 ∧ (condOf 0x60 0 1).kind = 3 ∧ (condOf 0x80 15 1).kind = 4 := by
  unfold State.startsPlainly; decide +kernel
theorem witness_MatrixFormsPostEntry_cancel :
    tileAt base lane 0x5000 = none ∧
    (let s := { matrixState [0x5000] with dir := [(0x5000 / 64, { acc := some sidecar })] }
     Issues (.mcancel 63 32 true) s (State.me s) ∧ tileAt s (State.me s) 0x5000 = some sidecar.tile ∧
       ((cancelTile s sidecar.tile).th? s.cur).isSome = true) ∧
    (0x2000000000000000 : Word).toNat / 2 ^ 16 ≠ 2 ^ 44 := by decide +kernel

/-! Events, clause by clause -/

/-- A WAITC of the lane, on a mask bit that holds or does not, at its boundary. -/
def waiting (conds : List Cond) (all trap : Bool) (deadline : Option Nat) (s : State := base) : State := with_ (fun t =>
  { t with status := .waitc,
           waitc := some { tgt := .named 47, slot := 0, conds := conds, all := all, trap := trap, deadline := deadline, pc := 0x3000, idx := 0, chain := 0x3000, head := 0,
                           loops := Vector.replicate 3 {} } }) s
theorem witness_ThreadEventEffect_waitc :
    (∀ s ∈ [waiting [condOf 0xA0 11 0, condOf 0xA0 11 1] false false none, waiting [condOf 0xA0 11 1] true false none, waiting [condOf 0xA0 11 1] true false (some 0),
        waiting [condOf 0xA0 11 1] true true (some 0), waiting [condOf 0xA0 11 0] true true (some 0)],
      (State.me s).status = .waitc ∧ ((State.me s).waitc.map fun w => decide (w.conds.length ≤ 4) && w.conds.all fun c => c.kind != 1 && c.news == []) = some true) ∧
    condHolds base lane (condOf 0xA0 11 0) = true ∧ condHolds base lane (condOf 0xA0 11 1) = false ∧
    (let s := waiting [condOf 0x20 0x5000 1] false false none (data)
     (State.me s).waitc.map (fun w => (w.conds.map fun c => (c.kind, c.watched))) = some [(1, false)] ∧
       answers (readCond (condOf 0x20 0x5000 1) (s.agentOf (State.me s)) s) (fun _ s1 => (s1.th? s.cur).isSome) = true) := by decide +kernel
theorem witness_ThreadEventEffect_rest :
    (∀ t ∈ [{ lane with status := .longs, waits := [.mask 1 0 0] }, { State.me (waiting [] true false none) with status := .longs }],
      ∀ w ∈ t.waits, w.isLong = false) ∧
    (∀ l, Park.until 5 ≠ .stashLine l) ∧ base.parkOver lane (.until 0) = true ∧ base.parkOver lane (.until 100) = false ∧
    (∀ j < 0, (AMap.get? (base.core 0).gangs j).isSome) ∧
    (let s := coreWith fun c => { c with gangs := [(0, { members := [base.cur] })] }
     (∀ j < 1, (AMap.get? (s.core 0).gangs j).isSome) ∧ AMap.get? (s.core 0).gangs 1 = none ∧ (s.gatherable 0 0 = [] ∨ s.gatherable 0 0 ≠ [])) := by
  refine ⟨by decide +kernel, (fun l => by simp), by decide +kernel, by decide +kernel, (fun j h => by omega), by decide +kernel⟩
theorem witness_CacheAndLatchEventEffect_fill :
    (let s := coreWith fun c => { c with windows := [scratchWindow], lines := [(0, { filling := some 0, pas := List.replicate 8 (some 0x5000) })] }
     (s.stashLine 0 0).filling.isSome = true ∧ (s.stashLine 0 0).pas ≠ [] ∧ s.lineWindow 0 0 = some scratchWindow ∧
       (∀ s' ∈ s.completeFill 0 0 0 false, ∀ p ∈ s'.threads, p.2.status ≠ .parked (.stashLine 0)) ∧ (s.completeFill 0 0 0 false).isSome = true) := by decide +kernel

/-- A running pass on a tile of one line, which is in the ACC state of its tile, of another, or of none. -/
def denseEntry (step : Nat) (stop : Bool := false) : Entry :=
  entryOf 0 passSlots fun e => { e with status := .run, step := step, stop := stop, lines := [(0x30000 / 64, 0x30000 / 64)], since := none }
def onTile (acc : Option TileId) (e : Entry) : State :=
  engine e { base with dir := (match acc with | some t => [(0x30000 / 64, { acc := some { sidecar with tile := t } })] | none => []) }
def itsTile (e : Entry) : TileId := Desc.tile e.desc 1 e.kind
theorem witness_EngineEventEffect_pass :
    (∀ s ∈ [onTile none (denseEntry 0), onTile (some (itsTile (denseEntry 0))) (denseEntry 0), onTile (some sidecar.tile) (denseEntry 0)],
      s.entry? 0 6 = some (denseEntry 0) ∧ releasedAt s 0 (denseEntry 0) = true ∧ (engineAgent s 0 0 (denseEntry 0)).asid = 1) ∧
    sidecar.tile ≠ itsTile (denseEntry 0) ∧ (denseEntry 0).sent = false ∧ (denseEntry 31).step % 32 ≠ 0 ∧ (denseEntry 32 true).step % 32 = 0 ∧
    (onTile (some (itsTile (denseEntry 0))) (denseEntry 0)).anyBad 0x30000 64 = false ∧
    badHeaders (onTile (some (itsTile (denseEntry 0))) (denseEntry 0)) (denseEntry 0) = false ∧
    answers (fetchBlock (denseEntry 0).desc 0 0 [] (engineAgent (onTile (some (itsTile (denseEntry 0))) (denseEntry 0)) 0 0 (denseEntry 0))
      (onTile (some (itsTile (denseEntry 0))) (denseEntry 0))) (fun _ _ => true) = true ∧
    stopsEntry (engine initEntry) initEntry = false ∧
    answers (mapTile initEntry.desc 0 (engineAgent (engine initEntry) 0 0 initEntry) { engine initEntry with bad := [0x30000 / 8] }) (fun m s =>
      (m.find? fun p => s.anyBad (64 * p.2) 64).isSome && m.all fun p => !s.isAcc p.2) = true ∧
    (∃ since, ((cohortAt (.stopping 0)).cohort? (cohortKey 1 0)).map (·.status) = some (.stopping since)) ∧
    ((List.replicate 4 (denseEntry 0)).filter fun e => e.status == .run && e.kind != 15).length = 4 := by
  and_intros
  on_goal 11 => exact ⟨0, by decide +kernel⟩
  all_goals decide +kernel
/-- A refused REDO and a refused request, since time 0, at a time. -/
def refused (time : Nat) (h : Held) (s : State := ordered 1 1 4) : State := { s with nacked := [(9, (0, h))], time := time }
theorem witness_EngineEventEffect_refused :
    (∀ time ∈ [0, 1000], let s := refused time (.redo 0x5000 0x5008 1 (vfOfSlots [0x07EE000000000000]) base.cur 0x5000)
      (AMap.get? s.nacked 9).isSome = true ∧ (s.th? base.cur).isSome = true ∧ (s.tenths 0 < 640 ↔ time = 0) ∧
        s.isAcc (0x5000 / 64) = false ∧ s.badGranule? 0x5008 8 = none ∧ s.badGranule? 0x5000 (elementLen s 0x5000) = none) ∧
    (∀ p ∈ [(ordered 1 1 4, 1), (ordered 2 1 4, 2), (ordered 0 1 4, 0), (fullSlice, 2)],
      (redoArrive { refused 1000 (.redo 0x5000 0x5008 p.2 default base.cur 0x5000) p.1 with nacked := [] } 0x5000 0x5008 p.2 default base.cur 0x5000).2 ∈
        (if p.2 = 1 then [.applied 1000] else [RedoEnd.held, .order, .nack])) ∧
    (refused 1000 (.redo 0x5000 0x5008 1 default base.cur 0x5000) accumulating).isAcc (0x5000 / 64) = true ∧
    (∀ time ∈ [0, 1000], (AMap.get? ({ requesting with nacked := [(9, (0, .request 1))], time := time } : State).pending 1) = some pendingReq ∧
      (({ requesting with time := time } : State).tenths 0 < 640 ↔ time = 0)) := by decide +kernel
theorem witness_EngineEventEffect_copy :
    (let o : AsyncOp := (laneOf copySlots).posts 5 1 copySlots 0
     let s := coreWith (fun c => { c with ops := [o] }) (data copySlots)
     (s.core 0).ops = [] ++ o :: [] ∧ o.tag = none ∧ o.done = none ∧ stopsOp s o = false ∧
       (match runAsync o (asyncAgent s 0 0 o) o.total s with | (_, x, none) => decide (o.total ≤ x.pos) | _ => false) = true) ∧
    (let o : AsyncOp := { (laneOf copySlots).posts 5 1 copySlots 0 with done := some (3, none) }
     o.tag = none ∧ o.done = some (3, none)) ∧
    ({ (laneOf copySlots).posts 5 1 copySlots 0 with tag := some 1 } : AsyncOp).tag.isSome = true := by decide +kernel

theorem witness_ReplayAndThreadCommandEffect_more :
    (∀ c ∈ replaying.cores, ∀ f ∈ c.2.faults, f.bad = false) ∧ (State.me replaying).skip = none ∧
    (∀ n ∈ [0, 100], let s := with_ (fun t => { t with obs := n }) (awaitingCommand 0x6000)
      AMap.get? (s.die 0).faults 1 = some s.cur ∧ ((s.closeFault 0 1).acquire s.cur 6 n).th? s.cur ≠ none ∧ (n ≤ s.now 0 ↔ n = 0)) ∧
    (let s := with_ (fun t => { t with skip := some ⟨0x3000, 0x20, 0, 0⟩ }) (awaitingCommand 0x6000)
     AMap.get? (s.die 0).faults 1 = some s.cur ∧ (((s.closeFault 0 1).acquire s.cur 6 0).th? s.cur).map (·.skip) = some (some ⟨0x3000, 0x20, 0, 0⟩)) := by
  decide +kernel
theorem witness_PreemptionEffect_more :
    (match (cohortAt (.stopping 0)).cohort? (cohortKey 1 0), (cohortAt (.stopping 0)).grid? 1 with
      | some x, some g =>
        let late := with_ (fun t => { t with obs := 100 }) (cohortAt (.stopping 0))
        let busy := with_ (fun t => { t with runCount := 1 }) (cohortAt (.stopping 0))
        let ts := late.liveTeams x
        !busy.readyToSave 1 g ts && late.readyToSave 1 g ts && ((late.cohortThreads 1 ts).any fun p => decide (late.now 0 < late.releaseTime p.1))
      | _, _ => false) = true ∧
    (∀ st ∈ [CohortStatus.resident, .waiting], ∀ since, st ≠ .stopping since) ∧
    (match savedCohort.chosen 0 with | some w => decide (w.grid ≠ 2 ∨ w.cohort ≠ 0) | none => false) = true := by
  refine ⟨by decide +kernel, ?_, by decide +kernel⟩
  intro st h since
  fin_cases h <;> simp

/-- The mailbox while it serves another block, or a command that its dies check. -/
theorem witness_MailboxRequestResult_busy :
    (∀ s ∈ [asked 1 0 64, asked 5 0 0], s.cmdRun = none ∧ (s.die 0).mgmtBusy = none) ∧
    (let s := (asked 1 0 64).modDie 0 fun x => { x with mgmtBusy := some 0x9040 }
     s.anchor = some 0 ∧ (s.die 0).mgmtBusy = some 0x9040 ∧ (0x9040 : Word) ≠ 0x9000) ∧
    (let s := (asked 1 0 64).modDie 0 fun x => { x with mgmtBusy := some 0x9000 }
     (∀ x, (s.die 0).mgmtBusy = some x → x = 0x9000) ∧ request s 1 = some (1, some ⟨0x9000, 0, 0xA000, 0xB000, 64⟩)) ∧
    (({ asked 1 0 64 with cmdRun := some ⟨(0, 0, 0, 0, 0), [], [1], true⟩ } : State).cmdRun.isSome = true) := by
  refine ⟨by decide +kernel, by decide +kernel, ⟨?_, by decide +kernel⟩, by decide +kernel⟩
  intro x hx
  have h : (((asked 1 0 64).modDie 0 fun x => { x with mgmtBusy := some 0x9000 }).die 0).mgmtBusy = some 0x9000 := by decide +kernel
  rw [h] at hx; cases hx; rfl
/-- The same command where die 1 is the anchor: it names another die. -/
def commandedAway : State := { commanded 1 1 2 with anchor := some 1 }
theorem witness_MailboxRequestResult_left :
    (commandedAway.requestAt 1 0x9000 (· == 4)).isSome = true ∧
    (match parseSigned (commandBytes 1 1 ++ signature) with
      | some c => commandedAway.challenge == some c.challenge &&
          c.named.all (fun e => commandedAway.alive e && (commandedAway.die e).serial.toNat == c.serials.getD e 0 && c.allowed commandedAway e) &&
          decide (c.named.filter (· ≠ 1) = [0])
      | none => false) = true := by decide +kernel

/-! Messages, clause by clause -/

/-- The home has moved to epoch 2 while a slice retires, and a request still names epoch 0. -/
def moved : State := base.modDie 0 fun x => { x with epoch := 2, retiring := some (3, 3) }
theorem witness_HingeRequestIsServed_remap :
    (∀ f ∈ [0, 1, 2, 4, 5], ∀ p ∈ requestForms (req f), p.2.2 = f → Arrives moved p.2.1 f ∧ Unserved moved (req f) ∧
      (match placeOf (moved.unsend p.2.1) (req f) p.2.1.cls.toNat p.2.1.op.toNat with | .mem pa => pa == 0x5000 | _ => false) = true ∧
      remapDue (moved.unsend p.2.1) (req f) 0x5000 = true) := by unfold Unserved Arrives; decide +kernel
/-- A host site of die 0 that asks. -/
def hosted : State := base.setSite 0 { type := 2, answered := true }
def hostMsg : Msg := { req 0 with site := 32, src := 0 }
theorem witness_HingeRequestIsServed_edge :
    hostMsg.edge = true ∧ Serves hosted ⟨0, 0, hostMsg⟩ 0 0x5000 ∧ hosted.plainLine (0x5000 / 64) ∧
    (∀ x ∈ [0, 3, 5], (BitVec.ofNat 128 (5 + x * 2 ^ 64)).extractLsb' 0 64 = 5#64) ∧
    (∀ op ∈ [0, 8], (((BitVec.ofNat 128 op).extractLsb' 0 4 : BitVec 4).toNat ≤ 8)) ∧ redIsVf ((BitVec.ofNat 128 7).extractLsb' 0 4 : BitVec 4).toNat = false ∧
    0x5000 % 4 = 0 ∧ (0x5000 : Nat) % 2 = 0 ∧ (base.dirLine (0x5000 / 64)).acc = none := by unfold Serves Unserved Arrives; decide +kernel
/-- Partials of an ordered tile: out of order, and beyond its expected count. -/
theorem witness_HingeRequestIsServed_part : partResult 1 0 = some .held ∧
    (match partResult 30 0 with | some (.fail _) => true | _ => false) = true := by decide +kernel

/-- Requests of the lane's beyond the module, and of an asynchronous operation's status word. -/
def pendingWith (f : Pending → Pending) : State := { base with pending := [(1, f pendingReq)] }
theorem witness_HingeAnswerEffect_more :
    pendingReq.packet.msg.dst = (answerOf 0).src ∧ pendingReq.op = none ∧
    (match regionOf (2 ^ 48 * 2) with | .system _ _ => true | _ => false) = true ∧
    (match regionOf pendingReq.pa with | .system _ _ => false | .siteReg _ _ => false | _ => true) = true ∧
    (∀ p ∈ [(⟨2, 3, answerOf 0⟩ : Packet), ⟨2, 4, answerOf 0⟩], Arrives (pendingWith fun q => { q with op := some 0 }) p 0) ∧
    (AMap.get? (pendingWith fun q => { q with op := some 0 }).pending 1).map (·.op) = some (some 0) ∧
    (((answerOf 4).payload.extractLsb' 0 16).toNat ≠ 0 ∧ (({ answerOf 4 with payload := 0x10000 } : Msg).payload.extractLsb' 0 16).toNat = 0) ∧
    (((watched 1).th? lane.key).isSome = true ∧ ((watched 1).die 1).watches = [{ pa := 0x5000, th := base.cur, cond := 0, txn := 1 }]) := by
  unfold Arrives; decide +kernel
/-- A thief that has asked: two ranges are on their way to it, or one. -/
def asking (rs : List (Nat × Nat × Nat)) : State :=
  { stealing with grids := AMap.put stealing.grids 2 { waitingGrid [(1, [(0, 3)])] 3 with moving := rs } }
theorem witness_HingeAnswerEffect_steal :
    (∀ rs ∈ [[(0, 0, 4)], [(0, 0, 4), (0, 6, 7)], [(1, 0, 4)]], Arrives (asking rs) ⟨5, 6, stealMsg 0 4⟩ 1 ∧
      (((asking rs).grid? 2).map fun g => (g.moving, g.aborted)) = some (rs, false)) ∧
    (∀ x ∈ [(1, 0, 4)], (x : Nat × Nat × Nat).1 ≠ 0) ∧ stealing.alive 0 = true ∧
    (let s := { stealing with grids := AMap.put stealing.grids 2 (waitingGrid [(0, [(0, 4)])] 3) }
     Arrives s ⟨5, 6, stealMsg 0 0⟩ 1 ∧ ((s.grid? 2).map fun g => decide ((splitTop (rangeCount (g.left 0) / 2) (g.left 0)).2 ≠ [])) = some true) := by
  unfold Arrives; decide +kernel

theorem witness_DiscoveryMessageEffect_more :
    (starting.link 0 1).queued = [] ∧
    ((starting.modDie 0 fun x => { x with links := [(1, { queued := [⟨5, 8, req 0⟩] })] }).link 0 1).queued ≠ [] ∧
    (∀ i ∈ [0, 1, 31], abutting i = (fromSite i 0 []).dst.toNat ∧ (fromSite i 0 []).edge = true ∧ (fromSite i 0 []).site.toNat - 32 = i) ∧
    (let run : CmdRun := ⟨(0, 0, 0, 0, 0), List.replicate 1152 0, [0], true⟩
     let s := { base with anchor := some 1, cmdRun := some run }
     ∀ off ∈ [0, 1088], let m : Msg := { msgOf (List.replicate 4 0) with payload := BitVec.ofNat 64 (2 ^ 63 + off) }
       m.payload.getLsbD 63 = true ∧ m.edge = false ∧ s.anchor = some 1 ∧ Arrives s ⟨5, 7, m⟩ 4 ∧ m.bytesFrom 1 = (run.bytes.drop off).take 64 ∧ 0 ∈ run.left ∧
         ({ m with slots := List.replicate 4 1 } : Msg).bytesFrom 1 ≠ (run.bytes.drop off).take 64) ∧
    (let m : Msg := { fromSite 0 0 (List.replicate 4 0) with follow := 4 }
     m.edge = true ∧ m.payload.getLsbD 63 = false ∧ m.payload.toNat % 64 = 0 ∧ ({ starting (some 0) with boot := .recovery } : State).boot = .recovery ∧
       AMap.get? (starting (some 0)).image 0 = none ∧ m.dst = 0) ∧
    (∀ n ∈ [1023, 1024], ((starting.modDie 0 fun x => { x with timex := [(1, List.replicate n 0)] }).die 0).timex = [(1, List.replicate n 0)]) ∧
    (starting.die 1).depth ≤ (starting.die 0).depth ∧ ((starting.modDie 0 fun x => { x with depth := 1 }).die 1).depth < 1 ∧
    (0 : BitVec 6).toNat = 0 ∧ (starting.die 0).lcstate = 2 ∧ (16 : Nat) < 16 + 1 := by
  unfold Arrives; decide +kernel
/-- Discovery is done on the anchor: every site has answered, every die is measured. -/
def allFound : State :=
  let s := (List.range 32).foldl (fun s i => s.setSite i { answered := true }) { State.reset with anchor := some 0, running := none, wire := [] }
  { s with dies := (List.range 64).map fun d =>
      (d, { s.die d with links := [], assigned := some (BitVec.ofNat 6 d),
                         timex := if d = 0 then (List.range 64).map fun e => (e, List.replicate 1024 0) else [] }) }
theorem witness_DiscoveryEventEffect_fetch :
    allFound.anchor = some 0 ∧ allFound.boot = .starting ∧
    (∀ d ∈ allFound.liveDies, (allFound.die d).imageCheck = none ∨ (allFound.die d).imageCheck = some 0) ∧
    (∀ d < 64, (allFound.die d).assigned ≠ none) ∧ allFound.imgNext = 0 ∧ AMap.get? allFound.routes 0 = none := by decide +kernel
theorem witness_DiscoveryEventEffect_discovered : allFound.assigning = false ∧ ((List.range 32).all fun i => (allFound.site i).answered) = true ∧
    (∀ d ∈ allFound.liveDies, ((List.range 64).any fun e => decide (1024 ≤ ((AMap.get? (allFound.die e).timex d).getD []).length)) = true) := by
  refine ⟨by decide +kernel, by decide +kernel, ?_⟩
  decide +kernel
theorem witness_DiscoveryEventEffect_more :
    (∀ n ∈ [0, 2, 3], let s := { starting (some 0) with imgTries := [(64, (n, 0))], time := 1000000 }
      s.boot = .starting ∧ (s.imgTries.filter fun r => decide (r.2.2 + 1000000 ≤ s.time)) ≠ []) ∧
    ((({ starting (some 0) with imgTries := [(64, (0, 1))], time := 1000000 } : State).imgTries.filter fun r => decide (r.2.2 + 1000000 ≤ 1000000)) = []) ∧
    ({ starting (some 0) with boot := .recovery } : State).boot ≠ .running ∧
    ((base.modDie 0 fun x => { x with links := [(1, { queued := [⟨0, 0, req 0⟩] })] }).link 0 1).credits.length = 6 ∧
    (∀ p ∈ ((base.modDie 0 fun x => { x with links := [(1, { queued := [⟨0, 0, req 0⟩] })] }).link 0 1).queued, p.cls.toNat ≠ 1) ∧
    spareOf 34 ((base.die 0).slices) ((base.die 0).deadSlices ++ (List.range 34)) 31 = none ∧ 31 ∈ ((base.modDie 0 fun x => { x with leaving := [31] }).die 0).leaving := by
  decide +kernel

/-! Clauses on several participants, errors found on the way, and edge dies -/

/-- Four lanes of the group, each with values of its own, that share masks. -/
def lanes (m : Nat) : State :=
  (List.range 4).foldl (fun s v => s.setTh (thKey lane.grid lane.team v)
    { lane with tid := v, slot := v, n := named [0x07FF000000000000, w64 (0x07EE000000000000 + v * 2 ^ 48), 0] }) (masked m)
/-- The state in which a lane is about to issue, after others have arrived. -/
def arrivedAt (i : Instr) (others : List Nat) (last : Nat) : State :=
  let s := others.foldl (fun s v => match exec i { s with cur := thKey lane.grid lane.team v } with | .next s' => s' | _ => s) (lanes 7)
  { s with cur := thKey lane.grid lane.team last }
/-- Every hypothesis of the last arrival, to be evaluated. -/
def completes (i : Instr) (s : State) : Bool :=
  let t := State.me s
  match arrivalOf t i, (s.group t.groupKey).opens with
  | some (k, x), [c] =>
    let g := s.group t.groupKey
    let d := (collDest i).toNat
    let low := ((List.range 64).find? fun v => (t.seesMask k (g.mask k) &&& g.mask 0).getLsbD v).getD (t.tid % 64)
    let n := if collectiveVf i then slotsOf (Prc.wc ((s.th? (thKey t.grid t.team (64 * t.grp + low))).getD t).prc) else 1
    let t1 : Thread := { (t.reserved (collDest i) n).produce none .place 0 with waits := t.waits ++ [.collective] }
    let y : Arrival := { x with lane := t.tid % 64, slot := t.slot, prc := t.prc, tgt := (if d < 16 then t.targets (collDest i) n else []) }
    let xs := insertArrival y c.arrived
    decide (Issues i s t) && collectiveReads s t i && decide (LaneThread s t) && t.collDone.isNone && decide (c.instr = i ∧ c.pc = t.pc ∧ c.idx = s.word ∧ c.k = k) &&
      g.held == [] && ((List.range 12).all fun n => s.maskWaiters t.groupKey n == []) && t.seesMask k (g.mask k) &&& (1 <<< (t.tid % 64)) != 0 &&
      (c.mask &&& g.mask 0).getLsbD (t.tid % 64) && decide ((c.arrived.map (·.lane)).Pairwise (· < ·)) &&
      (c.arrived.all fun z => decide (z.lane < 64 ∧ z.lane ≠ t.tid % 64)) &&
      ((List.range 64).all fun v => !(c.mask &&& g.mask 0).getLsbD v || v == t.tid % 64 || c.arrived.any fun z => z.lane == v) &&
      xs.length == 3 && xs.all fun z => (trapCause z.prc (collResult i xs z).flags).isNone &&
        match (s.setTh s.cur t1).th? (thKey t.grid t.team (64 * t.grp + z.lane)) with
        | some u => u.status != .parked .collective && (decide (d < 16) || decide (d - 16 + (collResult i xs z).vals.length ≤ (s.gridOf u).len u.tid))
        | none => false
  | _, _ => false
theorem witness_CollectiveArrivalEffect_last : ∀ i ∈ [Instr.xpull 63 32 33 1, .xmask 0 false 0 1, .gred 63 32 0 1, .gred 0 32 9 1, .gscan 36 32 8 false 1],
    completes i (arrivedAt i [0, 2] 1) = true := by decide +kernel
theorem witness_CollectiveArrivalEffect_open :
    (∀ i ∈ [Instr.gred 0 32 8 1, .gscan 36 32 10 true 1, .cmma 36 32 33 1], collectiveVf i = true ∧ Issues i (masked 3) lane ∧
      collectiveReads (masked 3) lane i = true ∧ (arrivalOf lane i).map (·.1) = some 1) ∧ lane.collDone = none ∧
    (let s := arrivedAt (.xpull 63 32 33 1) [1] 0
     Issues (.xrev 63 32 33 1) s (State.me s) ∧ ∃ c ∈ (s.group lane.groupKey).opens, c.mask &&& (s.group lane.groupKey).mask 0 &&& 1 ≠ 0 ∧
       (Instr.xrev 63 32 33 1).ctorIdx ≠ c.instr.ctorIdx) ∧
    (∀ r ∈ [(none : Option (Nat × Word)), some (0x21, 5)], ∀ b ∈ [false, true], let s := with_ (fun t => { t with collDone := some ⟨r, [7], if b then 1 else 0⟩ }) (masked 3)
      Issues (.gred 0 32 8 1) s (State.me s) ∧ collectiveReads s (State.me s) (.gred 0 32 8 1) = true ∧ s.reaches (State.me s) 0 1 = true) := by decide +kernel
/-- The nodes of the fixed tree over four lanes, level by level. -/
def nodeOf (prc : Word) (xs : List Arrival) : Nat → Nat → Option (Vf × Flags)
  | 0, v => (xs.find? fun y => y.lane == v).map fun y => (vfOfSlots y.a, {})
  | n + 1, v =>
    match nodeOf prc xs n (2 * v), nodeOf prc xs n (2 * v + 1) with
    | some l, some r => some (combineVf 8 prc l r)
    | some l, none => some l
    | none, r => r
theorem witness_CrossLaneResultByLane_floats :
    (four.map (·.lane)).Pairwise (· < ·) ∧ (∀ y ∈ four, y.lane < 64) ∧ (∃ low ∈ four, ∀ y ∈ four, low.lane ≤ y.lane) ∧ 8 ≤ (8 : BitVec 4).toNat ∧
    2 ≤ (four.filter fun y => decide (y.lane < 64)).length ∧ (four.filter fun y => decide (y.lane < 0)) = [] ∧
    (∀ y ∈ four, nodeOf 0 four 0 y.lane = some (vfOfSlots y.a, {})) ∧ (∀ v < 64, (∀ y ∈ four, y.lane ≠ v) → nodeOf 0 four 0 v = none) ∧
    (nodeOf 0 four 6 0).map (fun r => vfToSlots r.1) = some [0x07FF000100000000] := by decide +kernel
theorem witness_CrossLaneResultByLane_product (v : Nat) : (∀ y ∈ four, y.lane ≠ v) →
    ((atLane four v).map fun y => (vfOfSlots y.a).src false).getD (.zero false) = .zero false := by
  intro h
  have : atLane four v = none := List.find?_eq_none.mpr fun y hy => by simpa using h y hy
  rw [this]; rfl

/-- The lane in a gang whose two members disagree on their branch. -/
def voted : State := base.modCore 0 fun c => { c with gangs := [(0, { members := [base.cur, base.cur + 1], votes := [(base.cur, true), (base.cur + 1, false)] })] }
theorem witness_CallAndReturnEffect_traps :
    splitVote voted lane voted.cur = true ∧ (∀ i ∈ [Instr.call false 0 true 4, .callr false 0 true 63], Issues i voted lane) ∧
    (∀ n ∈ [0x3004, 2 ^ 60], Issues (.callr false 0 false 32) (slots [w64 n]) (State.me (slots [w64 n])) ∧
      (State.me (slots [w64 n])).value 32 = w64 n ∧ (targetTrap (w64 n)).isSome = true) := by decide +kernel

/-- The saved cohort without an area, and no pool to take one from. -/
def cornered : State := { savedCohort with dies := [], cohorts := savedCohort.cohorts.map fun p => (p.1, { p.2 with area := none }) }
theorem witness_PreemptionEffect_image :
    (match (cohortAt (.stopping 0)).cohort? (cohortKey 1 0), (cohortAt (.stopping 0)).grid? 1 with
      | some x, some g => let ts := (cohortAt (.stopping 0)).liveTeams x
                  let s1 := ((cohortAt (.stopping 0)).cohortThreads 1 ts).foldl (fun s p => checkWaits (checkLongs s p.1) p.1) (cohortAt (.stopping 0))
                  let s2 := (s1.cohortThreads 1 ts).foldl (fun s p => s.releaseWrites p.1) s1
                  s1.readyToSave 1 g ts && s2.dir == []
      | _, _ => false) = true := by decide +kernel
theorem witness_PreemptionEffect_placed :
    ((savedCohort.chosen 0).bind fun w => (savedCohort.cohort? (cohortKey 1 0)).map fun x => (savedCohort.planRestore x w).isSome && x.recs.isEmpty) = some true := by
  decide +kernel
theorem witness_PreemptionEffect_cornered :
    ((cornered.chosen 0).bind fun w => (cornered.cohort? (cohortKey 1 0)).map fun x => (cornered.planRestore x w).isNone && decide (w.grid = 1 ∧ w.cohort = 0)) = some true := by
  decide +kernel

/-- The lane with storage errors in every named slot: of one kind, and of the other. -/
def ailing (lost : Bool) : State := with_ (fun t => if lost then { t with badN := BitVec.allOnes 48 } else { t with softN := BitVec.allOnes 48 }) (slots [1, 2])
theorem witness_RegisterInstructionFrame_errors : ∀ b ∈ [false, true], (match exec (.add 63 32 33 false) (ailing b) with
    | .next s => decide (s.agenda = [] ↔ b = false) && ((s.die 0).log.length == if b then 0 else 2)
    | _ => false) = true := by decide +kernel
theorem witness_StepKeepsMemoryForm_stash : base.stashInv = true ∧ (match step base with | .next s => s.stashInv | _ => false) = true := by decide +kernel

/-- A granule of the element, or of its ordinal word, has bad check bits. -/
def sickElement (g : Nat) : State := { ordered 1 1 4 with bad := [g] }
theorem witness_ReductionEffect_lost : ∀ g ∈ [0x5000 / 8, 0x5008 / 8], let s := redoReady (sickElement g) 0x5000 0x5008
    Issues (.redo 34 32 33 4) (sickElement g) (State.me (sickElement g)) ∧ (sickElement g).isAcc (0x5000 / 64) = false ∧
    ((s.badGranule? 0x5008 8).or (s.badGranule? 0x5000 (elementLen s 0x5000))).isSome = true := by decide +kernel
theorem witness_EngineEventEffect_lost :
    (refused 1000 (.redo 0x5000 0x5008 1 default base.cur 0x5000) (sickElement 0xA00)).isAcc (0x5000 / 64) = false ∧
    (let s := redoReady (sickElement 0xA00) 0x5000 0x5008
     ((s.badGranule? 0x5008 8).or (s.badGranule? 0x5000 (elementLen s 0x5000))).isSome = true) ∧
    (let s : State := { onTile (some (itsTile (denseEntry 0))) (denseEntry 0) with bad := [0x30000 / 8] }
     ((denseEntry 0).lines.find? fun p => s.anyBad (64 * p.2) 64).isSome = true) := by decide +kernel
/-- An ACCINIT of a vector tile of one element, which covers half a granule. -/
def vecEntry : Entry := entryOf 15 [0x5000, 0, 0x30002, 0, 0x100, 0x0001000000000000] fun e => { e with tile := 3 }
theorem witness_EngineEventEffect_sick :
    (∀ j < 6, badSlot vecEntry.desc 3 true j = false) ∧ (engine vecEntry).entry? 0 6 = some vecEntry ∧
    answers (mapTile vecEntry.desc 3 (engineAgent (engine vecEntry) 0 0 vecEntry) (engine vecEntry)) (fun m s =>
      (tileSick s vecEntry m).isNone && (tileSick { s with bad := [0x30000 / 8] } vecEntry m).isSome) = true := by decide +kernel
theorem witness_EngineEventEffect_ahead :
    (let o : AsyncOp := (laneOf copySlots).posts 5 1 copySlots 0
     redoAhead base o = false ∧ redoAhead { base with nacked := [(1, (0, .redo 0x5000 0x5008 1 default base.cur 0x5000))] } o = true) := by decide +kernel

theorem witness_HingeAnswerEffect_atomic : (∀ pa ∈ [0x5000, 2 * 2 ^ 48],
    AMap.get? (pendingWith fun q => { q with pa := pa, packet := ⟨0, 5, q.packet.msg⟩ }).pending 1 = some { pendingReq with pa := pa, packet := ⟨0, 5, pendingReq.packet.msg⟩ } ∧
    Arrives (pendingWith fun q => { q with pa := pa, packet := ⟨0, 5, q.packet.msg⟩ }) ⟨3, 0, answerOf 4⟩ 4) ∧ (lane.key = base.cur) := by
  unfold Arrives; decide +kernel
/-- Discovery is done, and the anchor's odd site has credits. -/
def allCredited : State := allFound.setSite (State.oddSite 0) { allFound.site (State.oddSite 0) with credits := List.replicate 6 16 }
theorem witness_DiscoveryEventEffect_credits :
    (allCredited.site (State.oddSite 0)).queued = [] ∧ 16 ≤ (allCredited.site (State.oddSite 0)).credits.getD 5 0 ∧
    AMap.get? allCredited.routes 0 = none ∧ allCredited.imgNext = 0 ∧
    neighbour 0 0 = none ∧ abutting 1 = 1 ∧ 1 / 8 = 0 ∧ ((base.setSite 1 { credits := [1, 2, 3, 4, 5, 6] }).site 1).credits.length = 6 ∧
    (neighbour 0 1).isSome = true ∧ AMap.get? base.pending 7 = none ∧
    (∀ ty ∈ [1, 3], ((base.setSite 1 { type := ty }).site 1).type = ty) ∧
    (∀ op ∈ [(none : Option Nat), some 0], let p : Pending := { pendingReq with site := 1, resent := true, op := op }
      p.reply = none ∧ p.since + 20000 ≤ ({ base with time := 20000 } : State).now 0) := by decide +kernel
theorem witness_DiscoveryMessageEffect_wipe :
    (∀ ty ∈ [2, 4], let s := starting.setSite (State.oddSite 0) { type := ty }
      (s.site (State.oddSite 0)).type = ty ∧ s.memoryInv = true ∧ Arrives s ⟨5, 8, fromSite 0 0 []⟩ 0) ∧
    ((starting.site 1).queued = []) := by unfold Arrives; decide +kernel
/-- The lane waits on record 1 with a fault entry that captured d. -/
def replayingWith (d : List (BitVec 8)) : State :=
  let s := with_ fun t => { t with status := .parked (.replay 1) }
  (coreWith (fun c => { c with faults := [⟨s.cur, 0, 1, 0x5000, d, 1, false⟩] }) s).modDie 0 fun x => { x with records := [(1, ⟨1, 0, 0, 1, 0x5000, []⟩)] }
theorem witness_ReplayAndThreadCommandEffect_captured : ∀ d ∈ ([[], [1, 2]] : List (List (BitVec 8))),
    ((((replayingWith d).core 0).faults.find? fun f => f.th == (replayingWith d).cur).map (·.data)) = some d ∧
    (State.me (replayingWith d)).skip = none ∧ (State.me (replayingWith d)).status = .parked (.replay 1) := by decide +kernel
/-- The lane's store is performed from what its fault-buffer entry captured. -/
theorem witness_StepRunsDecodedInstruction_captured :
    let s := with_ (fun t => { t with captured := some (0, (List.range 64).map w64) })
    ((State.me (enterWord s 0)).value 0, (State.me (enterWord s 0)).value 32) = (0, 32) := by decide +kernel

end Sys2Proof.Tests
end

section
/-! Integer instructions with one result (R87 to R91): each operation of the meanings is the row of its table, and a word that issues records that row's result. -/
namespace Sys2Proof.Machine

/-! ### Arithmetic on machine words -/

theorem ofInt_sub {n : Nat} (i j : Int) : BitVec.ofInt n (i - j) = BitVec.ofInt n i - BitVec.ofInt n j := by
  rw [Int.sub_eq_add_neg, BitVec.ofInt_add, BitVec.ofInt_neg, BitVec.sub_eq_add_neg]

theorem emod_mul_self_ediv (z : Int) {a : Int} (ha : 0 < a) : z % (a * a) / a = z / a % a := by
  rw [Int.emod_def z, Int.mul_assoc, Int.sub_mul_ediv_left _ _ ha.ne', Int.emod_def, Int.ediv_ediv_of_nonneg ha.le]

/-- The high half of a double-width word is the quotient by the weight of its lowest bit. -/
theorem extractLsb'_ofInt_high {n : Nat} (z : Int) : (BitVec.ofInt (2 * n) z).extractLsb' n n = BitVec.ofInt n (z / 2 ^ n) := by
  have hr : 0 ≤ z % (2 ^ n * 2 ^ n) := Int.emod_nonneg _ (by positivity)
  have hb : Int.bmod (z / 2 ^ n % 2 ^ n) (2 ^ n) = Int.bmod (z / 2 ^ n) (2 ^ n) := by
    exact_mod_cast Int.emod_bmod (z / 2 ^ n) (2 ^ n)
  apply BitVec.eq_of_toInt_eq
  rw [BitVec.toInt_ofInt, BitVec.toInt_eq_toNat_bmod, BitVec.extractLsb'_toNat, BitVec.toNat_ofInt, Nat.shiftRight_eq_div_pow]
  push_cast
  rw [two_mul, pow_add, Int.toNat_of_nonneg hr, emod_mul_self_ediv z (by positivity), Int.emod_emod_of_dvd _ dvd_rfl, hb]

theorem ofInt_tdiv {n : Nat} (x y : BitVec n) : BitVec.ofInt n (x.toInt.tdiv y.toInt) = x.sdiv y :=
  BitVec.eq_of_toInt_eq (by rw [BitVec.toInt_ofInt, BitVec.toInt_sdiv])

theorem toNat_clz_lt {n : Nat} {x : BitVec n} (hx : x ≠ 0) : x.clz.toNat < n := by
  have h := BitVec.toNat_lt_two_pow_sub_clz (x := x)
  by_contra hge
  rw [Nat.sub_eq_zero_of_le (by omega), pow_zero, Nat.lt_one_iff] at h
  exact hx (BitVec.eq_of_toNat_eq h)

/-- The highest one of a word stands below its leading zeros. -/
theorem log2_toNat_eq {n : Nat} {x : BitVec n} (hx : x ≠ 0) : x.toNat.log2 = n - 1 - x.clz.toNat := by
  have hlt := toNat_clz_lt hx
  have h0 : x.toNat ≠ 0 := fun h => hx (BitVec.eq_of_toNat_eq h)
  rw [Nat.log2_eq_iff h0, show n - 1 - x.clz.toNat + 1 = n - x.clz.toNat by omega]
  exact ⟨BitVec.two_pow_sub_clz_le_toNat_of_ne_zero (by omega) hx, BitVec.toNat_lt_two_pow_sub_clz⟩

theorem cpopNatRec_eq_length_filter {n : Nat} (x : BitVec n) (k : Nat) :
    x.cpopNatRec k 0 = ((List.range k).filter x.getLsbD).length := by
  induction k with
  | zero => rfl
  | succ k ih =>
    rw [BitVec.cpopNatRec_succ, BitVec.cpopNatRec_eq, ih, List.range_succ, List.filter_append, List.length_append]
    cases h : x.getLsbD k <;> simp [h]

/-- Where a key tells values apart, a choice of the lesser one does not depend on how a tie is broken. -/
theorem ite_lt_eq_ite_le {α β : Type} [LinearOrder β] {key : α → β} (hk : Function.Injective key) (x y : α) :
    (if key x < key y then x else y) = if key x ≤ key y then x else y := by
  rcases lt_trichotomy (key x) (key y) with h | h | h
  · rw [if_pos h, if_pos h.le]
  · simp [hk h]
  · rw [if_neg h.not_gt, if_neg h.not_ge]

/-! ### The operations of IALU are the rows of its tables (R87, R88) -/

theorem mulHigh_eq (n : Nat) (x y : BitVec n) : mulHigh n x y = highHalf n (x.signExtend (2 * n)) (y.signExtend (2 * n)) := by
  have hp : x.signExtend (2 * n) * y.signExtend (2 * n) = BitVec.ofInt (2 * n) (x.toInt * y.toInt) := (BitVec.ofInt_mul ..).symm
  rw [mulHigh, highHalf, hp, extractLsb'_ofInt_high]

theorem mulHighN_eq (n : Nat) (x y : BitVec n) : mulHighN n x y = highHalf n (x.setWidth (2 * n)) (y.setWidth (2 * n)) := by
  have hlt := Nat.mul_lt_mul'' x.isLt y.isLt
  rw [← pow_add, ← two_mul] at hlt
  have hp : (x.setWidth (2 * n) * y.setWidth (2 * n)).toNat = x.toNat * y.toNat := by
    rw [BitVec.toNat_mul, BitVec.toNat_setWidth_of_le (by omega), BitVec.toNat_setWidth_of_le (by omega), Nat.mod_eq_of_lt hlt]
  rw [mulHighN, highHalf, BitVec.extractLsb', hp, Nat.shiftRight_eq_div_pow]

theorem quotS_eq (n : Nat) (x y : BitVec n) : quotS n x y = if y = 0 then BitVec.allOnes n else x.sdiv y := by
  rw [quotS, ofInt_tdiv]

theorem quotN_eq (n : Nat) (x y : BitVec n) : quotN n x y = if y = 0 then BitVec.allOnes n else x / y := by
  rw [quotN, BitVec.udiv_def]

theorem remS_eq (n : Nat) (x y : BitVec n) : remS n x y = x - y * x.sdiv y := by
  unfold remS
  split
  next hy => simp [hy]
  next => rw [Int.tmod_def, ofInt_sub, BitVec.ofInt_mul, ofInt_tdiv, BitVec.ofInt_toInt, BitVec.ofInt_toInt]

theorem remN_eq (n : Nat) (x y : BitVec n) : remN n x y = x - y * (x / y) := by
  unfold remN
  split
  next hy => simp [hy]
  next =>
    rw [eq_comm, BitVec.sub_eq_iff_eq_add, BitVec.udiv_def]
    calc x = BitVec.ofNat n (x.toNat % y.toNat + y.toNat * (x.toNat / y.toNat)) := by
          rw [Nat.mod_add_div, BitVec.ofNat_toNat, BitVec.setWidth_eq]
      _ = _ := by rw [BitVec.ofNat_add, BitVec.ofNat_mul, BitVec.ofNat_toNat, BitVec.setWidth_eq]

theorem minS_eq (n : Nat) (x y : BitVec n) : minS n x y = if x.toInt ≤ y.toInt then x else y := by
  simp only [minS, BitVec.slt_iff_toInt_lt, ite_lt_eq_ite_le fun _ _ => BitVec.eq_of_toInt_eq]

theorem maxS_eq (n : Nat) (x y : BitVec n) : maxS n x y = if x.toInt ≤ y.toInt then y else x := by
  simp only [maxS, BitVec.slt_iff_toInt_lt, ← not_le, ite_not]

theorem minN_eq (n : Nat) (x y : BitVec n) : minN n x y = if x.toNat ≤ y.toNat then x else y := by
  simp only [minN, BitVec.ult_iff_toNat_lt, ite_lt_eq_ite_le fun _ _ => BitVec.eq_of_toNat_eq]

theorem maxN_eq (n : Nat) (x y : BitVec n) : maxN n x y = if x.toNat ≤ y.toNat then y else x := by
  simp only [maxN, BitVec.ult_iff_toNat_lt, ← not_le, ite_not]

theorem leadingZeros_eq (n : Nat) (x : BitVec n) : leadingZeros n x = x.clz := by
  unfold leadingZeros
  split
  next hx => exact (BitVec.clz_eq_iff_eq_zero.mpr hx).symm
  next hx =>
    have hlt := toNat_clz_lt hx
    rw [log2_toNat_eq hx, show n - 1 - (n - 1 - x.clz.toNat) = x.clz.toNat by omega, BitVec.ofNat_toNat, BitVec.setWidth_eq]

theorem onesCount_eq (n : Nat) (x : BitVec n) : onesCount n x = x.cpop := by
  rw [onesCount, BitVec.cpop, cpopNatRec_eq_length_filter]

theorem absS_eq (n : Nat) (x : BitVec n) : absS n x = BitVec.ofInt n |x.toInt| := by
  unfold absS
  split
  next h => rw [abs_of_neg (BitVec.toInt_neg_of_msb_true h), BitVec.ofInt_neg, BitVec.ofInt_toInt]
  next h => rw [abs_of_nonneg (BitVec.toInt_nonneg_of_msb_false (Bool.eq_false_of_not_eq_true h)), BitVec.ofInt_toInt]

/-- Six bits of an amount are kept at every width that has as many. -/
theorem amount_ofNat {n : Nat} (hn : 6 ≤ n) (k : Spec) : amount n (BitVec.ofNat n k.toNat) = k.toNat % n := by
  have hk : k.toNat < 2 ^ n := k.isLt.trans_le (Nat.pow_le_pow_right (by decide) hn)
  rw [amount, BitVec.toNat_ofNat, Nat.mod_eq_of_lt hk]

/-! ### The bodies of integer words -/

theorem ite_width2_eq (w : Bool) (f : (n : Nat) → BitVec n → BitVec n → BitVec n) (x y : Word) :
    (if w then (f 32 (x.setWidth 32) (y.setWidth 32)).signExtend 64 else f 64 x y) = atWidth2 w f x y := by
  rw [atWidth2, BitVec.setWidth_eq_extractLsb' (by decide), BitVec.setWidth_eq_extractLsb' (by decide)]

theorem ite_width1_eq (w : Bool) (f : (n : Nat) → BitVec n → BitVec n) (x : Word) :
    (if w then (f 32 (x.setWidth 32)).signExtend 64 else f 64 x) = atWidth1 w f x := by
  rw [atWidth1, BitVec.setWidth_eq_extractLsb' (by decide)]

/-- A one-operand word sees its operation at the two widths only. -/
theorem ialu1_congr {f g : (n : Nat) → BitVec n → BitVec n} (h : ∀ n, 6 ≤ n → ∀ x, f n x = g n x) (d a : Spec) (w : Bool) :
    ialu1 f d a w = ialu1 g d a w := by
  simp only [ialu1, h 32 (by decide), h 64 (by decide)]

section
variable {i : Instr} {s : State} {t : Thread} {d a b : Spec} {w : Bool}

/-- A word that records a function of one source. -/
theorem exec_of_readOp (g : Word → Word) (he : exec i s = runWord i (readOp a >>= fun x => writeOp (some 3) d (g x)) s)
    (hi : Issues i s t) (ha : s.reads t a = true) (hd : s.reaches t d 1 = true) :
    exec i s = .next (s.setTh s.cur (t.wrote (some 3) d [g (t.value a)])) := by
  rw [he]
  exact runWord_ok hi (by rw [M.bind_ok (readOp_eq hi.1 ha), writeOp_eq hi.1 hd])

theorem exec_of_ialu1 {f : (n : Nat) → BitVec n → BitVec n} (he : exec i s = runWord i (ialu1 f d a w) s)
    (hi : Issues i s t) (ha : s.reads t a = true) (hd : s.reaches t d 1 = true) :
    exec i s = .next (s.setTh s.cur (t.wrote (some 3) d [atWidth1 w f (t.value a)])) := by
  rw [exec_of_readOp _ he hi ha hd, ite_width1_eq]

theorem exec_of_ialu2 {f : (n : Nat) → BitVec n → BitVec n → BitVec n} (he : exec i s = runWord i (ialu2 f d a b w) s)
    (hi : Issues i s t) (ha : s.reads t a = true) (hb : s.reads t b = true) (hd : s.reaches t d 1 = true) :
    exec i s = .next (s.setTh s.cur (t.wrote (some 3) d [atWidth2 w f (t.value a) (t.value b)])) := by
  rw [he]
  refine runWord_ok hi ?_
  rw [ialu2, M.bind_ok (readOp_eq hi.1 ha), M.bind_ok (readOp_eq hi.1 hb), writeOp_eq hi.1 hd, ite_width2_eq]

end

/-! ### The rows of the tables are what the words mean -/

/-- A row's word runs the row's operation on two operands. -/
def MeansIalu2 (p : (Spec → Spec → Spec → Bool → Instr) × ((n : Nat) → BitVec n → BitVec n → BitVec n)) : Prop :=
  ∀ d a b w s, exec (p.1 d a b w) s = runWord (p.1 d a b w) (ialu2 p.2 d a b w) s

/-- A row's word runs the row's operation on one operand. -/
def MeansIalu1 (p : (Spec → Spec → Bool → Instr) × ((n : Nat) → BitVec n → BitVec n)) : Prop :=
  ∀ d a w s, exec (p.1 d a w) s = runWord (p.1 d a w) (ialu1 p.2 d a w) s

/-- A row's word runs the row's operation on one operand and its immediate amount. -/
def MeansShift (p : (Spec → Spec → Bool → Spec → Instr) × ((n : Nat) → BitVec n → Nat → BitVec n)) : Prop :=
  ∀ d a w k s, exec (p.1 d a w k) s = runWord (p.1 d a w k) (ialu1 (fun n x => p.2 n x k.toNat) d a w) s

theorem MeansIalu2.of_eq {mk : Spec → Spec → Spec → Bool → Instr} {f g : (n : Nat) → BitVec n → BitVec n → BitVec n}
    (h : MeansIalu2 (mk, f)) (hfg : ∀ n x y, f n x y = g n x y) : MeansIalu2 (mk, g) := by
  obtain rfl : f = g := by funext n x y; exact hfg n x y
  exact h

theorem MeansIalu1.of_eq {mk : Spec → Spec → Bool → Instr} {f g : (n : Nat) → BitVec n → BitVec n}
    (h : MeansIalu1 (mk, f)) (hfg : ∀ n x, f n x = g n x) : MeansIalu1 (mk, g) := by
  obtain rfl : f = g := by funext n x; exact hfg n x
  exact h

/-- The immediate forms shift by the amount of the two-operand ones (R91). -/
theorem MeansShift.of_amount {mk : Spec → Spec → Bool → Spec → Instr} (g : (n : Nat) → BitVec n → Nat → BitVec n)
    (h : ∀ d a w k s, exec (mk d a w k) s = runWord (mk d a w k) (shiftImm (fun n x y => g n x (amount n y)) d a w k) s) :
    MeansShift (mk, fun n x k => g n x (k % n)) := by
  intro d a w k s
  rw [h, shiftImm, ialu1_congr fun n hn x => congrArg (g n x) (amount_ofNat hn k)]

theorem integerTwo_means : ∀ p ∈ integerTwo, MeansIalu2 p := by
  have add : MeansIalu2 (.add, fun _ x y => x + y) := fun _ _ _ _ _ => rfl
  have sub : MeansIalu2 (.sub, fun _ x y => x - y) := fun _ _ _ _ _ => rfl
  have mul : MeansIalu2 (.mul, fun _ x y => x * y) := fun _ _ _ _ _ => rfl
  have mulh : MeansIalu2 (.mulh, mulHigh) := fun _ _ _ _ _ => rfl
  have mulhn : MeansIalu2 (.mulhn, mulHighN) := fun _ _ _ _ _ => rfl
  have div : MeansIalu2 (.div, quotS) := fun _ _ _ _ _ => rfl
  have divn : MeansIalu2 (.divn, quotN) := fun _ _ _ _ _ => rfl
  have rem : MeansIalu2 (.rem, remS) := fun _ _ _ _ _ => rfl
  have remn : MeansIalu2 (.remn, remN) := fun _ _ _ _ _ => rfl
  have min : MeansIalu2 (.min, minS) := fun _ _ _ _ _ => rfl
  have max : MeansIalu2 (.max, maxS) := fun _ _ _ _ _ => rfl
  have minn : MeansIalu2 (.minn, minN) := fun _ _ _ _ _ => rfl
  have maxn : MeansIalu2 (.maxn, maxN) := fun _ _ _ _ _ => rfl
  have and : MeansIalu2 (.and, fun _ x y => x &&& y) := fun _ _ _ _ _ => rfl
  have or : MeansIalu2 (.or, fun _ x y => x ||| y) := fun _ _ _ _ _ => rfl
  have xor : MeansIalu2 (.xor, fun _ x y => x ^^^ y) := fun _ _ _ _ _ => rfl
  have andn : MeansIalu2 (.andn, fun _ x y => x &&& ~~~y) := fun _ _ _ _ _ => rfl
  have shl : MeansIalu2 (.shl, shiftL) := fun _ _ _ _ _ => rfl
  have shr : MeansIalu2 (.shr, shiftR) := fun _ _ _ _ _ => rfl
  have sar : MeansIalu2 (.sar, shiftA) := fun _ _ _ _ _ => rfl
  have rot : MeansIalu2 (.rot, rotR) := fun _ _ _ _ _ => rfl
  simp only [integerTwo, List.cons_append, List.nil_append, List.forall_mem_cons]
  exact ⟨add, sub, mul, mulh.of_eq mulHigh_eq, mulhn.of_eq mulHighN_eq, div.of_eq quotS_eq, divn.of_eq quotN_eq, rem.of_eq remS_eq,
    remn.of_eq remN_eq, min.of_eq minS_eq, max.of_eq maxS_eq, minn.of_eq minN_eq, maxn.of_eq maxN_eq, and, or, xor, andn, shl, shr, sar,
    rot, List.forall_mem_nil _⟩

theorem integerOne_means : ∀ p ∈ integerOne, MeansIalu1 p := by
  have clz : MeansIalu1 (.clz, leadingZeros) := fun _ _ _ _ => rfl
  have popc : MeansIalu1 (.popc, onesCount) := fun _ _ _ _ => rfl
  have brev : MeansIalu1 (.brev, reverseBits) := fun _ _ _ _ => rfl
  have abs : MeansIalu1 (.abs, absS) := fun _ _ _ _ => rfl
  have neg : MeansIalu1 (.neg, fun _ x => -x) := fun _ _ _ _ => rfl
  have mov : MeansIalu1 (.mov, fun _ x => x) := fun _ _ _ _ => rfl
  simp only [integerOne, List.forall_mem_cons]
  exact ⟨clz.of_eq leadingZeros_eq, popc.of_eq onesCount_eq, brev, abs.of_eq absS_eq,
    neg.of_eq fun _ x => (zero_sub x).symm, mov, List.forall_mem_nil _⟩

theorem integerShift_means : ∀ p ∈ integerShift, MeansShift p := by
  simp only [integerShift, List.forall_mem_cons]
  exact ⟨.of_amount (fun _ x k => x <<< k) fun _ _ _ _ _ => rfl, .of_amount (fun _ x k => x >>> k) fun _ _ _ _ _ => rfl,
    .of_amount (fun _ x k => x.sshiftRight k) fun _ _ _ _ _ => rfl, .of_amount (fun _ x k => x.rotateRight k) fun _ _ _ _ _ => rfl,
    List.forall_mem_nil _⟩

theorem integerImmediate_means (s : State) (d a : Spec) (i12 : BitVec 12) (i10 : BitVec 10) :
    ∀ p ∈ integerImmediate d a i12 i10, exec p.1 s = runWord p.1 (readOp a >>= fun x => writeOp (some 3) d (p.2 x)) s := by
  have low : ∀ x : Word, x.extractLsb' 0 32 = x.setWidth 32 := fun x => (BitVec.setWidth_eq_extractLsb' (by decide)).symm
  simp only [integerImmediate, List.forall_mem_cons, low]
  exact ⟨rfl, rfl, rfl, rfl, rfl, rfl, rfl, List.forall_mem_nil _⟩

/-! ### Formats of ADDI and LOGI (R89, R90) -/

theorem encode_addi (c e : Bool) (d a : Spec) (i : BitVec 12) :
    encode ⟨c, e, .addi d a i⟩ = some (BitVec.ofBool c ++ BitVec.ofBool e ++ 2#6 ++ d ++ a ++ i) := by
  show some (BitVec.ofBool c ++ BitVec.ofBool e ++ 2#6 ++ (d ++ a ++ i)) = _
  simp only [BitVec.append_assoc', BitVec.cast_eq]

/-- The four forms of LOGI differ in their two bits of function. -/
theorem encode_logi {x : Instr} {d a : Spec} {fn : BitVec 2} {i : BitVec 10} (hx : encodeBody x = some (3#6, d ++ a ++ fn ++ i)) (c e : Bool) :
    encode ⟨c, e, x⟩ = some (BitVec.ofBool c ++ BitVec.ofBool e ++ 3#6 ++ d ++ a ++ fn ++ i) := by
  have hw : encode ⟨c, e, x⟩ = some (BitVec.ofBool c ++ BitVec.ofBool e ++ 3#6 ++ (d ++ a ++ fn ++ i)) := by
    simp only [encode, encodeWord, hx, Option.map_some]
  rw [hw]
  simp only [BitVec.append_assoc', BitVec.cast_eq]

/-! ### The statements -/

/-- Settles O1: every row of the table is what its word runs, and a word that issues with readable operands records its result. -/
theorem integerTwoOperandResult : Obligations.IntegerTwoOperandResult :=
  fun p hp s _ d a b w hi ha hb hd => exec_of_ialu2 (integerTwo_means p hp d a b w s) hi ha hb hd

/-- Settles O2: the tables of one operand, of immediate amounts and of immediates likewise, and the words of ADDI and LOGI field by field. -/
theorem integerOneOperandResult : Obligations.IntegerOneOperandResult := by
  refine ⟨?one, ?shift, ?immediate, ?format⟩
  case one => exact fun p hp s _ d a w hi ha hd => exec_of_ialu1 (integerOne_means p hp d a w s) hi ha hd
  case shift => exact fun p hp s _ d a k w hi ha hd => exec_of_ialu1 (integerShift_means p hp d a w k s) hi ha hd
  case immediate =>
    exact fun s _ d a i12 i10 p hp hi ha hd => exec_of_readOp p.2 (integerImmediate_means s d a i12 i10 p hp) hi ha hd
  case format =>
    intro c e d a i12 i10
    simp only [List.forall_mem_cons]
    exact ⟨encode_addi c e d a i12, encode_logi rfl c e, encode_logi rfl c e, encode_logi rfl c e, encode_logi rfl c e,
      List.forall_mem_nil _⟩

end Sys2Proof.Machine
end

section
/-! Software traps and the reserved opcodes (R52, R269, R299): the trap that each word takes once it issues. -/
namespace Sys2Proof.Machine

/-! ### Trap info -/

theorem w64_toNat {n : Nat} (x : BitVec n) : w64 x.toNat = x.setWidth 64 := BitVec.ofNat_toNat 64 x

/-- The code of a breakpoint with the mark in bit 20 (R269). -/
theorem w64_breakpointInfo (code : BitVec 20) : w64 (code.toNat + 2 ^ 20) = code.setWidth 64 + 2 ^ 20 := by
  have mark : w64 (2 ^ 20) = 2 ^ 20 := by decide
  calc w64 (code.toNat + 2 ^ 20) = w64 code.toNat + w64 (2 ^ 20) := BitVec.ofNat_add ..
    _ = _ := by rw [w64_toNat, mark]

/-! ### The words -/

section
variable {s : State} {t : Thread}

theorem exec_trap {x : BitVec 8} (hi : Issues (.trap x) s t) : exec (.trap x) s = .next (s.trapCur cTRAP 0 (x.setWidth 64)) := by
  have he : exec (.trap x) s = runWord (.trap x) (trap cTRAP 0 (w64 x.toNat)) s := rfl
  rw [he, runWord_trap hi (M.trap_eq ..), w64_toNat]

theorem exec_brkpt {code : BitVec 20} (hi : Issues (.brkpt code) s t) :
    exec (.brkpt code) s = .next (s.trapCur cTRAP 0 (code.setWidth 64 + 2 ^ 20)) := by
  have he : exec (.brkpt code) s = runWord (.brkpt code) (trap cTRAP 0 (w64 (code.toNat + 2 ^ 20))) s := rfl
  rw [he, runWord_trap hi (M.trap_eq ..), w64_breakpointInfo]

theorem exec_svc {a : Spec} {x : BitVec 8} (hi : Issues (.svc a x) s t) (ha : s.reads t a = true) :
    exec (.svc a x) s = .next (s.trapCur cSVC (t.value a) (x.setWidth 64)) := by
  have he : exec (.svc a x) s = runWord (.svc a x) (readOp a >>= fun v => trap cSVC v (w64 x.toNat)) s := rfl
  have hb : (readOp a >>= fun v => (trap cSVC v (w64 x.toNat) : M Unit)) s = .error (.trap cSVC (t.value a) (w64 x.toNat)) := by
    rw [M.bind_ok (readOp_eq hi.1 ha), M.trap_eq]
  rw [he, runWord_trap hi hb, w64_toNat]

theorem exec_reservedOpcode {w : Code} (hi : Issues (.reservedOpcode w) s t) :
    exec (.reservedOpcode w) s = .next (s.trapCur cILLEGAL 0 0) := by
  have he : exec (.reservedOpcode w) s = runWord (.reservedOpcode w) (trap cILLEGAL) s := rfl
  rw [he, runWord_trap hi (M.trap_eq ..)]

end

/-! ### The statement -/

/-- Settles O7: the bodies of these words are traps, and SVC first reads its operand. -/
theorem trapInstructionsRaise : Obligations.TrapInstructionsRaise :=
  ⟨by decide, by decide, fun _ _ _ _ _ _ => ⟨exec_trap, exec_brkpt, exec_svc, exec_reservedOpcode⟩⟩

end Sys2Proof.Machine
end
